-- ==== Sys2Proof/Word.lean ====
section
/-! DEFINITION. The word types of the 8086's pins (spec/10_state.md R24, R25, R51; spec/20_memory.md R70, R71, R73). -/

namespace Sys2Proof

/-- One byte lane of the data bus, and one byte of memory (20_memory.md R73). -/
abbrev Byte := BitVec 8

/-- The data bus AD15..AD0, a segment register, IP, FR (10_state.md R24, R50 to R52). -/
abbrev Word := BitVec 16

/-- A physical memory address, A19..A0 (20_memory.md R70). -/
abbrev Addr := BitVec 20

/-- An I/O port address, A15..A0 (20_memory.md R71). -/
abbrev Port := BitVec 16

/-- What a tri-state output drives in one T-state: `none` is `Z`, the 8086 does not drive it
(00_scope.md R8). -/
abbrev Tri (α : Type) := Option α

/-- The byte on the high lane AD15..AD8. -/
def Word.hi (v : Word) : Byte := v.extractLsb' 8 8

/-- The byte on the low lane AD7..AD0. -/
def Word.lo (v : Word) : Byte := v.extractLsb' 0 8

/-- `hi ++ lo` (00_scope.md R9). -/
def Word.ofBytes (hi lo : Byte) : Word := hi ++ lo

end Sys2Proof
end

