-- ==== Sys2Proof/Config.lean ====
section
/-! DEFINITION. What is fixed for the machine: the constants of spec/00_scope.md R6, the parameters of R7 with their
default values, and the free values of spec/93_implementation_defined.md. -/

namespace Sys2Proof

/-! ## Constants the source fixes (00_scope.md R6) -/

/-- Lines A19 to A0. -/
def Config.addrBits : Nat := 20
/-- Bytes of the memory space. -/
def Config.memBytes : Nat := 2 ^ 20
/-- Lines of an I/O address, A15 to A0. -/
def Config.ioAddrBits : Nat := 16
/-- Ports of the I/O space. -/
def Config.ioPorts : Nat := 2 ^ 16
/-- Lines AD15 to AD0. -/
def Config.dataBits : Nat := 16
/-- RESET must be high for at least this many clocks (70_reset_and_hazards.md R251). -/
def Config.resetMinClks : Nat := 4
/-- CS after RESET (10_state.md R60). -/
def Config.resetCs : Word := 0xFFFF#16
/-- Physical address of the first instruction after RESET (70_reset_and_hazards.md R252). -/
def Config.resetStart : Addr := 0xFFFF0#20
/-- Interrupt type of the non-maskable interrupt (60_exceptions.md R224). -/
def Config.nmiType : Byte := 2#8
/-- The supply VCC, in millivolts: nominal, and by how many of a hundred parts it may lie above or below (10_state.md R34). -/
def Config.vccMillivolts : Nat := 5000
def Config.vccTolerancePercent : Nat := 10
/-- Ground pins (10_state.md R34). -/
def Config.gndPins : Nat := 2
/-- T-states per CLK period, decided 1 (00_scope.md R7, R11). -/
def Config.tPerClk : Nat := 1

/-- SP after RESET: PRESUMED, log 12. -/
def Config.resetSp : Word := 0#16

/-- What a byte of memory that nothing has written reads as: DESIGN CHOICE, log 8. -/
def Config.unlistedByte : Byte := 0#8

/-! ## Parameters (00_scope.md R7) -/

/-- The wiring of MN/MX#: 1 is `min`, 0 is `max` (10_state.md R20, R21). -/
inductive Mode where
  | min | max
  deriving DecidableEq, Repr

/-- The level of MN/MX# that a mode stands for (10_state.md R21). -/
def Mode.strap : Mode → Bool
  | .min => true
  | .max => false

/-- `S_ENC`, the codes of S2#, S1#, S0# (42_max_mode_control.md R180). -/
structure SEnc where
  ack : BitVec 3
  ioRead : BitVec 3
  ioWrite : BitVec 3
  halt : BitVec 3
  fetch : BitVec 3
  memRead : BitVec 3
  memWrite : BitVec 3
  passive : BitVec 3
  deriving DecidableEq, Repr

/-- The default table of 42_max_mode_control.md R180. -/
def SEnc.default : SEnc :=
  { ack := 0, ioRead := 1, ioWrite := 2, halt := 3, fetch := 4, memRead := 5, memWrite := 6, passive := 7 }

/-- The eight codes of a table, in the order of R180. -/
def SEnc.codes (e : SEnc) : List (BitVec 3) :=
  [e.ack, e.ioRead, e.ioWrite, e.halt, e.fetch, e.memRead, e.memWrite, e.passive]

/-- `SEG_ENC`, the codes of S4, S3; `cs` also stands for "none", as in the default table (40_address_data_bus.md R128). That it does so
in every table is a DESIGN CHOICE: D15 of 92_eei_decisions.md leaves the table open, and a table might give "none", I/O and
acknowledge cycles, the code of another register (log 2). -/
structure SegEnc where
  es : BitVec 2
  ss : BitVec 2
  cs : BitVec 2
  ds : BitVec 2
  deriving DecidableEq, Repr

/-- The default table of 40_address_data_bus.md R128. -/
def SegEnc.default : SegEnc := { es := 0, ss := 1, cs := 2, ds := 3 }

/-- `QS_ENC`, the codes of QS1, QS0 (42_max_mode_control.md R191). -/
structure QsEnc where
  noop : BitVec 2
  first : BitVec 2
  emptied : BitVec 2
  next : BitVec 2
  deriving DecidableEq, Repr

/-- The default table of 42_max_mode_control.md R191. -/
def QsEnc.default : QsEnc := { noop := 0, first := 1, emptied := 2, next := 3 }

/-- How much a fetch at an address takes: a word if the address is even, or one byte. -/
inductive FetchWidth where
  | word | byte
  deriving DecidableEq, Repr

/-- The other width. -/
def FetchWidth.other : FetchWidth → FetchWidth
  | .word => .byte
  | .byte => .word

/-- `FETCH_LANES(addr)` as plain data: the width at all addresses but those of `except`, which have the other one
(70_reset_and_hazards.md R252, 92_eei_decisions.md D31; log 24). -/
structure FetchLanes where
  usual : FetchWidth
  except : List Addr
  deriving DecidableEq, Repr

/-- `RESET_VALS`: the reset values of IP, DS, SS, ES and FR (10_state.md R60). -/
structure ResetVals where
  ip : Word
  ds : Word
  ss : Word
  es : Word
  fr : Word
  deriving DecidableEq, Repr

/-- The values that the spec decides (92_eei_decisions.md D19; log 12); IF = 0. -/
def ResetVals.default : ResetVals := { ip := 0, ds := 0, ss := 0, es := 0, fr := 0 }

/-- `InterruptEntry`: left to the CPU core, or the default sequence of 60_exceptions.md R228 (log 14). -/
inductive EntryKind where
  | core | sequence
  deriving DecidableEq, Repr

/-- The parameters a model takes as arguments, as plain data (log 2). -/
structure Params where
  sEnc : SEnc
  segEnc : SegEnc
  qsEnc : QsEnc
  queueDepth : Nat
  waitInterruptible : Bool
  fetchLanes : FetchLanes
  resetVals : ResetVals
  entry : EntryKind
  ackGap : Nat
  deriving DecidableEq, Repr

/-- The defaults the spec offers for its open parameters, and no Idle state between the two
acknowledge cycles (log 2, 12, 14, 18, 24). -/
def Params.default : Params :=
  { sEnc := SEnc.default, segEnc := SegEnc.default, qsEnc := QsEnc.default, queueDepth := 6,
    waitInterruptible := true, fetchLanes := { usual := .word, except := [] },
    resetVals := ResetVals.default, entry := .sequence, ackGap := 0 }

/-! ## Free values (93_implementation_defined.md U1 to U6, U8, U9; log 11)

Both are constants with no body, applied to the counter `draws` of the state: one 64-bit value of each kind for
every T-state, of which the pins and the bus operations take disjoint slices. -/

/-- Levels of pins that the spec gives no value in a T-state. -/
opaque Config.freeWord : Nat → BitVec 64

/-- Bytes that the spec gives no value: unselected lanes, floating lanes, bytes of a write that RESET cuts. -/
opaque Config.freeData : Nat → BitVec 64

end Sys2Proof
end

