-- ==== Sys2Proof/Syntax.lean ====
section
/-! DEFINITION. The bus operations and patterns of spec/opcode_table.json, one constructor a row, with the operands
that spec/30_encoding.md R101 and R103 give them. -/

namespace Sys2Proof

/-- The formats of spec/30_encoding.md R104, R105, R107. -/
inductive Format where
  /-- M/IO#, DT/R#, RD#, WR#, INTA# (R105). -/
  | minctl
  /-- S2#, S1#, S0# (R107). -/
  | maxs
  /-- BHE#, AD0 (R104). -/
  | lane
  deriving DecidableEq, Repr

/-- The segment registers the source names (10_state.md R51). -/
inductive Seg where
  | es | ss | cs | ds
  deriving DecidableEq, Repr

/-- Whether a memory read is a data read (through which segment register) or an instruction fetch, which is a
read with seg = CS whose data goes to the instruction queue (41_min_mode_control.md R150, 42 R184). -/
inductive ReadUse where
  | data (seg : Seg)
  | fetch
  deriving DecidableEq, Repr

/-- The lanes of a transfer (20_memory.md R75). -/
inductive Lanes where
  | both | high | low | none
  deriving DecidableEq, Repr

/-- One constructor per row of spec/opcode_table.json. `bheN` is the level of BHE# in T1. -/
inductive Instr where
  /-- MEMR, memory read (41_min_mode_control.md R150). -/
  | memr (addr : Addr) (bheN : Bool) (use : ReadUse)
  /-- MEMW, memory write (R151). -/
  | memw (addr : Addr) (bheN : Bool) (seg : Seg) (wdata : Word)
  /-- IOR, I/O read (R152). -/
  | ior (port : Port) (bheN : Bool)
  /-- IOW, I/O write (R153). -/
  | iow (port : Port) (bheN : Bool) (wdata : Word)
  /-- INTA, the acknowledge sequence; `m`, `d` are the untested levels of M/IO#, DT/R#
  (60_exceptions.md R220, 30_encoding.md R105). -/
  | inta (m d : Bool)
  /-- IDLE, no strobe; `x` holds the untested levels of M/IO#, DT/R# (30_encoding.md R105). -/
  | idle (x : BitVec 2)
  /-- S.INTA (42_max_mode_control.md R194). -/
  | sInta
  /-- S.IOR (R181). -/
  | sIor (port : Port) (bheN : Bool)
  /-- S.IOW (R182). -/
  | sIow (port : Port) (bheN : Bool) (wdata : Word)
  /-- S.HALT (R183). -/
  | sHalt
  /-- S.FETCH (R184). -/
  | sFetch (addr : Addr) (bheN : Bool)
  /-- S.MEMR (R185). -/
  | sMemr (addr : Addr) (bheN : Bool) (seg : Seg)
  /-- S.MEMW (R186). -/
  | sMemw (addr : Addr) (bheN : Bool) (seg : Seg) (wdata : Word)
  /-- S.PASSIVE (R187). -/
  | sPassive
  /-- LANE.BOTH, `00` (20_memory.md R75). -/
  | laneBoth
  /-- LANE.HIGH, `01`. -/
  | laneHigh
  /-- LANE.LOW, `10`. -/
  | laneLow
  /-- LANE.NONE, `11`. -/
  | laneNone
  deriving DecidableEq, Repr

/-- The format a row of the table belongs to. -/
def Instr.format : Instr → Format
  | .memr _ _ _ => .minctl
  | .memw _ _ _ _ => .minctl
  | .ior _ _ => .minctl
  | .iow _ _ _ => .minctl
  | .inta _ _ => .minctl
  | .idle _ => .minctl
  | .sInta => .maxs
  | .sIor _ _ => .maxs
  | .sIow _ _ _ => .maxs
  | .sHalt => .maxs
  | .sFetch _ _ => .maxs
  | .sMemr _ _ _ => .maxs
  | .sMemw _ _ _ _ => .maxs
  | .sPassive => .maxs
  | .laneBoth => .lane
  | .laneHigh => .lane
  | .laneLow => .lane
  | .laneNone => .lane

end Sys2Proof
end

