-- ==== Sys2Proof/WellFormed.lean ====
section
/-! DEFINITION. Which operations are well formed: a transfer selects at least one lane (spec/30_encoding.md R109). -/

namespace Sys2Proof

/-- The lane pattern BHE# ++ AD0 of T1 selects a lane, that is, it is not `11`
(20_memory.md R75, 30_encoding.md R109). -/
def Instr.laneSelected (bheN ad0 : Bool) : Bool := !(bheN && ad0)

/-- Operations the 8086 can issue: no transfer has the lane pattern `11`. The other illegal patterns of R109
cannot be written as an `Instr`: a port has 16 bits, and each strobe belongs to its own constructor. -/
def Instr.wellFormed : Instr → Bool
  | .memr a b _ => Instr.laneSelected b (a.getLsbD 0)
  | .memw a b _ _ => Instr.laneSelected b (a.getLsbD 0)
  | .ior p b => Instr.laneSelected b (p.getLsbD 0)
  | .iow p b _ => Instr.laneSelected b (p.getLsbD 0)
  | .inta _ _ => true
  | .idle _ => true
  | .sInta => true
  | .sIor p b => Instr.laneSelected b (p.getLsbD 0)
  | .sIow p b _ => Instr.laneSelected b (p.getLsbD 0)
  | .sHalt => true
  | .sFetch a b => Instr.laneSelected b (a.getLsbD 0)
  | .sMemr a b _ => Instr.laneSelected b (a.getLsbD 0)
  | .sMemw a b _ _ => Instr.laneSelected b (a.getLsbD 0)
  | .sPassive => true
  | .laneBoth => true
  | .laneHigh => true
  | .laneLow => true
  | .laneNone => true

end Sys2Proof
end

