-- ==== Sys2Proof/Decode.lean ====
section
/-! DEFINITION. The operation word (log 3), its decoder, total on every word of every format and rejecting by name
(spec/30_encoding.md R103 to R109), and the encoder, written from the same tables.

An operation word holds the pattern of one format in its low byte, the pins in the order of R112 (the first pin of
the format is the most significant bit), and above it the operands of R101, R103: bits 27..8 the address, bit 28 the
level of BHE#, bits 31..29 the segment tag, bits 47..32 the write data; bits 63..48 are 0. -/

namespace Sys2Proof

/-- The fields of an operation word. -/
structure WordFields where
  pattern : Byte
  addr : Addr
  bheN : Bool
  use : BitVec 3
  wdata : Word
  rest : BitVec 16
  deriving DecidableEq, Repr

/-- The word that holds the fields. -/
def wordOf (f : WordFields) : BitVec 64 :=
  f.pattern.setWidth 64 ||| f.addr.setWidth 64 <<< 8 ||| (BitVec.ofBool f.bheN).setWidth 64 <<< 28 |||
    f.use.setWidth 64 <<< 29 ||| f.wdata.setWidth 64 <<< 32 ||| f.rest.setWidth 64 <<< 48

/-- The fields of a word. -/
def fieldsOf (w : BitVec 64) : WordFields :=
  { pattern := w.extractLsb' 0 8, addr := w.extractLsb' 8 20, bheN := w.getLsbD 28,
    use := w.extractLsb' 29 3, wdata := w.extractLsb' 32 16, rest := w.extractLsb' 48 16 }

/-- Why a word is no operation. -/
inductive DecodeError where
  /-- More than one of RD#, WR#, INTA# at 0 (30_encoding.md R109). -/
  | twoStrobes
  /-- RD# = 0 with DT/R# = 1, or WR# = 0 with DT/R# = 0 (R109). -/
  | strobeDirection
  /-- A19..A16 not 0 in an I/O operation (R109). -/
  | ioAddressHigh
  /-- A bit set where the operation has no field (log 3). -/
  | strayBits
  deriving DecidableEq, Repr

/-- The tag of a segment register, numbered as the default `SEG_ENC` (40_address_data_bus.md R128; log 3). -/
def segOfTag (s1 s0 : Bool) : Seg :=
  match s1, s0 with
  | false, false => .es
  | false, true => .ss
  | true, false => .cs
  | true, true => .ds

/-- The tag as bits. -/
def segTag : Seg → BitVec 2
  | .es => 0
  | .ss => 1
  | .cs => 2
  | .ds => 3

/-- The operation of a word with no operand. -/
def decodeBare (f : WordFields) (i : Instr) : Except DecodeError Instr :=
  if f.addr = 0 ∧ f.bheN = false ∧ f.use = 0 ∧ f.wdata = 0 ∧ f.rest = 0 then .ok i else .error .strayBits

/-- The operation of a word with an address and a segment tag, no data. -/
def decodeMemAddr (f : WordFields) (k : Addr → Bool → Seg → Instr) : Except DecodeError Instr :=
  if f.use.getLsbD 2 = false ∧ f.wdata = 0 ∧ f.rest = 0 then
    .ok (k f.addr f.bheN (segOfTag (f.use.getLsbD 1) (f.use.getLsbD 0)))
  else .error .strayBits

/-- The operation of a word with an address, a segment tag and write data. -/
def decodeMemData (f : WordFields) (k : Addr → Bool → Seg → Word → Instr) : Except DecodeError Instr :=
  if f.use.getLsbD 2 = false ∧ f.rest = 0 then
    .ok (k f.addr f.bheN (segOfTag (f.use.getLsbD 1) (f.use.getLsbD 0)) f.wdata)
  else .error .strayBits

/-- The operation of a word with a port; A19..A16 must be 0 (30_encoding.md R109). -/
def decodePort (f : WordFields) (k : Port → Bool → Instr) : Except DecodeError Instr :=
  if f.addr.extractLsb' 16 4 ≠ 0 then .error .ioAddressHigh
  else if f.use = 0 ∧ f.wdata = 0 ∧ f.rest = 0 then .ok (k (f.addr.extractLsb' 0 16) f.bheN)
  else .error .strayBits

/-- The operation of a word with a port and write data. -/
def decodePortData (f : WordFields) (k : Port → Bool → Word → Instr) : Except DecodeError Instr :=
  if f.addr.extractLsb' 16 4 ≠ 0 then .error .ioAddressHigh
  else if f.use = 0 ∧ f.rest = 0 then .ok (k (f.addr.extractLsb' 0 16) f.bheN f.wdata)
  else .error .strayBits

/-- MEMR: a data read with its segment tag, or, with bit 31 set, an instruction fetch. -/
def decodeMemr (f : WordFields) : Except DecodeError Instr :=
  if f.use.getLsbD 2 then
    if f.use = 4 ∧ f.wdata = 0 ∧ f.rest = 0 then .ok (.memr f.addr f.bheN .fetch) else .error .strayBits
  else decodeMemAddr f (fun a b s => .memr a b (.data s))

/-- Format MINCTL: M/IO#, DT/R#, RD#, WR#, INTA# from bit 4 to bit 0 (30_encoding.md R105, R109). -/
def decodeMinctl (f : WordFields) : Except DecodeError Instr :=
  let m := f.pattern.getLsbD 4
  let d := f.pattern.getLsbD 3
  if f.pattern.extractLsb' 5 3 ≠ 0 then .error .strayBits
  else
    match f.pattern.getLsbD 2, f.pattern.getLsbD 1, f.pattern.getLsbD 0 with
    | true, true, true => decodeBare f (.idle (f.pattern.extractLsb' 3 2))
    | true, true, false => decodeBare f (.inta m d)
    | false, true, true =>
      if d then .error .strobeDirection
      else if m then decodeMemr f else decodePort f .ior
    | true, false, true =>
      if !d then .error .strobeDirection
      else if m then decodeMemData f .memw else decodePortData f .iow
    | false, false, _ => .error .twoStrobes
    | false, true, false => .error .twoStrobes
    | true, false, false => .error .twoStrobes

/-- Format MAXS: S2#, S1#, S0# from bit 2 to bit 0, numbered by the default `S_ENC`, as the opcode table numbers
them (30_encoding.md R107, R112, 42_max_mode_control.md R180). -/
def decodeMaxs (f : WordFields) : Except DecodeError Instr :=
  if f.pattern.extractLsb' 3 5 ≠ 0 then .error .strayBits
  else
    match f.pattern.getLsbD 2, f.pattern.getLsbD 1, f.pattern.getLsbD 0 with
    | false, false, false => decodeBare f .sInta
    | false, false, true => decodePort f .sIor
    | false, true, false => decodePortData f .sIow
    | false, true, true => decodeBare f .sHalt
    | true, false, false =>
      if f.use = 0 ∧ f.wdata = 0 ∧ f.rest = 0 then .ok (.sFetch f.addr f.bheN) else .error .strayBits
    | true, false, true => decodeMemAddr f .sMemr
    | true, true, false => decodeMemData f .sMemw
    | true, true, true => decodeBare f .sPassive

/-- Format LANE: BHE#, AD0 (30_encoding.md R104). -/
def decodeLane (f : WordFields) : Except DecodeError Instr :=
  if f.pattern.extractLsb' 2 6 ≠ 0 then .error .strayBits
  else
    match f.pattern.getLsbD 1, f.pattern.getLsbD 0 with
    | false, false => decodeBare f .laneBoth
    | false, true => decodeBare f .laneHigh
    | true, false => decodeBare f .laneLow
    | true, true => decodeBare f .laneNone

/-- The operation that a word of a format stands for. -/
def decode (fmt : Format) (w : BitVec 64) : Except DecodeError Instr :=
  match fmt with
  | .minctl => decodeMinctl (fieldsOf w)
  | .maxs => decodeMaxs (fieldsOf w)
  | .lane => decodeLane (fieldsOf w)

/-! ## The encoder -/

/-- Fields of a word with no operand. -/
def bareFields (p : Byte) : WordFields :=
  { pattern := p, addr := 0, bheN := false, use := 0, wdata := 0, rest := 0 }

/-- Fields of a word with a port. -/
def portFields (p : Byte) (port : Port) (bheN : Bool) (wdata : Word) : WordFields :=
  { pattern := p, addr := 0#4 ++ port, bheN := bheN, use := 0, wdata := wdata, rest := 0 }

/-- Fields of a word with an address and a segment tag. -/
def memFields (p : Byte) (addr : Addr) (bheN : Bool) (seg : Seg) (wdata : Word) : WordFields :=
  { pattern := p, addr := addr, bheN := bheN, use := 0#1 ++ segTag seg, wdata := wdata, rest := 0 }

/-- Fields of the word of an instruction fetch: `use` is 4 in MEMR, 0 in S.FETCH. -/
def fetchFields (p : Byte) (addr : Addr) (bheN : Bool) (use : BitVec 3) : WordFields :=
  { pattern := p, addr := addr, bheN := bheN, use := use, wdata := 0, rest := 0 }

/-- The fields of an operation, the pattern as in spec/30_encoding.md R104, R105 and 42_max_mode_control.md R180. -/
def encodeFields : Instr → WordFields
  | .memr a b (.data s) => memFields 0b10011 a b s 0
  | .memr a b .fetch => fetchFields 0b10011 a b 4
  | .memw a b s v => memFields 0b11101 a b s v
  | .ior p b => portFields 0b00011 p b 0
  | .iow p b v => portFields 0b01101 p b v
  | .inta m d => bareFields (0#3 ++ BitVec.ofBool m ++ BitVec.ofBool d ++ 0b110#3)
  | .idle x => bareFields (0#3 ++ x ++ 0b111#3)
  | .sInta => bareFields 0b000
  | .sIor p b => portFields 0b001 p b 0
  | .sIow p b v => portFields 0b010 p b v
  | .sHalt => bareFields 0b011
  | .sFetch a b => fetchFields 0b100 a b 0
  | .sMemr a b s => memFields 0b101 a b s 0
  | .sMemw a b s v => memFields 0b110 a b s v
  | .sPassive => bareFields 0b111
  | .laneBoth => bareFields 0b00
  | .laneHigh => bareFields 0b01
  | .laneLow => bareFields 0b10
  | .laneNone => bareFields 0b11

/-- The word of an operation, in the format `i.format`. -/
def encode (i : Instr) : BitVec 64 := wordOf (encodeFields i)

/-! ## The opcode table's numbering -/

/-- The format in which a table word of `nbits` bits is read: the width of a row's pattern tells the format (5, 3, 2);
a width in whole bytes does not, and then it is the first format, in the table's order, whose decoder accepts the
word (log 4). -/
def tableFormat (nbits w : Nat) : Format :=
  if nbits = 5 then .minctl
  else if nbits = 3 then .maxs
  else if nbits = 2 then .lane
  else
    match decode .minctl (BitVec.ofNat 64 w) with
    | .ok _ => .minctl
    | .error _ =>
      match decode .maxs (BitVec.ofNat 64 w) with
      | .ok _ => .maxs
      | .error _ => .minctl

/-- What the decoder reads from an operation whose bits are `w`. -/
def decodeTableWord (nbits w : Nat) : Option Instr :=
  if w < 2 ^ 64 then (decode (tableFormat nbits w) (BitVec.ofNat 64 w)).toOption else none

end Sys2Proof
end

