-- ==== Sys2Proof/Machine/State.lean ====
section
/-! DEFINITION. The state of the 8086 at its pins (spec/10_state.md), what the outside gives it in each T-state, why a
step stops, and the state after RESET (10_state.md R60). -/

namespace Sys2Proof.Machine

/-- `bus_state` (10_state.md R55). -/
inductive BusState where
  | t1 | t2 | t3 | tw | t4 | idle | holdAck | inReset
  deriving DecidableEq, Repr

/-- A request/grant line: RQ#/GT0# or RQ#/GT1# (10_state.md R44). -/
inductive Line where
  | line0 | line1
  deriving DecidableEq, Repr

/-- Where the interrupt-acknowledge sequence stands (60_exceptions.md R220): not running, in its first cycle, in the
Idle states between the cycles (how many are still to come), in its second cycle. -/
inductive AckPhase where
  | none
  | first
  | gap (n : Nat)
  | second
  deriving DecidableEq, Repr

/-- What is shown on S4, S3 (40_address_data_bus.md R128): a segment register, or none (I/O and acknowledge cycles). -/
inductive SegUse where
  | reg (seg : Seg)
  | none
  deriving DecidableEq, Repr

/-- Which part of a MemRead or IoRead a read cycle supplies (20_memory.md R80): all of it, or the low or the high byte
of a split access. -/
inductive Part where
  | whole | lowByte | highByte
  deriving DecidableEq, Repr

/-- The value of a MemRead or IoRead, of the 8 or 16 bits that it moves (20_memory.md R80, 30_encoding.md R116). -/
inductive Value where
  | byte (v : Byte)
  | word (v : Word)
  deriving DecidableEq, Repr

/-- What was done to the instruction queue in one clock (42_max_mode_control.md R191). -/
inductive QAct where
  | noop | first | next | emptied
  deriving DecidableEq, Repr

/-- The registers the CPU core writes (10_state.md R50 to R52, 60_exceptions.md R228). -/
inductive Reg where
  | cs | ds | ss | es | ip | fr | sp
  deriving DecidableEq, Repr

/-- Width of an access primitive (20_memory.md R80). -/
inductive Width where
  | byte | word
  deriving DecidableEq, Repr

/-- A request of the CPU core (30_encoding.md R111): an operation word of a format, a primitive of 20_memory.md R80 to
R82, an instruction fetch with FETCH_LANES (70_reset_and_hazards.md R252), the wait that TEST# ends (43_common_control.md
R207), the return from an interrupt (60_exceptions.md R229), or the beginning and the end of a locked sequence
(20_memory.md R93). -/
inductive Req where
  | word (fmt : Format) (w : BitVec 64)
  | memRead (addr : Addr) (width : Width) (seg : Seg)
  | memWrite (addr : Addr) (width : Width) (seg : Seg) (v : Word)
  | ioRead (port : Port) (width : Width)
  | ioWrite (port : Port) (width : Width) (v : Word)
  | fetch (addr : Addr)
  | testWait
  | iret
  | lock
  | unlock
  deriving DecidableEq, Repr

/-- A bus operation still to run, and the part of a read it supplies. -/
structure Item where
  instr : Instr
  part : Part
  deriving DecidableEq, Repr

/-- A step of the default InterruptEntry (60_exceptions.md R228) or of the return (R229). -/
inductive EntryStep where
  | pushFr | pushCs | pushIp
  | readIp (type : Byte) | readCs (type : Byte) | entered
  | popIp | popCs | popFr | returned
  deriving DecidableEq, Repr

/-- Another bus master: the requester on HOLD, or the one on a request/grant line (41_min_mode_control.md R170,
42_max_mode_control.md R188). -/
inductive Master where
  | hold
  | line (l : Line)
  deriving DecidableEq, Repr

/-- What another master does on the bus: drive it without writing memory, or write a byte of memory
(20_memory.md R91 (b); log 35). -/
inductive Ext where
  | drives (m : Master)
  | writes (m : Master) (addr : Addr) (v : Byte)
  deriving DecidableEq, Repr

/-- The master that acts. -/
def Ext.master : Ext → Master
  | .drives m => m
  | .writes m _ _ => m

/-- What the outside gives in one T-state: the levels on the input pins (10_state.md R20, R28 to R32, R38), the bytes a
device drives on the two lanes, what other masters do and their events (42_max_mode_control.md R188), and the events of the CPU
core (log 6, 7). -/
structure Frame where
  /-- Level of MN/MX#. -/
  mnmx : Bool
  reset : Bool
  ready : Bool
  intr : Bool
  nmi : Bool
  testN : Bool
  hold : Bool
  devLo : Option Byte
  devHi : Option Byte
  ext : List Ext
  rq0 : Bool
  rq1 : Bool
  rel0 : Bool
  rel1 : Bool
  /-- INSTR_END (60_exceptions.md R218). -/
  instrEnd : Bool
  /-- The core wants LOCK# low (42_max_mode_control.md R193). -/
  lock : Bool
  regWrites : List (Reg × Word)
  qAct : QAct
  requests : List Req
  deriving DecidableEq, Repr

/-- Control outputs that exist in minimum mode (10_state.md R35 to R42). `ale` says that ALE pulses 0-1-0 in this
T-state; otherwise it stays 0. -/
structure MinPins where
  mio : Tri Bool
  dtr : Tri Bool
  denN : Tri Bool
  hlda : Bool
  ale : Bool
  intaN : Tri Bool
  wrN : Tri Bool
  deriving DecidableEq, Repr

/-- Outputs that exist in maximum mode (10_state.md R43 to R46). `gt0N`, `gt1N` are what the 8086 drives on
RQ#/GT0#, RQ#/GT1#. -/
structure MaxPins where
  s : Tri (BitVec 3)
  gt0N : Tri Bool
  gt1N : Tri Bool
  qs : BitVec 2
  lockN : Tri Bool
  deriving DecidableEq, Repr

/-- The eight pins whose function depends on the mode (10_state.md R22). -/
inductive ModePins where
  | min (p : MinPins)
  | max (p : MaxPins)
  deriving DecidableEq, Repr

/-- What the 8086 drives in one T-state (10_state.md R24 to R27, R35 to R46). -/
structure Pins where
  /-- AD15..AD0. -/
  ad : Tri Word
  /-- A19/S6, A18/S5, A17/S4, A16/S3. -/
  a : Tri (BitVec 4)
  /-- BHE#/S7. -/
  bheN : Tri Bool
  /-- RD#. -/
  rdN : Tri Bool
  ctl : ModePins
  deriving DecidableEq, Repr

/-- Memory as cells (address, byte), addresses strictly rising, no byte equal to `Config.unlistedByte` (log 8). -/
abbrev Memory := List Host.Cell

/-- The state during one T-state: `now` is what the outside gives in it, `pins` what the 8086 drives in it. -/
structure State where
  -- parameters, constant during a run (00_scope.md R7; log 2)
  mode : Mode
  params : Params
  -- internal registers (10_state.md R50 to R53)
  cs : Word
  ds : Word
  ss : Word
  es : Word
  ip : Word
  fr : Word
  sp : Word
  queue : List Byte
  -- bus interface (10_state.md R55; 30_encoding.md R101)
  busState : BusState
  curOp : Option Instr
  curAddr : Addr
  curLanes : Lanes
  curWdata : Word
  curSeg : Option SegUse
  curPart : Part
  rdata : Word
  result : Value
  pendingOps : List Item
  -- hidden bits (10_state.md R56 to R59)
  nmiPending : Bool
  holdGranted : Bool
  granted : Option Line
  rqPending0 : Bool
  rqPending1 : Bool
  testWait : Bool
  lockActive : Bool
  -- inside a locked sequence of the core (20_memory.md R93)
  lockHeld : Bool
  -- interrupts (60_exceptions.md R218 to R229)
  ackPhase : AckPhase
  ackPending : Bool
  -- an instruction ended while the bus was given away (41_min_mode_control.md R173; log 15)
  endPending : Bool
  ackType : Byte
  raised : List Byte
  entrySteps : List EntryStep
  waitStack : List Bool
  -- reset (70_reset_and_hazards.md R251, R252)
  resetClks : Nat
  restart : Bool
  -- queue status (42_max_mode_control.md R191)
  qAct : QAct
  qsShown : QAct
  qOut : Option Byte
  -- levels an IDLE pattern asks for (30_encoding.md R105)
  idleDrive : Option (BitVec 2)
  -- external address latch (41_min_mode_control.md R160)
  latchAddr : Addr
  latchBheN : Bool
  -- memory (20_memory.md R70)
  mem : Memory
  -- requests of the core, and the outside's frames: this T-state's and those to come
  program : List Req
  now : Frame
  inputs : List Frame
  -- pins (10_state.md section 2)
  pins : Pins
  -- free-value counter, and its value when AD15..AD0 were last drawn (log 11, 34)
  draws : Nat
  heldDraw : Nat
  deriving DecidableEq, Repr

/-- Why the machine stops with a fault. All are reports of patterns no rule of the spec produces or of broken
obligations of the hardware around the 8086; none is an architectural trap. -/
inductive Fault where
  /-- Raised by a step whose request is a MINCTL word with two strobes low, or whose pins show two (30_encoding.md R109).
  Safe. -/
  | twoStrobes
  /-- Raised by a step whose request is a MINCTL word with a strobe against DT/R#, or whose pins show it (R109). Safe. -/
  | strobeDirection
  /-- Raised by a step whose request is an I/O word with A19..A16 not 0, or whose pins show it in T1 (R109). Safe. -/
  | ioAddressHigh
  /-- Raised by a step whose request is a word with a bit set outside the operation's fields (log 3). Safe. -/
  | strayBits
  /-- Raised by LANE.NONE, by a transfer whose lane pattern is `11` where its T1 would begin and in T1, and by a step in whose
  T1 of a transfer the pins show it (20_memory.md R75, 30_encoding.md R109). Safe. -/
  | laneNone
  /-- Raised by a step in which a device drives a data lane it may not drive (70_reset_and_hazards.md R260 HZ3). Safe. -/
  | busContention
  /-- Raised by a step in which a master drives the bus that does not have it (HZ7, HZ8). Safe. -/
  | masterContention
  /-- Raised by a step in whose T-state S6 = 1 stands where A19 carries status (30_encoding.md R109 STATUS). Safe. -/
  | s6High
  /-- Raised by an operation that is run inside the bus cycle of another one (20_memory.md R90). Safe. -/
  | overlap
  /-- Raised by a step inside a bus cycle of no operation, which no run reaches (10_state.md R55). Safe. -/
  | noOperation
  /-- Raised by a LANE pattern where no ALE pulse samples it (30_encoding.md R103, 41_min_mode_control.md R160). Safe. -/
  | notSampled
  deriving DecidableEq, Repr

/-- Why the model refuses. -/
inductive Refusal where
  /-- An instruction with no meaning yet (none is left). Safe. -/
  | notModelled (mnemonic : String)
  /-- MN/MX# is not at its strapped level (10_state.md R21, 93_implementation_defined.md U10). Safe. -/
  | strapChanged
  /-- RESET was high for fewer than 4 clocks (70_reset_and_hazards.md R251, U7). Safe. -/
  | resetTooShort
  /-- A maximum-mode pattern in minimum mode, where its pins do not exist (10_state.md R22, 30_encoding.md R107). Safe. -/
  | maxModeOnly
  deriving DecidableEq, Repr

/-- Inputs at rest: MN/MX# as strapped, memory and devices ready, nothing requested (log 6). -/
def Frame.quiet (mode : Mode) : Frame :=
  { mnmx := mode.strap, reset := false, ready := true, intr := false, nmi := false, testN := true, hold := false,
    devLo := none, devHi := none, ext := [], rq0 := false, rq1 := false, rel0 := false, rel1 := false,
    instrEnd := false, lock := false, regWrites := [], qAct := .noop, requests := [] }

/-- The pins in the Idle state after RESET, in minimum mode (40_address_data_bus.md R133): no strobe; AD15..AD0 any
value or Z; S6 = 0, S5 = IF = 0, S4, S3 and S7, M/IO#, DT/R# any level (95_test_vectors.md P1, column t4). -/
def Pins.afterReset : Pins :=
  let w := Config.freeWord 0
  { ad := if w.getLsbD 10 then none else some (w.extractLsb' 16 16),
    a := some (0#1 ++ 0#1 ++ w.extractLsb' 36 2),
    bheN := some (w.getLsbD 0),
    rdN := some true,
    ctl := .min { mio := some (w.getLsbD 1), dtr := some (w.getLsbD 2), denN := some true, hlda := false, ale := false,
                  intaN := some true, wrN := some true } }

/-- The machine right after RESET has fallen (10_state.md R60; 70_reset_and_hazards.md R250, R252). Values the spec
does not state: log 2, 6, 8, 11, 12, 28, 35. -/
def State.reset : State :=
  { mode := .min
    params := Params.default
    cs := Config.resetCs
    ds := Params.default.resetVals.ds
    ss := Params.default.resetVals.ss
    es := Params.default.resetVals.es
    ip := Params.default.resetVals.ip
    fr := Params.default.resetVals.fr
    sp := Config.resetSp
    queue := []
    busState := .idle
    curOp := none
    curAddr := 0
    curLanes := .both
    curWdata := 0
    curSeg := none
    curPart := .whole
    rdata := 0
    result := .word 0
    pendingOps := []
    nmiPending := false
    holdGranted := false
    granted := none
    rqPending0 := false
    rqPending1 := false
    testWait := false
    lockActive := false
    lockHeld := false
    ackPhase := .none
    ackPending := false
    endPending := false
    ackType := 0
    raised := []
    entrySteps := []
    waitStack := []
    resetClks := 0
    restart := true
    qAct := .noop
    qsShown := .noop
    qOut := none
    idleDrive := none
    latchAddr := 0
    latchBheN := false
    mem := []
    program := []
    now := Frame.quiet .min
    inputs := []
    pins := Pins.afterReset
    draws := 0
    heldDraw := 0 }

end Sys2Proof.Machine
end

