-- ==== Sys2Proof/Machine/Operands.lean ====
section
/-! DEFINITION. The operands of a bus operation: its kind, address, lanes, data and segment register
(spec/30_encoding.md R101, R103, R104; spec/20_memory.md R73 to R83), and the bus operations that an access primitive
expands into (20_memory.md R80 to R82). -/

namespace Sys2Proof.Machine

/-- What a bus cycle does. -/
inductive Kind where
  | memRead | fetch | memWrite | ioRead | ioWrite | ack | halt
  deriving DecidableEq, Repr

/-- The kind of the bus cycle an operation runs; none for IDLE, S.PASSIVE and the LANE patterns. -/
def kindOf : Instr → Option Kind
  | .memr _ _ (.data _) => some .memRead
  | .memr _ _ .fetch => some .fetch
  | .memw _ _ _ _ => some .memWrite
  | .ior _ _ => some .ioRead
  | .iow _ _ _ => some .ioWrite
  | .inta _ _ => some .ack
  | .idle _ => none
  | .sInta => some .ack
  | .sIor _ _ => some .ioRead
  | .sIow _ _ _ => some .ioWrite
  | .sHalt => some .halt
  | .sFetch _ _ => some .fetch
  | .sMemr _ _ _ => some .memRead
  | .sMemw _ _ _ _ => some .memWrite
  | .sPassive => none
  | .laneBoth => none
  | .laneHigh => none
  | .laneLow => none
  | .laneNone => none

/-- The cycle reads: the addressed device drives the data lanes (40_address_data_bus.md R123). -/
def Kind.reads : Kind → Bool
  | .memRead => true
  | .fetch => true
  | .ioRead => true
  | .memWrite => false
  | .ioWrite => false
  | .ack => false
  | .halt => false

/-- The cycle writes: the 8086 drives the data lanes (40_address_data_bus.md R123). -/
def Kind.writes : Kind → Bool
  | .memWrite => true
  | .ioWrite => true
  | .memRead => false
  | .fetch => false
  | .ioRead => false
  | .ack => false
  | .halt => false

/-- A cycle that moves addressed data. -/
def Kind.transfers (k : Kind) : Bool := k.reads || k.writes

/-- The cycle reads the memory space (20_memory.md R70, R72). -/
def Kind.readsMemory : Kind → Bool
  | .memRead => true
  | .fetch => true
  | .ioRead => false
  | .memWrite => false
  | .ioWrite => false
  | .ack => false
  | .halt => false

/-- The kind of the current operation. -/
def curKind (s : State) : Option Kind := s.curOp.bind kindOf

/-- Pattern BHE# ++ AD0 to lanes (20_memory.md R75, 30_encoding.md R104). -/
def lanesOf (bheN ad0 : Bool) : Lanes :=
  match bheN, ad0 with
  | false, false => .both
  | false, true => .high
  | true, false => .low
  | true, true => .none

/-- The level of BHE# in T1: 0 when the high lane takes part (40_address_data_bus.md R130). -/
def bheLevel : Lanes → Bool
  | .both => false
  | .high => false
  | .low => true
  | .none => true

/-- The high lane AD15..AD8 takes part. -/
def hasHigh : Lanes → Bool
  | .both => true
  | .high => true
  | .low => false
  | .none => false

/-- The low lane AD7..AD0 takes part. -/
def hasLow : Lanes → Bool
  | .both => true
  | .low => true
  | .high => false
  | .none => false

/-- How many bytes a transfer moves (20_memory.md R84). -/
def laneCount : Lanes → Nat
  | .both => 2
  | .high => 1
  | .low => 1
  | .none => 0

/-- A port as an address: A19..A16 = 0 (40_address_data_bus.md R125). -/
def portAddr (p : Port) : Addr := 0#4 ++ p

/-- The address of an operation; 0 where it has none. -/
def addrOf : Instr → Addr
  | .memr a _ _ => a
  | .memw a _ _ _ => a
  | .ior p _ => portAddr p
  | .iow p _ _ => portAddr p
  | .inta _ _ => 0
  | .idle _ => 0
  | .sInta => 0
  | .sIor p _ => portAddr p
  | .sIow p _ _ => portAddr p
  | .sHalt => 0
  | .sFetch a _ => a
  | .sMemr a _ _ => a
  | .sMemw a _ _ _ => a
  | .sPassive => 0
  | .laneBoth => 0
  | .laneHigh => 0
  | .laneLow => 0
  | .laneNone => 0

/-- The lanes of an operation, from BHE# and AD0; none where it moves no addressed data. -/
def lanesOfInstr : Instr → Lanes
  | .memr a b _ => lanesOf b (a.getLsbD 0)
  | .memw a b _ _ => lanesOf b (a.getLsbD 0)
  | .ior p b => lanesOf b (p.getLsbD 0)
  | .iow p b _ => lanesOf b (p.getLsbD 0)
  | .inta _ _ => .none
  | .idle _ => .none
  | .sInta => .none
  | .sIor p b => lanesOf b (p.getLsbD 0)
  | .sIow p b _ => lanesOf b (p.getLsbD 0)
  | .sHalt => .none
  | .sFetch a b => lanesOf b (a.getLsbD 0)
  | .sMemr a b _ => lanesOf b (a.getLsbD 0)
  | .sMemw a b _ _ => lanesOf b (a.getLsbD 0)
  | .sPassive => .none
  | .laneBoth => .none
  | .laneHigh => .none
  | .laneLow => .none
  | .laneNone => .none

/-- A transfer whose BHE# and AD0 select no lane (20_memory.md R75, 30_encoding.md R109 LANE). -/
def selectsNoLane (i : Instr) : Bool := (kindOf i).any Kind.transfers && decide (lanesOfInstr i = .none)

/-- The data of a write; 0 otherwise. -/
def wdataOf : Instr → Word
  | .memw _ _ _ v => v
  | .iow _ _ v => v
  | .sIow _ _ v => v
  | .sMemw _ _ _ v => v
  | .memr _ _ _ => 0
  | .ior _ _ => 0
  | .inta _ _ => 0
  | .idle _ => 0
  | .sInta => 0
  | .sIor _ _ => 0
  | .sHalt => 0
  | .sFetch _ _ => 0
  | .sMemr _ _ _ => 0
  | .sPassive => 0
  | .laneBoth => 0
  | .laneHigh => 0
  | .laneLow => 0
  | .laneNone => 0

/-- The segment register in use, shown on S4, S3: a fetch uses CS; I/O and acknowledge cycles use none
(40_address_data_bus.md R128, 42_max_mode_control.md R184, 60_exceptions.md R220 (d)). That a halt cycle uses none is a
DESIGN CHOICE: the spec names no code for it (log 21). -/
def segOf : Instr → SegUse
  | .memr _ _ (.data g) => .reg g
  | .memr _ _ .fetch => .reg .cs
  | .memw _ _ g _ => .reg g
  | .sFetch _ _ => .reg .cs
  | .sMemr _ _ g => .reg g
  | .sMemw _ _ g _ => .reg g
  | .ior _ _ => .none
  | .iow _ _ _ => .none
  | .inta _ _ => .none
  | .idle _ => .none
  | .sInta => .none
  | .sIor _ _ => .none
  | .sIow _ _ _ => .none
  | .sHalt => .none
  | .sPassive => .none
  | .laneBoth => .none
  | .laneHigh => .none
  | .laneLow => .none
  | .laneNone => .none

/-- The address of the byte on the high lane: the odd one of the pair (20_memory.md R77). -/
def highAddr (a : Addr) : Addr := a ||| 1

/-- The address of the byte on the low lane: the even one of the pair (20_memory.md R77). -/
def lowAddr (a : Addr) : Addr := a &&& ~~~1

/-- Write data with any value on a lane that is not selected (20_memory.md R81, 93 U6). -/
def onLanes (l : Lanes) (v fill : Word) : Word :=
  Word.ofBytes (if hasHigh l then v.hi else fill.hi) (if hasLow l then v.lo else fill.lo)

/-- The bytes of a transfer in address order (20_memory.md R78). -/
def laneBytes (l : Lanes) (v : Word) : List Byte :=
  match l with
  | .both => [v.lo, v.hi]
  | .high => [v.hi]
  | .low => [v.lo]
  | .none => []

/-- The byte of a transfer of one lane (20_memory.md R77). -/
def laneByte (l : Lanes) (v : Word) : Byte := if hasLow l then v.lo else v.hi

/-- The low-order byte of a value. -/
def Value.low : Value → Byte
  | .byte b => b
  | .word w => w.lo

/-- The word of a MemRead of 16 bits; a value of 8 bits is no word, and `old` stays. -/
def Value.wordOr (v : Value) (old : Word) : Word :=
  match v with
  | .word w => w
  | .byte _ => old

/-- What a read cycle makes of the value of the primitive in progress, of as many bits as it moves: `hi ++ lo`, low byte
first (20_memory.md R79, R80, 30_encoding.md R116). -/
def joinPart (p : Part) (l : Lanes) (v : Word) (result : Value) : Value :=
  match p with
  | .whole =>
    match l with
    | .both => .word v
    | .high => .byte v.hi
    | .low => .byte v.lo
    | .none => result
  | .lowByte => .byte (laneByte l v)
  | .highByte => .word (Word.ofBytes (laneByte l v) result.low)

/-- (segment * 16 + offset) mod 2^20 (20_memory.md R76; general knowledge, used by the default InterruptEntry only). -/
def physAddr (seg off : Word) : Addr := seg.setWidth 20 <<< 4 + off.setWidth 20

/-! ## Operations by mode -/

/-- A memory read in the wiring's own format (42_max_mode_control.md R185). -/
def memReadOp (m : Mode) (a : Addr) (bheN : Bool) (g : Seg) : Instr :=
  match m with
  | .min => .memr a bheN (.data g)
  | .max => .sMemr a bheN g

/-- A memory write in the wiring's own format (42_max_mode_control.md R186). -/
def memWriteOp (m : Mode) (a : Addr) (bheN : Bool) (g : Seg) (v : Word) : Instr :=
  match m with
  | .min => .memw a bheN g v
  | .max => .sMemw a bheN g v

/-- An I/O read in the wiring's own format (42_max_mode_control.md R181). -/
def ioReadOp (m : Mode) (p : Port) (bheN : Bool) : Instr :=
  match m with
  | .min => .ior p bheN
  | .max => .sIor p bheN

/-- An I/O write in the wiring's own format (42_max_mode_control.md R182). -/
def ioWriteOp (m : Mode) (p : Port) (bheN : Bool) (v : Word) : Instr :=
  match m with
  | .min => .iow p bheN v
  | .max => .sIow p bheN v

/-- The width of a fetch at an address. -/
def fetchWidth (f : FetchLanes) (a : Addr) : FetchWidth :=
  if f.except.contains a then f.usual.other else f.usual

/-- A fetch with FETCH_LANES(addr): a word at an even address, or one byte; the high lane at an odd address
(70_reset_and_hazards.md R252, 92_eei_decisions.md D31). -/
def fetchOp (m : Mode) (f : FetchLanes) (a : Addr) : Instr :=
  let bheN := match fetchWidth f a with
    | .word => false
    | .byte => !(a.getLsbD 0)
  match m with
  | .min => .memr a bheN .fetch
  | .max => .sFetch a bheN

/-! ## Access primitives (20_memory.md R80 to R82) -/

/-- `MemRead(addr, n)` as bus operations: one, or two byte cycles, low byte first, at an odd address. -/
def memReadItems (m : Mode) (a : Addr) (w : Width) (g : Seg) : List Item :=
  match w, a.getLsbD 0 with
  | .byte, odd => [⟨memReadOp m a (!odd) g, .whole⟩]
  | .word, false => [⟨memReadOp m a false g, .whole⟩]
  | .word, true => [⟨memReadOp m a false g, .lowByte⟩, ⟨memReadOp m (a + 1) true g, .highByte⟩]

/-- A byte on both lanes: the lane that is not selected carries any value in the cycle (93 U6, `onLanes`). -/
def twice (b : Byte) : Word := Word.ofBytes b b

/-- `MemWrite(addr, n, v)` as bus operations. -/
def memWriteItems (m : Mode) (a : Addr) (w : Width) (g : Seg) (v : Word) : List Item :=
  match w, a.getLsbD 0 with
  | .byte, odd => [⟨memWriteOp m a (!odd) g (twice v.lo), .whole⟩]
  | .word, false => [⟨memWriteOp m a false g v, .whole⟩]
  | .word, true =>
    [⟨memWriteOp m a false g (twice v.lo), .whole⟩, ⟨memWriteOp m (a + 1) true g (twice v.hi), .whole⟩]

/-- `IoRead(port, n)` as bus operations; the second port of a split access wraps at 2^16. -/
def ioReadItems (m : Mode) (p : Port) (w : Width) : List Item :=
  match w, p.getLsbD 0 with
  | .byte, odd => [⟨ioReadOp m p (!odd), .whole⟩]
  | .word, false => [⟨ioReadOp m p false, .whole⟩]
  | .word, true => [⟨ioReadOp m p false, .lowByte⟩, ⟨ioReadOp m (p + 1) true, .highByte⟩]

/-- `IoWrite(port, n, v)` as bus operations. -/
def ioWriteItems (m : Mode) (p : Port) (w : Width) (v : Word) : List Item :=
  match w, p.getLsbD 0 with
  | .byte, odd => [⟨ioWriteOp m p (!odd) (twice v.lo), .whole⟩]
  | .word, false => [⟨ioWriteOp m p false v, .whole⟩]
  | .word, true => [⟨ioWriteOp m p false (twice v.lo), .whole⟩, ⟨ioWriteOp m (p + 1) true (twice v.hi), .whole⟩]

/-- `locked(seq)`: the requests `seq` with LOCK# = 0 from before the first T1 until after the last T4 (20_memory.md R93). -/
def locked (seq : List Req) : List Req := .lock :: seq ++ [.unlock]

end Sys2Proof.Machine
end

