-- ==== Sys2Proof/Machine/Flags.lean ====
section
/-! DEFINITION. The flag register and the status it shows: IF (spec/10_state.md R50), S6 to S3
(spec/40_address_data_bus.md R126 to R128), and the code tables of the status outputs. -/

namespace Sys2Proof.Machine

/-- `FR.IF`, bit 9 of FR (10_state.md R50; log 13). -/
def ifOf (fr : Word) : Bool := fr.getLsbD 9

/-- FR with IF and TF (bits 9 and 8) cleared (60_exceptions.md R228; log 13). -/
def clearIfTf (fr : Word) : Word := fr &&& ~~~0x0300#16

/-- Code of S4, S3 (40_address_data_bus.md R128): "none" has the code of CS, in every table (DESIGN CHOICE, log 2). -/
def segCode (e : SegEnc) : SegUse → BitVec 2
  | .reg .es => e.es
  | .reg .ss => e.ss
  | .reg .cs => e.cs
  | .reg .ds => e.ds
  | .none => e.cs

/-- S6 ++ S5 ++ S4 ++ S3 in T2 to T4 and Idle: S6 = 0, S5 = IF, S4, S3 the segment register in use
(40_address_data_bus.md R126 to R128, R133); before any cycle S4, S3 are `free`. -/
def statusNibble (s : State) (free : BitVec 2) : BitVec 4 :=
  0#1 ++ BitVec.ofBool (ifOf s.fr) ++ (match s.curSeg with
    | some g => segCode s.params.segEnc g
    | none => free)

/-- Code of S2#, S1#, S0# for a cycle (42_max_mode_control.md R180). -/
def codeOf (e : SEnc) : Kind → BitVec 3
  | .memRead => e.memRead
  | .fetch => e.fetch
  | .memWrite => e.memWrite
  | .ioRead => e.ioRead
  | .ioWrite => e.ioWrite
  | .ack => e.ack
  | .halt => e.halt

/-- Code of QS1, QS0 for a queue action (42_max_mode_control.md R191). -/
def qsCode (e : QsEnc) : QAct → BitVec 2
  | .noop => e.noop
  | .first => e.first
  | .next => e.next
  | .emptied => e.emptied

end Sys2Proof.Machine
end

