-- ==== Sys2Proof/Machine/Ops.lean ====
section
/-! DEFINITION. The named operations over memory, registers and the queue; data on the lanes; taking an interrupt and
returning from one; RESET; bus hand-over; and `planStep`, which says what the coming T-state is (spec/20_memory.md,
spec/60_exceptions.md, spec/70_reset_and_hazards.md, spec/41_min_mode_control.md R170 to R173, spec/42 R188 to R193). -/

namespace Sys2Proof.Machine

/-! ## The outside's frames (log 6) -/

/-- What the outside gives when no frame is left: levels stay, nothing is driven, no event happens. -/
def Frame.held (f : Frame) : Frame :=
  { f with
    devLo := none, devHi := none, ext := [], rq0 := false, rq1 := false, rel0 := false, rel1 := false
    instrEnd := false, regWrites := [], qAct := .noop, requests := [] }

/-- The frame of the coming T-state. -/
def nextFrame (s : State) : Frame :=
  match s.inputs with
  | f :: _ => f
  | [] => Frame.held s.now

/-! ## Memory (20_memory.md R70; log 8) -/

/-- The byte at an address. -/
def Memory.read : Memory → Nat → Byte
  | [], _ => Config.unlistedByte
  | (b, v) :: r, a => if b = a then v else if a < b then Config.unlistedByte else Memory.read r a

/-- Puts a cell in front, unless its byte is what an unlisted address reads as. -/
def Memory.cons (a : Nat) (v : Byte) (r : Memory) : Memory :=
  if v = Config.unlistedByte then r else (a, v) :: r

/-- The memory with a byte written, in canonical form again. -/
def Memory.write : Memory → Nat → Byte → Memory
  | [], a, v => Memory.cons a v []
  | (b, w) :: r, a, v =>
    if a < b then Memory.cons a v ((b, w) :: r)
    else if a = b then Memory.cons a v r
    else (b, w) :: Memory.write r a v

/-- Every address of the list is at least `lo`, they rise strictly, lie in the memory space, and no byte is the one an
unlisted address reads as. -/
def Memory.wfFrom : Nat → Memory → Bool
  | _, [] => true
  | lo, (a, v) :: r => decide (lo ≤ a) && decide (a < Config.memBytes) && decide (v ≠ Config.unlistedByte) && Memory.wfFrom (a + 1) r

/-- The canonical form of memory. -/
def Memory.wf (m : Memory) : Bool := Memory.wfFrom 0 m

/-- The byte of the state's memory at a physical address. -/
def readMem (s : State) (a : Addr) : Byte := Memory.read s.mem a.toNat

/-- What a write cycle stores: the bytes on the selected lanes, and no other (20_memory.md R77, R78, R81). -/
def storeLanes (m : Memory) (a : Addr) (l : Lanes) (v : Word) : Memory :=
  let m := if hasLow l then Memory.write m (lowAddr a).toNat v.lo else m
  if hasHigh l then Memory.write m (highAddr a).toNat v.hi else m

/-! ## Registers of the core (10_state.md R50 to R52) -/

/-- A register of the core. -/
def readReg (s : State) : Reg → Word
  | .cs => s.cs
  | .ds => s.ds
  | .ss => s.ss
  | .es => s.es
  | .ip => s.ip
  | .fr => s.fr
  | .sp => s.sp

/-- The core writes a register (log 7). -/
def writeReg (s : State) (r : Reg) (v : Word) : State :=
  match r with
  | .cs => { s with cs := v }
  | .ds => { s with ds := v }
  | .ss => { s with ss := v }
  | .es => { s with es := v }
  | .ip => { s with ip := v }
  | .fr => { s with fr := v }
  | .sp => { s with sp := v }

/-- The core's register writes of one T-state, in order. -/
def writeRegs (s : State) : List (Reg × Word) → State
  | [] => s
  | (r, v) :: ws => writeRegs (writeReg s r v) ws

/-! ## The instruction queue (10_state.md R53, 42_max_mode_control.md R191; log 23) -/

/-- What the core does to the queue in this T-state; a byte cannot be taken from an empty queue. -/
def useQueue (q : QAct) (s : State) : State :=
  match q with
  | .noop => { s with qAct := .noop, qOut := none }
  | .emptied => { s with queue := [], qAct := .emptied, qOut := none }
  | .first =>
    match s.queue with
    | [] => { s with qAct := .noop, qOut := none }
    | b :: r => { s with queue := r, qAct := .first, qOut := some b }
  | .next =>
    match s.queue with
    | [] => { s with qAct := .noop, qOut := none }
    | b :: r => { s with queue := r, qAct := .next, qOut := some b }

/-- There is room in the queue for what an operation fetches; an operation that is no fetch needs none. -/
def hasRoom (s : State) (i : Instr) : Bool :=
  match kindOf i with
  | some .fetch => decide (s.queue.length + laneCount (lanesOfInstr i) ≤ s.params.queueDepth)
  | _ => true

/-! ## Data on the lanes in a read or acknowledge cycle (40_address_data_bus.md R121, R123; log 9) -/

/-- The byte on the low lane: what a device drives, else the memory's byte in a memory read that selects the lane, else
any value (93 U5, U6). -/
def lowIn (s : State) : Byte :=
  match s.now.devLo with
  | some b => b
  | none =>
    if (curKind s).any Kind.readsMemory && hasLow s.curLanes then readMem s (lowAddr s.curAddr)
    else (Config.freeData s.draws).extractLsb' 16 8

/-- The byte on the high lane. -/
def highIn (s : State) : Byte :=
  match s.now.devHi with
  | some b => b
  | none =>
    if (curKind s).any Kind.readsMemory && hasHigh s.curLanes then readMem s (highAddr s.curAddr)
    else (Config.freeData s.draws).extractLsb' 24 8

/-- AD15..AD0 as sampled. -/
def busIn (s : State) : Word := Word.ofBytes (highIn s) (lowIn s)

/-! ## Taking an interrupt (60_exceptions.md R222, R224, R228; log 14, 15, 16) -/

/-- The default InterruptEntry as steps (R228). -/
def entrySequence (type : Byte) : List EntryStep :=
  [.pushFr, .pushCs, .pushIp, .readIp type, .readCs type, .entered]

/-- `raise Interrupt(type)`: the type is handed to the core, a TEST# wait is left and remembered, and InterruptEntry
begins where the model runs it. -/
def takeInterrupt (type : Byte) (s : State) : State :=
  { s with
    raised := s.raised ++ [type]
    waitStack := s.testWait :: s.waitStack
    testWait := false
    entrySteps := match s.params.entry with
      | .core => s.entrySteps
      | .sequence => s.entrySteps ++ entrySequence type }

/-- Leaving a handler: the wait that was interrupted goes on (92_eei_decisions.md D35; log 16). -/
def resumeWait (s : State) : State :=
  match s.waitStack with
  | [] => s
  | b :: r => { s with testWait := b, waitStack := r }

/-- The return's steps: pop IP, CS, FR (60_exceptions.md R229), where the model runs the default entry. -/
def returnSequence : List EntryStep := [.popIp, .popCs, .popFr, .returned]

/-- An interrupt can be served now: the core says that an instruction ends, or one has ended in a hold, or the TEST# wait
lets interrupts in (60_exceptions.md R218, R224; 43_common_control.md R207); none while the bus is given away
(41_min_mode_control.md R173), none inside another one's acknowledge or entry, and none before the restart fetch, when no
instruction has begun (70_reset_and_hazards.md R252). An end of an instruction that the core signals inside a wait which lets no
interrupts in is taken at its word, and the interrupt is served there: a DESIGN CHOICE, since `WAIT_INTERRUPTIBLE` (00_scope.md R7)
speaks of the wait and the spec does not say what INSTR_END means inside one (log 16). In a wait that lets interrupts in the
requests are looked at at the end of every T-state outside HoldAck: a DESIGN CHOICE, since R207 and D35 of 92_eei_decisions.md let a
request be served in the wait and name no moment (log 16). -/
def canServe (s : State) : Bool :=
  (s.now.instrEnd || s.endPending || (s.testWait && s.params.waitInterruptible))
    && decide (s.busState ≠ .holdAck)
    && decide (s.ackPhase = .none) && !s.ackPending && s.entrySteps.isEmpty && !s.restart

/-- An end of an instruction that comes in HoldAck is kept until the release (41_min_mode_control.md R173; log 15). -/
def keepEnd (s : State) : State :=
  { s with endPending := decide (s.busState = .holdAck) && (s.endPending || s.now.instrEnd) }

/-- At the end of an instruction: the non-maskable request first, whatever IF is; else INTR, a level, if IF = 1
(60_exceptions.md R217, R218, R224, R227). Where an instruction ends in a T4 or Idle state at whose end the bus is given away, the
look comes first: the request is taken off, the type raised or INTR accepted, and only the bus cycles of the entry or the acknowledge
wait for the release. A DESIGN CHOICE, since R227 ranks the hand-over first and R224 and R218 act at the end of the instruction
(log 36). -/
def poll (s : State) : State :=
  if canServe s then
    if s.nmiPending then takeInterrupt Config.nmiType { keepEnd s with nmiPending := false }
    else if s.now.intr && ifOf s.fr then { keepEnd s with ackPending := true }
    else keepEnd s
  else keepEnd s

/-- TEST# is sampled in each T-state of the wait (43_common_control.md R207). A wait in which INTR has been accepted is still on
in the acknowledge cycles, until the interrupt is raised: a DESIGN CHOICE (log 16). -/
def sampleTest (s : State) : State :=
  if s.testWait && !s.now.testN then { s with testWait := false } else s

/-! ## RESET (70_reset_and_hazards.md R250 to R256; 10_state.md R60) -/

/-- A bus cycle is in progress and has not reached T4. -/
def inCycle (b : BusState) : Bool :=
  match b with
  | .t1 => true
  | .t2 => true
  | .t3 => true
  | .tw => true
  | .t4 => false
  | .idle => false
  | .holdAck => false
  | .inReset => false

/-- Memory after RESET: the selected bytes of a write cycle that is cut short hold any value
(70_reset_and_hazards.md R250, 93 U8; log 25). -/
def cutWrite (s : State) : Memory :=
  if inCycle s.busState && decide (curKind s = some .memWrite) then
    storeLanes s.mem s.curAddr s.curLanes ((Config.freeData s.draws).extractLsb' 32 16)
  else s.mem

/-- The internal state while RESET is high (10_state.md R60); the clocks of RESET are counted up to 4 (R251). -/
def resetInternal (s : State) : State :=
  { s with
    cs := Config.resetCs, ds := s.params.resetVals.ds, ss := s.params.resetVals.ss, es := s.params.resetVals.es
    ip := s.params.resetVals.ip, fr := s.params.resetVals.fr, sp := Config.resetSp, queue := []
    curOp := none, curAddr := 0, curLanes := .both, curWdata := 0, curSeg := none, curPart := .whole
    rdata := 0, result := .word 0, pendingOps := []
    nmiPending := false, holdGranted := false, granted := none, rqPending0 := false, rqPending1 := false
    testWait := false, lockActive := false, lockHeld := false
    ackPhase := .none, ackPending := false, endPending := false, ackType := 0, raised := [], entrySteps := [], waitStack := []
    resetClks := min Config.resetMinClks (s.resetClks + 1), restart := true
    qAct := .noop, qsShown := .noop, qOut := none, idleDrive := none
    mem := cutWrite s
    program := [] }

/-! ## Hand-over of the bus -/

/-- The 8086 gives the bus away at the end of a T4 or Idle state: HOLD in Min (41_min_mode_control.md R170); in Max a
pending request while LOCK# = 1, line 0 before line 1 (42_max_mode_control.md R188, R190, R193). -/
def handOver (s : State) : Option State :=
  match s.mode with
  | .min => if s.now.hold then some { s with holdGranted := true, curOp := none } else none
  | .max =>
    if s.lockActive then none
    else if s.rqPending0 then some { s with granted := some .line0, rqPending0 := false, curOp := none }
    else if s.rqPending1 then some { s with granted := some .line1, rqPending1 := false, curOp := none }
    else none

/-- The master that has the bus gives it back in this T-state (41_min_mode_control.md R172, 42_max_mode_control.md R188). -/
def released (s : State) : Bool :=
  match s.mode with
  | .min => !s.now.hold
  | .max =>
    match s.granted with
    | some .line0 => s.now.rel0
    | some .line1 => s.now.rel1
    | none => true

/-- The bus is the 8086's again. -/
def takeBack (s : State) : State := { s with holdGranted := false, granted := none }

/-- The memory after what other masters do in one T-state, in order. -/
def extMemory (m : Memory) : List Ext → Memory
  | [] => m
  | .drives _ :: r => extMemory m r
  | .writes _ a v :: r => extMemory (Memory.write m a.toNat v) r

/-- What the master that has the bus writes (20_memory.md R91 (b); log 35). -/
def applyExt (s : State) : State := { s with mem := extMemory s.mem s.now.ext }

/-- The falling edge of ALE in T1: the address latch takes what A19..A16, AD15..AD0 and BHE# carry
(41_min_mode_control.md R160, 30_encoding.md R103). -/
def latchAddress (s : State) : State :=
  match s.pins.a, s.pins.ad, s.pins.bheN with
  | some a, some ad, some b => { s with latchAddr := a ++ ad, latchBheN := b }
  | _, _, _ => s

/-- What the parts around the 8086 have done in a T-state that RESET follows: ALE fell in T1, and the master that had the
bus wrote. That its write is kept is a DESIGN CHOICE, the spec is silent (log 25). -/
def outsideDone (s : State) : State :=
  match s.busState with
  | .t1 => latchAddress s
  | .holdAck => applyExt s
  | _ => s

/-! ## Contention (70_reset_and_hazards.md R260 HZ3, HZ7, HZ8; 93 U13; log 26) -/

/-- The master that has the bus drives it in this T-state, does not write and does not release the bus: what it does may be
a read, which a device answers. What that master's cycle looks like the spec does not say: a DESIGN CHOICE (log 26). -/
def masterMayRead (s : State) : Bool :=
  !released s && !s.now.ext.isEmpty && s.now.ext.all fun e =>
    match e with
    | .drives _ => true
    | .writes _ _ _ => false

/-- A device may drive a lane (`low` or high): in T2 to T4 of a read that selects the lane, or of the second
acknowledge cycle, and where it answers another master that has the bus. -/
def mayDrive (s : State) (low : Bool) : Bool :=
  match s.busState with
  | .holdAck => masterMayRead s
  | .inReset => false
  | .t1 => false
  | .idle => false
  | _ =>
    match curKind s with
    | some .ack => decide (s.ackPhase = .second) || (decide (s.busState = .t4) && decide (s.ackPhase = .none))
    | some k => k.reads && (if low then hasLow s.curLanes else hasHigh s.curLanes)
    | none => false

/-- The master that has the bus. -/
def busMaster (s : State) : Option Master :=
  match s.mode with
  | .min => if s.holdGranted then some .hold else none
  | .max => s.granted.map .line

/-- A master may drive the bus between its own grant and its release only (70_reset_and_hazards.md R260 HZ7, HZ8). In minimum mode
HZ7 lets it drive no more when it lowers HOLD. In maximum mode the T-state in which REL comes is no longer the master's: a DESIGN
CHOICE, since HZ8 says "between the grant and its release" and names no T-state (log 26). -/
def masterMayDrive (s : State) (m : Master) : Bool :=
  decide (s.busState = .holdAck) && decide (busMaster s = some m) && !released s

/-- A broken obligation in this T-state, if there is one. Where a device breaks HZ3 and another master HZ7 or HZ8 in one T-state the
device's fault is reported: a DESIGN CHOICE, since R260 of 70_reset_and_hazards.md does not order the two (log 26). -/
def hazard (s : State) : Option Fault :=
  if (s.now.devLo.isSome && !mayDrive s true) || (s.now.devHi.isSome && !mayDrive s false) then some .busContention
  else if s.now.ext.any (fun e => !masterMayDrive s e.master) then some .masterContention
  else none

/-! ## Pin patterns that no rule produces (30_encoding.md R109; 93 U12; log 31) -/

/-- A strobe is low in T2, T3 and every TW (43_common_control.md R200, 41 R162, 60 R219). -/
def strobeState (b : BusState) : Bool :=
  match b with
  | .t2 => true
  | .t3 => true
  | .tw => true
  | .t1 => false
  | .t4 => false
  | .idle => false
  | .holdAck => false
  | .inReset => false

/-- The T-states in which the multiplexed pins carry data and status (40_address_data_bus.md R123, R126). -/
def dataPhase (b : BusState) : Bool := strobeState b || decide (b = .t4)

/-- The 8086 owns the bus and is not in RESET. -/
def ownsBus (b : BusState) : Bool := decide (b ≠ .holdAck) && decide (b ≠ .inReset)

/-- An active-low output is asserted. -/
def low (p : Tri Bool) : Bool := decide (p = some false)

/-- Two of RD#, WR#, INTA# are low. -/
def twoStrobesLow (p : Pins) : Bool :=
  match p.ctl with
  | .max _ => false
  | .min m => (low p.rdN && low m.wrN) || (low p.rdN && low m.intaN) || (low m.wrN && low m.intaN)

/-- A strobe is low against DT/R#. -/
def strobeAgainst (p : Pins) : Bool :=
  match p.ctl with
  | .max _ => false
  | .min m => (low p.rdN && decide (m.dtr ≠ some false)) || (low m.wrN && decide (m.dtr ≠ some true))

/-- BHE# = 1 and AD0 = 1: the lane pattern `11`. -/
def noLaneShown (p : Pins) : Bool := decide (p.bheN = some true) && p.ad.any (fun v => v.getLsbD 0)

/-- The illegal pattern that the pins show while the 8086 drives them, if there is one: it would be a defect of the model
or of its driver, and the step reports it. -/
def observed (s : State) : Option Fault :=
  if !ownsBus s.busState then none
  else if twoStrobesLow s.pins then some .twoStrobes
  else if strobeAgainst s.pins then some .strobeDirection
  else if dataPhase s.busState && s.pins.a.any (fun a => a.getLsbD 3) then some .s6High
  else if decide (s.busState = .t1) && decide (curKind s = some .ioRead ∨ curKind s = some .ioWrite)
      && s.pins.a.any (fun a => decide (a ≠ 0)) then some .ioAddressHigh
  else if decide (s.busState = .t1) && (curKind s).any Kind.transfers && noLaneShown s.pins then some .laneNone
  else none

/-- What stops the machine in this T-state, whatever comes next. -/
def violation (s : State) : Option Fault :=
  match hazard s with
  | some f => some f
  | none => observed s

/-! ## What comes next -/

/-- The coming T-state: a refusal, a fault, a T-state of no operation, or a T-state of an operation. -/
inductive Plan where
  | refuse (r : Refusal)
  | stop (f : Fault)
  | go (b : BusState) (s : State)
  | run (i : Instr) (s : State)

/-- An Idle state (40_address_data_bus.md R133). -/
def planIdle (s : State) : Plan := .go .idle { s with curOp := none, idleDrive := none }

/-- The first of some operations now, the others after it. -/
def planItems (items : List Item) (s : State) : Plan :=
  match items with
  | [] => planIdle s
  | it :: r => .run it.instr { s with curPart := it.part, pendingOps := r }

/-- An operation with its request taken from the queue (`taken`), or, if it is a fetch for which the instruction queue
has no room, an Idle state (log 23). -/
def planFetch (i : Instr) (taken s : State) : Plan :=
  if hasRoom s i then .run i { taken with curPart := .whole } else planIdle s

/-- A word pushed on the stack: SP <- SP - 2, MemWrite(SS*16 + SP, 2, v) (60_exceptions.md R228). -/
def planPush (v : Word) (s : State) : Plan :=
  let sp := s.sp - 2
  planItems (memWriteItems s.mode (physAddr s.ss sp) .word .ss v) { s with sp := sp }

/-- A word popped from the stack into `result` (60_exceptions.md R229). -/
def planPop (s : State) : Plan :=
  planItems (memReadItems s.mode (physAddr s.ss s.sp) .word .ss) { s with sp := s.sp + 2 }

/-- A word of the vector table, at `4 * type` or two bytes above it (60_exceptions.md R228). -/
def planVector (type : Byte) (upper : Bool) (s : State) : Plan :=
  planItems (memReadItems s.mode (type.setWidth 20 * 4 + (if upper then 2 else 0)) .word .cs) s

/-- One step of the default InterruptEntry (60_exceptions.md R228) or of the return (R229). The cycles of the pushes, reads
and pops follow each other with no Idle state between, and one Idle state stands at the end, where the last word read takes
its place (`entered`, `returned`): a DESIGN CHOICE, since D4 of 92_eei_decisions.md leaves the number of Idle states between two
cycles to the core, 0 or more (log 14). IF and TF become 0 as the push of CS opens, and S5 shows IF = 1 until then: a DESIGN
CHOICE, since R228 gives the order of the steps and no T-state (log 14). Where it empties the queue in a
clock in which the core has taken a byte, QS1, QS0 report that it was emptied, and not the byte: a DESIGN CHOICE, since
R191 of 42_max_mode_control.md gives one code a clock (log 23). -/
def planEntry (e : EntryStep) (s : State) : Plan :=
  match e with
  | .pushFr => planPush s.fr s
  | .pushCs => planPush s.cs { s with fr := clearIfTf s.fr }
  | .pushIp => planPush s.ip s
  | .readIp t => planVector t false s
  | .readCs t => planVector t true { s with ip := s.result.wordOr s.ip }
  | .entered => planIdle { s with cs := s.result.wordOr s.cs, queue := [], qAct := .emptied }
  | .popIp => planPop s
  | .popCs => planPop { s with ip := s.result.wordOr s.ip }
  | .popFr => planPop { s with cs := s.result.wordOr s.cs }
  | .returned => planIdle (resumeWait { s with fr := s.result.wordOr s.fr, queue := [], qAct := .emptied })

/-- The fault of a word that is no operation (30_encoding.md R109). -/
def faultOf : DecodeError → Fault
  | .twoStrobes => .twoStrobes
  | .strobeDirection => .strobeDirection
  | .ioAddressHigh => .ioAddressHigh
  | .strayBits => .strayBits

/-- A request of the core, taken from the queue (30_encoding.md R111). It is taken when the bus is free, the request that starts a TEST#
wait among them: a wait asked for while a cycle runs or the bus is given away starts after it, and a TEST# = 0 meanwhile does not end
it. A DESIGN CHOICE, since R207 of 43_common_control.md names no bus state for TESTWAIT, and R171 of 41_min_mode_control.md lets the
internal unit go on in a hold (log 16). -/
def planReq (r : Req) (taken s : State) : Plan :=
  match r with
  | .word f w =>
    match decode f w with
    | .error e => .stop (faultOf e)
    | .ok i => planFetch i taken s
  | .memRead a w g => planItems (memReadItems s.mode a w g) taken
  | .memWrite a w g v => planItems (memWriteItems s.mode a w g v) taken
  | .ioRead p w => planItems (ioReadItems s.mode p w) taken
  | .ioWrite p w v => planItems (ioWriteItems s.mode p w v) taken
  | .fetch a => planFetch (fetchOp s.mode s.params.fetchLanes a) taken s
  | .testWait => planIdle { taken with testWait := true }
  | .iret =>
    match s.params.entry with
    | .core => planIdle (resumeWait taken)
    | .sequence => planIdle { taken with entrySteps := returnSequence }
  | .lock => planIdle { taken with lockHeld := true }
  | .unlock => planIdle { taken with lockHeld := false }

/-- The core asks for an Idle state first: it decides how long after RESET the first fetch comes
(70_reset_and_hazards.md R252). -/
def headIsIdle (s : State) : Bool :=
  match s.program with
  | .word f w :: _ =>
    match decode f w with
    | .ok (.idle _) => true
    | .ok .sPassive => true
    | _ => false
  | _ => false

/-- The acknowledge operation of the wiring; in Min the levels of M/IO#, DT/R# are any (60_exceptions.md R220 (b)). They are drawn
once, and both cycles of the sequence hold them: a DESIGN CHOICE, since R220 and U4 of 93_implementation_defined.md do not say
whether the two cycles may differ (log 18). -/
def ackOp (s : State) : Instr :=
  match s.mode with
  | .min => .inta ((Config.freeData s.draws).getLsbD 48) ((Config.freeData s.draws).getLsbD 49)
  | .max => .sInta

/-- The next operation of a bus that is free (log 36): the rest of a split access, the restart fetch, the acknowledge
sequence, InterruptEntry, then, unless the core waits for TEST#, its next request. The second cycle of a split access follows the
first with no Idle state between, but for a hand-over: a DESIGN CHOICE, since D4 of 92_eei_decisions.md leaves the number of Idle
states between two cycles to the core, which cannot ask for one there (log 30). -/
def nextOp (s : State) : Plan :=
  match s.pendingOps with
  | it :: r => planItems (it :: r) s
  | [] =>
    if s.restart && !headIsIdle s then
      planFetch (fetchOp s.mode s.params.fetchLanes Config.resetStart) { s with restart := false } s
    else if s.ackPending then .run (ackOp s) { s with ackPending := false }
    else
      match s.entrySteps with
      | e :: r => planEntry e { s with entrySteps := r }
      | [] =>
        if s.testWait then planIdle s
        else
          match s.program with
          | [] => planIdle s
          | r :: rs => planReq r { s with program := rs } s

/-- The end of a T4 or Idle state: an acknowledge sequence in progress goes on, with no hand-over inside it
(60_exceptions.md R220 (f)); else a hand-over (R227); else the next operation. -/
def planBoundary (s : State) : Plan :=
  match s.ackPhase, s.curOp with
  | .first, some i => .run i s
  | .gap _, some i => .run i s
  | .first, none => .stop .noOperation
  | .gap _, none => .stop .noOperation
  | _, _ =>
    match handOver s with
    | some t => .go .holdAck t
    | none => nextOp s

/-- The end of a T-state outside RESET. -/
def planActive (s : State) : Plan :=
  match s.busState with
  | .holdAck => if released s then planIdle (takeBack (applyExt s)) else .go .holdAck (applyExt s)
  | .t4 => planBoundary s
  | .idle => planBoundary s
  | _ =>
    match s.curOp with
    | some i => .run i s
    | none => .stop .noOperation

/-- RESET has fallen: Idle, and the restart fetch is owed; fewer than 4 clocks are refused
(70_reset_and_hazards.md R251, R252, 93 U7). -/
def planRestart (s : State) : Plan :=
  if s.resetClks < Config.resetMinClks then .refuse .resetTooShort
  else .go .idle { s with resetClks := 0, restart := true }

/-- What the rules of the bus state make of this T-state: the end of RESET, or the end of an active T-state. It looks at
nothing that the coming T-state brings. The interrupt requests are looked at before a hand-over of the bus: a DESIGN CHOICE, said at
`poll` (60_exceptions.md R218, R224, R227; log 36). TEST# is looked at before the interrupts, so TEST# = 0 ends a wait before an
interrupt can be served in it: a DESIGN CHOICE, the spec does not order the two. It is looked at in the acknowledge cycles of an
INTR accepted in the wait too, so TEST# = 0 there ends the wait and nothing resumes after the handler: a DESIGN CHOICE, since D35 of
92_eei_decisions.md lets the wait resume and names no moment at which it is left (log 16). -/
def planNow (s : State) : Plan :=
  if s.busState = .inReset then planRestart s else planActive (poll (sampleTest s))

/-- What the coming T-state is: a moved strap is refused (10_state.md R21); a broken obligation of the outside or an illegal
pattern stops the machine, where the strap has not moved; while RESET is high the T-state is InReset, whatever it was
(70_reset_and_hazards.md R250, 60_exceptions.md R227); else as this T-state's rules say. That the refusal comes first where a T-state
shows a moved strap with a pattern or an obligation broken, or RESET follows it, is a DESIGN CHOICE, since the spec does not put U10 of
93_implementation_defined.md in an order with R109 of 30_encoding.md, R250 and R260 of 70_reset_and_hazards.md (log 31). -/
def planStep (s : State) : Plan :=
  if s.now.mnmx ≠ s.mode.strap then .refuse .strapChanged
  else
    match violation s with
    | some f => .stop f
    | none => if (nextFrame s).reset then .go .inReset (resetInternal (outsideDone s)) else planNow s

end Sys2Proof.Machine
end

