-- ==== Sys2Proof/Machine/Pins.lean ====
section
/-! DEFINITION. What the 8086 drives on its pins in a T-state (spec/40_address_data_bus.md R121 to R134,
spec/41_min_mode_control.md R150 to R163, R171, spec/42_max_mode_control.md R180 to R193, spec/43 R200, R205,
spec/60_exceptions.md R219, R220, spec/70_reset_and_hazards.md R255), and the 8288 (42 R192). Slices of the free
word of the T-state (log 11) stand for levels the spec leaves open (93 U1 to U4, U9). -/

namespace Sys2Proof.Machine

/-- An active-low output: Z in HoldAck, 1 or Z in InReset (`freeZ`), else 0 exactly when `asserted`
(10_state.md R47, 70_reset_and_hazards.md R255). -/
def lowActive (b : BusState) (freeZ asserted : Bool) : Tri Bool :=
  match b with
  | .holdAck => none
  | .inReset => if freeZ then none else some true
  | _ => some (!asserted)

/-- AD15..AD0 (40_address_data_bus.md R122 to R124, R133, R134; 60_exceptions.md R220); `w` is the free word from which they
were drawn last, so in TW they hold what they had in T3 (43_common_control.md R205). Where the spec lets them be any value or Z
(Idle, RESET) the sixteen lines are driven or float together, by one draw: a DESIGN CHOICE, since R133 and D20 of
92_eei_decisions.md do not say whether lines of one group may differ (log 28). -/
def adPins (s : State) (w : BitVec 64) : Tri Word :=
  let free : Tri Word := if w.getLsbD 10 then none else some (w.extractLsb' 16 16)
  match s.busState with
  | .holdAck => none
  | .idle => free
  | .inReset => free
  | .t1 =>
    match curKind s with
    | some .ack => none
    | some .halt => free
    | none => free
    | some _ => some (s.curAddr.extractLsb' 0 16)
  | _ =>
    match curKind s with
    | some .halt => free
    | none => free
    | some k => if k.writes then some s.curWdata else none

/-- A19/S6..A16/S3 (40_address_data_bus.md R125 to R128, R133, R134; 60_exceptions.md R220). In RESET the four lines are driven or
float together: a DESIGN CHOICE, since D20 does not say whether lines of one group may differ (log 28). In T1 of a halt cycle they are
driven, at any level, and never float: a DESIGN CHOICE, since R183 of 42_max_mode_control.md gives that cycle no address and R125 speaks
of the transfers only (log 21). -/
def aPins (s : State) (w : BitVec 64) : Tri (BitVec 4) :=
  let free : BitVec 4 := w.extractLsb' 4 4
  match s.busState with
  | .holdAck => none
  | .inReset => if w.getLsbD 8 then none else some free
  | .t1 =>
    match curKind s with
    | some .ioRead => some 0
    | some .ioWrite => some 0
    | some .ack => some free
    | some .halt => some free
    | none => some free
    | some _ => some (s.curAddr.extractLsb' 16 4)
  | _ => some (statusNibble s (w.extractLsb' 36 2))

/-- BHE#/S7: BHE# in T1 of a transfer, S7 otherwise: any value, drawn anew in each T-state, TW included
(40_address_data_bus.md R129 to R131, R133; 92_eei_decisions.md D18, 93 U1; log 34). In T1 of a halt cycle it is driven, at any
level, and never floats: a DESIGN CHOICE, since R130 speaks of the transfers only (log 21). -/
def bhePin (s : State) (w : BitVec 64) : Tri Bool :=
  match s.busState with
  | .holdAck => none
  | .inReset => if w.getLsbD 9 then none else some (w.getLsbD 0)
  | .t1 =>
    match curKind s with
    | some .ack => some (w.getLsbD 0)
    | some .halt => some (w.getLsbD 0)
    | none => some (w.getLsbD 0)
    | some _ => some (bheLevel s.curLanes)
  | _ => some (w.getLsbD 0)

/-- RD#: low in T2, T3, TW of a read of memory or I/O, in both modes (43_common_control.md R200). -/
def rdPin (s : State) (w : BitVec 64) : Tri Bool :=
  lowActive s.busState (w.getLsbD 11) (strobeState s.busState && (curKind s).any Kind.reads)

/-- The level of M/IO# that belongs to an operation (41_min_mode_control.md R155; 60_exceptions.md R220 (b)). -/
def mioOf (i : Instr) (free : Bool) : Bool :=
  match kindOf i with
  | some .memRead => true
  | some .fetch => true
  | some .memWrite => true
  | some .ioRead => false
  | some .ioWrite => false
  | some .ack =>
    match i with
    | .inta m _ => m
    | _ => free
  | some .halt => free
  | none => free

/-- The level of DT/R# that belongs to an operation: 1 write, 0 read (41_min_mode_control.md R158). -/
def dtrOf (i : Instr) (free : Bool) : Bool :=
  match kindOf i with
  | some .memRead => false
  | some .fetch => false
  | some .memWrite => true
  | some .ioRead => false
  | some .ioWrite => true
  | some .ack =>
    match i with
    | .inta _ d => d
    | _ => free
  | some .halt => free
  | none => free

/-- A cycle of `i` opens in the coming T-state: every kind of cycle does, but for a transfer that selects no lane, which
faults (30_encoding.md R109); and an acknowledge that is under way does so only after its last Idle state
(60_exceptions.md R220 (e)). -/
def opensCycle (i : Instr) (s : State) : Bool :=
  match kindOf i with
  | none => false
  | some .ack =>
    match s.ackPhase with
    | .first => decide (s.params.ackGap = 0)
    | .gap n => decide (n = 0)
    | _ => true
  | some _ => !selectsNoLane i

/-- The operation whose T1 is the coming T-state unless RESET comes, where this one is T4 or Idle
(42_max_mode_control.md R192). -/
def upcoming (s : State) : Option Instr :=
  match s.busState with
  | .t4 =>
    match planNow s with
    | .run i t => if opensCycle i t then some i else none
    | _ => none
  | .idle =>
    match planNow s with
    | .run i t => if opensCycle i t then some i else none
    | _ => none
  | _ => none

/-- M/IO# (41_min_mode_control.md R155 to R157, R133 for Idle, U3 for T4, R255 for RESET). -/
def mioPin (s : State) (w : BitVec 64) : Tri Bool :=
  let free := w.getLsbD 1
  let own := match s.curOp with
    | some i => mioOf i free
    | none => free
  match s.busState with
  | .holdAck => none
  | .inReset => if w.getLsbD 15 then none else some free
  | .idle =>
    match s.idleDrive with
    | some x => some (x.getLsbD 1)
    | none => some free
  | .t4 =>
    match upcoming s with
    | some j => some (if w.getLsbD 3 then own else mioOf j free)
    | none => some (if w.getLsbD 3 then own else free)
  | _ => some own

/-- DT/R#, stable from T1 to T4 (41_min_mode_control.md R158). -/
def dtrPin (s : State) (w : BitVec 64) : Tri Bool :=
  let free := w.getLsbD 2
  match s.busState with
  | .holdAck => none
  | .inReset => if w.getLsbD 32 then none else some free
  | .idle =>
    match s.idleDrive with
    | some x => some (x.getLsbD 0)
    | none => some free
  | _ =>
    match s.curOp with
    | some i => some (dtrOf i free)
    | none => some free

/-- The minimum-mode outputs (41_min_mode_control.md R150 to R163, R171; 60_exceptions.md R219, R220). -/
def minPins (s : State) (w : BitVec 64) : MinPins :=
  { mio := mioPin s w
    dtr := dtrPin s w
    denN := lowActive s.busState (w.getLsbD 14)
      (strobeState s.busState && (curKind s).any (fun k => k.reads || k.writes || decide (k = .ack)))
    hlda := decide (s.busState = .holdAck)
    ale := decide (s.busState = .t1)
    intaN := lowActive s.busState (w.getLsbD 13) (strobeState s.busState && decide (curKind s = some .ack))
    wrN := lowActive s.busState (w.getLsbD 12) (strobeState s.busState && (curKind s).any Kind.writes) }

/-- S2#, S1#, S0#: the code of the coming cycle in T4 or the last Idle, of the cycle in T1, T2 and, while wait states
are still to come, T3 and TW; passive otherwise (42_max_mode_control.md R187, R192). In RESET the three float or are passive together,
by one draw: a DESIGN CHOICE, since R255 of 70_reset_and_hazards.md and D20 of 92_eei_decisions.md do not say whether one of them may
float while another is driven (log 28). -/
def statusCode (s : State) (w : BitVec 64) : Tri (BitVec 3) :=
  let own := match curKind s with
    | some k => codeOf s.params.sEnc k
    | none => s.params.sEnc.passive
  let next := match (upcoming s).bind kindOf with
    | some k => codeOf s.params.sEnc k
    | none => s.params.sEnc.passive
  match s.busState with
  | .holdAck => none
  | .inReset => if w.getLsbD 33 then none else some s.params.sEnc.passive
  | .t1 => some own
  | .t2 => some own
  | .t3 => some (if s.now.ready then s.params.sEnc.passive else own)
  | .tw => some (if s.now.ready then s.params.sEnc.passive else own)
  | .t4 => some next
  | .idle => some next

/-- The maximum-mode outputs (42_max_mode_control.md); the grant is signalled in the first HoldAck state (`fresh`). -/
def maxPins (fresh : Bool) (s : State) (w : BitVec 64) : MaxPins :=
  { s := statusCode s w
    gt0N := if fresh && decide (s.granted = some .line0) then some false else none
    gt1N := if fresh && decide (s.granted = some .line1) then some false else none
    qs := qsCode s.params.qsEnc s.qsShown
    lockN := lowActive s.busState (w.getLsbD 34) s.lockActive }

/-- The pins of a T-state. -/
def pinsOf (fresh : Bool) (s : State) : Pins :=
  let w := Config.freeWord s.draws
  let held := Config.freeWord s.heldDraw
  { ad := adPins s held
    a := aPins s w
    bheN := bhePin s w
    rdN := rdPin s w
    ctl := match s.mode with
      | .min => .min (minPins s w)
      | .max => .max (maxPins fresh s w) }

/-! ## The 8288 (42_max_mode_control.md R192)

To the model it is a function of the code of the cycle and the T-state onto the minimum-mode control signals. -/

/-- The system control signals of maximum mode. -/
structure SysCtl where
  mio : Option Bool
  dtr : Option Bool
  denN : Bool
  ale : Bool
  rdN : Bool
  wrN : Bool
  intaN : Bool
  deriving DecidableEq, Repr

/-- The bus-cycle type of a code; none is "passive" or no code of the table. -/
def kindOfCode (e : SEnc) (c : BitVec 3) : Option Kind :=
  if c = e.passive then none
  else if c = e.ack then some .ack
  else if c = e.ioRead then some .ioRead
  else if c = e.ioWrite then some .ioWrite
  else if c = e.halt then some .halt
  else if c = e.fetch then some .fetch
  else if c = e.memRead then some .memRead
  else if c = e.memWrite then some .memWrite
  else none

/-- What the 8288 produces in a T-state of a cycle announced with code `c`; `none` is a level the spec leaves open: M/IO# and
DT/R# of an acknowledge or halt cycle, both in Idle (40_address_data_bus.md R133, 93 U2), where the code may already be the coming
cycle's, and M/IO# in T4, this cycle's level or the next one's (41_min_mode_control.md R154, 93 U3). That R192 carries the
openness of U2 and U3 over to the 8288 is DEDUCED: R154 has no column for Idle (log 33). -/
def ctl8288 (e : SEnc) (c : BitVec 3) (b : BusState) : SysCtl :=
  match kindOfCode e c with
  | none => { mio := none, dtr := none, denN := true, ale := false, rdN := true, wrN := true, intaN := true }
  | some k =>
    let low := strobeState b
    { mio := if b = .t4 ∨ b = .idle then none else match k with
        | .memRead => some true
        | .fetch => some true
        | .memWrite => some true
        | .ioRead => some false
        | .ioWrite => some false
        | .ack => none
        | .halt => none
      dtr := if b = .idle then none else match k with
        | .memRead => some false
        | .fetch => some false
        | .ioRead => some false
        | .memWrite => some true
        | .ioWrite => some true
        | .ack => none
        | .halt => none
      denN := !(low && (k.reads || k.writes || decide (k = .ack)))
      ale := decide (b = .t1)
      rdN := !(low && k.reads)
      wrN := !(low && k.writes)
      intaN := !(low && decide (k = .ack)) }

end Sys2Proof.Machine
end

