-- ==== Sys2Proof/Machine/Cycle.lean ====
section
/-! DEFINITION. The T-states of a bus cycle (spec/40_address_data_bus.md R120, R121) and of the interrupt-acknowledge
sequence (spec/60_exceptions.md R220), as shared operations of the meanings. -/

namespace Sys2Proof.Machine

/-- The events of a T-state that begins outside RESET: a rising edge of NMI is latched (60_exceptions.md R224), a request
on RQ#/GT# is remembered (42_max_mode_control.md R188, R193), also one on the line that already has the bus, which is granted
again after its release (a DESIGN CHOICE, since R188 speaks of a request while `granted = none`; log 17), the lock level is taken while the 8086 owns the bus (R193), the
core's requests are queued, its register writes done and the queue used (log 7). In TW the lock level holds
(43_common_control.md R205); inside a locked sequence it is on (20_memory.md R93). A level that the core raises while the bus is
given away has no effect in HoldAck, where `lock_active` is 0, is not remembered, and is taken in the Idle state after the release if
it is still up: a DESIGN CHOICE, since 10_state.md R59 and R193 speak only of the time in which the 8086 owns the bus (log 37). -/
def takeEvents (b : BusState) (f : Frame) (s : State) : State :=
  useQueue f.qAct (writeRegs
    { s with
      now := f
      nmiPending := s.nmiPending || (f.nmi && !s.now.nmi)
      rqPending0 := s.rqPending0 || (f.rq0 && decide (s.mode = .max))
      rqPending1 := s.rqPending1 || (f.rq1 && decide (s.mode = .max))
      lockActive := if b = .tw then s.lockActive
        else (f.lock || s.lockHeld) && decide (s.mode = .max) && decide (b ≠ .holdAck)
      program := s.program ++ f.requests
      qsShown := s.qAct } f.regWrites)

/-- A T-state begins: its frame is taken, in RESET without any event (70_reset_and_hazards.md R256). -/
def absorb (b : BusState) (f : Frame) (s : State) : State :=
  if b = .inReset then { s with now := f } else takeEvents b f s

/-- The coming T-state but for its pins: bus state, inputs, events, a fresh free value (for AD15..AD0 none in TW, log 34). -/
def settle (b : BusState) (s : State) : State :=
  { absorb b (nextFrame s) { s with inputs := s.inputs.tail } with
    busState := b, draws := s.draws + 1, heldDraw := if b = .tw then s.heldDraw else s.draws + 1 }

/-- The coming T-state, with what the 8086 drives in it. -/
def enter (b : BusState) (s : State) : State :=
  { settle b s with pins := pinsOf (decide (b = .holdAck) && decide (s.busState ≠ .holdAck)) (settle b s) }

/-- The bus interface takes an operation: cur_op, cur_addr, cur_lanes, cur_wdata, the segment in use (10_state.md R55,
40_address_data_bus.md R128). -/
def loadOp (i : Instr) (s : State) : State :=
  { s with
    curOp := some i
    curAddr := addrOf i
    curLanes := lanesOfInstr i
    curWdata := onLanes (lanesOfInstr i) (wdataOf i) ((Config.freeData s.draws).extractLsb' 0 16)
    curSeg := some (segOf i)
    idleDrive := none }

/-- A T-state inside the cycle of `i`. -/
def during (i : Instr) (s t : State) : Host.Outcome State Fault Refusal :=
  if s.curOp = some i then .next t else .fault .overlap

/-- One T-state of a bus cycle that moves no acknowledge: T1 from Idle or T4, then as R120 says; `finish` is what the
cycle has done when READY is seen in T3 or TW. A transfer that selects no lane faults where its T1 would begin, and in T1
(30_encoding.md R109). While the bus is given away the operation waits (41_min_mode_control.md R171). -/
def runCycle (i : Instr) (transfer : Bool) (finish : State → State) (s : State) : Host.Outcome State Fault Refusal :=
  match s.busState with
  | .idle => if transfer && decide (lanesOfInstr i = .none) then .fault .laneNone else .next (enter .t1 (loadOp i s))
  | .t4 => if transfer && decide (lanesOfInstr i = .none) then .fault .laneNone else .next (enter .t1 (loadOp i s))
  | .t1 =>
    if transfer && decide (s.curLanes = .none) then .fault .laneNone
    else during i s (enter .t2 (latchAddress s))
  | .t2 => during i s (enter .t3 s)
  | .t3 => during i s (if s.now.ready then enter .t4 (finish s) else enter .tw s)
  | .tw => during i s (if s.now.ready then enter .t4 (finish s) else enter .tw s)
  | .holdAck => .next (enter .holdAck s)
  | .inReset => .next (enter .inReset s)

/-- What a read of memory or I/O hands to the core: `rdata`, and the value of MemRead or IoRead
(40_address_data_bus.md R121, 20_memory.md R80). -/
def finishRead (s : State) : State :=
  { s with rdata := busIn s, result := joinPart s.curPart s.curLanes (busIn s) s.result }

/-- What a fetch does: its bytes go to the instruction queue, in address order (42_max_mode_control.md R184). A fetch that was in
progress when the core emptied the queue puts its bytes there like any other: a DESIGN CHOICE, since R184 and 20_memory.md R94 do
not say whether they are discarded (log 23). -/
def finishFetch (s : State) : State :=
  { s with rdata := busIn s, queue := s.queue ++ laneBytes s.curLanes (busIn s) }

/-- What a memory write does: the memory stores the selected lanes (41_min_mode_control.md R151, 20_memory.md R81). -/
def finishMemWrite (s : State) : State :=
  { s with mem := storeLanes s.mem s.curAddr s.curLanes s.curWdata }

/-- What an I/O write or a halt cycle leaves in the 8086: nothing (41_min_mode_control.md R153, 42 R183; log 10). -/
def finishNothing (s : State) : State := s

/-- The end of an acknowledge cycle: nothing after the first; the type, from AD7..AD0, after the second, and the
interrupt is taken (60_exceptions.md R220 to R222). -/
def finishAck (s : State) : Host.Outcome State Fault Refusal :=
  match s.ackPhase with
  | .first => .next (enter .t4 s)
  | .second => .next (enter .t4 (takeInterrupt (lowIn s) { s with ackType := lowIn s, ackPhase := .none }))
  | _ => .fault .noOperation

/-- One T-state of the acknowledge sequence (60_exceptions.md R220): two cycles, with `ackGap` Idle states between. -/
def runAck (i : Instr) (s : State) : Host.Outcome State Fault Refusal :=
  let second := Host.Outcome.next (enter .t1 { loadOp i s with ackPhase := .second })
  let boundary :=
    match s.ackPhase with
    | .first =>
      match s.params.ackGap with
      | 0 => second
      | g + 1 => .next (enter .idle { s with ackPhase := .gap g, idleDrive := none })
    | .gap 0 => second
    | .gap (n + 1) => .next (enter .idle { s with ackPhase := .gap n, idleDrive := none })
    | _ => .next (enter .t1 { loadOp i s with ackPhase := .first })
  match s.busState with
  | .idle => boundary
  | .t4 => boundary
  | .t1 => during i s (enter .t2 (latchAddress s))
  | .t2 => during i s (enter .t3 s)
  | .t3 => if s.curOp = some i then (if s.now.ready then finishAck s else .next (enter .tw s)) else .fault .overlap
  | .tw => if s.curOp = some i then (if s.now.ready then finishAck s else .next (enter .tw s)) else .fault .overlap
  | .holdAck => .next (enter .holdAck s)
  | .inReset => .next (enter .inReset s)

/-- One T-state with no bus cycle, M/IO# and DT/R# at the levels `x` where they are given (40_address_data_bus.md R133,
30_encoding.md R105). -/
def runIdle (x : Option (BitVec 2)) (s : State) : Host.Outcome State Fault Refusal :=
  match s.busState with
  | .idle => .next (enter .idle { s with curOp := none, idleDrive := x })
  | .t4 => .next (enter .idle { s with curOp := none, idleDrive := x })
  | .holdAck => .next (enter .holdAck s)
  | .inReset => .next (enter .inReset s)
  | _ => .fault .overlap

/-- The lane selection of a LANE pattern (30_encoding.md R104, 20_memory.md R75): `cur_lanes` of the transfer in T1, or,
from T4 or Idle, announced in an Idle state. No lane is a fault (R109); outside T1 nothing samples the pattern
(30_encoding.md R103; log 19). -/
def runLane (l : Lanes) (s : State) : Host.Outcome State Fault Refusal :=
  if l = .none then .fault .laneNone
  else
    match s.busState with
    | .t1 => .next { s with curLanes := l }
    | .idle => .next (enter .idle { s with curOp := none, idleDrive := none, curLanes := l })
    | .t4 => .next (enter .idle { s with curOp := none, idleDrive := none, curLanes := l })
    | .holdAck => .next (enter .holdAck s)
    | .inReset => .next (enter .inReset s)
    | _ => .fault .notSampled

/-- A pattern of S2#, S1#, S0# exists in maximum mode only (10_state.md R22, 30_encoding.md R107). -/
def inMaxMode (s : State) (o : Host.Outcome State Fault Refusal) : Host.Outcome State Fault Refusal :=
  match s.mode with
  | .max => o
  | .min => .refused .maxModeOnly

end Sys2Proof.Machine
end

