-- ==== Sys2Proof/Machine/Acknowledge.lean ====
section
/-! DEFINITION. The interrupt-acknowledge sequence (spec/60_exceptions.md R219 to R222, spec/42_max_mode_control.md R194). -/

namespace Sys2Proof.Machine

/-- INTA (60_exceptions.md R220). -/
def execInta (m d : Bool) (s : State) : Host.Outcome State Fault Refusal :=
  runAck (.inta m d) s

/-- S.INTA (42_max_mode_control.md R194): the same sequence, announced by its status code. -/
def execSInta (s : State) : Host.Outcome State Fault Refusal :=
  inMaxMode s (runAck .sInta s)

end Sys2Proof.Machine
end

