-- ==== Sys2Proof/Machine/LanePatterns.lean ====
section
/-! DEFINITION. The lane patterns BHE# ++ AD0 (spec/20_memory.md R75, spec/30_encoding.md R104; log 19). -/

namespace Sys2Proof.Machine

/-- LANE.BOTH: 16 bits on AD15..AD0. -/
def execLaneBoth (s : State) : Host.Outcome State Fault Refusal := runLane .both s

/-- LANE.HIGH: 8 bits on AD15..AD8. -/
def execLaneHigh (s : State) : Host.Outcome State Fault Refusal := runLane .high s

/-- LANE.LOW: 8 bits on AD7..AD0. -/
def execLaneLow (s : State) : Host.Outcome State Fault Refusal := runLane .low s

/-- LANE.NONE: no lane; a model that decodes it reports a fault (20_memory.md R75, 30_encoding.md R109). -/
def execLaneNone (s : State) : Host.Outcome State Fault Refusal := runLane .none s

end Sys2Proof.Machine
end

