-- ==== Sys2Proof/Machine/MaxTransfers.lean ====
section
/-! DEFINITION. The bus-cycle types of format MAXS (spec/42_max_mode_control.md R181 to R187). -/

namespace Sys2Proof.Machine

/-- S.IOR (42_max_mode_control.md R181). -/
def execSIor (port : Port) (bheN : Bool) (s : State) : Host.Outcome State Fault Refusal :=
  inMaxMode s (runCycle (.sIor port bheN) true finishRead s)

/-- S.IOW (R182). -/
def execSIow (port : Port) (bheN : Bool) (wdata : Word) (s : State) : Host.Outcome State Fault Refusal :=
  inMaxMode s (runCycle (.sIow port bheN wdata) true finishNothing s)

/-- S.HALT (R183): no address, no data (log 21). -/
def execSHalt (s : State) : Host.Outcome State Fault Refusal :=
  inMaxMode s (runCycle .sHalt false finishNothing s)

/-- S.FETCH (R184). -/
def execSFetch (addr : Addr) (bheN : Bool) (s : State) : Host.Outcome State Fault Refusal :=
  inMaxMode s (runCycle (.sFetch addr bheN) true finishFetch s)

/-- S.MEMR (R185). -/
def execSMemr (addr : Addr) (bheN : Bool) (seg : Seg) (s : State) : Host.Outcome State Fault Refusal :=
  inMaxMode s (runCycle (.sMemr addr bheN seg) true finishRead s)

/-- S.MEMW (R186). -/
def execSMemw (addr : Addr) (bheN : Bool) (seg : Seg) (wdata : Word) (s : State) : Host.Outcome State Fault Refusal :=
  inMaxMode s (runCycle (.sMemw addr bheN seg wdata) true finishMemWrite s)

/-- S.PASSIVE (R187): no bus cycle. -/
def execSPassive (s : State) : Host.Outcome State Fault Refusal :=
  inMaxMode s (runIdle none s)

end Sys2Proof.Machine
end

