-- ==== Sys2Proof/Machine/MinTransfers.lean ====
section
/-! DEFINITION. The four transfers and IDLE: format MINCTL (spec/41_min_mode_control.md R150 to R153, spec/30_encoding.md
R105). Named as operations (30_encoding.md R101), they run in both wirings: in Max they are announced by the status code
of their type (spec/42_max_mode_control.md R181 to R186, examples; log 20). -/

namespace Sys2Proof.Machine

/-- MEMR (41_min_mode_control.md R150); a fetch is a MEMR with seg = CS. -/
def execMemr (addr : Addr) (bheN : Bool) (use : ReadUse) (s : State) : Host.Outcome State Fault Refusal :=
  match use with
  | .data g => runCycle (.memr addr bheN (.data g)) true finishRead s
  | .fetch => runCycle (.memr addr bheN .fetch) true finishFetch s

/-- MEMW (R151). -/
def execMemw (addr : Addr) (bheN : Bool) (seg : Seg) (wdata : Word) (s : State) : Host.Outcome State Fault Refusal :=
  runCycle (.memw addr bheN seg wdata) true finishMemWrite s

/-- IOR (R152). -/
def execIor (port : Port) (bheN : Bool) (s : State) : Host.Outcome State Fault Refusal :=
  runCycle (.ior port bheN) true finishRead s

/-- IOW (R153). -/
def execIow (port : Port) (bheN : Bool) (wdata : Word) (s : State) : Host.Outcome State Fault Refusal :=
  runCycle (.iow port bheN wdata) true finishNothing s

/-- IDLE: no strobe, no bus cycle (30_encoding.md R105, 40_address_data_bus.md R133). -/
def execIdle (x : BitVec 2) (s : State) : Host.Outcome State Fault Refusal :=
  runIdle (some x) s

end Sys2Proof.Machine
end

