-- ==== Sys2Proof/Machine/Dispatch.lean ====
section
/-! DEFINITION. The meaning of every operation: one T-state of it (spec/30_encoding.md R113; log 1). -/

namespace Sys2Proof.Machine

def exec (i : Instr) (s : State) : Host.Outcome State Fault Refusal :=
  match i with
  | .memr addr bheN use => Sys2Proof.Machine.execMemr addr bheN use s
  | .memw addr bheN seg wdata => Sys2Proof.Machine.execMemw addr bheN seg wdata s
  | .ior port bheN => Sys2Proof.Machine.execIor port bheN s
  | .iow port bheN wdata => Sys2Proof.Machine.execIow port bheN wdata s
  | .inta m d => Sys2Proof.Machine.execInta m d s
  | .idle x => Sys2Proof.Machine.execIdle x s
  | .sInta => Sys2Proof.Machine.execSInta s
  | .sIor port bheN => Sys2Proof.Machine.execSIor port bheN s
  | .sIow port bheN wdata => Sys2Proof.Machine.execSIow port bheN wdata s
  | .sHalt => Sys2Proof.Machine.execSHalt s
  | .sFetch addr bheN => Sys2Proof.Machine.execSFetch addr bheN s
  | .sMemr addr bheN seg => Sys2Proof.Machine.execSMemr addr bheN seg s
  | .sMemw addr bheN seg wdata => Sys2Proof.Machine.execSMemw addr bheN seg wdata s
  | .sPassive => Sys2Proof.Machine.execSPassive s
  | .laneBoth => Sys2Proof.Machine.execLaneBoth s
  | .laneHigh => Sys2Proof.Machine.execLaneHigh s
  | .laneLow => Sys2Proof.Machine.execLaneLow s
  | .laneNone => Sys2Proof.Machine.execLaneNone s

end Sys2Proof.Machine
end

