-- ==== Sys2Proof/Machine/Fetch.lean ====
section
/-! DEFINITION. Placing one operation word so that the very next step runs it (log 5). -/

namespace Sys2Proof.Machine

/-- Inputs at which a step of a free bus takes the core's next request: no RESET, no hand-over, no contention, no event;
all other levels as they are. -/
def Frame.calm (mode : Mode) (f : Frame) : Frame :=
  { f with
    mnmx := mode.strap, reset := false, hold := false, devLo := none, devHi := none, ext := []
    rq0 := false, rq1 := false, instrEnd := false }

/-- RESET does not come in the coming T-state. -/
def calmHead : List Frame → List Frame
  | [] => []
  | f :: r => { f with reset := false } :: r

/-- The wiring a format needs: the MAXS patterns exist in maximum mode only (30_encoding.md R107). -/
def modeFor (f : Format) (m : Mode) : Mode :=
  match f with
  | .maxs => .max
  | .minctl => m
  | .lane => m

/-- The bus is free, nothing else is owed, the queue has room, and the word is the core's next request. -/
def freeBus (f : Format) (w : BitVec 64) (s : State) : State :=
  { s with
    mode := modeFor f s.mode
    busState := .idle, curOp := none, pendingOps := [], holdGranted := false, granted := none
    rqPending0 := false, rqPending1 := false, testWait := false
    ackPhase := .none, ackPending := false, endPending := false, entrySteps := [], restart := false
    queue := [], program := .word f w :: s.program
    now := Frame.calm (modeFor f s.mode) s.now, inputs := calmHead s.inputs }

/-- The same, with the pins this Idle state shows. -/
def placeWord (f : Format) (w : BitVec 64) (s : State) : State :=
  { freeBus f w s with pins := pinsOf false (freeBus f w s) }

end Sys2Proof.Machine
end

