-- ==== Sys2Proof/Machine/Step.lean ====
section
/-! DEFINITION. One step is one T-state (spec/00_scope.md R11, spec/92_eei_decisions.md D1; log 1). -/

namespace Sys2Proof.Machine

/-- What becomes of a plan. -/
def runPlan (p : Plan) : Host.Outcome State Fault Refusal :=
  match p with
  | .refuse r => .refused r
  | .stop f => .fault f
  | .go b t => .next (enter b t)
  | .run i t => exec i t

/-- The coming T-state. -/
def step (s : State) : Host.Outcome State Fault Refusal := runPlan (planStep s)

/-- `s` with one operation word, as the opcode table numbers it, as the core's next request (log 4, 5). -/
def State.withFetchWord (s : State) (nbits w : Nat) : State :=
  placeWord (tableFormat nbits w) (BitVec.ofNat 64 w) s

end Sys2Proof.Machine
end

