-- ==== Sys2Proof/Safety.lean ====
section
/-! DEFINITION. What the statements speak of: several T-states in a row, what an operation or a step leaves unchanged,
which pin patterns are legal (spec/30_encoding.md R109), the invariant of the bus interface. -/

namespace Sys2Proof.Machine

/-! ## Several T-states -/

/-- `n` steps, stopping at the first fault or refusal. -/
def runSteps : Nat → State → Host.Outcome State Fault Refusal
  | 0, s => .next s
  | n + 1, s =>
    match step s with
    | .next t => runSteps n t
    | .fault f => .fault f
    | .refused r => .refused r

/-! ## What the coming T-state may change by itself: its frame and the core's events -/

/-- The outside's frame brings nothing but levels: no event of the core and no RESET. -/
def plainFrame (f : Frame) : Bool :=
  !f.reset && f.regWrites.isEmpty && decide (f.qAct = .noop) && f.requests.isEmpty

/-- The registers of the core and the flags. -/
structure CoreRegs where
  cs : Word
  ds : Word
  ss : Word
  es : Word
  ip : Word
  fr : Word
  sp : Word
  deriving DecidableEq, Repr

/-- The registers of a state. -/
def coreRegs (s : State) : CoreRegs :=
  { cs := s.cs, ds := s.ds, ss := s.ss, es := s.es, ip := s.ip, fr := s.fr, sp := s.sp }

/-- The frame common to all operations: the wiring and the parameters, the registers and flags, the interrupt, reset and
hand-over state, and what is still to run, are as before; an NMI edge, a request of another master and the lock level are
taken from the coming T-state's inputs, as in every T-state. -/
structure SameCore (s t : State) : Prop where
  mode : t.mode = s.mode
  params : t.params = s.params
  regs : coreRegs t = coreRegs s
  holdGranted : t.holdGranted = s.holdGranted
  granted : t.granted = s.granted
  testWait : t.testWait = s.testWait
  waitStack : t.waitStack = s.waitStack
  ackPending : t.ackPending = s.ackPending
  entrySteps : t.entrySteps = s.entrySteps
  raised : t.raised = s.raised
  pendingOps : t.pendingOps = s.pendingOps
  program : t.program = s.program
  nmiPending : t.nmiPending = (s.nmiPending || ((nextFrame s).nmi && !s.now.nmi))
  rqPending0 : t.rqPending0 = (s.rqPending0 || ((nextFrame s).rq0 && decide (s.mode = .max)))
  rqPending1 : t.rqPending1 = (s.rqPending1 || ((nextFrame s).rq1 && decide (s.mode = .max)))
  lockHeld : t.lockHeld = s.lockHeld
  lockActive : t.lockActive = if t.busState = .tw then s.lockActive
    else ((nextFrame s).lock || s.lockHeld) && decide (s.mode = .max) && decide (t.busState ≠ .holdAck)
  endPending : t.endPending = s.endPending
  restart : t.restart = s.restart
  resetClks : t.resetClks = s.resetClks

/-- Every byte of memory reads as before. -/
def SameMemory (s t : State) : Prop := ∀ a : Addr, readMem t a = readMem s a

/-- What a T-state of an operation leaves as it was unless its own effect says otherwise: what was read last, the queue,
memory, the acknowledge sequence. -/
structure SameData (s t : State) : Prop where
  rdata : t.rdata = s.rdata
  result : t.result = s.result
  queue : t.queue = s.queue
  memory : SameMemory s t
  ackPhase : t.ackPhase = s.ackPhase
  ackType : t.ackType = s.ackType

/-! ## When a step does what the bus asks for -/

/-- Nothing from outside cuts in at the end of this T-state: the strap is where it was, RESET does not come, no driver is
in the way, and the pins show no illegal pattern. -/
structure Undisturbed (s : State) : Prop where
  strap : s.now.mnmx = s.mode.strap
  noReset : (nextFrame s).reset = false
  active : s.busState ≠ .inReset
  noViolation : violation s = none

/-- No interrupt is served at the end of this T-state: none can be, or no non-maskable request waits and INTR = 0 or IF = 0
(60_exceptions.md R217, R218, R224). An instruction may end in it. -/
def NoneServed (s : State) : Prop :=
  canServe s = false ∨ (s.nmiPending = false ∧ (s.now.intr = false ∨ ifOf s.fr = false))

/-- The bus is free at the end of this T-state, and neither a hand-over, a served interrupt, a TEST# wait, the restart fetch nor
the rest of a split access comes first. -/
structure BusFree (s : State) : Prop where
  undisturbed : Undisturbed s
  boundary : s.busState = .idle ∨ s.busState = .t4
  noAck : s.ackPhase = .none
  noHandOver : handOver s = none
  noRest : s.pendingOps = []
  noRestart : s.restart = false
  noAckPending : s.ackPending = false
  noneServed : NoneServed s
  noWait : s.testWait = false

/-- The same, and InterruptEntry has nothing to do: the core's next request is served. -/
structure AtRequest (s : State) : Prop where
  free : BusFree s
  noEntry : s.entrySteps = []

/-- The core asks for no acknowledge sequence next: neither the operation still to run nor the word at the head of its requests
is INTA or S.INTA. -/
structure NoAckAsked (s : State) : Prop where
  rest : ∀ it r, s.pendingOps = it :: r → kindOf it.instr ≠ some .ack
  head : ∀ f w r i, s.program = .word f w :: r → decode f w = .ok i → kindOf i ≠ some .ack

/-- The registers that a step of InterruptEntry or of the return writes (60_exceptions.md R228, R229; log 14). -/
def EntryStep.writes : EntryStep → List Reg
  | .pushFr => [.sp]
  | .pushCs => [.sp, .fr]
  | .pushIp => [.sp]
  | .readIp _ => []
  | .readCs _ => [.ip]
  | .entered => [.cs]
  | .popIp => [.sp]
  | .popCs => [.sp, .ip]
  | .popFr => [.sp, .cs]
  | .returned => [.fr]

/-- The step from `s` to `t` is the last one of InterruptEntry or of the return, which empties the queue. -/
def EntryEnds (s t : State) : Prop :=
  (s.entrySteps.head? = some .entered ∨ s.entrySteps.head? = some .returned) ∧ t.entrySteps.length < s.entrySteps.length

/-- The coming T-state is the T1 of the first of some operations, and the others are still to run. -/
def Opens (items : List Item) (t : State) : Prop :=
  ∃ it r, items = it :: r ∧ t.busState = .t1 ∧ t.curOp = some it.instr ∧ t.curPart = it.part ∧ t.pendingOps = r

/-- A frame in which no device and no other master drives the bus, the strap is right and RESET is low; HOLD, INTR, NMI,
TEST#, READY, the request lines and the core's events are any. -/
structure QuietFrame (m : Mode) (f : Frame) : Prop where
  strap : f.mnmx = m.strap
  noReset : f.reset = false
  noLo : f.devLo = none
  noHi : f.devHi = none
  noExt : f.ext = []

/-- The minimum-mode outputs shown, if there are any. -/
def minOf (p : Pins) : Option MinPins :=
  match p.ctl with
  | .min m => some m
  | .max _ => none

/-- The maximum-mode outputs shown, if there are any. -/
def maxOf (p : Pins) : Option MaxPins :=
  match p.ctl with
  | .max m => some m
  | .min _ => none

/-! ## Legal pin patterns (30_encoding.md R109) -/

/-- No two of RD#, WR#, INTA# are low, and a strobe agrees with DT/R#. -/
def minctlLegal (p : Pins) : Bool := !twoStrobesLow p && !strobeAgainst p

/-- S6, on A19, is 0. -/
def s6Low (p : Pins) : Bool :=
  match p.a with
  | some a => !a.getLsbD 3
  | none => true

/-- Every pin of `TRI(MODE)` (10_state.md R47) is Z. -/
def triFloated (p : Pins) : Bool :=
  decide (p.ad = none) && decide (p.a = none) && decide (p.bheN = none) && decide (p.rdN = none) &&
    match p.ctl with
    | .min m => decide (m.mio = none) && decide (m.dtr = none) && decide (m.denN = none) && decide (m.intaN = none)
        && decide (m.wrN = none)
    | .max m => decide (m.s = none) && decide (m.lockN = none)

/-- No strobe, no LOCK#, no ALE, no HLDA, no bus cycle: each is 1 or Z, as 70_reset_and_hazards.md R255 says. -/
def noneAsserted (e : SEnc) (p : Pins) : Bool :=
  !low p.rdN &&
    match p.ctl with
    | .min m => !low m.wrN && !low m.intaN && !low m.denN && !m.ale && !m.hlda
    | .max m => !low m.lockN && (decide (m.s = none) || decide (m.s = some e.passive))
        && decide (m.gt0N = none) && decide (m.gt1N = none)

/-! ## The invariant of the bus interface -/

/-- The bytes the fetch in progress will put in the queue. -/
def inFlight (s : State) : Nat :=
  if inCycle s.busState && decide (curKind s = some .fetch) then laneCount s.curLanes else 0

/-- The T-states in which a phase of the acknowledge sequence can be (60_exceptions.md R220). -/
def phaseFits (p : AckPhase) (b : BusState) : Bool :=
  match p with
  | .none => true
  | .first => inCycle b || decide (b = .t4)
  | .gap _ => decide (b = .idle)
  | .second => inCycle b

/-- The bus interface holds the operands of its operation (10_state.md R55): the address, the lanes, the segment register
in use, and on the selected lanes the data of a write. -/
structure Loaded (i : Instr) (s : State) : Prop where
  addr : s.curAddr = addrOf i
  lanes : s.curLanes = lanesOfInstr i
  seg : s.curSeg = some (segOf i)
  low : hasLow s.curLanes = true → s.curWdata.lo = (wdataOf i).lo
  high : hasHigh s.curLanes = true → s.curWdata.hi = (wdataOf i).hi

/-- What holds in every T-state: memory is canonical; the queue holds no more than QUEUE_DEPTH bytes, those of the fetch
in progress included; a bus cycle has an operation of this wiring and holds its operands, and a transfer selects a lane; inside an acknowledge sequence
that operation is the acknowledge, in the T-states the phase allows, and an acknowledge cycle is one of the two of a
sequence; no operation that is still to run is a fetch; the bus is given away exactly in HoldAck, never locked, and each
wiring has only its own kind of hand-over; LOCK# is active in a locked sequence; the pins show no illegal pattern; RESET is
high exactly in InReset, its clocks are counted there only, and it leaves the restart fetch owed; while that is owed no
cycle has begun and nothing else is. -/
structure Inv (s : State) : Prop where
  memory : Memory.wf s.mem = true
  queue : s.queue.length + inFlight s ≤ s.params.queueDepth
  cycle : inCycle s.busState = true → (curKind s).isSome = true
  wired : ∀ i, s.curOp = some i → i.format = .maxs → s.mode = .max
  loaded : ∀ i, s.curOp = some i → inCycle s.busState = true ∨ s.busState = .t4 → Loaded i s
  laned : ∀ k, inCycle s.busState = true → curKind s = some k → k.transfers = true → s.curLanes ≠ .none
  ack : s.ackPhase ≠ .none → curKind s = some .ack
  phase : phaseFits s.ackPhase s.busState = true
  acked : inCycle s.busState = true → curKind s = some .ack → s.ackPhase = .first ∨ s.ackPhase = .second
  pending : ∀ it ∈ s.pendingOps, kindOf it.instr ≠ some .fetch
  given : s.busState = .holdAck → s.lockActive = false ∧ (s.holdGranted = true ∨ s.granted ≠ none)
  owned : s.busState ≠ .holdAck → s.holdGranted = false ∧ s.granted = none
  minOnly : s.mode = .min → s.lockActive = false ∧ s.rqPending0 = false ∧ s.rqPending1 = false ∧ s.granted = none
  maxOnly : s.mode = .max → s.holdGranted = false
  locked : s.mode = .max → s.lockHeld = true → s.lockActive = true
  legal : observed s = none
  reset : s.busState = .inReset ↔ s.now.reset = true
  clocks : s.busState ≠ .inReset → s.resetClks = 0
  owed : s.busState = .inReset → s.restart = true
  first : s.restart = true → inCycle s.busState = false ∧ s.busState ≠ .t4 ∧ s.pendingOps = [] ∧ s.ackPhase = .none ∧
    s.ackPending = false ∧ s.entrySteps = []

end Sys2Proof.Machine
end

