-- ==== Sys2Proof/Certificates/Slice0/Obligations.lean ====
section
/-! DEFINITION. The statements for the provers. File numbers in the docstrings are those of spec/: 10 is
spec/10_state.md, and so on. A statement about the coming T-state supposes, where it says `plainFrame`, that the CPU core
brings no event of its own in that T-state. -/

open Sys2Proof Sys2Proof.Machine

/-! ## Encoding -/

/-- A word of each family, written out from the spec's patterns (30 R104, R105, 42 R180) and the operand fields of log 3,
decodes to the operation it stands for. -/
def Obligations.WordsDecode : Prop :=
  decode .minctl 0x6FFFF013 = .ok (.memr 0xFFFF0 false (.data .ds)) ∧
  decode .minctl 0x8FFFF013 = .ok (.memr 0xFFFF0 false .fetch) ∧
  decode .minctl 0x5A006123411D = .ok (.memw 0x12341 false .ds 0x5A00) ∧
  decode .minctl 0x0003F903 = .ok (.ior 0x03F9 false) ∧
  decode .minctl 0x00411000600D = .ok (.iow 0x0060 true 0x0041) ∧
  decode .minctl 0x16 = .ok (.inta true false) ∧
  decode .minctl 0x17 = .ok (.idle 2) ∧
  decode .maxs 0x0FFFF004 = .ok (.sFetch 0xFFFF0 false) ∧
  decode .maxs 0x61234505 = .ok (.sMemr 0x12345 false .ds) ∧
  decode .maxs 0x123461234006 = .ok (.sMemw 0x12340 false .ds 0x1234) ∧
  decode .maxs 0x3 = .ok .sHalt ∧
  decode .lane 0x1 = .ok .laneHigh ∧
  decode .lane 0x2 = .ok .laneLow

/-- Decoding what was encoded gives every operation back, with every operand at every value (30 R103 to R107; the operand
fields are the model's, log 3). -/
def Obligations.DecodeEncode : Prop :=
  ∀ i : Instr, decode i.format (encode i) = .ok i

/-- Every word that is an operation is the word of that operation: no bit of it is dropped and each has one meaning. Which bits
are operand fields, and that a word with any other bit set is refused, is the model's choice (log 3). -/
def Obligations.EncodeDecode : Prop :=
  ∀ (f : Format) (w : BitVec 64) (i : Instr), decode f w = .ok i → i.format = f ∧ encode i = w

/-- Illegal patterns (30 R109, 92 D30): more than one strobe low, RD# low with DT/R# = 1 or WR# low with DT/R# = 0, and
A19..A16 not 0 in one of the four I/O patterns (IOR, IOW, S.IOR, S.IOW) are no operations; an operation with lane pattern `11` is not well formed; and every code of
S2#, S1#, S0# and every pattern of BHE#, AD0 has a meaning. -/
def Obligations.IllegalPatterns : Prop :=
  (∀ w : BitVec 64, (w.getLsbD 2 = false ∧ w.getLsbD 1 = false) ∨ (w.getLsbD 2 = false ∧ w.getLsbD 0 = false) ∨
      (w.getLsbD 1 = false ∧ w.getLsbD 0 = false) → ∃ e, decode .minctl w = .error e) ∧
  (∀ w : BitVec 64, (w.getLsbD 2 = false ∧ w.getLsbD 3 = true) ∨ (w.getLsbD 1 = false ∧ w.getLsbD 3 = false) →
      ∃ e, decode .minctl w = .error e) ∧
  (∀ w : BitVec 64, (w.extractLsb' 0 5 = 0b00011#5 ∨ w.extractLsb' 0 5 = 0b01101#5) → w.extractLsb' 24 4 ≠ 0 →
      ∃ e, decode .minctl w = .error e) ∧
  (∀ w : BitVec 64, (w.extractLsb' 0 3 = 0b001#3 ∨ w.extractLsb' 0 3 = 0b010#3) → w.extractLsb' 24 4 ≠ 0 →
      ∃ e, decode .maxs w = .error e) ∧
  (∀ (i : Instr) (k : Kind), kindOf i = some k → k.transfers = true → lanesOfInstr i = .none → i.wellFormed = false) ∧
  (∀ p : BitVec 3, ∃ i, decode .maxs (p.setWidth 64) = .ok i) ∧
  (∀ p : BitVec 2, ∃ i, decode .lane (p.setWidth 64) = .ok i)

/-! ## The step -/

/-- A step runs the decoded operation: where the bus is free and the core's next request is a word that decodes to `i` (if a
fetch, one the queue has room for), the step is `exec i` on the state with that request taken and an end of an instruction kept from a
hold dealt with: so it is too where an instruction ends and no interrupt is served (60 R217, 95 V62); and inside the cycle of `i` the
step is `exec i` on the state after this T-state's look at TEST# and at the interrupt requests. And placing one word of the opcode
table (log 4, 5) makes the very next step run the operation that word decodes to, if the queue is deep enough for a fetch. -/
def Obligations.StepRunsDecoded : Prop :=
  (∀ (s : State) (f : Format) (w : BitVec 64) (i : Instr) (rest : List Req), AtRequest s → s.program = .word f w :: rest →
      decode f w = .ok i → hasRoom s i = true → step s = exec i { s with program := rest, curPart := .whole, endPending := false }) ∧
  (∀ (s : State) (i : Instr), Undisturbed s → inCycle s.busState = true → s.curOp = some i →
      step s = exec i (poll (sampleTest s))) ∧
  (∀ (s : State) (nbits w : Nat) (i : Instr), decodeTableWord nbits w = some i → 2 ≤ s.params.queueDepth →
    ∃ u, step (s.withFetchWord nbits w) = exec i u ∧ u.busState = .idle ∧ u.program = s.program ∧ u.mem = s.mem)

/-- `next(T1) = T2`, `next(T2) = T3`, from T3 and TW to T4 if READY and else to TW, from T4 to T1, Idle or HoldAck (40 R120).
Inside a cycle the step always answers, if nothing from outside cuts in. -/
def Obligations.NextState : Prop :=
  (∀ s : State, Inv s → Undisturbed s → inCycle s.busState = true →
      ∃ t, step s = .next t ∧ t.curOp = s.curOp ∧
        (s.busState = .t1 → t.busState = .t2) ∧
        (s.busState = .t2 → t.busState = .t3) ∧
        (s.busState = .t3 → t.busState = if s.now.ready then .t4 else .tw) ∧
        (s.busState = .tw → t.busState = if s.now.ready then .t4 else .tw)) ∧
  (∀ s t : State, Inv s → Undisturbed s → s.busState = .t4 → step s = .next t →
      t.busState = .t1 ∨ t.busState = .idle ∨ t.busState = .holdAck)

/-- A cycle that has begun is `4 + n` T-states long when READY comes in the `n`-th wait state (30 R102, 40 R120, 43 R204),
whatever HOLD, INTR, NMI, TEST#, the request lines and the CPU core do meanwhile (20 R85); a memory read ends with the
memory's bytes on its lanes, and only a memory write changes memory, on its lanes only (20 R77, R81; byte order: decision D9).
That the halt cycle has these T-states too is the model's choice (log 21). -/
def Obligations.CycleRuns : Prop :=
  ∀ (n : Nat) (s : State) (i : Instr) (k : Kind), Inv s → QuietFrame s.mode s.now → s.busState = .t1 → s.curOp = some i →
    kindOf i = some k → k ≠ .ack →
    (∀ j < n + 3, ∃ f, s.inputs[j]? = some f ∧ QuietFrame s.mode f) →
    (∀ j < n, ∀ f, s.inputs[j + 1]? = some f → f.ready = false) →
    (∀ f, s.inputs[n + 1]? = some f → f.ready = true) →
    (∀ m ≤ n + 2, ∃ u, runSteps m s = .next u ∧ inCycle u.busState = true ∧ u.curOp = some i) ∧
    ∃ t, runSteps (n + 3) s = .next t ∧ t.busState = .t4 ∧ t.curOp = some i ∧
      (k.readsMemory = true → hasLow (lanesOfInstr i) = true → t.rdata.lo = readMem s (lowAddr (addrOf i))) ∧
      (k.readsMemory = true → hasHigh (lanesOfInstr i) = true → t.rdata.hi = readMem s (highAddr (addrOf i))) ∧
      ∀ a : Addr, readMem t a =
        if k = .memWrite ∧ hasLow (lanesOfInstr i) = true ∧ a = lowAddr (addrOf i) then (wdataOf i).lo
        else if k = .memWrite ∧ hasHigh (lanesOfInstr i) = true ∧ a = highAddr (addrOf i) then (wdataOf i).hi
        else readMem s a

/-- While READY stays low the 8086 stays in TW, for ever and without a fault (40 R120, 43 R204, 93 U11). That memory is unchanged
meanwhile, in the TW of a memory write too, is the model's choice: 41 R151 says only that memory stores while WR# is low (log 27). -/
def Obligations.WaitsWhileNotReady : Prop :=
  ∀ (n : Nat) (s : State), Inv s → s.busState = .t3 ∨ s.busState = .tw →
    (∀ f ∈ s.now :: s.inputs, QuietFrame s.mode f ∧ f.ready = false) →
    ∃ t, runSteps (n + 1) s = .next t ∧ t.busState = .tw ∧ t.curOp = s.curOp ∧ t.mem = s.mem

/-- READY is looked at only in T3 and TW: its level in any other T-state has no effect on the step (43 R204). -/
def Obligations.ReadyElsewhereIgnored : Prop :=
  ∀ (s : State) (r : Bool), Inv s → s.busState ≠ .t3 → s.busState ≠ .tw → s.inputs ≠ [] →
    step { s with now := { s.now with ready := r } } = step s

/-! ## Each operation completes, and changes nothing but what the rules say -/

/-- From Idle or T4 every transfer and the halt cycle open their T1 with their own operands (40 R121, 10 R55): MEMR, MEMW,
IOR, IOW in both wirings (log 20), S.IOR, S.IOW, S.HALT, S.FETCH, S.MEMR, S.MEMW in maximum mode; a transfer whose BHE# and AD0 select no lane is the one form that does not
(30 R109; `LaneTable`). R121 speaks of transfers only:
that the halt cycle opens a T1 like them, and all that it holds there, is the model's choice (log 21). -/
def Obligations.CycleOpens : Prop :=
  ∀ (i : Instr) (k : Kind) (s : State), kindOf i = some k → k ≠ .ack → (i.format = .maxs → s.mode = .max) →
    (k.transfers = true → lanesOfInstr i ≠ .none) → s.busState = .idle ∨ s.busState = .t4 →
    ∃ t, exec i s = .next t ∧ t.busState = .t1 ∧ t.curOp = some i ∧ Loaded i t ∧ t.curPart = s.curPart ∧
      (plainFrame (nextFrame s) = true → SameCore s t ∧ SameData s t)

/-- Inside its cycle every operation that runs one moves on: T1 to T2, T2 to T3, and from T3 or TW with READY = 0 to TW
(40 R120, 43 R204), and nothing else changes but the address latch at the end of T1. That memory is unchanged in T2, T3 and TW of MEMW and
S.MEMW is the model's choice, 41 R151 says only that it stores while WR# is low (log 27); and that the halt cycle has these T-states is
its choice too (log 21). -/
def Obligations.CycleAdvances : Prop :=
  ∀ (i : Instr) (k : Kind) (s : State), kindOf i = some k → (i.format = .maxs → s.mode = .max) → s.curOp = some i →
    (s.busState = .t1 ∧ (k.transfers = true → s.curLanes ≠ .none)) ∨ s.busState = .t2 ∨
      ((s.busState = .t3 ∨ s.busState = .tw) ∧ s.now.ready = false) →
    ∃ t, exec i s = .next t ∧
      t.busState = (if s.busState = .t1 then .t2 else if s.busState = .t2 then .t3 else .tw) ∧
      t.curOp = some i ∧ t.curAddr = s.curAddr ∧ t.curLanes = s.curLanes ∧ t.curWdata = s.curWdata ∧
      t.curSeg = s.curSeg ∧ t.curPart = s.curPart ∧
      (s.busState ≠ .t1 → t.latchAddr = s.latchAddr ∧ t.latchBheN = s.latchBheN) ∧
      (plainFrame (nextFrame s) = true → SameCore s t ∧ SameData s t)

/-- MEMR (a data read) and S.MEMR complete (41 R150, 42 R185, 40 R121): in T3 or TW with READY = 1 the next T-state is T4,
and each selected lane of `rdata` is the byte a device drives there, or else the memory's byte at the lane's address; that a
driven byte stands in the place of the memory's is the model's choice (log 9). `result` is the value of MemRead so far, a byte
or a word as wide as what was moved (20 R80, 30 R116; byte order: decision D9). No flag, no register, no byte of memory changes. -/
def Obligations.MemoryReadCompletes : Prop :=
  ∀ (i : Instr) (s : State), (∃ a b g, i = .memr a b (.data g)) ∨ ((∃ a b g, i = .sMemr a b g) ∧ s.mode = .max) →
    s.busState = .t3 ∨ s.busState = .tw → s.now.ready = true → s.curOp = some i →
    ∃ t, exec i s = .next t ∧ t.busState = .t4 ∧ t.curOp = some i ∧
      (hasLow s.curLanes = true → t.rdata.lo = s.now.devLo.getD (readMem s (lowAddr s.curAddr))) ∧
      (hasHigh s.curLanes = true → t.rdata.hi = s.now.devHi.getD (readMem s (highAddr s.curAddr))) ∧
      (s.curPart = .whole → s.curLanes = .both → t.result = .word t.rdata) ∧
      (s.curPart = .whole → s.curLanes = .high → t.result = .byte t.rdata.hi) ∧
      (s.curPart = .whole → s.curLanes = .low → t.result = .byte t.rdata.lo) ∧
      (s.curPart = .lowByte → s.curLanes = .high → t.result = .byte t.rdata.hi) ∧
      (∀ v, s.curPart = .highByte → s.curLanes = .low → s.result = .byte v → t.result = .word (Word.ofBytes t.rdata.lo v)) ∧
      (plainFrame (nextFrame s) = true →
        SameCore s t ∧ SameMemory s t ∧ t.queue = s.queue ∧ t.ackPhase = s.ackPhase ∧ t.ackType = s.ackType)

/-- MEMR with seg = CS as an instruction fetch and S.FETCH complete (41 R150, 42 R184): as a memory read (the byte that a device
drives stands in the place of the memory's, the model's choice, log 9), and the bytes of the selected lanes go to the end of the
instruction queue, the byte of the even address first (20 R78, decision D9). -/
def Obligations.FetchCompletes : Prop :=
  ∀ (i : Instr) (s : State), (∃ a b, i = .memr a b .fetch) ∨ ((∃ a b, i = .sFetch a b) ∧ s.mode = .max) →
    s.busState = .t3 ∨ s.busState = .tw → s.now.ready = true → s.curOp = some i →
    ∃ t, exec i s = .next t ∧ t.busState = .t4 ∧ t.curOp = some i ∧
      (hasLow s.curLanes = true → t.rdata.lo = s.now.devLo.getD (readMem s (lowAddr s.curAddr))) ∧
      (hasHigh s.curLanes = true → t.rdata.hi = s.now.devHi.getD (readMem s (highAddr s.curAddr))) ∧
      (plainFrame (nextFrame s) = true →
        t.queue = s.queue ++ (if hasLow s.curLanes then [t.rdata.lo] else []) ++
          (if hasHigh s.curLanes then [t.rdata.hi] else []) ∧
        SameCore s t ∧ SameMemory s t ∧ t.result = s.result ∧ t.ackPhase = s.ackPhase ∧ t.ackType = s.ackType)

/-- MEMW and S.MEMW complete (41 R151, 42 R186): in T3 or TW with READY = 1 the next T-state is T4, the memory holds the
byte of each selected lane at the lane's address (20 R77, R81), and every other byte reads as before. -/
def Obligations.MemoryWriteCompletes : Prop :=
  ∀ (i : Instr) (s : State), (∃ a b g v, i = .memw a b g v) ∨ ((∃ a b g v, i = .sMemw a b g v) ∧ s.mode = .max) →
    Memory.wf s.mem = true → s.busState = .t3 ∨ s.busState = .tw → s.now.ready = true → s.curOp = some i →
    ∃ t, exec i s = .next t ∧ t.busState = .t4 ∧ t.curOp = some i ∧
      (hasLow s.curLanes = true → readMem t (lowAddr s.curAddr) = s.curWdata.lo) ∧
      (hasHigh s.curLanes = true → readMem t (highAddr s.curAddr) = s.curWdata.hi) ∧
      (∀ a : Addr, ¬(hasLow s.curLanes = true ∧ a = lowAddr s.curAddr) →
        ¬(hasHigh s.curLanes = true ∧ a = highAddr s.curAddr) → readMem t a = readMem s a) ∧
      (plainFrame (nextFrame s) = true →
        SameCore s t ∧ t.rdata = s.rdata ∧ t.result = s.result ∧ t.queue = s.queue ∧ t.ackPhase = s.ackPhase ∧
          t.ackType = s.ackType)

/-- IOR and S.IOR complete (41 R152, 42 R181): in T3 or TW with READY = 1 the next T-state is T4 and each selected lane of
`rdata` is the byte the device drives (a lane nobody drives is any value, 93 U5, log 9). `result` is the value of IoRead so far, a
byte or a word as wide as what was moved (20 R80, R82, 30 R116): of an odd word the first cycle supplies the low byte, from the high
lane, and the second one the high byte, from the low lane (decisions D9, D11). Nothing else changes. -/
def Obligations.IoReadCompletes : Prop :=
  ∀ (i : Instr) (s : State), (∃ p b, i = .ior p b) ∨ ((∃ p b, i = .sIor p b) ∧ s.mode = .max) →
    s.busState = .t3 ∨ s.busState = .tw → s.now.ready = true → s.curOp = some i →
    ∃ t, exec i s = .next t ∧ t.busState = .t4 ∧ t.curOp = some i ∧
      (∀ v, s.now.devLo = some v → t.rdata.lo = v) ∧
      (∀ v, s.now.devHi = some v → t.rdata.hi = v) ∧
      (s.curPart = .whole → s.curLanes = .both → t.result = .word t.rdata) ∧
      (s.curPart = .whole → s.curLanes = .high → t.result = .byte t.rdata.hi) ∧
      (s.curPart = .whole → s.curLanes = .low → t.result = .byte t.rdata.lo) ∧
      (s.curPart = .lowByte → s.curLanes = .high → t.result = .byte t.rdata.hi) ∧
      (∀ v, s.curPart = .highByte → s.curLanes = .low → s.result = .byte v → t.result = .word (Word.ofBytes t.rdata.lo v)) ∧
      (plainFrame (nextFrame s) = true →
        SameCore s t ∧ SameMemory s t ∧ t.queue = s.queue ∧ t.ackPhase = s.ackPhase ∧ t.ackType = s.ackType)

/-- IOW and S.IOW (41 R153, 42 R182) and the halt cycle S.HALT (42 R183) complete: in T3 or TW with READY = 1 the next
T-state is T4, and no register, no flag and no byte of memory changes (the ports hold no state of the model, log 10). That the
halt cycle has T3, TW and T4, ended by READY, and changes nothing in the 8086 is the model's choice (log 21). -/
def Obligations.IoWriteAndHaltComplete : Prop :=
  ∀ (i : Instr) (s : State),
    (∃ p b v, i = .iow p b v) ∨ ((∃ p b v, i = .sIow p b v) ∧ s.mode = .max) ∨ (i = .sHalt ∧ s.mode = .max) →
    s.busState = .t3 ∨ s.busState = .tw → s.now.ready = true → s.curOp = some i →
    ∃ t, exec i s = .next t ∧ t.busState = .t4 ∧ t.curOp = some i ∧ t.curWdata = s.curWdata ∧
      (plainFrame (nextFrame s) = true → SameCore s t ∧ SameData s t)

/-- INTA and S.INTA complete (60 R220 to R222, 42 R194): the first cycle opens from T4 or Idle; it ends in T4 with the data bus
not read; then, with `ackGap` Idle states between (log 18), the second cycle opens; and it ends with the type number
that the device drives on AD7..AD0 (decision D25) handed to the core, `raise Interrupt(type)`. No register and no byte of
memory changes. What the raise does in the model is its own choice: a TEST# wait is left and remembered (log 16), and the default
InterruptEntry (R228), where the model runs it, is owed, step by step in this order: push FR, CS and IP, read IP and CS from the
vector of the type, and the end (log 14). -/
def Obligations.AcknowledgeCompletes : Prop :=
  ∀ (i : Instr) (s : State), (∃ m d, i = .inta m d) ∨ (i = .sInta ∧ s.mode = .max) →
    (s.busState = .idle ∨ s.busState = .t4 → s.ackPhase = .none →
      ∃ t, exec i s = .next t ∧ t.busState = .t1 ∧ t.curOp = some i ∧ t.ackPhase = .first ∧
        (plainFrame (nextFrame s) = true → SameCore s t ∧ SameMemory s t ∧ t.rdata = s.rdata ∧ t.queue = s.queue)) ∧
    (s.busState = .t3 ∨ s.busState = .tw → s.now.ready = true → s.curOp = some i → s.ackPhase = .first →
      ∃ t, exec i s = .next t ∧ t.busState = .t4 ∧ t.curOp = some i ∧
        (plainFrame (nextFrame s) = true → SameCore s t ∧ SameData s t)) ∧
    (s.busState = .idle ∨ s.busState = .t4 →
      (s.ackPhase = .first ∧ s.params.ackGap = 0) ∨ s.ackPhase = .gap 0 →
      ∃ t, exec i s = .next t ∧ t.busState = .t1 ∧ t.curOp = some i ∧ t.ackPhase = .second ∧
        (plainFrame (nextFrame s) = true → SameCore s t ∧ SameMemory s t ∧ t.rdata = s.rdata ∧ t.queue = s.queue)) ∧
    (s.busState = .idle ∨ s.busState = .t4 → s.curOp = some i →
      ∀ g, (s.ackPhase = .first ∧ s.params.ackGap = g + 1) ∨ s.ackPhase = .gap (g + 1) →
      ∃ t, exec i s = .next t ∧ t.busState = .idle ∧ t.curOp = some i ∧ t.ackPhase = .gap g ∧
        (plainFrame (nextFrame s) = true → SameCore s t ∧ SameMemory s t ∧ t.rdata = s.rdata ∧ t.queue = s.queue)) ∧
    (s.busState = .t3 ∨ s.busState = .tw → s.now.ready = true → s.curOp = some i → s.ackPhase = .second →
      ∃ t, exec i s = .next t ∧ t.busState = .t4 ∧ t.curOp = some i ∧ t.ackPhase = .none ∧
        t.raised = s.raised ++ [t.ackType] ∧ (∀ v, s.now.devLo = some v → t.ackType = v) ∧
        t.testWait = false ∧ t.waitStack = s.testWait :: s.waitStack ∧
        (s.params.entry = .core → t.entrySteps = s.entrySteps) ∧
        (s.params.entry = .sequence → t.entrySteps = s.entrySteps ++
          [.pushFr, .pushCs, .pushIp, .readIp t.ackType, .readCs t.ackType, .entered]) ∧
        t.mode = s.mode ∧ t.params = s.params ∧ t.rdata = s.rdata ∧ t.result = s.result ∧ SameMemory s t ∧
        t.pendingOps = s.pendingOps ∧ t.ackPending = s.ackPending ∧
        (plainFrame (nextFrame s) = true → coreRegs t = coreRegs s ∧ t.queue = s.queue ∧ t.program = s.program))

/-- IDLE (30 R105, 40 R133) and S.PASSIVE (42 R187) complete: from T4 or Idle comes an Idle state, no bus cycle, no strobe,
in minimum mode with M/IO# and DT/R# at the levels an IDLE pattern names (log 28), and nothing else changes. -/
def Obligations.IdleCompletes : Prop :=
  ∀ (i : Instr) (s : State), (∃ x, i = .idle x) ∨ (i = .sPassive ∧ s.mode = .max) →
    s.busState = .idle ∨ s.busState = .t4 →
    ∃ t, exec i s = .next t ∧ t.busState = .idle ∧ t.curOp = none ∧ t.pins.rdN = some true ∧
      (∀ x m, i = .idle x → minOf t.pins = some m →
        m.mio = some (x.getLsbD 1) ∧ m.dtr = some (x.getLsbD 0) ∧ m.wrN = some true ∧ m.intaN = some true ∧
          m.denN = some true ∧ m.ale = false ∧ m.hlda = false) ∧
      (plainFrame (nextFrame s) = true → SameCore s t ∧ SameData s t)

/-- LANE.BOTH, LANE.HIGH, LANE.LOW complete (20 R75, 30 R104): in T1 they are the lane selection of the cycle and change
nothing else; announced from T4 or Idle they show in an Idle state (log 19). -/
def Obligations.LanePatternsComplete : Prop :=
  ∀ (i : Instr) (l : Lanes) (s : State),
    (i = .laneBoth ∧ l = .both) ∨ (i = .laneHigh ∧ l = .high) ∨ (i = .laneLow ∧ l = .low) →
    (s.busState = .t1 → exec i s = .next { s with curLanes := l }) ∧
    (s.busState = .idle ∨ s.busState = .t4 →
      ∃ t, exec i s = .next t ∧ t.busState = .idle ∧ t.curLanes = l ∧ t.curOp = none ∧
        (plainFrame (nextFrame s) = true → SameCore s t ∧ SameData s t))

/-- The lanes of a pattern BHE# ++ AD0 in T1, and the fault for the pattern that selects none (20 R75): in every state
LANE.NONE faults, and a transfer with that pattern faults in T1 (30 R109). That it faults already in Idle or T4, where its T1 would begin, is the
model's choice: R109 and decision D30 speak of a pattern that stands on the pins (log 31). -/
def Obligations.LaneTable : Prop :=
  lanesOf false false = .both ∧ lanesOf false true = .high ∧ lanesOf true false = .low ∧ lanesOf true true = .none ∧
  (∀ s : State, exec .laneNone s = .fault .laneNone) ∧
  (∀ (i : Instr) (k : Kind) (s : State), kindOf i = some k → k.transfers = true → (i.format = .maxs → s.mode = .max) →
    (s.busState = .t1 ∧ s.curLanes = .none) ∨ ((s.busState = .idle ∨ s.busState = .t4) ∧ lanesOfInstr i = .none) →
    exec i s = .fault .laneNone)

/-- The patterns of S2#, S1#, S0# are refused in minimum mode, where those pins do not exist (10 R22, 30 R107; log 20). -/
def Obligations.MaxPatternsNeedMaxMode : Prop :=
  ∀ (i : Instr) (s : State), i.format = .maxs → s.mode = .min → exec i s = .refused .maxModeOnly

/-! ## What the pins carry -/

/-- T1 of a transfer: AD15..AD0 carry address bits 15..0 (40 R122), A19..A16 bits 19..16, which are 0 for an I/O port
(R125), and BHE# is 0 exactly when the high lane takes part (R130). -/
def Obligations.AddressPhase : Prop :=
  ∀ (s t : State) (i : Instr) (k : Kind), Inv s → step s = .next t → t.busState = .t1 → t.curOp = some i →
    kindOf i = some k → k.transfers = true →
    t.pins.ad = some ((addrOf i).extractLsb' 0 16) ∧
    t.pins.a = some ((addrOf i).extractLsb' 16 4) ∧
    (k = .ioRead ∨ k = .ioWrite → t.pins.a = some 0) ∧
    t.pins.bheN = some (!(hasHigh (lanesOfInstr i)))

/-- T2 to T4: in a write AD15..AD0 carry the write data on the selected lanes; in a read the 8086 does not drive them
(40 R123, R134; a lane not selected is any value, 93 U6). S4, S3 carry the `SEG_ENC` code of the segment register in use, that of CS
for a fetch (R128, for any code table, which D15 leaves open). For "none" they carry the code of CS: R128 and D15 have that in the
default table, and that it is so in every table is the model's choice (log 2), as is that a halt cycle shows "none" (log 21). BHE#/S7 is
any value, drawn anew in each of these T-states (R129, D18, 93 U1). In TW the outputs hold what they had in T3 or in the TW before (43
R205), but for S7 (drawn by D18: that D18 stands before R205 is the model's choice, log 34), S5, which follows IF, S2#..S0# (decision
D16) and QS1, QS0 (the clock, R191). -/
def Obligations.DataPhase : Prop :=
  (∀ (s t : State) (i : Instr) (k : Kind), Inv s → step s = .next t → dataPhase t.busState = true → t.curOp = some i →
    kindOf i = some k →
    (k.writes = true → ∃ v, t.pins.ad = some v ∧ (hasLow (lanesOfInstr i) = true → v.lo = (wdataOf i).lo) ∧
      (hasHigh (lanesOfInstr i) = true → v.hi = (wdataOf i).hi)) ∧
    (k.reads = true → t.pins.ad = none) ∧
    (t.draws = s.draws + 1 ∧ t.pins.bheN = some ((Config.freeWord t.draws).getLsbD 0)) ∧
    ∃ a, t.pins.a = some a ∧ a.extractLsb' 0 2 = segCode t.params.segEnc (segOf i)) ∧
  (∀ r s t : State, Inv r → step r = .next s → step s = .next t → t.busState = .tw →
    t.pins.ad = s.pins.ad ∧ t.pins.rdN = s.pins.rdN ∧ minOf t.pins = minOf s.pins ∧
    (∀ m n, maxOf s.pins = some m → maxOf t.pins = some n → n.lockN = m.lockN) ∧
    ∀ a b, s.pins.a = some a → t.pins.a = some b → b.getLsbD 3 = a.getLsbD 3 ∧ b.extractLsb' 0 2 = a.extractLsb' 0 2)

/-- AD15..AD0 are in high impedance in the whole of both interrupt-acknowledge cycles and in HoldAck (40 R124). -/
def Obligations.DataBusFloats : Prop :=
  ∀ s t : State, Inv s → step s = .next t →
    (curKind t = some .ack → inCycle t.busState = true ∨ t.busState = .t4 → t.pins.ad = none) ∧
    (t.busState = .holdAck → t.pins.ad = none)

/-- In T2, T3, TW and T4 A19..A16 carry the status: S6 is 0 (40 R126), S5 is the interrupt-enable flag as it is in that T-state
(R127; the flag's place in FR is log 13), and S4, S3 the code of the segment register in use (R128), in whatever code table `SEG_ENC` is
(D15 leaves it open). The code of CS stands for "none": R128 and D15 have that in the default table, and that it is so in every table
is the model's choice (log 2). -/
def Obligations.StatusBits : Prop :=
  ∀ s t : State, Inv s → step s = .next t → dataPhase t.busState = true →
    ∃ a, t.pins.a = some a ∧ a.getLsbD 3 = false ∧ a.getLsbD 2 = ifOf t.fr ∧
      ∀ g, t.curSeg = some g → a.extractLsb' 0 2 = segCode t.params.segEnc g

/-- RD# is 0 in T2, T3 and TW of a read of memory or I/O, in either mode, 1 at all other times while the 8086 owns the bus,
and Z in HoldAck (43 R200). -/
def Obligations.ReadStrobe : Prop :=
  ∀ s t : State, Inv s → step s = .next t →
    (ownsBus t.busState = true →
      ∃ r, t.pins.rdN = some r ∧ (r = false ↔ (t.busState = .t2 ∨ t.busState = .t3 ∨ t.busState = .tw) ∧
        (curKind t = some .memRead ∨ curKind t = some .fetch ∨ curKind t = some .ioRead))) ∧
    (t.busState = .holdAck → t.pins.rdN = none)

/-- WR# is 0 in T2, T3 and every TW of a memory or I/O write and 1 at all other times while the 8086 owns the bus; it is Z in
HoldAck (41 R162). -/
def Obligations.WriteStrobe : Prop :=
  ∀ (s t : State) (m : MinPins), Inv s → step s = .next t → minOf t.pins = some m →
    (ownsBus t.busState = true →
      ∃ r, m.wrN = some r ∧ (r = false ↔ (t.busState = .t2 ∨ t.busState = .t3 ∨ t.busState = .tw) ∧
        (curKind t = some .memWrite ∨ curKind t = some .ioWrite))) ∧
    (t.busState = .holdAck → m.wrN = none)

/-- INTA# is 0 in T2, T3 and every TW of each interrupt-acknowledge cycle and 1 at all other times while the 8086 owns the
bus; it is Z in HoldAck (60 R219, 41 R163). -/
def Obligations.AcknowledgeStrobe : Prop :=
  ∀ (s t : State) (m : MinPins), Inv s → step s = .next t → minOf t.pins = some m →
    (ownsBus t.busState = true →
      ∃ r, m.intaN = some r ∧ (r = false ↔ (t.busState = .t2 ∨ t.busState = .t3 ∨ t.busState = .tw) ∧
        curKind t = some .ack)) ∧
    (t.busState = .holdAck → m.intaN = none)

/-- ALE pulses in every T1 and is 0 in T2, T3, TW, T4, Idle and HoldAck (41 R160; that it does so in the T1 of an acknowledge cycle
is 60 R220 (a), decision D33); at its falling edge, inside that T1 and whatever comes next, the address latch takes the address and
BHE# of the transfer, and it changes at no other time. The latch as state, in maximum mode too, where the 8288 makes ALE (42 R192),
is log 35. -/
def Obligations.AddressLatch : Prop :=
  (∀ (s t : State) (m : MinPins), Inv s → step s = .next t → minOf t.pins = some m →
    (m.ale = true ↔ t.busState = .t1)) ∧
  (∀ (r s t : State) (i : Instr) (k : Kind), Inv r → step r = .next s → s.busState = .t1 → s.curOp = some i →
    kindOf i = some k → k.transfers = true → step s = .next t →
    t.latchAddr = addrOf i ∧ t.latchBheN = !(hasHigh (lanesOfInstr i))) ∧
  (∀ s t : State, Inv s → step s = .next t → s.busState ≠ .t1 → t.latchAddr = s.latchAddr ∧ t.latchBheN = s.latchBheN)

/-- M/IO# is 1 in T1, T2, T3, TW of a memory cycle and 0 in those of an I/O cycle, and Z in HoldAck (41 R155 to R157). -/
def Obligations.MemoryOrIo : Prop :=
  ∀ (s t : State) (m : MinPins) (k : Kind), Inv s → step s = .next t → minOf t.pins = some m →
    (inCycle t.busState = true → curKind t = some k → k.transfers = true →
      m.mio = some (decide (k = .memRead ∨ k = .fetch ∨ k = .memWrite))) ∧
    (t.busState = .holdAck → m.mio = none)

/-- The transceiver controls. DEN# is 1 in T1, 0 in T2, T3 and every TW of a transfer or acknowledge cycle, 1 in T4 and Idle (41
R159, R161, decision D7; 60 R220 (c)); DT/R# is 1 in a write and 0 in a read from T1 to T4 (41 R158, decision D6), so it never
changes while DEN# = 0 (70 R260 HZ10); both are Z in HoldAck. -/
def Obligations.TransceiverControl : Prop :=
  ∀ (s t : State) (m : MinPins), Inv s → step s = .next t → minOf t.pins = some m →
    (ownsBus t.busState = true →
      ∃ r, m.denN = some r ∧ (r = false ↔ (t.busState = .t2 ∨ t.busState = .t3 ∨ t.busState = .tw) ∧
        curKind t ≠ some .halt)) ∧
    (∀ k, inCycle t.busState = true ∨ t.busState = .t4 → curKind t = some k → k.transfers = true →
      m.dtr = some k.writes) ∧
    (t.busState = .holdAck → m.denN = none ∧ m.dtr = none)

/-- No step shows an illegal pattern (30 R109): no two strobes low, no strobe against DT/R#, never S6 = 1 where the pins carry status, in
T1 of a transfer never BHE# = 1 with AD0 = 1, and in T1 of an I/O cycle never A19..A16 other than 0. And where a state shows one of
these five while the 8086 owns the bus, the step stops with a fault of that name (93 U12; the
order in which they are looked for is log 31). That it stops so whatever comes next, RESET included, is the model's choice beside 60 R227
and 70 R250, which give RESET the first place (log 25). -/
def Obligations.PinsLegal : Prop :=
  (∀ s t : State, Inv s → step s = .next t →
    minctlLegal t.pins = true ∧ (dataPhase t.busState = true ∨ t.busState = .idle → s6Low t.pins = true) ∧
    ∀ k, t.busState = .t1 → curKind t = some k → k.transfers = true →
      (∃ b v, t.pins.bheN = some b ∧ t.pins.ad = some v ∧ ¬(b = true ∧ v.getLsbD 0 = true)) ∧
      (k = .ioRead ∨ k = .ioWrite → t.pins.a = some 0)) ∧
  (∀ s : State, s.now.mnmx = s.mode.strap → hazard s = none → ownsBus s.busState = true →
    (twoStrobesLow s.pins = true → step s = .fault .twoStrobes) ∧
    (twoStrobesLow s.pins = false → strobeAgainst s.pins = true → step s = .fault .strobeDirection) ∧
    (minctlLegal s.pins = true → dataPhase s.busState = true → s6Low s.pins = false → step s = .fault .s6High) ∧
    (∀ a, minctlLegal s.pins = true → s.busState = .t1 → curKind s = some .ioRead ∨ curKind s = some .ioWrite →
      s.pins.a = some a → a ≠ 0 → step s = .fault .ioAddressHigh) ∧
    (∀ k v, minctlLegal s.pins = true → s.busState = .t1 → curKind s = some k → k.transfers = true →
      (k = .ioRead ∨ k = .ioWrite → ∀ a, s.pins.a = some a → a = 0) →
      s.pins.bheN = some true → s.pins.ad = some v → v.getLsbD 0 = true → step s = .fault .laneNone))

/-- In HoldAck every pin of TRI(MODE) is Z, ALE is 0, and HLDA is 1 there and only there (10 R47, 41 R171, 42 R189; A19..A16 by
decision D8). -/
def Obligations.HoldAckFloats : Prop :=
  ∀ s t : State, Inv s → step s = .next t →
    (t.busState = .holdAck → triFloated t.pins = true) ∧
    (∀ m, minOf t.pins = some m → (m.hlda = true ↔ t.busState = .holdAck) ∧ (t.busState = .holdAck → m.ale = false))

/-- While RESET is high no strobe, no DEN#, no LOCK#, no ALE, no HLDA, no bus code and no grant is shown, and QS1, QS0 report
no operation (70 R255, decision D20). -/
def Obligations.ResetPins : Prop :=
  ∀ s t : State, Inv s → step s = .next t → t.busState = .inReset →
    noneAsserted t.params.sEnc t.pins = true ∧ (∀ m, maxOf t.pins = some m → m.qs = t.params.qsEnc.noop)

/-- S2#, S1#, S0# carry the code of the cycle in T1 and T2; in T3 and TW passive if READY ends the cycle there and the code if
not; in T4 or Idle the code of a cycle whose T1 comes next, and passive if none comes (42 R187, R192, decision D16, for
any code table). -/
def Obligations.StatusCode : Prop :=
  (∀ (s t : State) (m : MaxPins) (k : Kind), Inv s → step s = .next t → maxOf t.pins = some m → curKind t = some k →
    (t.busState = .t1 ∨ t.busState = .t2 → m.s = some (codeOf t.params.sEnc k)) ∧
    (t.busState = .t3 ∨ t.busState = .tw →
      m.s = some (if t.now.ready then t.params.sEnc.passive else codeOf t.params.sEnc k))) ∧
  (∀ (r s t : State) (m : MaxPins), Inv r → step r = .next s → maxOf s.pins = some m → step s = .next t →
    s.busState = .t4 ∨ s.busState = .idle → t.busState ≠ .inReset →
    (∀ k, t.busState = .t1 → curKind t = some k → m.s = some (codeOf s.params.sEnc k)) ∧
    (t.busState ≠ .t1 → m.s = some s.params.sEnc.passive))

/-- QS1, QS0 report in each clock the queue action of the clock before (42 R191, for any code table), in every T-state outside RESET:
they are never floated. And the action that is recorded for the next clock is what the core did to the queue: it took the byte at the
head (first byte of an instruction or a later one), handed out in `qOut`, or emptied the queue, or did nothing; a byte cannot be
taken from an empty queue (log 23). The bytes of a fetch that ends are in the queue before, also where the core emptied the queue while
it was in progress: the model's choice (log 23). So it is in the T-states of InterruptEntry and of the return too, but for the last
step of either, which empties the queue: that is then reported, at once and in the place of what the core did before, the model's choice
(log 23). -/
def Obligations.QueueStatus : Prop :=
  ∀ s t : State, Inv s → step s = .next t → t.busState ≠ .inReset →
    (¬EntryEnds s t →
      (∀ m, maxOf t.pins = some m → m.qs = qsCode t.params.qsEnc s.qAct) ∧
      ∀ q, q = (if t.busState = .t4 ∧ curKind s = some .fetch then s.queue ++ laneBytes s.curLanes t.rdata else s.queue) →
        ((nextFrame s).qAct = .noop → t.queue = q ∧ t.qAct = .noop ∧ t.qOut = none) ∧
        ((nextFrame s).qAct = .emptied → t.queue = [] ∧ t.qAct = .emptied ∧ t.qOut = none) ∧
        ((nextFrame s).qAct = .first ∨ (nextFrame s).qAct = .next →
          (∀ b r, q = b :: r → t.queue = r ∧ t.qAct = (nextFrame s).qAct ∧ t.qOut = some b) ∧
          (q = [] → t.queue = [] ∧ t.qAct = .noop ∧ t.qOut = none))) ∧
    (EntryEnds s t →
      (∀ m, maxOf t.pins = some m → m.qs = qsCode t.params.qsEnc .emptied) ∧ t.queue = [] ∧ t.qOut = none ∧
      t.qAct = if (nextFrame s).qAct = .emptied then .emptied else .noop) ∧
    (BusFree s → s.entrySteps.head? = some .entered ∨ s.entrySteps.head? = some .returned → EntryEnds s t)

/-- For any code table with eight different codes the 8288, the function of the code of a cycle and the T-state, produces in
each T-state of the cycle the control signals that a minimum-mode 8086 drives for an operation of the same kind (42 R192). A level
that the spec leaves open is any: M/IO# and DT/R# of an acknowledge or halt cycle, and M/IO# in T4 (41 R154, 93 U3; log 33). In Idle it
produces no strobe, no DEN# and no ALE, as a minimum-mode 8086 does (40 R133), whatever code shows, and leaves M/IO# and DT/R# open
(93 U2; that U2 holds of the 8288 too is log 33). -/
def Obligations.BusControllerAgrees : Prop :=
  (∀ (e : SEnc) (k : Kind) (s : State) (i : Instr) (m : MinPins), e.codes.Nodup → s.curOp = some i → kindOf i = some k →
    s.busState ≠ .idle → s.busState ≠ .holdAck → s.busState ≠ .inReset → minOf (pinsOf false s) = some m →
    let c := ctl8288 e (codeOf e k) s.busState
    (∀ v, c.mio = some v → m.mio = some v) ∧ (k.transfers = true → s.busState ≠ .t4 → c.mio.isSome = true) ∧
    (∀ v, c.dtr = some v → m.dtr = some v) ∧ (k.transfers = true → c.dtr.isSome = true) ∧
    m.denN = some c.denN ∧ m.ale = c.ale ∧ (pinsOf false s).rdN = some c.rdN ∧ m.wrN = some c.wrN ∧
    m.intaN = some c.intaN) ∧
  (∀ (e : SEnc) (c : BitVec 3) (s : State) (m : MinPins), s.busState = .idle → minOf (pinsOf false s) = some m →
    let x := ctl8288 e c .idle
    x.mio = none ∧ x.dtr = none ∧ m.denN = some x.denN ∧ m.ale = x.ale ∧ (pinsOf false s).rdN = some x.rdN ∧
    m.wrN = some x.wrN ∧ m.intaN = some x.intaN)

/-! ## Hand-over of the bus -/

/-- HOLD in minimum mode (41 R170, sampling by decision D32): at the end of T4 or Idle, outside an acknowledge sequence, a high
level is granted at once; the bus is never given away from another T-state, nor without HOLD. Its end (R172, decision D27): with
HOLD low the next T-state is Idle with HLDA = 0; with HOLD high the 8086 stays in HoldAck. -/
def Obligations.HoldIsServed : Prop :=
  (∀ s : State, Inv s → Undisturbed s → s.mode = .min → s.busState = .t4 ∨ s.busState = .idle → s.ackPhase = .none →
    s.now.hold = true → ∃ t, step s = .next t ∧ t.busState = .holdAck ∧ t.holdGranted = true ∧ t.mem = s.mem) ∧
  (∀ s t : State, Inv s → s.mode = .min → step s = .next t → t.busState = .holdAck → s.busState ≠ .holdAck →
    (s.busState = .t4 ∨ s.busState = .idle) ∧ s.now.hold = true) ∧
  (∀ s : State, Inv s → Undisturbed s → s.mode = .min → s.busState = .holdAck →
    ∃ t, step s = .next t ∧
      (s.now.hold = false → t.busState = .idle ∧ t.holdGranted = false ∧ ∀ m, minOf t.pins = some m → m.hlda = false) ∧
      (s.now.hold = true → t.busState = .holdAck ∧ t.holdGranted = true))

/-- RQ#/GT0# has priority over RQ#/GT1#: if both lines carry a request when the 8086 can grant, line 0 is granted, and line 1
waits, its request kept, as long as the master of line 0 does not release the bus (42 R190). When it can grant, in the T-state
after T4 or Idle, is R188 with decision D29 (log 17); not under LOCK# (R193) and not inside an acknowledge sequence (60 R220 (f)). -/
def Obligations.Line0BeforeLine1 : Prop :=
  (∀ s : State, Inv s → Undisturbed s → s.mode = .max → s.busState = .t4 ∨ s.busState = .idle → s.ackPhase = .none →
    s.lockActive = false → s.rqPending0 = true → s.rqPending1 = true →
    ∃ t, step s = .next t ∧ t.busState = .holdAck ∧ t.granted = some .line0 ∧ t.rqPending1 = true) ∧
  (∀ s : State, Inv s → Undisturbed s → s.mode = .max → s.busState = .holdAck → s.granted = some .line0 →
    s.rqPending1 = true → s.now.rel0 = false →
    ∃ t, step s = .next t ∧ t.busState = .holdAck ∧ t.granted = some .line0 ∧ t.rqPending1 = true)

/-- Request and grant in maximum mode (42 R188, decision D29): a pending request of one line alone is granted at the end of T4 or
Idle with the grant shown on its own line (as a low level in the first HoldAck T-state: the model's choice, P4 and D29 leave the
protocol abstract, log 17); the bus is given away from no other T-state, not under LOCK#, and only to a line that asked;
it stays away until the master that has it releases it, and that release gives it back. A request RQi sets its line's pending bit in
whatever T-state outside RESET it comes, HoldAck included, and the bit stays, through the other line's grant and release too, until that
line is granted (R188, R190; V49, V52, V53). That a request on the line that has the bus is remembered as well, and one that comes
in the T-state of the grant, is the model's choice (log 17). -/
def Obligations.RequestIsGranted : Prop :=
  (∀ (s : State) (l : Line), Inv s → Undisturbed s → s.mode = .max → s.busState = .t4 ∨ s.busState = .idle → s.ackPhase = .none →
    s.lockActive = false → s.rqPending0 = decide (l = .line0) → s.rqPending1 = decide (l = .line1) →
    ∃ t, step s = .next t ∧ t.busState = .holdAck ∧ t.granted = some l ∧
      ∀ m, maxOf t.pins = some m → (l = .line0 → m.gt0N = some false ∧ m.gt1N = none) ∧
        (l = .line1 → m.gt1N = some false ∧ m.gt0N = none)) ∧
  (∀ s t : State, Inv s → s.mode = .max → step s = .next t → t.busState = .holdAck → s.busState ≠ .holdAck →
    (s.busState = .t4 ∨ s.busState = .idle) ∧ s.lockActive = false ∧ s.ackPhase = .none ∧
      ((t.granted = some .line0 ∧ s.rqPending0 = true) ∨
        (t.granted = some .line1 ∧ s.rqPending1 = true ∧ s.rqPending0 = false))) ∧
  (∀ s : State, Inv s → Undisturbed s → s.mode = .max → s.busState = .holdAck →
    (s.granted = some .line0 → s.now.rel0 = true → ∃ t, step s = .next t ∧ t.busState = .idle ∧ t.granted = none) ∧
    (s.granted = some .line1 → s.now.rel1 = true → ∃ t, step s = .next t ∧ t.busState = .idle ∧ t.granted = none) ∧
    (s.granted = some .line0 → s.now.rel0 = false →
      ∃ t, step s = .next t ∧ t.busState = .holdAck ∧ t.granted = some .line0) ∧
    (s.granted = some .line1 → s.now.rel1 = false →
      ∃ t, step s = .next t ∧ t.busState = .holdAck ∧ t.granted = some .line1)) ∧
  (∀ s t : State, Inv s → s.mode = .max → step s = .next t → t.busState ≠ .inReset →
    (t.rqPending0 = true ↔
      t.now.rq0 = true ∨ (s.rqPending0 = true ∧ ¬(s.busState ≠ .holdAck ∧ t.granted = some .line0))) ∧
    (t.rqPending1 = true ↔
      t.now.rq1 = true ∨ (s.rqPending1 = true ∧ ¬(s.busState ≠ .holdAck ∧ t.granted = some .line1))))

/-- The bus lock (42 R193, 20 R86): LOCK# is 0 exactly while `lock_active`, as long as the 8086 owns the bus, and Z after a
grant; while it is active no grant is given in maximum mode, and a request stays pending (decision D28). Outside TW it is active when
the core asks for the level; in TW it keeps its value whatever the core asks for, by 43 R205 as the model reads it (log 34: DEDUCED,
unsafe in one point); and it is active in the whole of a locked sequence (20 R93), from the Idle state that the request `lock` makes, before the first T1,
to the request `unlock`, after the last T4 (log 37). -/
def Obligations.LockHoldsOffGrants : Prop :=
  (∀ (s t : State) (m : MaxPins), Inv s → step s = .next t → maxOf t.pins = some m →
    (ownsBus t.busState = true → m.lockN = some (!t.lockActive)) ∧ (t.busState = .holdAck → m.lockN = none)) ∧
  (∀ s t : State, Inv s → s.mode = .max → s.lockActive = true → step s = .next t →
    t.busState ≠ .holdAck ∧ (t.busState ≠ .inReset → (s.rqPending0 = true → t.rqPending0 = true) ∧
      (s.rqPending1 = true → t.rqPending1 = true))) ∧
  (∀ s t : State, Inv s → s.mode = .max → step s = .next t → ownsBus t.busState = true →
    (t.busState ≠ .tw → t.lockActive = ((nextFrame s).lock || t.lockHeld)) ∧ (t.busState = .tw → t.lockActive = s.lockActive) ∧
    (s.lockHeld = true → s.program.head? ≠ some .unlock → t.lockHeld = true ∧ t.lockActive = true)) ∧
  (∀ (s : State) (rest : List Req), AtRequest s → s.mode = .max →
    (s.program = .lock :: rest → ∃ t, step s = .next t ∧ t.busState = .idle ∧ t.lockHeld = true ∧ t.lockActive = true ∧
      t.program = rest ++ (nextFrame s).requests) ∧
    (s.program = .unlock :: rest → ∃ t, step s = .next t ∧ t.busState = .idle ∧ t.lockHeld = false ∧
      t.lockActive = (nextFrame s).lock ∧ t.program = rest ++ (nextFrame s).requests))

/-- No hold and no request is granted inside an acknowledge sequence, and no other operation runs in it (60 R220 (f), 41 R173,
decision D33). That in minimum mode the levels of M/IO# and DT/R#, part of the operation, are one and the same in both cycles is the
model's choice (log 18). -/
def Obligations.NoGrantInsideAcknowledge : Prop :=
  ∀ s t : State, Inv s → s.ackPhase ≠ .none → step s = .next t → t.busState ≠ .inReset →
    t.busState ≠ .holdAck ∧ t.curOp = s.curOp

/-! ## Interrupts -/

/-- A non-maskable request is remembered (10 R56, 60 R224; the trigger is decision D22): a rising edge sets `nmi_pending`, which is
cleared by RESET or when the type-2 interrupt is raised, and by nothing else. -/
def Obligations.NmiIsRemembered : Prop :=
  ∀ s t : State, Inv s → step s = .next t → t.busState ≠ .inReset → s.busState ≠ .inReset →
    (s.now.nmi = false → t.now.nmi = true → t.nmiPending = true) ∧
    (s.nmiPending = true → t.nmiPending = false → t.raised = s.raised ++ [Config.nmiType])

/-- The non-maskable request is taken at the end of the current instruction whatever IF is: type 2 is raised, and no
interrupt-acknowledge is asked for (60 R224, R225); and so it is in a TEST# wait that lets interrupts in (00 R7, D35; that TEST# is
looked at first, and in which T-states of the wait the requests are looked at, is log 16). That it is raised at once also in a T4 or
Idle state at whose end the bus is given away, where R227 ranks the hand-over first, is the model's choice (log 36). It is taken there
only: between two ends of an instruction nothing is raised but the type that an acknowledge sequence brings (60 R218, R222; that an end
counts inside any wait is log 16). That an end inside an acknowledge, an entry or a return, or before the restart fetch lets nothing in
is the model's choice (log 15). Inside a bus cycle the default InterruptEntry of type 2, where the model runs it, is then owed with its
steps in the order of R228 (log 14). A wait is left and remembered, to go on after the handler (D35; log 16). While the bus is given
away it is kept, and an end of an instruction that comes meanwhile is acted on after the release (41 R173; log 15). -/
def Obligations.NmiIsTaken : Prop :=
  (∀ s t : State, Inv s → step s = .next t → t.busState ≠ .inReset → s.busState ≠ .inReset → s.nmiPending = true →
    s.now.instrEnd = true ∨ s.endPending = true ∨ (s.testWait = true ∧ s.params.waitInterruptible = true ∧ s.now.testN = true) →
    s.busState ≠ .holdAck → s.ackPhase = .none → s.ackPending = false → s.entrySteps = [] → s.restart = false →
    t.raised = s.raised ++ [2#8] ∧ t.ackPending = false ∧
    (inCycle s.busState = true → s.params.entry = .sequence →
      t.entrySteps = [.pushFr, .pushCs, .pushIp, .readIp 2, .readCs 2, .entered]) ∧
    (inCycle s.busState = true → s.params.entry = .core → t.entrySteps = []) ∧
    (inCycle s.busState = true ∨ s.params.entry = .sequence →
      t.testWait = false ∧ t.waitStack = (s.testWait && s.now.testN) :: s.waitStack) ∧
    (t.nmiPending = true ↔ s.now.nmi = false ∧ t.now.nmi = true)) ∧
  (∀ s t : State, Inv s → step s = .next t → t.busState ≠ .inReset → s.busState = .holdAck →
    (s.nmiPending = true → t.nmiPending = true) ∧ t.raised = s.raised ∧ t.ackPending = s.ackPending ∧
      t.entrySteps = s.entrySteps ∧ (t.endPending = true ↔ s.now.instrEnd = true ∨ s.endPending = true)) ∧
  (∀ s t : State, Inv s → step s = .next t → t.busState ≠ .inReset → s.busState ≠ .inReset →
    (s.nmiPending = true ∧ t.nmiPending = false) ∨ t.raised ≠ s.raised →
    (s.ackPhase = .second ∧ t.ackPhase = .none ∧ t.raised = s.raised ++ [t.ackType]) ∨
    (s.nmiPending = true ∧ t.raised = s.raised ++ [2#8] ∧
      (s.now.instrEnd = true ∨ s.endPending = true ∨ (s.testWait = true ∧ s.params.waitInterruptible = true)) ∧
      s.busState ≠ .holdAck ∧ s.ackPhase = .none ∧ s.ackPending = false ∧ s.entrySteps = [] ∧ s.restart = false))

/-- INTR is accepted only at the end of an instruction (or in a TEST# wait that lets interrupts in, D35; that an end of an
instruction counts inside any wait, and that one inside an acknowledge, an entry or a return, or before the restart fetch, does not, is
the model's choice, log 16, 15), only while IF = 1, and not before a pending non-maskable request (60 R217, R218, R227; decisions D21,
D23), and not while the bus is given away (41 R173; log 15), whatever the core has asked for; no acknowledge sequence begins otherwise,
unless the core's own next request, or the operation that is still to run, is INTA or S.INTA; and then, when the bus is free, the
acknowledge sequence starts instead of the next instruction (R218), or in a TEST# wait that lets interrupts in (00 R7, D35; that TEST#
is looked at first is log 16). Inside a cycle, before the second cycle of a split access, and in a T-state at whose end the bus is given
away (this last before the hand-over: the model's choice, log 36) it is accepted as well, and it stays accepted until the T1 of its first
acknowledge cycle, which comes as soon as the bus is free, no second cycle is to run and no restart fetch is owed (that order is
log 36). -/
def Obligations.IntrIsServed : Prop :=
  (∀ s t : State, Inv s → step s = .next t → t.busState ≠ .inReset → s.busState ≠ .inReset → s.ackPending = false →
    t.ackPending = true ∨ (t.ackPhase ≠ .none ∧ s.ackPhase = .none ∧ NoAckAsked s) →
    s.now.intr = true ∧ ifOf s.fr = true ∧ s.nmiPending = false ∧ s.busState ≠ .holdAck ∧
      (s.now.instrEnd = true ∨ s.endPending = true ∨ (s.testWait = true ∧ s.params.waitInterruptible = true)) ∧
      s.ackPhase = .none ∧ s.entrySteps = [] ∧ s.restart = false) ∧
  (∀ s : State, Inv s → Undisturbed s → s.busState = .t4 ∨ s.busState = .idle → handOver s = none → s.ackPhase = .none →
    s.ackPending = false → s.entrySteps = [] → s.restart = false → s.pendingOps = [] → s.nmiPending = false →
    s.now.instrEnd = true ∨ s.endPending = true ∨ (s.testWait = true ∧ s.params.waitInterruptible = true ∧ s.now.testN = true) →
    s.now.intr = true → ifOf s.fr = true →
    ∃ t, step s = .next t ∧ t.busState = .t1 ∧ t.ackPhase = .first ∧ curKind t = some .ack ∧
      t.program = s.program ++ (nextFrame s).requests) ∧
  (∀ s t : State, Inv s → step s = .next t → t.busState ≠ .inReset → s.busState ≠ .inReset → s.busState ≠ .holdAck →
    s.ackPhase = .none → s.ackPending = false → s.entrySteps = [] → s.restart = false → s.nmiPending = false →
    s.now.instrEnd = true ∨ s.endPending = true ∨ (s.testWait = true ∧ s.params.waitInterruptible = true ∧ s.now.testN = true) →
    s.now.intr = true → ifOf s.fr = true → inCycle s.busState = true ∨ handOver s ≠ none ∨ s.pendingOps ≠ [] →
    t.ackPending = true) ∧
  (∀ s t : State, Inv s → step s = .next t → t.busState ≠ .inReset → s.busState ≠ .inReset → s.ackPending = true →
    t.ackPending = true ∨ (t.busState = .t1 ∧ t.ackPhase = .first ∧ curKind t = some .ack)) ∧
  (∀ s : State, Inv s → Undisturbed s → s.busState = .t4 ∨ s.busState = .idle → handOver s = none → s.ackPhase = .none →
    s.ackPending = true → s.pendingOps = [] → s.restart = false →
    ∃ t, step s = .next t ∧ t.busState = .t1 ∧ t.ackPhase = .first ∧ curKind t = some .ack ∧ t.ackPending = false ∧
      t.program = s.program ++ (nextFrame s).requests)

/-- The whole acknowledge sequence (60 R219 to R222): from T1 of its first cycle, with READY always high (no wait states) and the bus
undisturbed, two cycles, INTA# low in T2 and T3 of each and in no other T-state, and at the end the type number that the device
drives in the last T3 is handed to the core. HOLD, INTR, NMI and the core are any. The `g` Idle states between the two cycles are the
model's parameter `ackGap` (log 18; decision D33 (e), (f)). -/
def Obligations.AcknowledgeSequence : Prop :=
  ∀ (g : Nat) (s : State) (v : Byte), Inv s → QuietFrame s.mode s.now → s.busState = .t1 → curKind s = some .ack →
    s.ackPhase = .first → s.params.ackGap = g →
    (∀ j < g + 7, ∃ f, s.inputs[j]? = some f ∧ f.mnmx = s.mode.strap ∧ f.reset = false ∧ f.ready = true ∧ f.devHi = none ∧
      f.ext = [] ∧ f.devLo = if j = g + 5 then some v else none) →
    (∃ t, runSteps (g + 7) s = .next t ∧ t.busState = .t4 ∧ t.ackPhase = .none ∧ t.ackType = v ∧
      t.raised.getLast? = some v) ∧
    ∀ n < g + 7, ∃ u, runSteps (n + 1) s = .next u ∧ ∀ m, minOf u.pins = some m →
      (m.intaN = some false ↔ n = 0 ∨ n = 1 ∨ n = g + 4 ∨ n = g + 5)

/-- The default InterruptEntry (60 R228, general knowledge; log 14), one step after the other on a free bus: the flags, CS and IP are
pushed through SS, IF and TF (bits 9 and 8 of FR, log 13) are cleared after the flags are pushed, as the push
of CS opens (that T-state is the model's choice, log 14), IP and CS are read from the vector,
and the queue is emptied. The core's return request starts the return (60 R229; log 14), which pops IP, CS and the flags; a TEST#
wait that the interrupt had left goes on (decision D35; log 16). A step writes no other register than these. -/
def Obligations.InterruptEntry : Prop :=
  (∀ (s : State) (e : EntryStep) (r : List EntryStep), BusFree s → s.entrySteps = e :: r → plainFrame (nextFrame s) = true →
    ∃ t, step s = .next t ∧ t.entrySteps = r ∧
      (∀ v, (e = .pushFr ∧ v = s.fr) ∨ (e = .pushCs ∧ v = s.cs) ∨ (e = .pushIp ∧ v = s.ip) →
        t.sp = s.sp - 2 ∧ Opens (memWriteItems s.mode (physAddr s.ss (s.sp - 2)) .word .ss v) t) ∧
      (e = .pushCs → ifOf t.fr = false ∧ t.fr.getLsbD 8 = false ∧ ∀ j, j ≠ 8 → j ≠ 9 → t.fr.getLsbD j = s.fr.getLsbD j) ∧
      (∀ n, e = .readIp n → Opens (memReadItems s.mode (n.setWidth 20 * 4) .word .cs) t) ∧
      (∀ n, e = .readCs n → Opens (memReadItems s.mode (n.setWidth 20 * 4 + 2) .word .cs) t) ∧
      (e = .popIp ∨ e = .popCs ∨ e = .popFr →
        t.sp = s.sp + 2 ∧ Opens (memReadItems s.mode (physAddr s.ss s.sp) .word .ss) t) ∧
      (∀ v, s.result = .word v →
        ((∃ n, e = .readCs n) ∨ e = .popCs → t.ip = v) ∧ (e = .entered ∨ e = .popFr → t.cs = v) ∧ (e = .returned → t.fr = v)) ∧
      (∀ x, x ∉ e.writes → readReg t x = readReg s x) ∧
      (e = .entered ∨ e = .returned → t.queue = [] ∧ t.busState = .idle) ∧
      (∀ b l, e = .returned → s.waitStack = b :: l → t.testWait = b ∧ t.waitStack = l)) ∧
  (∀ (s : State) (rest : List Req), AtRequest s → s.program = .iret :: rest →
    ∃ t, step s = .next t ∧ t.busState = .idle ∧ t.program = rest ++ (nextFrame s).requests ∧
      (s.params.entry = .sequence → t.entrySteps = [.popIp, .popCs, .popFr, .returned] ∧ t.waitStack = s.waitStack) ∧
      (s.params.entry = .core → t.entrySteps = [] ∧ ∀ b l, s.waitStack = b :: l → t.testWait = b ∧ t.waitStack = l))

/-- The TEST# wait (43 R207; sampling by decision D35). The core's request starts it. In a T-state that samples 0 it ends, whatever the
core has asked for: what comes next is what would come without a wait, and a wait is on after it only if the core's next request starts
one or resumes one. At level 1 it goes on unless an interrupt is taken. That the core's requests, fetches included, start no bus
cycle in the wait, that TEST# is looked at before the interrupt requests, and that it is looked at in the acknowledge cycles of an INTR
accepted in the wait, is the model's choice (log 16). -/
def Obligations.TestWait : Prop :=
  (∀ (s : State) (rest : List Req), AtRequest s → s.program = .testWait :: rest →
    ∃ t, step s = .next t ∧ t.busState = .idle ∧ t.testWait = true ∧ t.program = rest ++ (nextFrame s).requests) ∧
  (∀ s : State, s.busState ≠ .inReset → s.now.testN = false → step s = step { s with testWait := false }) ∧
  ∀ s t : State, Inv s → step s = .next t → t.busState ≠ .inReset → s.busState ≠ .inReset → s.testWait = true →
    s.entrySteps = [] →
    (s.now.testN = false → s.program.head? ≠ some .testWait → s.program.head? ≠ some .iret → t.testWait = false) ∧
    (s.now.testN = true → t.raised = s.raised → t.testWait = true) ∧
    (s.now.testN = true → t.raised = s.raised → s.ackPhase = .none → s.ackPending = false → t.ackPhase = .none →
      s.pendingOps = [] → s.restart = false → inCycle s.busState = false → inCycle t.busState = false)

/-! ## RESET -/

/-- While RESET is high, whatever the state was, the 8086 stops its operation and its internal state is at the reset values: CS
= FFFFH; DS, SS, ES, IP, FR as the parameter RESET_VALS says (00 R7; its default is decision D19), SP = 0 (log 12); the queue, the hidden
bits and all that was owed or asked for dropped (decision D20; 10 R60, 70 R250; log 25). Memory keeps its bytes, but for those of a
write that is cut (93 U8) and those that another master writes in that T-state (log 25). -/
def Obligations.ResetState : Prop :=
  ∀ s : State, s.now.mnmx = s.mode.strap → violation s = none → (nextFrame s).reset = true →
    ∃ t, step s = .next t ∧ t.busState = .inReset ∧ t.cs = 0xFFFF#16 ∧ t.ip = s.params.resetVals.ip ∧
      t.ds = s.params.resetVals.ds ∧ t.ss = s.params.resetVals.ss ∧ t.es = s.params.resetVals.es ∧
      t.fr = s.params.resetVals.fr ∧ t.sp = 0 ∧
      t.queue = [] ∧ t.curOp = none ∧ t.nmiPending = false ∧ t.holdGranted = false ∧ t.granted = none ∧ t.testWait = false ∧
      t.lockActive = false ∧ t.lockHeld = false ∧ t.rqPending0 = false ∧ t.rqPending1 = false ∧
      t.ackPhase = .none ∧ t.ackPending = false ∧ t.endPending = false ∧ t.raised = [] ∧ t.entrySteps = [] ∧ t.waitStack = [] ∧
      t.pendingOps = [] ∧ t.program = [] ∧ t.mode = s.mode ∧ t.params = s.params ∧
      (∀ a : Addr, Memory.wf s.mem = true → ¬(inCycle s.busState = true ∧ curKind s = some .memWrite) →
        ¬(s.busState = .holdAck ∧ ∃ m v, .writes m a v ∈ s.now.ext) → readMem t a = readMem s a)

/-- RESET must be high for at least 4 clocks (70 R251, decision D39): from any T-state outside RESET, `n` T-states of RESET, in which
nobody drives the bus, and then a low level lead to Idle with the restart fetch owed if `n` is at least 4, and are refused if it is
less (93 U7). -/
def Obligations.ResetWidth : Prop :=
  ∀ (n : Nat) (s : State), Inv s → s.busState ≠ .inReset → s.now.mnmx = s.mode.strap → hazard s = none → 0 < n →
    (∀ j < n, ∃ f, s.inputs[j]? = some f ∧ f.mnmx = s.mode.strap ∧ f.reset = true ∧ f.devLo = none ∧ f.devHi = none ∧
      f.ext = []) →
    (∀ f, s.inputs[n]? = some f → f.reset = false) → (s.inputs[n]?).isSome = true →
    (n < 4 → runSteps (n + 1) s = .refused .resetTooShort) ∧
    (4 ≤ n → ∃ t, runSteps (n + 1) s = .next t ∧ t.busState = .idle ∧ t.restart = true)

/-- The first bus cycle after RESET is an instruction fetch at FFFF0H with seg = CS (70 R252), 16 bits wide with the default
`FETCH_LANES` (decision D31); and no other cycle comes before it: while it is owed, a cycle that begins is that fetch. A fetch that the
core asks for later opens with seg = CS and the lanes that `FETCH_LANES` names for its address: a word at an even address, or one
byte, and the high lane at an odd one (D31; log 24); if the queue has no room for it, it waits (log 23). -/
def Obligations.RestartFetch : Prop :=
  (∀ s : State, Inv s → Undisturbed s → s.busState = .idle → s.restart = true → handOver s = none → headIsIdle s = false →
    s.queue = [] → 2 ≤ s.params.queueDepth →
    ∃ t, step s = .next t ∧ t.busState = .t1 ∧ curKind t = some .fetch ∧ t.curAddr = 0xFFFF0#20 ∧
      t.pins.ad = some 0xFFF0#16 ∧ t.pins.a = some 0xF#4 ∧ t.curSeg = some (.reg .cs) ∧ t.restart = false ∧
      (fetchWidth s.params.fetchLanes 0xFFFF0#20 = .word → t.curLanes = .both ∧ t.pins.bheN = some false)) ∧
  (∀ s t : State, Inv s → step s = .next t → s.restart = true → inCycle t.busState = true →
    t.busState = .t1 ∧ curKind t = some .fetch ∧ t.curAddr = 0xFFFF0#20) ∧
  (∀ (s : State) (a : Addr) (rest : List Req) (l : Lanes), AtRequest s → s.program = .fetch a :: rest →
    l = (if a.getLsbD 0 then .high else if fetchWidth s.params.fetchLanes a = .word then .both else .low) →
    (s.queue.length + laneCount l ≤ s.params.queueDepth →
      ∃ t, step s = .next t ∧ t.busState = .t1 ∧ curKind t = some .fetch ∧ t.curAddr = a ∧ t.curLanes = l ∧
        t.curSeg = some (.reg .cs) ∧ t.program = rest ++ (nextFrame s).requests) ∧
    (s.params.queueDepth < s.queue.length + laneCount l →
      ∃ t, step s = .next t ∧ t.busState = .idle ∧ t.program = s.program ++ (nextFrame s).requests))

/-- MN/MX# (10 R21): a level other than the strapped one is refused in every state, and no step changes the mode or a
parameter of the model (00 R7). That it is refused also in a T-state that shows contention or an illegal pattern, for which 70 R260 and
30 R109 ask a fault, and where RESET follows, is the model's choice: the spec does not order them (log 31). -/
def Obligations.ModeIsFixed : Prop :=
  (∀ s : State, s.now.mnmx ≠ s.mode.strap → step s = .refused .strapChanged) ∧
  (∀ s t : State, Inv s → step s = .next t → t.mode = s.mode ∧ t.params = s.params)

/-- The state after RESET has fallen (10 R60): CS = FFFFH as the source says, IP, DS, SS, ES, FR and the queue by decision D19, the
hidden bits by D20, the restart fetch owed, no strobe on the pins. -/
def Obligations.ResetValues : Prop :=
  State.reset.cs = 0xFFFF#16 ∧ State.reset.ip = 0 ∧ State.reset.ds = 0 ∧ State.reset.ss = 0 ∧ State.reset.es = 0 ∧
  State.reset.fr = 0 ∧ ifOf State.reset.fr = false ∧ State.reset.queue = [] ∧ State.reset.busState = .idle ∧
  State.reset.nmiPending = false ∧ State.reset.holdGranted = false ∧ State.reset.granted = none ∧
  State.reset.testWait = false ∧ State.reset.lockActive = false ∧ State.reset.lockHeld = false ∧
  State.reset.rqPending0 = false ∧ State.reset.rqPending1 = false ∧ State.reset.endPending = false ∧ State.reset.restart = true ∧
  noneAsserted State.reset.params.sEnc State.reset.pins = true

/-! ## The core's requests, registers, memory -/

/-- MemRead and MemWrite of a word (20 R78 to R81, R83; decisions D9 to D11): at an even address one cycle on both lanes, at an odd
one two byte cycles, the low-order byte first on the high lane, then the byte of the next address, modulo 2^20, on the low
lane; a byte takes the lane of its address. The second cycle of a split access, of memory or of a port, is the next one that the free
bus opens, and the core's next request waits for it (log 36); that its T1 is the very next T-state, with no Idle state between unless
the bus is given away there, is the model's choice beside D4, which leaves the number of Idle states to the core (log 30). -/
def Obligations.MemoryAccessSplits : Prop :=
  (∀ (s : State) (q : Req) (rest : List Req) (a : Addr) (g : Seg) (v : Word) (k : Kind) (w : Width), AtRequest s →
    s.program = q :: rest → (q = .memRead a w g ∧ k = .memRead) ∨ (q = .memWrite a w g v ∧ k = .memWrite) →
    ∃ t, step s = .next t ∧ t.busState = .t1 ∧ curKind t = some k ∧ t.curAddr = a ∧ t.curSeg = some (.reg g) ∧
      t.program = rest ++ (nextFrame s).requests ∧
      t.curLanes = (if a.getLsbD 0 then .high else if w = .word then .both else .low) ∧
      (k = .memWrite → hasLow t.curLanes = true → t.curWdata.lo = v.lo) ∧
      (k = .memWrite → a.getLsbD 0 = true → t.curWdata.hi = v.lo) ∧
      (k = .memWrite → t.curLanes = .both → t.curWdata.hi = v.hi) ∧
      (a.getLsbD 0 = false ∨ w = .byte → t.pendingOps = [] ∧ t.curPart = .whole) ∧
      (a.getLsbD 0 = true → w = .word → ∃ j p, t.pendingOps = [⟨j, p⟩] ∧ kindOf j = some k ∧ addrOf j = a + 1 ∧
        lanesOfInstr j = .low ∧ segOf j = .reg g ∧ (k = .memWrite → (wdataOf j).lo = v.hi) ∧
        (k = .memRead → t.curPart = .lowByte ∧ p = .highByte))) ∧
  (∀ (s : State) (it : Item) (r : List Item) (k : Kind), Undisturbed s → s.busState = .idle ∨ s.busState = .t4 →
    s.ackPhase = .none → handOver s = none → s.pendingOps = it :: r → kindOf it.instr = some k → k ≠ .ack →
    (it.instr.format = .maxs → s.mode = .max) → (k.transfers = true → lanesOfInstr it.instr ≠ .none) →
    ∃ t, step s = .next t ∧ t.busState = .t1 ∧ t.curOp = some it.instr ∧ Loaded it.instr t ∧ t.curPart = it.part ∧
      t.pendingOps = r ∧ t.program = s.program ++ (nextFrame s).requests)

/-- IoRead and IoWrite (20 R82, R83; decision D11): the same with ports, wrapping modulo 2^16, A19..A16 = 0, and no segment register in
use: one cycle for an even word or a byte, two byte cycles for an odd word, of which a read supplies the low byte first and then the
high one. -/
def Obligations.PortAccessSplits : Prop :=
  ∀ (s : State) (q : Req) (rest : List Req) (a : Port) (v : Word) (k : Kind) (w : Width), AtRequest s →
    s.program = q :: rest → (q = .ioRead a w ∧ k = .ioRead) ∨ (q = .ioWrite a w v ∧ k = .ioWrite) →
    ∃ t, step s = .next t ∧ t.busState = .t1 ∧ curKind t = some k ∧ t.curAddr = 0#4 ++ a ∧ t.curSeg = some .none ∧
      t.program = rest ++ (nextFrame s).requests ∧
      t.curLanes = (if a.getLsbD 0 then .high else if w = .word then .both else .low) ∧
      (k = .ioWrite → hasLow t.curLanes = true → t.curWdata.lo = v.lo) ∧
      (k = .ioWrite → a.getLsbD 0 = true → t.curWdata.hi = v.lo) ∧
      (k = .ioWrite → t.curLanes = .both → t.curWdata.hi = v.hi) ∧
      (a.getLsbD 0 = false ∨ w = .byte → t.pendingOps = [] ∧ t.curPart = .whole) ∧
      (a.getLsbD 0 = true → w = .word → ∃ j p, t.pendingOps = [⟨j, p⟩] ∧ kindOf j = some k ∧
        addrOf j = 0#4 ++ (a + 1) ∧ lanesOfInstr j = .low ∧ segOf j = .none ∧ (k = .ioWrite → (wdataOf j).lo = v.hi) ∧
        (k = .ioRead → t.curPart = .lowByte ∧ p = .highByte))

/-- Memory changes only where a memory write ends, where another master writes while the bus is given away (20 R91), and where RESET cuts a
memory write (70 R250); a write touches the bytes of its selected lanes only (20 R81), a cut one too (93 U8). That the bytes are stored
as T3 or TW with READY ends is the model's choice: 41 R151 says only that they are while WR# is low (log 27). And what another master
writes in HoldAck is in memory after it, the last byte it gives for an address (20 R91 (b)); that it is so too where RESET comes next is
the model's choice (log 25). -/
def Obligations.MemoryChangesOnlyByWrites : Prop :=
  ∀ (s t : State) (a : Addr), Inv s → step s = .next t →
    (readMem t a ≠ readMem s a →
      (curKind s = some .memWrite ∧ inCycle s.busState = true ∧
        ((hasLow s.curLanes = true ∧ a = lowAddr s.curAddr) ∨ (hasHigh s.curLanes = true ∧ a = highAddr s.curAddr)) ∧
        (t.busState = .t4 ∨ t.busState = .inReset)) ∨
      (s.busState = .holdAck ∧ ∃ m v, .writes m a v ∈ s.now.ext)) ∧
    (∀ m v l₁ l₂, s.busState = .holdAck → s.now.ext = l₁ ++ .writes m a v :: l₂ → (∀ n w, .writes n a w ∉ l₂) →
      readMem t a = v)

/-- No bus operation writes a register or a flag (41 R150 to R153, 60 R220): outside RESET a step leaves each one as it
was that the core does not write in that T-state, unless a step of InterruptEntry or of the return that writes it is next; where an
interrupt is raised on a free bus that step is the first push, which writes SP (that it follows at once is log 14). And inside a
cycle, in and into HoldAck and between the two cycles of a split access it leaves all of them, whatever is raised or owed. And what
the core writes in a T-state outside RESET, the last value it gives for a register, is in the register in that T-state, whatever else
happens (log 7). -/
def Obligations.RegistersKept : Prop :=
  ∀ (s t : State) (r : Reg), Inv s → step s = .next t → t.busState ≠ .inReset →
    ((∀ v, (r, v) ∉ (nextFrame s).regWrites) →
      ((∀ e, s.entrySteps.head? = some e → r ∉ e.writes) → (s.entrySteps = [] → t.raised = s.raised ∨ r ≠ .sp) →
        readReg t r = readReg s r) ∧
      (inCycle s.busState = true ∨ s.busState = .holdAck ∨ t.busState = .holdAck ∨ s.pendingOps ≠ [] → readReg t r = readReg s r)) ∧
    (∀ v l₁ l₂, (nextFrame s).regWrites = l₁ ++ (r, v) :: l₂ → (∀ w, (r, w) ∉ l₂) → readReg t r = v)

/-- Bus contention is reported in every T-state (70 R260 HZ3, HZ7, HZ8; 93 U13; log 26), and whatever comes next: that it stops the step
also where RESET follows, which 60 R227 and 70 R250 put first, is the model's choice (log 25). It is a device that drives a lane in T1,
in Idle, in RESET, or in T2, T3, TW or T4 of a cycle that is neither a read nor the second acknowledge cycle (a write, a halt cycle, the
first acknowledge cycle), or a lane that the read did not select; a device that drives in HoldAck where the master writes, drives
nothing, or releases the bus (log 26); another master that drives the bus while it is not given away, or without having been granted
it, or in the T-state of its release (that the T-state of REL is no longer the master's is the model's choice, log 26). Where a device
and a master are both in the way the fault is the device's, busContention: the model's choice (log 26). And nothing else is: a device
that drives a lane which a read selects in T2, T3, TW or T4 (HZ3), or in the second acknowledge cycle, stops no step, and what it
drives in the last T3 or TW is what is read (decisions D5, D25; log 9); nor does the master that has the bus, or a device that answers
it (HZ7, HZ8; log 26). -/
def Obligations.ContentionFaults : Prop :=
  (∀ s : State, s.now.mnmx = s.mode.strap →
    (s.now.devLo.isSome = true ∨ s.now.devHi.isSome = true →
      s.busState = .t1 ∨ s.busState = .idle ∨ s.busState = .inReset ∨
        (dataPhase s.busState = true ∧ ∀ k, curKind s = some k → k.reads = false ∧
          (k = .ack → ¬(s.ackPhase = .second ∨ (s.busState = .t4 ∧ s.ackPhase = .none)))) → step s = .fault .busContention) ∧
    (∀ k, dataPhase s.busState = true → curKind s = some k → k.reads = true →
      (s.now.devLo.isSome = true ∧ hasLow s.curLanes = false) ∨ (s.now.devHi.isSome = true ∧ hasHigh s.curLanes = false) →
      step s = .fault .busContention) ∧
    (s.busState = .holdAck → s.now.devLo.isSome = true ∨ s.now.devHi.isSome = true →
      s.now.ext = [] ∨ released s = true ∨ (∃ m a v, .writes m a v ∈ s.now.ext) → step s = .fault .busContention) ∧
    (∀ e ∈ s.now.ext, s.now.devLo = none → s.now.devHi = none →
      s.busState ≠ .holdAck ∨ released s = true ∨ (s.mode = .min ∧ e.master ≠ .hold) ∨
        (s.mode = .max ∧ ∀ l, e.master = .line l → s.granted ≠ some l) → step s = .fault .masterContention)) ∧
  (∀ s : State, s.now.ext = [] →
    (s.now.devLo.isSome = true ∨ s.now.devHi.isSome = true → dataPhase s.busState = true ∧
      ((∃ k, curKind s = some k ∧ k.reads = true ∧ (s.now.devLo.isSome = true → hasLow s.curLanes = true) ∧
          (s.now.devHi.isSome = true → hasHigh s.curLanes = true)) ∨
        (curKind s = some .ack ∧ (s.ackPhase = .second ∨ (s.busState = .t4 ∧ s.ackPhase = .none))))) →
    step s ≠ .fault .busContention ∧ step s ≠ .fault .masterContention ∧
    (Inv s → s.now.mnmx = s.mode.strap → (nextFrame s).reset = false → inCycle s.busState = true →
      ∃ t, step s = .next t ∧ t.curOp = s.curOp ∧
        (s.busState = .t3 ∨ s.busState = .tw → s.now.ready = true → t.busState = .t4 ∧
          (∀ k, curKind s = some k → k.reads = true →
            (∀ v, s.now.devLo = some v → t.rdata.lo = v) ∧ (∀ v, s.now.devHi = some v → t.rdata.hi = v)) ∧
          (s.ackPhase = .second → ∀ v, s.now.devLo = some v → t.ackType = v)))) ∧
  (∀ s : State, s.busState = .holdAck → released s = false → (∀ e ∈ s.now.ext, busMaster s = some e.master) →
    (s.now.devLo.isSome = true ∨ s.now.devHi.isSome = true → s.now.ext ≠ [] ∧ ∀ e ∈ s.now.ext, ∃ m, e = .drives m) →
    step s ≠ .fault .busContention ∧ step s ≠ .fault .masterContention ∧
    (Inv s → s.now.mnmx = s.mode.strap → (nextFrame s).reset = false → ∃ t, step s = .next t ∧ t.busState = .holdAck))

/-! ## The invariant -/

/-- The invariant of the bus interface holds after RESET. -/
def Obligations.ResetInvariant : Prop := Inv State.reset

/-- Every step keeps the invariant of the bus interface: canonical memory (20 R70), the queue within QUEUE_DEPTH (10 R53), one
operation in a cycle with its own operands (10 R55), the acknowledge sequence in its place (60 R220), the bus given away
exactly in HoldAck and never under lock (10 R57, 42 R193), RESET high exactly in InReset (70 R250). -/
def Obligations.StepKeepsInvariant : Prop :=
  ∀ s t : State, Inv s → step s = .next t → Inv t
end

