-- ==== Sys2Proof/Laws/Decode.lean ====
section
/-! SUPPORT. The operation word holds its fields apart, and the two directions between a word and its fields agree. -/

namespace Sys2Proof

/-- The fields of a word that was put together from fields. -/
theorem fieldsOf_wordOf (f : WordFields) : fieldsOf (wordOf f) = f := by
  obtain ⟨p, a, b, u, d, r⟩ := f
  simp only [fieldsOf, wordOf, WordFields.mk.injEq]
  refine ⟨?_, ?_, ?_, ?_, ?_, ?_⟩
  · apply BitVec.eq_of_getElem_eq
    intro i hi
    interval_cases i <;> simp
  · apply BitVec.eq_of_getElem_eq
    intro i hi
    interval_cases i <;> simp
  · simp
  · apply BitVec.eq_of_getElem_eq
    intro i hi
    interval_cases i <;> simp
  · apply BitVec.eq_of_getElem_eq
    intro i hi
    interval_cases i <;> simp
  · apply BitVec.eq_of_getElem_eq
    intro i hi
    interval_cases i <;> simp

/-- The word that is put together from the fields of a word. -/
theorem wordOf_fieldsOf (w : BitVec 64) : wordOf (fieldsOf w) = w := by
  simp only [fieldsOf, wordOf]
  apply BitVec.eq_of_getElem_eq
  intro i hi
  interval_cases i <;> simp

@[simp] theorem segOfTag_segTag (g : Seg) : segOfTag ((segTag g).getLsbD 1) ((segTag g).getLsbD 0) = g := by
  cases g <;> rfl

end Sys2Proof
end

