-- ==== Sys2Proof/Laws/Word.lean ====
section
/-! SUPPORT. The two bytes of a word, taken apart and put together. -/

namespace Sys2Proof

@[simp] theorem Word.lo_ofBytes (h l : Byte) : (Word.ofBytes h l).lo = l := by
  apply BitVec.eq_of_getLsbD_eq
  intro i hi
  unfold Word.lo Word.ofBytes
  rw [BitVec.getLsbD_extractLsb']
  erw [BitVec.getLsbD_append]
  simp [hi]

@[simp] theorem Word.hi_ofBytes (h l : Byte) : (Word.ofBytes h l).hi = h := by
  apply BitVec.eq_of_getLsbD_eq
  intro i hi
  unfold Word.hi Word.ofBytes
  rw [BitVec.getLsbD_extractLsb']
  erw [BitVec.getLsbD_append]
  simp [hi]

@[simp] theorem Word.ofBytes_hi_lo (v : Word) : Word.ofBytes v.hi v.lo = v := by
  apply BitVec.eq_of_getLsbD_eq
  intro i hi
  unfold Word.hi Word.lo Word.ofBytes
  erw [BitVec.getLsbD_append]
  by_cases h : i < 8
  · simp [h]
  · have h' : i - 8 < 8 := by omega
    simp [h, h', show 8 + (i - 8) = i by omega]

end Sys2Proof
end

