-- ==== Sys2Proof/Laws/Memory.lean ====
section
/-! SUPPORT. Memory: a read after a write, and the canonical form (log 8). -/

namespace Sys2Proof.Machine

theorem Memory.read_below {lo : Nat} {m : Memory} (h : Memory.wfFrom lo m = true) {a : Nat} (ha : a < lo) :
    Memory.read m a = Config.unlistedByte := by
  induction m generalizing lo with
  | nil => rfl
  | cons c r ih =>
    obtain ⟨b, v⟩ := c
    simp only [Memory.wfFrom, Bool.and_eq_true, decide_eq_true_eq] at h
    simp only [Memory.read]
    rw [if_neg (by omega), if_pos (by omega)]

theorem Memory.wfFrom_mono {lo lo' : Nat} {m : Memory} (h : Memory.wfFrom lo m = true) (hl : lo' ≤ lo) :
    Memory.wfFrom lo' m = true := by
  cases m with
  | nil => rfl
  | cons c r =>
    obtain ⟨b, v⟩ := c
    simp only [Memory.wfFrom, Bool.and_eq_true, decide_eq_true_eq] at h ⊢
    exact ⟨⟨⟨by omega, h.1.1.2⟩, h.1.2⟩, h.2⟩

theorem Memory.wfFrom_cons {lo a : Nat} {v : Byte} {r : Memory} (hl : lo ≤ a) (ha : a < Config.memBytes)
    (hr : Memory.wfFrom (a + 1) r = true) : Memory.wfFrom lo (Memory.cons a v r) = true := by
  unfold Memory.cons
  split
  · exact Memory.wfFrom_mono hr (by omega)
  · simp [Memory.wfFrom, *]

/-- A write keeps the canonical form. -/
theorem Memory.write_wfFrom {lo : Nat} {m : Memory} {a : Nat} {v : Byte} (h : Memory.wfFrom lo m = true)
    (hl : lo ≤ a) (ha : a < Config.memBytes) : Memory.wfFrom lo (Memory.write m a v) = true := by
  induction m generalizing lo with
  | nil => exact Memory.wfFrom_cons hl ha rfl
  | cons c r ih =>
    obtain ⟨b, w⟩ := c
    have h' := h
    simp only [Memory.wfFrom, Bool.and_eq_true, decide_eq_true_eq] at h
    obtain ⟨⟨⟨h1, h2⟩, h3⟩, h4⟩ := h
    unfold Memory.write
    split
    · refine Memory.wfFrom_cons hl ha ?_
      simp only [Memory.wfFrom, Bool.and_eq_true, decide_eq_true_eq]
      exact ⟨⟨⟨by omega, h2⟩, h3⟩, h4⟩
    · split
      · subst_vars
        exact Memory.wfFrom_cons hl ha h4
      · simp only [Memory.wfFrom, Bool.and_eq_true, decide_eq_true_eq]
        exact ⟨⟨⟨h1, h2⟩, h3⟩, ih h4 (by omega)⟩

theorem Memory.write_wf {m : Memory} {a : Nat} {v : Byte} (h : Memory.wf m = true) (ha : a < Config.memBytes) :
    Memory.wf (Memory.write m a v) = true :=
  Memory.write_wfFrom h (Nat.zero_le a) ha

theorem Memory.read_cons_same (a : Nat) (v : Byte) {r : Memory} (hr : Memory.wfFrom (a + 1) r = true) :
    Memory.read (Memory.cons a v r) a = v := by
  unfold Memory.cons
  split
  · rw [Memory.read_below hr (by omega)]; simp [*]
  · simp [Memory.read]

theorem Memory.read_cons_other {a c : Nat} (v : Byte) {r : Memory} (hr : Memory.wfFrom (a + 1) r = true) (h : c ≠ a) :
    Memory.read (Memory.cons a v r) c = Memory.read r c := by
  unfold Memory.cons
  split
  · rfl
  · simp only [Memory.read]
    rw [if_neg (by omega)]
    split
    · exact (Memory.read_below hr (by omega)).symm
    · rfl

/-- A read after a write to the same address gives the byte written. -/
theorem Memory.read_write_same {lo : Nat} {m : Memory} {a : Nat} {v : Byte} (h : Memory.wfFrom lo m = true) :
    Memory.read (Memory.write m a v) a = v := by
  induction m generalizing lo with
  | nil => exact Memory.read_cons_same a v rfl
  | cons c r ih =>
    obtain ⟨b, w⟩ := c
    simp only [Memory.wfFrom, Bool.and_eq_true, decide_eq_true_eq] at h
    obtain ⟨⟨⟨h1, h2⟩, h3⟩, h4⟩ := h
    unfold Memory.write
    split
    · refine Memory.read_cons_same a v ?_
      simp only [Memory.wfFrom, Bool.and_eq_true, decide_eq_true_eq]
      exact ⟨⟨⟨by omega, h2⟩, h3⟩, h4⟩
    · split
      · subst_vars; exact Memory.read_cons_same _ v h4
      · simp only [Memory.read]
        rw [if_neg (by omega), if_neg (by omega)]
        exact ih h4

/-- A write leaves every other address as it was. -/
theorem Memory.read_write_other {lo : Nat} {m : Memory} {a c : Nat} {v : Byte} (h : Memory.wfFrom lo m = true)
    (hc : c ≠ a) : Memory.read (Memory.write m a v) c = Memory.read m c := by
  induction m generalizing lo with
  | nil => exact Memory.read_cons_other v rfl hc
  | cons d r ih =>
    obtain ⟨b, w⟩ := d
    have h' := h
    simp only [Memory.wfFrom, Bool.and_eq_true, decide_eq_true_eq] at h
    obtain ⟨⟨⟨h1, h2⟩, h3⟩, h4⟩ := h
    unfold Memory.write
    split
    · refine Memory.read_cons_other v ?_ hc
      simp only [Memory.wfFrom, Bool.and_eq_true, decide_eq_true_eq]
      exact ⟨⟨⟨by omega, h2⟩, h3⟩, h4⟩
    · split
      · subst_vars
        rw [Memory.read_cons_other v h4 hc]
        simp only [Memory.read]
        rw [if_neg (by omega)]
        split
        · exact Memory.read_below h4 (by omega)
        · rfl
      · simp only [Memory.read]
        rw [ih h4]

theorem addr_lt (a : Addr) : a.toNat < Config.memBytes := by
  have := a.isLt
  simpa [Config.memBytes] using this

/-- What a write cycle stores keeps the canonical form. -/
theorem storeLanes_wf {m : Memory} (h : Memory.wf m = true) (a : Addr) (l : Lanes) (v : Word) :
    Memory.wf (storeLanes m a l v) = true := by
  cases l <;> simp only [storeLanes, hasLow, hasHigh, if_true, if_false, Bool.false_eq_true]
  · exact Memory.write_wf (Memory.write_wf h (addr_lt _)) (addr_lt _)
  · exact Memory.write_wf h (addr_lt _)
  · exact Memory.write_wf h (addr_lt _)
  · exact h

/-- The bytes of a transfer stand at two different addresses. -/
theorem lowAddr_ne_highAddr (a b : Addr) : lowAddr a ≠ highAddr b := by
  intro h
  have := congrArg (fun x : Addr => x.getLsbD 0) h
  simp [lowAddr, highAddr] at this

/-- The byte on the low lane is stored at the even address of the pair. -/
theorem storeLanes_low {m : Memory} (h : Memory.wf m = true) (a : Addr) {l : Lanes} (v : Word) (hl : hasLow l = true) :
    Memory.read (storeLanes m a l v) (lowAddr a).toNat = v.lo := by
  have hne : (lowAddr a).toNat ≠ (highAddr a).toNat := fun e => lowAddr_ne_highAddr a a (BitVec.eq_of_toNat_eq e)
  simp only [storeLanes, hl, if_true]
  split
  · rw [Memory.read_write_other (Memory.write_wf h (addr_lt _)) hne]
    exact Memory.read_write_same h
  · exact Memory.read_write_same h

/-- The byte on the high lane is stored at the odd address of the pair. -/
theorem storeLanes_high {m : Memory} (h : Memory.wf m = true) (a : Addr) {l : Lanes} (v : Word) (hl : hasHigh l = true) :
    Memory.read (storeLanes m a l v) (highAddr a).toNat = v.hi := by
  simp only [storeLanes, hl, if_true]
  split
  · exact Memory.read_write_same (Memory.write_wf h (addr_lt _))
  · exact Memory.read_write_same h

/-- Every byte that is not on a selected lane of the transfer is as before. -/
theorem storeLanes_other {m : Memory} (h : Memory.wf m = true) (a : Addr) (l : Lanes) (v : Word) {c : Addr}
    (h1 : hasLow l = true → c ≠ lowAddr a) (h2 : hasHigh l = true → c ≠ highAddr a) :
    Memory.read (storeLanes m a l v) c.toNat = Memory.read m c.toNat := by
  have hn : ∀ d : Addr, c ≠ d → c.toNat ≠ d.toNat := fun d hd e => hd (BitVec.eq_of_toNat_eq e)
  simp only [storeLanes]
  split
  · rename_i hh
    split
    · rename_i hl
      rw [Memory.read_write_other (Memory.write_wf h (addr_lt _)) (hn _ (h2 hh)),
        Memory.read_write_other h (hn _ (h1 hl))]
    · rw [Memory.read_write_other h (hn _ (h2 hh))]
  · split
    · rename_i hl
      rw [Memory.read_write_other h (hn _ (h1 hl))]
    · rfl

/-- What other masters write keeps the canonical form. -/
theorem extMemory_wf {m : Memory} (h : Memory.wf m = true) (l : List Ext) : Memory.wf (extMemory m l) = true := by
  induction l generalizing m with
  | nil => exact h
  | cons e r ih =>
    cases e with
    | drives d => exact ih h
    | writes d a v => exact ih (Memory.write_wf h (addr_lt a))

/-- A byte that no other master writes is as before. -/
theorem extMemory_other {m : Memory} (h : Memory.wf m = true) {l : List Ext} {c : Addr}
    (hc : ∀ d v, Ext.writes d c v ∉ l) : Memory.read (extMemory m l) c.toNat = Memory.read m c.toNat := by
  induction l generalizing m with
  | nil => rfl
  | cons e r ih =>
    have hr : ∀ d v, Ext.writes d c v ∉ r := fun d v hm => hc d v (List.mem_cons_of_mem _ hm)
    cases e with
    | drives d => exact ih h hr
    | writes d a v =>
      have hca : c ≠ a := fun e => hc d v (by simp [e])
      simp only [extMemory]
      rw [ih (Memory.write_wf h (addr_lt a)) hr]
      exact Memory.read_write_other h (fun e => hca (BitVec.eq_of_toNat_eq e))

/-- What another master writes last is what is read. -/
theorem extMemory_last {m : Memory} (h : Memory.wf m = true) (l : List Ext) (d : Master) (a : Addr) (v : Byte) :
    Memory.read (extMemory m (l ++ [.writes d a v])) a.toNat = v := by
  induction l generalizing m with
  | nil => exact Memory.read_write_same h
  | cons e r ih =>
    cases e with
    | drives d' => exact ih h
    | writes d' a' v' => exact ih (Memory.write_wf h (addr_lt a'))

/-- What the other masters write last at an address is what is read there. -/
theorem extMemory_split {m : Memory} (h : Memory.wf m = true) (l₁ l₂ : List Ext) (d : Master) (a : Addr) (v : Byte)
    (hl : ∀ e w, Ext.writes e a w ∉ l₂) : Memory.read (extMemory m (l₁ ++ .writes d a v :: l₂)) a.toNat = v := by
  have happ : ∀ (n : Memory) (l : List Ext), extMemory n (l ++ .writes d a v :: l₂) = extMemory (extMemory n (l ++ [.writes d a v])) l₂ := by
    intro n l
    induction l generalizing n with
    | nil => rfl
    | cons e r ih => cases e <;> exact ih _
  rw [happ, extMemory_other (extMemory_wf h _) hl, extMemory_last h]

/-- A cut write keeps the canonical form. -/
theorem cutWrite_wf {s : State} (h : Memory.wf s.mem = true) : Memory.wf (cutWrite s) = true := by
  unfold cutWrite
  split
  · exact storeLanes_wf h _ _ _
  · exact h

end Sys2Proof.Machine
end

