-- ==== Sys2Proof/Laws/State.lean ====
section
/-! SUPPORT. One lemma per field for each named update of the state, true by rfl. -/

namespace Sys2Proof.Machine

/-! ## loadOp -/

@[simp] theorem loadOp_mode (i : Instr) (s : State) : (loadOp i s).mode = s.mode := rfl
@[simp] theorem loadOp_params (i : Instr) (s : State) : (loadOp i s).params = s.params := rfl
@[simp] theorem loadOp_cs (i : Instr) (s : State) : (loadOp i s).cs = s.cs := rfl
@[simp] theorem loadOp_ds (i : Instr) (s : State) : (loadOp i s).ds = s.ds := rfl
@[simp] theorem loadOp_ss (i : Instr) (s : State) : (loadOp i s).ss = s.ss := rfl
@[simp] theorem loadOp_es (i : Instr) (s : State) : (loadOp i s).es = s.es := rfl
@[simp] theorem loadOp_ip (i : Instr) (s : State) : (loadOp i s).ip = s.ip := rfl
@[simp] theorem loadOp_fr (i : Instr) (s : State) : (loadOp i s).fr = s.fr := rfl
@[simp] theorem loadOp_sp (i : Instr) (s : State) : (loadOp i s).sp = s.sp := rfl
@[simp] theorem loadOp_queue (i : Instr) (s : State) : (loadOp i s).queue = s.queue := rfl
@[simp] theorem loadOp_busState (i : Instr) (s : State) : (loadOp i s).busState = s.busState := rfl
@[simp] theorem loadOp_curOp (i : Instr) (s : State) : (loadOp i s).curOp = some i := rfl
@[simp] theorem loadOp_curAddr (i : Instr) (s : State) : (loadOp i s).curAddr = addrOf i := rfl
@[simp] theorem loadOp_curLanes (i : Instr) (s : State) : (loadOp i s).curLanes = lanesOfInstr i := rfl
@[simp] theorem loadOp_curWdata (i : Instr) (s : State) : (loadOp i s).curWdata = onLanes (lanesOfInstr i) (wdataOf i) ((Config.freeData s.draws).extractLsb' 0 16) := rfl
@[simp] theorem loadOp_curSeg (i : Instr) (s : State) : (loadOp i s).curSeg = some (segOf i) := rfl
@[simp] theorem loadOp_curPart (i : Instr) (s : State) : (loadOp i s).curPart = s.curPart := rfl
@[simp] theorem loadOp_rdata (i : Instr) (s : State) : (loadOp i s).rdata = s.rdata := rfl
@[simp] theorem loadOp_result (i : Instr) (s : State) : (loadOp i s).result = s.result := rfl
@[simp] theorem loadOp_pendingOps (i : Instr) (s : State) : (loadOp i s).pendingOps = s.pendingOps := rfl
@[simp] theorem loadOp_nmiPending (i : Instr) (s : State) : (loadOp i s).nmiPending = s.nmiPending := rfl
@[simp] theorem loadOp_holdGranted (i : Instr) (s : State) : (loadOp i s).holdGranted = s.holdGranted := rfl
@[simp] theorem loadOp_granted (i : Instr) (s : State) : (loadOp i s).granted = s.granted := rfl
@[simp] theorem loadOp_rqPending0 (i : Instr) (s : State) : (loadOp i s).rqPending0 = s.rqPending0 := rfl
@[simp] theorem loadOp_rqPending1 (i : Instr) (s : State) : (loadOp i s).rqPending1 = s.rqPending1 := rfl
@[simp] theorem loadOp_testWait (i : Instr) (s : State) : (loadOp i s).testWait = s.testWait := rfl
@[simp] theorem loadOp_lockActive (i : Instr) (s : State) : (loadOp i s).lockActive = s.lockActive := rfl
@[simp] theorem loadOp_lockHeld (i : Instr) (s : State) : (loadOp i s).lockHeld = s.lockHeld := rfl
@[simp] theorem loadOp_ackPhase (i : Instr) (s : State) : (loadOp i s).ackPhase = s.ackPhase := rfl
@[simp] theorem loadOp_ackPending (i : Instr) (s : State) : (loadOp i s).ackPending = s.ackPending := rfl
@[simp] theorem loadOp_endPending (i : Instr) (s : State) : (loadOp i s).endPending = s.endPending := rfl
@[simp] theorem loadOp_ackType (i : Instr) (s : State) : (loadOp i s).ackType = s.ackType := rfl
@[simp] theorem loadOp_raised (i : Instr) (s : State) : (loadOp i s).raised = s.raised := rfl
@[simp] theorem loadOp_entrySteps (i : Instr) (s : State) : (loadOp i s).entrySteps = s.entrySteps := rfl
@[simp] theorem loadOp_waitStack (i : Instr) (s : State) : (loadOp i s).waitStack = s.waitStack := rfl
@[simp] theorem loadOp_resetClks (i : Instr) (s : State) : (loadOp i s).resetClks = s.resetClks := rfl
@[simp] theorem loadOp_restart (i : Instr) (s : State) : (loadOp i s).restart = s.restart := rfl
@[simp] theorem loadOp_qAct (i : Instr) (s : State) : (loadOp i s).qAct = s.qAct := rfl
@[simp] theorem loadOp_qsShown (i : Instr) (s : State) : (loadOp i s).qsShown = s.qsShown := rfl
@[simp] theorem loadOp_qOut (i : Instr) (s : State) : (loadOp i s).qOut = s.qOut := rfl
@[simp] theorem loadOp_idleDrive (i : Instr) (s : State) : (loadOp i s).idleDrive = none := rfl
@[simp] theorem loadOp_latchAddr (i : Instr) (s : State) : (loadOp i s).latchAddr = s.latchAddr := rfl
@[simp] theorem loadOp_latchBheN (i : Instr) (s : State) : (loadOp i s).latchBheN = s.latchBheN := rfl
@[simp] theorem loadOp_mem (i : Instr) (s : State) : (loadOp i s).mem = s.mem := rfl
@[simp] theorem loadOp_program (i : Instr) (s : State) : (loadOp i s).program = s.program := rfl
@[simp] theorem loadOp_now (i : Instr) (s : State) : (loadOp i s).now = s.now := rfl
@[simp] theorem loadOp_inputs (i : Instr) (s : State) : (loadOp i s).inputs = s.inputs := rfl
@[simp] theorem loadOp_pins (i : Instr) (s : State) : (loadOp i s).pins = s.pins := rfl
@[simp] theorem loadOp_draws (i : Instr) (s : State) : (loadOp i s).draws = s.draws := rfl
@[simp] theorem loadOp_heldDraw (i : Instr) (s : State) : (loadOp i s).heldDraw = s.heldDraw := rfl

/-! ## takeInterrupt -/

@[simp] theorem takeInterrupt_mode (type : Byte) (s : State) : (takeInterrupt type s).mode = s.mode := rfl
@[simp] theorem takeInterrupt_params (type : Byte) (s : State) : (takeInterrupt type s).params = s.params := rfl
@[simp] theorem takeInterrupt_cs (type : Byte) (s : State) : (takeInterrupt type s).cs = s.cs := rfl
@[simp] theorem takeInterrupt_ds (type : Byte) (s : State) : (takeInterrupt type s).ds = s.ds := rfl
@[simp] theorem takeInterrupt_ss (type : Byte) (s : State) : (takeInterrupt type s).ss = s.ss := rfl
@[simp] theorem takeInterrupt_es (type : Byte) (s : State) : (takeInterrupt type s).es = s.es := rfl
@[simp] theorem takeInterrupt_ip (type : Byte) (s : State) : (takeInterrupt type s).ip = s.ip := rfl
@[simp] theorem takeInterrupt_fr (type : Byte) (s : State) : (takeInterrupt type s).fr = s.fr := rfl
@[simp] theorem takeInterrupt_sp (type : Byte) (s : State) : (takeInterrupt type s).sp = s.sp := rfl
@[simp] theorem takeInterrupt_queue (type : Byte) (s : State) : (takeInterrupt type s).queue = s.queue := rfl
@[simp] theorem takeInterrupt_busState (type : Byte) (s : State) : (takeInterrupt type s).busState = s.busState := rfl
@[simp] theorem takeInterrupt_curOp (type : Byte) (s : State) : (takeInterrupt type s).curOp = s.curOp := rfl
@[simp] theorem takeInterrupt_curAddr (type : Byte) (s : State) : (takeInterrupt type s).curAddr = s.curAddr := rfl
@[simp] theorem takeInterrupt_curLanes (type : Byte) (s : State) : (takeInterrupt type s).curLanes = s.curLanes := rfl
@[simp] theorem takeInterrupt_curWdata (type : Byte) (s : State) : (takeInterrupt type s).curWdata = s.curWdata := rfl
@[simp] theorem takeInterrupt_curSeg (type : Byte) (s : State) : (takeInterrupt type s).curSeg = s.curSeg := rfl
@[simp] theorem takeInterrupt_curPart (type : Byte) (s : State) : (takeInterrupt type s).curPart = s.curPart := rfl
@[simp] theorem takeInterrupt_rdata (type : Byte) (s : State) : (takeInterrupt type s).rdata = s.rdata := rfl
@[simp] theorem takeInterrupt_result (type : Byte) (s : State) : (takeInterrupt type s).result = s.result := rfl
@[simp] theorem takeInterrupt_pendingOps (type : Byte) (s : State) : (takeInterrupt type s).pendingOps = s.pendingOps := rfl
@[simp] theorem takeInterrupt_nmiPending (type : Byte) (s : State) : (takeInterrupt type s).nmiPending = s.nmiPending := rfl
@[simp] theorem takeInterrupt_holdGranted (type : Byte) (s : State) : (takeInterrupt type s).holdGranted = s.holdGranted := rfl
@[simp] theorem takeInterrupt_granted (type : Byte) (s : State) : (takeInterrupt type s).granted = s.granted := rfl
@[simp] theorem takeInterrupt_rqPending0 (type : Byte) (s : State) : (takeInterrupt type s).rqPending0 = s.rqPending0 := rfl
@[simp] theorem takeInterrupt_rqPending1 (type : Byte) (s : State) : (takeInterrupt type s).rqPending1 = s.rqPending1 := rfl
@[simp] theorem takeInterrupt_testWait (type : Byte) (s : State) : (takeInterrupt type s).testWait = false := rfl
@[simp] theorem takeInterrupt_lockActive (type : Byte) (s : State) : (takeInterrupt type s).lockActive = s.lockActive := rfl
@[simp] theorem takeInterrupt_lockHeld (type : Byte) (s : State) : (takeInterrupt type s).lockHeld = s.lockHeld := rfl
@[simp] theorem takeInterrupt_ackPhase (type : Byte) (s : State) : (takeInterrupt type s).ackPhase = s.ackPhase := rfl
@[simp] theorem takeInterrupt_ackPending (type : Byte) (s : State) : (takeInterrupt type s).ackPending = s.ackPending := rfl
@[simp] theorem takeInterrupt_endPending (type : Byte) (s : State) : (takeInterrupt type s).endPending = s.endPending := rfl
@[simp] theorem takeInterrupt_ackType (type : Byte) (s : State) : (takeInterrupt type s).ackType = s.ackType := rfl
@[simp] theorem takeInterrupt_raised (type : Byte) (s : State) : (takeInterrupt type s).raised = s.raised ++ [type] := rfl
@[simp] theorem takeInterrupt_waitStack (type : Byte) (s : State) : (takeInterrupt type s).waitStack = s.testWait :: s.waitStack := rfl
@[simp] theorem takeInterrupt_resetClks (type : Byte) (s : State) : (takeInterrupt type s).resetClks = s.resetClks := rfl
@[simp] theorem takeInterrupt_restart (type : Byte) (s : State) : (takeInterrupt type s).restart = s.restart := rfl
@[simp] theorem takeInterrupt_qAct (type : Byte) (s : State) : (takeInterrupt type s).qAct = s.qAct := rfl
@[simp] theorem takeInterrupt_qsShown (type : Byte) (s : State) : (takeInterrupt type s).qsShown = s.qsShown := rfl
@[simp] theorem takeInterrupt_qOut (type : Byte) (s : State) : (takeInterrupt type s).qOut = s.qOut := rfl
@[simp] theorem takeInterrupt_idleDrive (type : Byte) (s : State) : (takeInterrupt type s).idleDrive = s.idleDrive := rfl
@[simp] theorem takeInterrupt_latchAddr (type : Byte) (s : State) : (takeInterrupt type s).latchAddr = s.latchAddr := rfl
@[simp] theorem takeInterrupt_latchBheN (type : Byte) (s : State) : (takeInterrupt type s).latchBheN = s.latchBheN := rfl
@[simp] theorem takeInterrupt_mem (type : Byte) (s : State) : (takeInterrupt type s).mem = s.mem := rfl
@[simp] theorem takeInterrupt_program (type : Byte) (s : State) : (takeInterrupt type s).program = s.program := rfl
@[simp] theorem takeInterrupt_now (type : Byte) (s : State) : (takeInterrupt type s).now = s.now := rfl
@[simp] theorem takeInterrupt_inputs (type : Byte) (s : State) : (takeInterrupt type s).inputs = s.inputs := rfl
@[simp] theorem takeInterrupt_pins (type : Byte) (s : State) : (takeInterrupt type s).pins = s.pins := rfl
@[simp] theorem takeInterrupt_draws (type : Byte) (s : State) : (takeInterrupt type s).draws = s.draws := rfl
@[simp] theorem takeInterrupt_heldDraw (type : Byte) (s : State) : (takeInterrupt type s).heldDraw = s.heldDraw := rfl

/-! ## takeBack -/

@[simp] theorem takeBack_mode (s : State) : (takeBack s).mode = s.mode := rfl
@[simp] theorem takeBack_params (s : State) : (takeBack s).params = s.params := rfl
@[simp] theorem takeBack_cs (s : State) : (takeBack s).cs = s.cs := rfl
@[simp] theorem takeBack_ds (s : State) : (takeBack s).ds = s.ds := rfl
@[simp] theorem takeBack_ss (s : State) : (takeBack s).ss = s.ss := rfl
@[simp] theorem takeBack_es (s : State) : (takeBack s).es = s.es := rfl
@[simp] theorem takeBack_ip (s : State) : (takeBack s).ip = s.ip := rfl
@[simp] theorem takeBack_fr (s : State) : (takeBack s).fr = s.fr := rfl
@[simp] theorem takeBack_sp (s : State) : (takeBack s).sp = s.sp := rfl
@[simp] theorem takeBack_queue (s : State) : (takeBack s).queue = s.queue := rfl
@[simp] theorem takeBack_busState (s : State) : (takeBack s).busState = s.busState := rfl
@[simp] theorem takeBack_curOp (s : State) : (takeBack s).curOp = s.curOp := rfl
@[simp] theorem takeBack_curAddr (s : State) : (takeBack s).curAddr = s.curAddr := rfl
@[simp] theorem takeBack_curLanes (s : State) : (takeBack s).curLanes = s.curLanes := rfl
@[simp] theorem takeBack_curWdata (s : State) : (takeBack s).curWdata = s.curWdata := rfl
@[simp] theorem takeBack_curSeg (s : State) : (takeBack s).curSeg = s.curSeg := rfl
@[simp] theorem takeBack_curPart (s : State) : (takeBack s).curPart = s.curPart := rfl
@[simp] theorem takeBack_rdata (s : State) : (takeBack s).rdata = s.rdata := rfl
@[simp] theorem takeBack_result (s : State) : (takeBack s).result = s.result := rfl
@[simp] theorem takeBack_pendingOps (s : State) : (takeBack s).pendingOps = s.pendingOps := rfl
@[simp] theorem takeBack_nmiPending (s : State) : (takeBack s).nmiPending = s.nmiPending := rfl
@[simp] theorem takeBack_holdGranted (s : State) : (takeBack s).holdGranted = false := rfl
@[simp] theorem takeBack_granted (s : State) : (takeBack s).granted = none := rfl
@[simp] theorem takeBack_rqPending0 (s : State) : (takeBack s).rqPending0 = s.rqPending0 := rfl
@[simp] theorem takeBack_rqPending1 (s : State) : (takeBack s).rqPending1 = s.rqPending1 := rfl
@[simp] theorem takeBack_testWait (s : State) : (takeBack s).testWait = s.testWait := rfl
@[simp] theorem takeBack_lockActive (s : State) : (takeBack s).lockActive = s.lockActive := rfl
@[simp] theorem takeBack_lockHeld (s : State) : (takeBack s).lockHeld = s.lockHeld := rfl
@[simp] theorem takeBack_ackPhase (s : State) : (takeBack s).ackPhase = s.ackPhase := rfl
@[simp] theorem takeBack_ackPending (s : State) : (takeBack s).ackPending = s.ackPending := rfl
@[simp] theorem takeBack_endPending (s : State) : (takeBack s).endPending = s.endPending := rfl
@[simp] theorem takeBack_ackType (s : State) : (takeBack s).ackType = s.ackType := rfl
@[simp] theorem takeBack_raised (s : State) : (takeBack s).raised = s.raised := rfl
@[simp] theorem takeBack_entrySteps (s : State) : (takeBack s).entrySteps = s.entrySteps := rfl
@[simp] theorem takeBack_waitStack (s : State) : (takeBack s).waitStack = s.waitStack := rfl
@[simp] theorem takeBack_resetClks (s : State) : (takeBack s).resetClks = s.resetClks := rfl
@[simp] theorem takeBack_restart (s : State) : (takeBack s).restart = s.restart := rfl
@[simp] theorem takeBack_qAct (s : State) : (takeBack s).qAct = s.qAct := rfl
@[simp] theorem takeBack_qsShown (s : State) : (takeBack s).qsShown = s.qsShown := rfl
@[simp] theorem takeBack_qOut (s : State) : (takeBack s).qOut = s.qOut := rfl
@[simp] theorem takeBack_idleDrive (s : State) : (takeBack s).idleDrive = s.idleDrive := rfl
@[simp] theorem takeBack_latchAddr (s : State) : (takeBack s).latchAddr = s.latchAddr := rfl
@[simp] theorem takeBack_latchBheN (s : State) : (takeBack s).latchBheN = s.latchBheN := rfl
@[simp] theorem takeBack_mem (s : State) : (takeBack s).mem = s.mem := rfl
@[simp] theorem takeBack_program (s : State) : (takeBack s).program = s.program := rfl
@[simp] theorem takeBack_now (s : State) : (takeBack s).now = s.now := rfl
@[simp] theorem takeBack_inputs (s : State) : (takeBack s).inputs = s.inputs := rfl
@[simp] theorem takeBack_pins (s : State) : (takeBack s).pins = s.pins := rfl
@[simp] theorem takeBack_draws (s : State) : (takeBack s).draws = s.draws := rfl
@[simp] theorem takeBack_heldDraw (s : State) : (takeBack s).heldDraw = s.heldDraw := rfl

/-! ## finishRead -/

@[simp] theorem finishRead_mode (s : State) : (finishRead s).mode = s.mode := rfl
@[simp] theorem finishRead_params (s : State) : (finishRead s).params = s.params := rfl
@[simp] theorem finishRead_cs (s : State) : (finishRead s).cs = s.cs := rfl
@[simp] theorem finishRead_ds (s : State) : (finishRead s).ds = s.ds := rfl
@[simp] theorem finishRead_ss (s : State) : (finishRead s).ss = s.ss := rfl
@[simp] theorem finishRead_es (s : State) : (finishRead s).es = s.es := rfl
@[simp] theorem finishRead_ip (s : State) : (finishRead s).ip = s.ip := rfl
@[simp] theorem finishRead_fr (s : State) : (finishRead s).fr = s.fr := rfl
@[simp] theorem finishRead_sp (s : State) : (finishRead s).sp = s.sp := rfl
@[simp] theorem finishRead_queue (s : State) : (finishRead s).queue = s.queue := rfl
@[simp] theorem finishRead_busState (s : State) : (finishRead s).busState = s.busState := rfl
@[simp] theorem finishRead_curOp (s : State) : (finishRead s).curOp = s.curOp := rfl
@[simp] theorem finishRead_curAddr (s : State) : (finishRead s).curAddr = s.curAddr := rfl
@[simp] theorem finishRead_curLanes (s : State) : (finishRead s).curLanes = s.curLanes := rfl
@[simp] theorem finishRead_curWdata (s : State) : (finishRead s).curWdata = s.curWdata := rfl
@[simp] theorem finishRead_curSeg (s : State) : (finishRead s).curSeg = s.curSeg := rfl
@[simp] theorem finishRead_curPart (s : State) : (finishRead s).curPart = s.curPart := rfl
@[simp] theorem finishRead_rdata (s : State) : (finishRead s).rdata = busIn s := rfl
@[simp] theorem finishRead_result (s : State) : (finishRead s).result = joinPart s.curPart s.curLanes (busIn s) s.result := rfl
@[simp] theorem finishRead_pendingOps (s : State) : (finishRead s).pendingOps = s.pendingOps := rfl
@[simp] theorem finishRead_nmiPending (s : State) : (finishRead s).nmiPending = s.nmiPending := rfl
@[simp] theorem finishRead_holdGranted (s : State) : (finishRead s).holdGranted = s.holdGranted := rfl
@[simp] theorem finishRead_granted (s : State) : (finishRead s).granted = s.granted := rfl
@[simp] theorem finishRead_rqPending0 (s : State) : (finishRead s).rqPending0 = s.rqPending0 := rfl
@[simp] theorem finishRead_rqPending1 (s : State) : (finishRead s).rqPending1 = s.rqPending1 := rfl
@[simp] theorem finishRead_testWait (s : State) : (finishRead s).testWait = s.testWait := rfl
@[simp] theorem finishRead_lockActive (s : State) : (finishRead s).lockActive = s.lockActive := rfl
@[simp] theorem finishRead_lockHeld (s : State) : (finishRead s).lockHeld = s.lockHeld := rfl
@[simp] theorem finishRead_ackPhase (s : State) : (finishRead s).ackPhase = s.ackPhase := rfl
@[simp] theorem finishRead_ackPending (s : State) : (finishRead s).ackPending = s.ackPending := rfl
@[simp] theorem finishRead_endPending (s : State) : (finishRead s).endPending = s.endPending := rfl
@[simp] theorem finishRead_ackType (s : State) : (finishRead s).ackType = s.ackType := rfl
@[simp] theorem finishRead_raised (s : State) : (finishRead s).raised = s.raised := rfl
@[simp] theorem finishRead_entrySteps (s : State) : (finishRead s).entrySteps = s.entrySteps := rfl
@[simp] theorem finishRead_waitStack (s : State) : (finishRead s).waitStack = s.waitStack := rfl
@[simp] theorem finishRead_resetClks (s : State) : (finishRead s).resetClks = s.resetClks := rfl
@[simp] theorem finishRead_restart (s : State) : (finishRead s).restart = s.restart := rfl
@[simp] theorem finishRead_qAct (s : State) : (finishRead s).qAct = s.qAct := rfl
@[simp] theorem finishRead_qsShown (s : State) : (finishRead s).qsShown = s.qsShown := rfl
@[simp] theorem finishRead_qOut (s : State) : (finishRead s).qOut = s.qOut := rfl
@[simp] theorem finishRead_idleDrive (s : State) : (finishRead s).idleDrive = s.idleDrive := rfl
@[simp] theorem finishRead_latchAddr (s : State) : (finishRead s).latchAddr = s.latchAddr := rfl
@[simp] theorem finishRead_latchBheN (s : State) : (finishRead s).latchBheN = s.latchBheN := rfl
@[simp] theorem finishRead_mem (s : State) : (finishRead s).mem = s.mem := rfl
@[simp] theorem finishRead_program (s : State) : (finishRead s).program = s.program := rfl
@[simp] theorem finishRead_now (s : State) : (finishRead s).now = s.now := rfl
@[simp] theorem finishRead_inputs (s : State) : (finishRead s).inputs = s.inputs := rfl
@[simp] theorem finishRead_pins (s : State) : (finishRead s).pins = s.pins := rfl
@[simp] theorem finishRead_draws (s : State) : (finishRead s).draws = s.draws := rfl
@[simp] theorem finishRead_heldDraw (s : State) : (finishRead s).heldDraw = s.heldDraw := rfl

/-! ## finishFetch -/

@[simp] theorem finishFetch_mode (s : State) : (finishFetch s).mode = s.mode := rfl
@[simp] theorem finishFetch_params (s : State) : (finishFetch s).params = s.params := rfl
@[simp] theorem finishFetch_cs (s : State) : (finishFetch s).cs = s.cs := rfl
@[simp] theorem finishFetch_ds (s : State) : (finishFetch s).ds = s.ds := rfl
@[simp] theorem finishFetch_ss (s : State) : (finishFetch s).ss = s.ss := rfl
@[simp] theorem finishFetch_es (s : State) : (finishFetch s).es = s.es := rfl
@[simp] theorem finishFetch_ip (s : State) : (finishFetch s).ip = s.ip := rfl
@[simp] theorem finishFetch_fr (s : State) : (finishFetch s).fr = s.fr := rfl
@[simp] theorem finishFetch_sp (s : State) : (finishFetch s).sp = s.sp := rfl
@[simp] theorem finishFetch_queue (s : State) : (finishFetch s).queue = s.queue ++ laneBytes s.curLanes (busIn s) := rfl
@[simp] theorem finishFetch_busState (s : State) : (finishFetch s).busState = s.busState := rfl
@[simp] theorem finishFetch_curOp (s : State) : (finishFetch s).curOp = s.curOp := rfl
@[simp] theorem finishFetch_curAddr (s : State) : (finishFetch s).curAddr = s.curAddr := rfl
@[simp] theorem finishFetch_curLanes (s : State) : (finishFetch s).curLanes = s.curLanes := rfl
@[simp] theorem finishFetch_curWdata (s : State) : (finishFetch s).curWdata = s.curWdata := rfl
@[simp] theorem finishFetch_curSeg (s : State) : (finishFetch s).curSeg = s.curSeg := rfl
@[simp] theorem finishFetch_curPart (s : State) : (finishFetch s).curPart = s.curPart := rfl
@[simp] theorem finishFetch_rdata (s : State) : (finishFetch s).rdata = busIn s := rfl
@[simp] theorem finishFetch_result (s : State) : (finishFetch s).result = s.result := rfl
@[simp] theorem finishFetch_pendingOps (s : State) : (finishFetch s).pendingOps = s.pendingOps := rfl
@[simp] theorem finishFetch_nmiPending (s : State) : (finishFetch s).nmiPending = s.nmiPending := rfl
@[simp] theorem finishFetch_holdGranted (s : State) : (finishFetch s).holdGranted = s.holdGranted := rfl
@[simp] theorem finishFetch_granted (s : State) : (finishFetch s).granted = s.granted := rfl
@[simp] theorem finishFetch_rqPending0 (s : State) : (finishFetch s).rqPending0 = s.rqPending0 := rfl
@[simp] theorem finishFetch_rqPending1 (s : State) : (finishFetch s).rqPending1 = s.rqPending1 := rfl
@[simp] theorem finishFetch_testWait (s : State) : (finishFetch s).testWait = s.testWait := rfl
@[simp] theorem finishFetch_lockActive (s : State) : (finishFetch s).lockActive = s.lockActive := rfl
@[simp] theorem finishFetch_lockHeld (s : State) : (finishFetch s).lockHeld = s.lockHeld := rfl
@[simp] theorem finishFetch_ackPhase (s : State) : (finishFetch s).ackPhase = s.ackPhase := rfl
@[simp] theorem finishFetch_ackPending (s : State) : (finishFetch s).ackPending = s.ackPending := rfl
@[simp] theorem finishFetch_endPending (s : State) : (finishFetch s).endPending = s.endPending := rfl
@[simp] theorem finishFetch_ackType (s : State) : (finishFetch s).ackType = s.ackType := rfl
@[simp] theorem finishFetch_raised (s : State) : (finishFetch s).raised = s.raised := rfl
@[simp] theorem finishFetch_entrySteps (s : State) : (finishFetch s).entrySteps = s.entrySteps := rfl
@[simp] theorem finishFetch_waitStack (s : State) : (finishFetch s).waitStack = s.waitStack := rfl
@[simp] theorem finishFetch_resetClks (s : State) : (finishFetch s).resetClks = s.resetClks := rfl
@[simp] theorem finishFetch_restart (s : State) : (finishFetch s).restart = s.restart := rfl
@[simp] theorem finishFetch_qAct (s : State) : (finishFetch s).qAct = s.qAct := rfl
@[simp] theorem finishFetch_qsShown (s : State) : (finishFetch s).qsShown = s.qsShown := rfl
@[simp] theorem finishFetch_qOut (s : State) : (finishFetch s).qOut = s.qOut := rfl
@[simp] theorem finishFetch_idleDrive (s : State) : (finishFetch s).idleDrive = s.idleDrive := rfl
@[simp] theorem finishFetch_latchAddr (s : State) : (finishFetch s).latchAddr = s.latchAddr := rfl
@[simp] theorem finishFetch_latchBheN (s : State) : (finishFetch s).latchBheN = s.latchBheN := rfl
@[simp] theorem finishFetch_mem (s : State) : (finishFetch s).mem = s.mem := rfl
@[simp] theorem finishFetch_program (s : State) : (finishFetch s).program = s.program := rfl
@[simp] theorem finishFetch_now (s : State) : (finishFetch s).now = s.now := rfl
@[simp] theorem finishFetch_inputs (s : State) : (finishFetch s).inputs = s.inputs := rfl
@[simp] theorem finishFetch_pins (s : State) : (finishFetch s).pins = s.pins := rfl
@[simp] theorem finishFetch_draws (s : State) : (finishFetch s).draws = s.draws := rfl
@[simp] theorem finishFetch_heldDraw (s : State) : (finishFetch s).heldDraw = s.heldDraw := rfl

/-! ## finishMemWrite -/

@[simp] theorem finishMemWrite_mode (s : State) : (finishMemWrite s).mode = s.mode := rfl
@[simp] theorem finishMemWrite_params (s : State) : (finishMemWrite s).params = s.params := rfl
@[simp] theorem finishMemWrite_cs (s : State) : (finishMemWrite s).cs = s.cs := rfl
@[simp] theorem finishMemWrite_ds (s : State) : (finishMemWrite s).ds = s.ds := rfl
@[simp] theorem finishMemWrite_ss (s : State) : (finishMemWrite s).ss = s.ss := rfl
@[simp] theorem finishMemWrite_es (s : State) : (finishMemWrite s).es = s.es := rfl
@[simp] theorem finishMemWrite_ip (s : State) : (finishMemWrite s).ip = s.ip := rfl
@[simp] theorem finishMemWrite_fr (s : State) : (finishMemWrite s).fr = s.fr := rfl
@[simp] theorem finishMemWrite_sp (s : State) : (finishMemWrite s).sp = s.sp := rfl
@[simp] theorem finishMemWrite_queue (s : State) : (finishMemWrite s).queue = s.queue := rfl
@[simp] theorem finishMemWrite_busState (s : State) : (finishMemWrite s).busState = s.busState := rfl
@[simp] theorem finishMemWrite_curOp (s : State) : (finishMemWrite s).curOp = s.curOp := rfl
@[simp] theorem finishMemWrite_curAddr (s : State) : (finishMemWrite s).curAddr = s.curAddr := rfl
@[simp] theorem finishMemWrite_curLanes (s : State) : (finishMemWrite s).curLanes = s.curLanes := rfl
@[simp] theorem finishMemWrite_curWdata (s : State) : (finishMemWrite s).curWdata = s.curWdata := rfl
@[simp] theorem finishMemWrite_curSeg (s : State) : (finishMemWrite s).curSeg = s.curSeg := rfl
@[simp] theorem finishMemWrite_curPart (s : State) : (finishMemWrite s).curPart = s.curPart := rfl
@[simp] theorem finishMemWrite_rdata (s : State) : (finishMemWrite s).rdata = s.rdata := rfl
@[simp] theorem finishMemWrite_result (s : State) : (finishMemWrite s).result = s.result := rfl
@[simp] theorem finishMemWrite_pendingOps (s : State) : (finishMemWrite s).pendingOps = s.pendingOps := rfl
@[simp] theorem finishMemWrite_nmiPending (s : State) : (finishMemWrite s).nmiPending = s.nmiPending := rfl
@[simp] theorem finishMemWrite_holdGranted (s : State) : (finishMemWrite s).holdGranted = s.holdGranted := rfl
@[simp] theorem finishMemWrite_granted (s : State) : (finishMemWrite s).granted = s.granted := rfl
@[simp] theorem finishMemWrite_rqPending0 (s : State) : (finishMemWrite s).rqPending0 = s.rqPending0 := rfl
@[simp] theorem finishMemWrite_rqPending1 (s : State) : (finishMemWrite s).rqPending1 = s.rqPending1 := rfl
@[simp] theorem finishMemWrite_testWait (s : State) : (finishMemWrite s).testWait = s.testWait := rfl
@[simp] theorem finishMemWrite_lockActive (s : State) : (finishMemWrite s).lockActive = s.lockActive := rfl
@[simp] theorem finishMemWrite_lockHeld (s : State) : (finishMemWrite s).lockHeld = s.lockHeld := rfl
@[simp] theorem finishMemWrite_ackPhase (s : State) : (finishMemWrite s).ackPhase = s.ackPhase := rfl
@[simp] theorem finishMemWrite_ackPending (s : State) : (finishMemWrite s).ackPending = s.ackPending := rfl
@[simp] theorem finishMemWrite_endPending (s : State) : (finishMemWrite s).endPending = s.endPending := rfl
@[simp] theorem finishMemWrite_ackType (s : State) : (finishMemWrite s).ackType = s.ackType := rfl
@[simp] theorem finishMemWrite_raised (s : State) : (finishMemWrite s).raised = s.raised := rfl
@[simp] theorem finishMemWrite_entrySteps (s : State) : (finishMemWrite s).entrySteps = s.entrySteps := rfl
@[simp] theorem finishMemWrite_waitStack (s : State) : (finishMemWrite s).waitStack = s.waitStack := rfl
@[simp] theorem finishMemWrite_resetClks (s : State) : (finishMemWrite s).resetClks = s.resetClks := rfl
@[simp] theorem finishMemWrite_restart (s : State) : (finishMemWrite s).restart = s.restart := rfl
@[simp] theorem finishMemWrite_qAct (s : State) : (finishMemWrite s).qAct = s.qAct := rfl
@[simp] theorem finishMemWrite_qsShown (s : State) : (finishMemWrite s).qsShown = s.qsShown := rfl
@[simp] theorem finishMemWrite_qOut (s : State) : (finishMemWrite s).qOut = s.qOut := rfl
@[simp] theorem finishMemWrite_idleDrive (s : State) : (finishMemWrite s).idleDrive = s.idleDrive := rfl
@[simp] theorem finishMemWrite_latchAddr (s : State) : (finishMemWrite s).latchAddr = s.latchAddr := rfl
@[simp] theorem finishMemWrite_latchBheN (s : State) : (finishMemWrite s).latchBheN = s.latchBheN := rfl
@[simp] theorem finishMemWrite_mem (s : State) : (finishMemWrite s).mem = storeLanes s.mem s.curAddr s.curLanes s.curWdata := rfl
@[simp] theorem finishMemWrite_program (s : State) : (finishMemWrite s).program = s.program := rfl
@[simp] theorem finishMemWrite_now (s : State) : (finishMemWrite s).now = s.now := rfl
@[simp] theorem finishMemWrite_inputs (s : State) : (finishMemWrite s).inputs = s.inputs := rfl
@[simp] theorem finishMemWrite_pins (s : State) : (finishMemWrite s).pins = s.pins := rfl
@[simp] theorem finishMemWrite_draws (s : State) : (finishMemWrite s).draws = s.draws := rfl
@[simp] theorem finishMemWrite_heldDraw (s : State) : (finishMemWrite s).heldDraw = s.heldDraw := rfl

/-! ## finishNothing -/

@[simp] theorem finishNothing_eq (s : State) : finishNothing s = s := rfl

end Sys2Proof.Machine
end

