-- ==== Sys2Proof/Laws/Enter.lean ====
section
/-! SUPPORT. What a T-state brings by itself: `enter` said once, field by field. -/

namespace Sys2Proof.Machine

/-- The core's register writes touch its registers only. -/
theorem writeRegs_eq (s : State) (ws : List (Reg × Word)) :
    writeRegs s ws = { s with
      cs := (writeRegs s ws).cs, ds := (writeRegs s ws).ds, ss := (writeRegs s ws).ss, es := (writeRegs s ws).es
      ip := (writeRegs s ws).ip, fr := (writeRegs s ws).fr, sp := (writeRegs s ws).sp } := by
  induction ws generalizing s with
  | nil => rfl
  | cons w ws ih =>
    obtain ⟨r, v⟩ := w
    simp only [writeRegs]
    rw [ih]
    cases r <;> rfl

theorem readReg_writeReg_same (s : State) (r : Reg) (v : Word) : readReg (writeReg s r v) r = v := by
  cases r <;> rfl

theorem readReg_writeReg_other (s : State) {r q : Reg} (v : Word) (h : r ≠ q) :
    readReg (writeReg s q v) r = readReg s r := by
  cases q <;> cases r <;> first | rfl | exact absurd rfl h

/-- A register that the core does not write keeps its value. -/
theorem readReg_writeRegs_other (s : State) {r : Reg} {ws : List (Reg × Word)} (h : ∀ v, (r, v) ∉ ws) :
    readReg (writeRegs s ws) r = readReg s r := by
  induction ws generalizing s with
  | nil => rfl
  | cons w ws ih =>
    obtain ⟨q, v⟩ := w
    have hq : r ≠ q := fun e => h v (by simp [e])
    rw [writeRegs, ih _ fun u hu => h u (List.mem_cons_of_mem _ hu), readReg_writeReg_other s v hq]

/-- The last value that the core gives for a register is in the register. -/
theorem readReg_writeRegs_last (s : State) (r : Reg) (v : Word) (l₁ : List (Reg × Word)) {l₂ : List (Reg × Word)}
    (h : ∀ w, (r, w) ∉ l₂) : readReg (writeRegs s (l₁ ++ (r, v) :: l₂)) r = v := by
  induction l₁ generalizing s with
  | nil => rw [List.nil_append, writeRegs, readReg_writeRegs_other _ h, readReg_writeReg_same]
  | cons w ws ih => exact ih _

/-- Using the queue touches the queue and its three reports only. -/
theorem useQueue_eq (q : QAct) (s : State) :
    useQueue q s = { s with
      queue := (useQueue q s).queue, qAct := (useQueue q s).qAct, qOut := (useQueue q s).qOut } := by
  unfold useQueue
  split <;> try split
  all_goals rfl

/-- Using the queue never makes it longer. -/
theorem useQueue_length (q : QAct) (s : State) : (useQueue q s).queue.length ≤ s.queue.length := by
  unfold useQueue
  split <;> try split
  all_goals simp_all

/-- The events of a T-state touch the registers, the queue and its reports, the pending bits, the lock level, the inputs
and the core's requests only. -/
theorem takeEvents_eq (b : BusState) (f : Frame) (s : State) :
    takeEvents b f s = { s with
      cs := (takeEvents b f s).cs, ds := (takeEvents b f s).ds, ss := (takeEvents b f s).ss, es := (takeEvents b f s).es
      ip := (takeEvents b f s).ip, fr := (takeEvents b f s).fr, sp := (takeEvents b f s).sp
      queue := (takeEvents b f s).queue, qAct := (takeEvents b f s).qAct, qOut := (takeEvents b f s).qOut
      now := f
      nmiPending := s.nmiPending || (f.nmi && !s.now.nmi)
      rqPending0 := s.rqPending0 || (f.rq0 && decide (s.mode = .max))
      rqPending1 := s.rqPending1 || (f.rq1 && decide (s.mode = .max))
      lockActive := if b = .tw then s.lockActive
        else (f.lock || s.lockHeld) && decide (s.mode = .max) && decide (b ≠ .holdAck)
      program := s.program ++ f.requests
      qsShown := s.qAct } := by
  unfold takeEvents
  rw [useQueue_eq, writeRegs_eq]

/-- The queue after the events of a T-state. -/
theorem takeEvents_queue (b : BusState) (f : Frame) (s : State) : (takeEvents b f s).queue.length ≤ s.queue.length := by
  unfold takeEvents
  refine Nat.le_trans (useQueue_length _ _) ?_
  rw [writeRegs_eq]

/-! ## enter, field by field -/

@[simp] theorem enter_mode (b : BusState) (s : State) : (enter b s).mode = s.mode := by
  simp only [enter, settle, absorb]; split
  · rfl
  · rw [takeEvents_eq]

@[simp] theorem enter_params (b : BusState) (s : State) : (enter b s).params = s.params := by
  simp only [enter, settle, absorb]; split
  · rfl
  · rw [takeEvents_eq]

@[simp] theorem enter_curOp (b : BusState) (s : State) : (enter b s).curOp = s.curOp := by
  simp only [enter, settle, absorb]; split
  · rfl
  · rw [takeEvents_eq]

@[simp] theorem enter_curAddr (b : BusState) (s : State) : (enter b s).curAddr = s.curAddr := by
  simp only [enter, settle, absorb]; split
  · rfl
  · rw [takeEvents_eq]

@[simp] theorem enter_curLanes (b : BusState) (s : State) : (enter b s).curLanes = s.curLanes := by
  simp only [enter, settle, absorb]; split
  · rfl
  · rw [takeEvents_eq]

@[simp] theorem enter_curWdata (b : BusState) (s : State) : (enter b s).curWdata = s.curWdata := by
  simp only [enter, settle, absorb]; split
  · rfl
  · rw [takeEvents_eq]

@[simp] theorem enter_curSeg (b : BusState) (s : State) : (enter b s).curSeg = s.curSeg := by
  simp only [enter, settle, absorb]; split
  · rfl
  · rw [takeEvents_eq]

@[simp] theorem enter_curPart (b : BusState) (s : State) : (enter b s).curPart = s.curPart := by
  simp only [enter, settle, absorb]; split
  · rfl
  · rw [takeEvents_eq]

@[simp] theorem enter_rdata (b : BusState) (s : State) : (enter b s).rdata = s.rdata := by
  simp only [enter, settle, absorb]; split
  · rfl
  · rw [takeEvents_eq]

@[simp] theorem enter_result (b : BusState) (s : State) : (enter b s).result = s.result := by
  simp only [enter, settle, absorb]; split
  · rfl
  · rw [takeEvents_eq]

@[simp] theorem enter_pendingOps (b : BusState) (s : State) : (enter b s).pendingOps = s.pendingOps := by
  simp only [enter, settle, absorb]; split
  · rfl
  · rw [takeEvents_eq]

@[simp] theorem enter_holdGranted (b : BusState) (s : State) : (enter b s).holdGranted = s.holdGranted := by
  simp only [enter, settle, absorb]; split
  · rfl
  · rw [takeEvents_eq]

@[simp] theorem enter_granted (b : BusState) (s : State) : (enter b s).granted = s.granted := by
  simp only [enter, settle, absorb]; split
  · rfl
  · rw [takeEvents_eq]

@[simp] theorem enter_testWait (b : BusState) (s : State) : (enter b s).testWait = s.testWait := by
  simp only [enter, settle, absorb]; split
  · rfl
  · rw [takeEvents_eq]

@[simp] theorem enter_lockHeld (b : BusState) (s : State) : (enter b s).lockHeld = s.lockHeld := by
  simp only [enter, settle, absorb]; split
  · rfl
  · rw [takeEvents_eq]

@[simp] theorem enter_endPending (b : BusState) (s : State) : (enter b s).endPending = s.endPending := by
  simp only [enter, settle, absorb]; split
  · rfl
  · rw [takeEvents_eq]

@[simp] theorem enter_ackPhase (b : BusState) (s : State) : (enter b s).ackPhase = s.ackPhase := by
  simp only [enter, settle, absorb]; split
  · rfl
  · rw [takeEvents_eq]

@[simp] theorem enter_ackPending (b : BusState) (s : State) : (enter b s).ackPending = s.ackPending := by
  simp only [enter, settle, absorb]; split
  · rfl
  · rw [takeEvents_eq]

@[simp] theorem enter_ackType (b : BusState) (s : State) : (enter b s).ackType = s.ackType := by
  simp only [enter, settle, absorb]; split
  · rfl
  · rw [takeEvents_eq]

@[simp] theorem enter_raised (b : BusState) (s : State) : (enter b s).raised = s.raised := by
  simp only [enter, settle, absorb]; split
  · rfl
  · rw [takeEvents_eq]

@[simp] theorem enter_entrySteps (b : BusState) (s : State) : (enter b s).entrySteps = s.entrySteps := by
  simp only [enter, settle, absorb]; split
  · rfl
  · rw [takeEvents_eq]

@[simp] theorem enter_waitStack (b : BusState) (s : State) : (enter b s).waitStack = s.waitStack := by
  simp only [enter, settle, absorb]; split
  · rfl
  · rw [takeEvents_eq]

@[simp] theorem enter_resetClks (b : BusState) (s : State) : (enter b s).resetClks = s.resetClks := by
  simp only [enter, settle, absorb]; split
  · rfl
  · rw [takeEvents_eq]

@[simp] theorem enter_restart (b : BusState) (s : State) : (enter b s).restart = s.restart := by
  simp only [enter, settle, absorb]; split
  · rfl
  · rw [takeEvents_eq]

@[simp] theorem enter_idleDrive (b : BusState) (s : State) : (enter b s).idleDrive = s.idleDrive := by
  simp only [enter, settle, absorb]; split
  · rfl
  · rw [takeEvents_eq]

@[simp] theorem enter_latchAddr (b : BusState) (s : State) : (enter b s).latchAddr = s.latchAddr := by
  simp only [enter, settle, absorb]; split
  · rfl
  · rw [takeEvents_eq]

@[simp] theorem enter_latchBheN (b : BusState) (s : State) : (enter b s).latchBheN = s.latchBheN := by
  simp only [enter, settle, absorb]; split
  · rfl
  · rw [takeEvents_eq]

@[simp] theorem enter_mem (b : BusState) (s : State) : (enter b s).mem = s.mem := by
  simp only [enter, settle, absorb]; split
  · rfl
  · rw [takeEvents_eq]

/-- A register in the coming T-state: as it is, with what the core writes. -/
theorem enter_readReg {b : BusState} (s : State) (hb : b ≠ .inReset) (r : Reg) :
    readReg (enter b s) r = readReg (writeRegs s (nextFrame s).regWrites) r := by
  have congr : ∀ (ws : List (Reg × Word)) (u v : State), (∀ r, readReg u r = readReg v r) →
      readReg (writeRegs u ws) r = readReg (writeRegs v ws) r := by
    intro ws
    induction ws with
    | nil => exact fun u v h => h r
    | cons w ws ih =>
      obtain ⟨q, x⟩ := w
      intro u v h
      refine ih _ _ fun p => ?_
      by_cases hp : p = q
      · subst hp
        rw [readReg_writeReg_same, readReg_writeReg_same]
      · rw [readReg_writeReg_other u x hp, readReg_writeReg_other v x hp, h]
  have h : readReg (enter b s) r = readReg (takeEvents b (nextFrame s) { s with inputs := s.inputs.tail }) r := by
    simp only [enter, settle, absorb, if_neg hb]
    cases r <;> rfl
  rw [h]
  unfold takeEvents
  rw [useQueue_eq]
  refine Eq.trans ?_ (congr _ { s with
    inputs := s.inputs.tail, now := nextFrame s
    nmiPending := s.nmiPending || ((nextFrame s).nmi && !s.now.nmi)
    rqPending0 := s.rqPending0 || ((nextFrame s).rq0 && decide (s.mode = .max))
    rqPending1 := s.rqPending1 || ((nextFrame s).rq1 && decide (s.mode = .max))
    lockActive := if b = .tw then s.lockActive
      else ((nextFrame s).lock || s.lockHeld) && decide (s.mode = .max) && decide (b ≠ .holdAck)
    program := s.program ++ (nextFrame s).requests
    qsShown := s.qAct } s fun p => by cases p <;> rfl)
  cases r <;> rfl

@[simp] theorem settle_mode (b : BusState) (s : State) : (settle b s).mode = s.mode := enter_mode b s

@[simp] theorem settle_params (b : BusState) (s : State) : (settle b s).params = s.params := enter_params b s

@[simp] theorem settle_curOp (b : BusState) (s : State) : (settle b s).curOp = s.curOp := enter_curOp b s

@[simp] theorem settle_curAddr (b : BusState) (s : State) : (settle b s).curAddr = s.curAddr := enter_curAddr b s

@[simp] theorem settle_curLanes (b : BusState) (s : State) : (settle b s).curLanes = s.curLanes := enter_curLanes b s

@[simp] theorem settle_curWdata (b : BusState) (s : State) : (settle b s).curWdata = s.curWdata := enter_curWdata b s

@[simp] theorem settle_curSeg (b : BusState) (s : State) : (settle b s).curSeg = s.curSeg := enter_curSeg b s

@[simp] theorem settle_curPart (b : BusState) (s : State) : (settle b s).curPart = s.curPart := enter_curPart b s

@[simp] theorem settle_rdata (b : BusState) (s : State) : (settle b s).rdata = s.rdata := enter_rdata b s

@[simp] theorem settle_result (b : BusState) (s : State) : (settle b s).result = s.result := enter_result b s

@[simp] theorem settle_pendingOps (b : BusState) (s : State) : (settle b s).pendingOps = s.pendingOps := enter_pendingOps b s

@[simp] theorem settle_holdGranted (b : BusState) (s : State) : (settle b s).holdGranted = s.holdGranted := enter_holdGranted b s

@[simp] theorem settle_granted (b : BusState) (s : State) : (settle b s).granted = s.granted := enter_granted b s

@[simp] theorem settle_testWait (b : BusState) (s : State) : (settle b s).testWait = s.testWait := enter_testWait b s

@[simp] theorem settle_lockHeld (b : BusState) (s : State) : (settle b s).lockHeld = s.lockHeld := enter_lockHeld b s

@[simp] theorem settle_endPending (b : BusState) (s : State) : (settle b s).endPending = s.endPending := enter_endPending b s

@[simp] theorem settle_ackPhase (b : BusState) (s : State) : (settle b s).ackPhase = s.ackPhase := enter_ackPhase b s

@[simp] theorem settle_ackPending (b : BusState) (s : State) : (settle b s).ackPending = s.ackPending := enter_ackPending b s

@[simp] theorem settle_ackType (b : BusState) (s : State) : (settle b s).ackType = s.ackType := enter_ackType b s

@[simp] theorem settle_raised (b : BusState) (s : State) : (settle b s).raised = s.raised := enter_raised b s

@[simp] theorem settle_entrySteps (b : BusState) (s : State) : (settle b s).entrySteps = s.entrySteps := enter_entrySteps b s

@[simp] theorem settle_waitStack (b : BusState) (s : State) : (settle b s).waitStack = s.waitStack := enter_waitStack b s

@[simp] theorem settle_resetClks (b : BusState) (s : State) : (settle b s).resetClks = s.resetClks := enter_resetClks b s

@[simp] theorem settle_restart (b : BusState) (s : State) : (settle b s).restart = s.restart := enter_restart b s

@[simp] theorem settle_idleDrive (b : BusState) (s : State) : (settle b s).idleDrive = s.idleDrive := enter_idleDrive b s

@[simp] theorem settle_latchAddr (b : BusState) (s : State) : (settle b s).latchAddr = s.latchAddr := enter_latchAddr b s

@[simp] theorem settle_latchBheN (b : BusState) (s : State) : (settle b s).latchBheN = s.latchBheN := enter_latchBheN b s

@[simp] theorem settle_mem (b : BusState) (s : State) : (settle b s).mem = s.mem := enter_mem b s

@[simp] theorem settle_busState (b : BusState) (s : State) : (settle b s).busState = b := rfl

@[simp] theorem settle_now (b : BusState) (s : State) : (settle b s).now = nextFrame s := by
  simp only [settle, absorb]; split
  · rfl
  · rw [takeEvents_eq]

@[simp] theorem settle_draws (b : BusState) (s : State) : (settle b s).draws = s.draws + 1 := rfl

@[simp] theorem settle_fr (b : BusState) (s : State) : (settle b s).fr = (enter b s).fr := rfl

@[simp] theorem enter_busState (b : BusState) (s : State) : (enter b s).busState = b := rfl

@[simp] theorem enter_draws (b : BusState) (s : State) : (enter b s).draws = s.draws + 1 := rfl

@[simp] theorem enter_heldDraw (b : BusState) (s : State) :
    (enter b s).heldDraw = if b = .tw then s.heldDraw else s.draws + 1 := rfl

@[simp] theorem enter_now (b : BusState) (s : State) : (enter b s).now = nextFrame s := by
  simp only [enter, settle, absorb]; split
  · rfl
  · rw [takeEvents_eq]

@[simp] theorem enter_inputs (b : BusState) (s : State) : (enter b s).inputs = s.inputs.tail := by
  simp only [enter, settle, absorb]; split
  · rfl
  · rw [takeEvents_eq]

theorem enter_queue (b : BusState) (s : State) : (enter b s).queue.length ≤ s.queue.length := by
  simp only [enter, settle, absorb]; split
  · exact Nat.le_refl _
  · exact takeEvents_queue _ _ _

theorem enter_lockActive {b : BusState} (s : State) (hb : b ≠ .inReset) :
    (enter b s).lockActive = if b = .tw then s.lockActive
      else ((nextFrame s).lock || s.lockHeld) && decide (s.mode = .max) && decide (b ≠ .holdAck) := by
  simp only [enter, settle, absorb, if_neg hb]; rw [takeEvents_eq]

theorem enter_nmiPending {b : BusState} (s : State) (hb : b ≠ .inReset) :
    (enter b s).nmiPending = (s.nmiPending || ((nextFrame s).nmi && !s.now.nmi)) := by
  simp only [enter, settle, absorb, if_neg hb]; rw [takeEvents_eq]

theorem enter_rqPending0 {b : BusState} (s : State) (hb : b ≠ .inReset) :
    (enter b s).rqPending0 = (s.rqPending0 || ((nextFrame s).rq0 && decide (s.mode = .max))) := by
  simp only [enter, settle, absorb, if_neg hb]; rw [takeEvents_eq]

theorem enter_rqPending1 {b : BusState} (s : State) (hb : b ≠ .inReset) :
    (enter b s).rqPending1 = (s.rqPending1 || ((nextFrame s).rq1 && decide (s.mode = .max))) := by
  simp only [enter, settle, absorb, if_neg hb]; rw [takeEvents_eq]

theorem enter_program {b : BusState} (s : State) (hb : b ≠ .inReset) :
    (enter b s).program = s.program ++ (nextFrame s).requests := by
  simp only [enter, settle, absorb, if_neg hb]; rw [takeEvents_eq]

theorem enter_qsShown {b : BusState} (s : State) (hb : b ≠ .inReset) : (enter b s).qsShown = s.qAct := by
  simp only [enter, settle, absorb, if_neg hb]; rw [takeEvents_eq]

/-- Using the queue depends on the queue only. -/
theorem useQueue_congr (q : QAct) {s u : State} (h : s.queue = u.queue) :
    (useQueue q s).queue = (useQueue q u).queue ∧ (useQueue q s).qAct = (useQueue q u).qAct ∧
      (useQueue q s).qOut = (useQueue q u).qOut := by
  cases q
  · exact ⟨h, rfl, rfl⟩
  · simp only [useQueue, h]
    split <;> simp_all
  · simp only [useQueue, h]
    split <;> simp_all
  · exact ⟨rfl, rfl, rfl⟩

/-- The queue and its reports in the coming T-state are what the core's queue action makes of the queue. -/
theorem enter_useQueue {b : BusState} (s : State) (hb : b ≠ .inReset) :
    (enter b s).queue = (useQueue (nextFrame s).qAct s).queue ∧ (enter b s).qAct = (useQueue (nextFrame s).qAct s).qAct ∧
      (enter b s).qOut = (useQueue (nextFrame s).qAct s).qOut := by
  simp only [enter, settle, absorb, if_neg hb, takeEvents]
  apply useQueue_congr
  rw [writeRegs_eq]

@[simp] theorem enter_inReset_nmiPending (s : State) : (enter .inReset s).nmiPending = s.nmiPending := rfl

@[simp] theorem enter_inReset_rqPending0 (s : State) : (enter .inReset s).rqPending0 = s.rqPending0 := rfl

@[simp] theorem enter_inReset_rqPending1 (s : State) : (enter .inReset s).rqPending1 = s.rqPending1 := rfl

@[simp] theorem enter_inReset_lockActive (s : State) : (enter .inReset s).lockActive = s.lockActive := rfl

@[simp] theorem enter_inReset_program (s : State) : (enter .inReset s).program = s.program := rfl

@[simp] theorem enter_inReset_qAct (s : State) : (enter .inReset s).qAct = s.qAct := rfl

@[simp] theorem enter_inReset_qsShown (s : State) : (enter .inReset s).qsShown = s.qsShown := rfl

@[simp] theorem enter_inReset_qOut (s : State) : (enter .inReset s).qOut = s.qOut := rfl

@[simp] theorem enter_inReset_queue (s : State) : (enter .inReset s).queue = s.queue := rfl

@[simp] theorem enter_inReset_cs (s : State) : (enter .inReset s).cs = s.cs := rfl

@[simp] theorem enter_inReset_ds (s : State) : (enter .inReset s).ds = s.ds := rfl

@[simp] theorem enter_inReset_ss (s : State) : (enter .inReset s).ss = s.ss := rfl

@[simp] theorem enter_inReset_es (s : State) : (enter .inReset s).es = s.es := rfl

@[simp] theorem enter_inReset_ip (s : State) : (enter .inReset s).ip = s.ip := rfl

@[simp] theorem enter_inReset_fr (s : State) : (enter .inReset s).fr = s.fr := rfl

@[simp] theorem enter_inReset_sp (s : State) : (enter .inReset s).sp = s.sp := rfl

/-- The pins of the coming T-state are those of its bus state, inputs and free value. -/
@[simp] theorem enter_pins (b : BusState) (s : State) :
    (enter b s).pins = pinsOf (decide (b = .holdAck) && decide (s.busState ≠ .holdAck)) (settle b s) := rfl

/-- The state that the pins are taken from is the coming one. -/
theorem enter_eq_settle (b : BusState) (s : State) : settle b s = { enter b s with pins := (settle b s).pins } := rfl

/-! ## A frame that brings levels only -/

theorem plainFrame_iff (f : Frame) :
    plainFrame f = true ↔ f.reset = false ∧ f.regWrites = [] ∧ f.qAct = .noop ∧ f.requests = [] := by
  simp [plainFrame, and_assoc]

theorem takeEvents_plain {f : Frame} (hf : plainFrame f = true) (b : BusState) (s : State) :
    takeEvents b f s = { s with
      qAct := .noop, qOut := none
      now := f
      nmiPending := s.nmiPending || (f.nmi && !s.now.nmi)
      rqPending0 := s.rqPending0 || (f.rq0 && decide (s.mode = .max))
      rqPending1 := s.rqPending1 || (f.rq1 && decide (s.mode = .max))
      lockActive := if b = .tw then s.lockActive
        else (f.lock || s.lockHeld) && decide (s.mode = .max) && decide (b ≠ .holdAck)
      qsShown := s.qAct } := by
  obtain ⟨-, h1, h2, h3⟩ := (plainFrame_iff f).1 hf
  simp only [takeEvents, h1, h2, h3, writeRegs, useQueue, List.append_nil]

theorem enter_plain_cs {b : BusState} {s : State} (hf : plainFrame (nextFrame s) = true) :
    (enter b s).cs = s.cs := by
  simp only [enter, settle, absorb]; split
  · rfl
  · rw [takeEvents_plain hf]

theorem enter_plain_ds {b : BusState} {s : State} (hf : plainFrame (nextFrame s) = true) :
    (enter b s).ds = s.ds := by
  simp only [enter, settle, absorb]; split
  · rfl
  · rw [takeEvents_plain hf]

theorem enter_plain_ss {b : BusState} {s : State} (hf : plainFrame (nextFrame s) = true) :
    (enter b s).ss = s.ss := by
  simp only [enter, settle, absorb]; split
  · rfl
  · rw [takeEvents_plain hf]

theorem enter_plain_es {b : BusState} {s : State} (hf : plainFrame (nextFrame s) = true) :
    (enter b s).es = s.es := by
  simp only [enter, settle, absorb]; split
  · rfl
  · rw [takeEvents_plain hf]

theorem enter_plain_ip {b : BusState} {s : State} (hf : plainFrame (nextFrame s) = true) :
    (enter b s).ip = s.ip := by
  simp only [enter, settle, absorb]; split
  · rfl
  · rw [takeEvents_plain hf]

theorem enter_plain_fr {b : BusState} {s : State} (hf : plainFrame (nextFrame s) = true) :
    (enter b s).fr = s.fr := by
  simp only [enter, settle, absorb]; split
  · rfl
  · rw [takeEvents_plain hf]

theorem enter_plain_sp {b : BusState} {s : State} (hf : plainFrame (nextFrame s) = true) :
    (enter b s).sp = s.sp := by
  simp only [enter, settle, absorb]; split
  · rfl
  · rw [takeEvents_plain hf]

theorem enter_plain_queue {b : BusState} {s : State} (hf : plainFrame (nextFrame s) = true) :
    (enter b s).queue = s.queue := by
  simp only [enter, settle, absorb]; split
  · rfl
  · rw [takeEvents_plain hf]

theorem enter_plain_program {b : BusState} {s : State} (hf : plainFrame (nextFrame s) = true) :
    (enter b s).program = s.program := by
  simp only [enter, settle, absorb]; split
  · rfl
  · rw [takeEvents_plain hf]

end Sys2Proof.Machine
end

