-- ==== Sys2Proof/Laws/Operands.lean ====
section
/-! SUPPORT. What the operations that the access primitives expand into are: their kind, address, lanes, data and wiring. -/

namespace Sys2Proof.Machine

theorem kindOf_memReadOp (m : Mode) (a : Addr) (b : Bool) (g : Seg) : kindOf (memReadOp m a b g) = some .memRead := by
  cases m <;> rfl

theorem kindOf_memWriteOp (m : Mode) (a : Addr) (b : Bool) (g : Seg) (v : Word) :
    kindOf (memWriteOp m a b g v) = some .memWrite := by
  cases m <;> rfl

theorem kindOf_ioReadOp (m : Mode) (p : Port) (b : Bool) : kindOf (ioReadOp m p b) = some .ioRead := by
  cases m <;> rfl

theorem kindOf_ioWriteOp (m : Mode) (p : Port) (b : Bool) (v : Word) :
    kindOf (ioWriteOp m p b v) = some .ioWrite := by
  cases m <;> rfl

theorem kindOf_fetchOp (m : Mode) (f : FetchLanes) (a : Addr) : kindOf (fetchOp m f a) = some .fetch := by
  cases m <;> rfl

theorem memReadOp_operands (m : Mode) (a : Addr) (b : Bool) (g : Seg) :
    addrOf (memReadOp m a b g) = a ∧ lanesOfInstr (memReadOp m a b g) = lanesOf b (a.getLsbD 0) ∧
      segOf (memReadOp m a b g) = .reg g := by
  cases m <;> exact ⟨rfl, rfl, rfl⟩

theorem memWriteOp_operands (m : Mode) (a : Addr) (b : Bool) (g : Seg) (v : Word) :
    addrOf (memWriteOp m a b g v) = a ∧ lanesOfInstr (memWriteOp m a b g v) = lanesOf b (a.getLsbD 0) ∧
      segOf (memWriteOp m a b g v) = .reg g ∧ wdataOf (memWriteOp m a b g v) = v := by
  cases m <;> exact ⟨rfl, rfl, rfl, rfl⟩

theorem ioReadOp_operands (m : Mode) (p : Port) (b : Bool) :
    addrOf (ioReadOp m p b) = portAddr p ∧ lanesOfInstr (ioReadOp m p b) = lanesOf b (p.getLsbD 0) ∧
      segOf (ioReadOp m p b) = .none := by
  cases m <;> exact ⟨rfl, rfl, rfl⟩

theorem ioWriteOp_operands (m : Mode) (p : Port) (b : Bool) (v : Word) :
    addrOf (ioWriteOp m p b v) = portAddr p ∧ lanesOfInstr (ioWriteOp m p b v) = lanesOf b (p.getLsbD 0) ∧
      segOf (ioWriteOp m p b v) = .none ∧ wdataOf (ioWriteOp m p b v) = v := by
  cases m <;> exact ⟨rfl, rfl, rfl, rfl⟩

theorem fetchOp_operands (m : Mode) (f : FetchLanes) (a : Addr) :
    addrOf (fetchOp m f a) = a ∧ segOf (fetchOp m f a) = .reg .cs := by
  cases m <;> exact ⟨rfl, rfl⟩

/-- A fetch selects a lane. -/
theorem fetchOp_laned (m : Mode) (f : FetchLanes) (a : Addr) : lanesOfInstr (fetchOp m f a) ≠ .none := by
  unfold fetchOp
  cases m <;> cases fetchWidth f a <;> cases h : a.getLsbD 0 <;> simp only [lanesOfInstr, h] <;> decide

theorem memReadOp_wired (m : Mode) (a : Addr) (b : Bool) (g : Seg) :
    (memReadOp m a b g).format = .maxs → m = .max := by
  cases m <;> simp [memReadOp, Instr.format]

theorem memWriteOp_wired (m : Mode) (a : Addr) (b : Bool) (g : Seg) (v : Word) :
    (memWriteOp m a b g v).format = .maxs → m = .max := by
  cases m <;> simp [memWriteOp, Instr.format]

theorem ioReadOp_wired (m : Mode) (p : Port) (b : Bool) : (ioReadOp m p b).format = .maxs → m = .max := by
  cases m <;> simp [ioReadOp, Instr.format]

theorem ioWriteOp_wired (m : Mode) (p : Port) (b : Bool) (v : Word) :
    (ioWriteOp m p b v).format = .maxs → m = .max := by
  cases m <;> simp [ioWriteOp, Instr.format]

theorem fetchOp_wired (m : Mode) (f : FetchLanes) (a : Addr) : (fetchOp m f a).format = .maxs → m = .max := by
  cases m <;> simp [fetchOp, Instr.format]

theorem ackOp_ack (s : State) : kindOf (ackOp s) = some .ack ∧ ((ackOp s).format = .maxs → s.mode = .max) := by
  unfold ackOp
  cases s.mode <;> simp [kindOf, Instr.format]

theorem laneCount_le (l : Lanes) : laneCount l ≤ 2 := by
  cases l <;> decide

/-- The address after an odd one is even. -/
theorem succ_odd {n : Nat} (a : BitVec (n + 1)) (h : a.getLsbD 0 = true) : (a + 1).getLsbD 0 = false := by
  rw [BitVec.getLsbD_add (by omega)]
  simp [h]

/-- A19..A16 and A15..A0 of an address make it up. -/
theorem addr_join (a : Addr) : a.extractLsb' 16 4 ++ a.extractLsb' 0 16 = a := by
  apply BitVec.eq_of_toNat_eq
  have := a.isLt
  simp only [BitVec.toNat_append, BitVec.extractLsb'_toNat, Nat.shiftRight_eq_div_pow, Nat.shiftLeft_eq]
  rw [Nat.or_comm, ← Nat.shiftLeft_eq, Nat.or_comm, ← Nat.shiftLeft_add_eq_or_of_lt (by omega), Nat.shiftLeft_eq]
  omega

end Sys2Proof.Machine
end

