-- ==== Sys2Proof/Laws/Ops.lean ====
section
/-! SUPPORT. What each shared operation of a meaning can answer, said once. -/

namespace Sys2Proof.Machine

/-! ## Projections of small updates -/

@[simp] theorem curKind_loadOp (i : Instr) (s : State) : curKind (loadOp i s) = kindOf i := rfl

@[simp] theorem curKind_enter (b : BusState) (s : State) : curKind (enter b s) = curKind s := by simp [curKind]

@[simp] theorem curKind_settle (b : BusState) (s : State) : curKind (settle b s) = curKind s := by simp [curKind]

@[simp] theorem readMem_enter (b : BusState) (s : State) (a : Addr) : readMem (enter b s) a = readMem s a := by
  simp [readMem]

/-- The address latch is all that the falling edge of ALE changes. -/
theorem latchAddress_eq (s : State) :
    latchAddress s = { s with latchAddr := (latchAddress s).latchAddr, latchBheN := (latchAddress s).latchBheN } := by
  unfold latchAddress
  split <;> rfl

/-! ## One T-state of a bus cycle -/

theorem during_next {i : Instr} {s t u : State} (h : during i s t = .next u) : s.curOp = some i ∧ u = t := by
  unfold during at h
  split at h
  · exact ⟨‹_›, by simpa using h.symm⟩
  · cases h

/-- All that a T-state of a transfer or halt cycle can be. -/
theorem runCycle_next {i : Instr} {transfer : Bool} {finish : State → State} {s t : State}
    (h : runCycle i transfer finish s = .next t) :
    ((s.busState = .idle ∨ s.busState = .t4) ∧ ¬(transfer = true ∧ lanesOfInstr i = .none) ∧ t = enter .t1 (loadOp i s)) ∨
    (s.busState = .t1 ∧ s.curOp = some i ∧ ¬(transfer = true ∧ s.curLanes = .none) ∧ t = enter .t2 (latchAddress s)) ∨
    (s.busState = .t2 ∧ s.curOp = some i ∧ t = enter .t3 s) ∨
    ((s.busState = .t3 ∨ s.busState = .tw) ∧ s.curOp = some i ∧ s.now.ready = true ∧ t = enter .t4 (finish s)) ∨
    ((s.busState = .t3 ∨ s.busState = .tw) ∧ s.curOp = some i ∧ s.now.ready = false ∧ t = enter .tw s) ∨
    (s.busState = .holdAck ∧ t = enter .holdAck s) ∨
    (s.busState = .inReset ∧ t = enter .inReset s) := by
  unfold runCycle at h
  split at h <;> rename_i hb
  · split at h <;> simp_all
  · split at h <;> simp_all
  · split at h
    · cases h
    · have := during_next h
      simp_all
  · have := during_next h
    simp_all
  · have := during_next h
    cases hr : s.now.ready <;> simp_all
  · have := during_next h
    cases hr : s.now.ready <;> simp_all
  · simp_all
  · simp_all

/-- All that the end of an acknowledge cycle can be. -/
theorem finishAck_next {s t : State} (h : finishAck s = .next t) :
    (s.ackPhase = .first ∧ t = enter .t4 s) ∨
    (s.ackPhase = .second ∧
      t = enter .t4 (takeInterrupt (lowIn s) { s with ackType := lowIn s, ackPhase := .none })) := by
  unfold finishAck at h
  split at h <;> simp_all

/-- All that a T-state of the acknowledge sequence can be. -/
theorem runAck_next {i : Instr} {s t : State} (h : runAck i s = .next t) :
    ((s.busState = .idle ∨ s.busState = .t4) ∧
      ((s.ackPhase = .first ∧ s.params.ackGap = 0 ∧ t = enter .t1 { loadOp i s with ackPhase := .second }) ∨
       (∃ g, s.ackPhase = .first ∧ s.params.ackGap = g + 1 ∧
          t = enter .idle { s with ackPhase := .gap g, idleDrive := none }) ∨
       (s.ackPhase = .gap 0 ∧ t = enter .t1 { loadOp i s with ackPhase := .second }) ∨
       (∃ n, s.ackPhase = .gap (n + 1) ∧ t = enter .idle { s with ackPhase := .gap n, idleDrive := none }) ∨
       ((s.ackPhase = .none ∨ s.ackPhase = .second) ∧ t = enter .t1 { loadOp i s with ackPhase := .first }))) ∨
    (s.busState = .t1 ∧ s.curOp = some i ∧ t = enter .t2 (latchAddress s)) ∨
    (s.busState = .t2 ∧ s.curOp = some i ∧ t = enter .t3 s) ∨
    ((s.busState = .t3 ∨ s.busState = .tw) ∧ s.curOp = some i ∧ s.now.ready = true ∧ finishAck s = .next t) ∨
    ((s.busState = .t3 ∨ s.busState = .tw) ∧ s.curOp = some i ∧ s.now.ready = false ∧ t = enter .tw s) ∨
    (s.busState = .holdAck ∧ t = enter .holdAck s) ∨
    (s.busState = .inReset ∧ t = enter .inReset s) := by
  unfold runAck at h
  dsimp only at h
  split at h <;> rename_i hb
  · left
    refine ⟨by simp [hb], ?_⟩
    split at h <;> rename_i hp
    · split at h <;> rename_i hg
      · exact .inl ⟨hp, hg, by simpa using h.symm⟩
      · exact .inr (.inl ⟨_, hp, hg, by simpa using h.symm⟩)
    · exact .inr (.inr (.inl ⟨hp, by simpa using h.symm⟩))
    · exact .inr (.inr (.inr (.inl ⟨_, hp, by simpa using h.symm⟩)))
    · refine .inr (.inr (.inr (.inr ⟨?_, by simpa using h.symm⟩)))
      cases hq : s.ackPhase with
      | none => simp
      | second => simp
      | first => simp_all
      | gap n => cases n <;> simp_all
  · left
    refine ⟨by simp [hb], ?_⟩
    split at h <;> rename_i hp
    · split at h <;> rename_i hg
      · exact .inl ⟨hp, hg, by simpa using h.symm⟩
      · exact .inr (.inl ⟨_, hp, hg, by simpa using h.symm⟩)
    · exact .inr (.inr (.inl ⟨hp, by simpa using h.symm⟩))
    · exact .inr (.inr (.inr (.inl ⟨_, hp, by simpa using h.symm⟩)))
    · refine .inr (.inr (.inr (.inr ⟨?_, by simpa using h.symm⟩)))
      cases hq : s.ackPhase with
      | none => simp
      | second => simp
      | first => simp_all
      | gap n => cases n <;> simp_all
  · have := during_next h
    simp_all
  · have := during_next h
    simp_all
  · split at h
    · cases hr : s.now.ready <;> simp_all
    · cases h
  · split at h
    · cases hr : s.now.ready <;> simp_all
    · cases h
  · simp_all
  · simp_all

/-- All that a T-state without a bus cycle can be. -/
theorem runIdle_next {x : Option (BitVec 2)} {s t : State} (h : runIdle x s = .next t) :
    ((s.busState = .idle ∨ s.busState = .t4) ∧ t = enter .idle { s with curOp := none, idleDrive := x }) ∨
    (s.busState = .holdAck ∧ t = enter .holdAck s) ∨
    (s.busState = .inReset ∧ t = enter .inReset s) := by
  unfold runIdle at h
  split at h <;> simp_all

/-- All that a LANE pattern can be. -/
theorem runLane_next {l : Lanes} {s t : State} (h : runLane l s = .next t) :
    l ≠ .none ∧
    ((s.busState = .t1 ∧ t = { s with curLanes := l }) ∨
     ((s.busState = .idle ∨ s.busState = .t4) ∧
        t = enter .idle { s with curOp := none, idleDrive := none, curLanes := l }) ∨
     (s.busState = .holdAck ∧ t = enter .holdAck s) ∨
     (s.busState = .inReset ∧ t = enter .inReset s)) := by
  unfold runLane at h
  split at h
  · cases h
  · refine ⟨‹_›, ?_⟩
    split at h <;> simp_all

theorem inMaxMode_next {s t : State} {o : Host.Outcome State Fault Refusal} (h : inMaxMode s o = .next t) :
    s.mode = .max ∧ o = .next t := by
  unfold inMaxMode at h
  split at h
  · exact ⟨‹_›, h⟩
  · cases h

@[simp] theorem inMaxMode_max {s : State} (hm : s.mode = .max) (o : Host.Outcome State Fault Refusal) :
    inMaxMode s o = o := by
  simp [inMaxMode, hm]

/-! ## One T-state of any operation -/

/-- What a cycle of a kind has done when READY is seen. -/
def finishOf : Kind → State → State
  | .memRead => finishRead
  | .ioRead => finishRead
  | .fetch => finishFetch
  | .memWrite => finishMemWrite
  | .ioWrite => finishNothing
  | .halt => finishNothing
  | .ack => finishNothing

/-- Of the cycles that are no acknowledge all but the halt cycle move addressed data. -/
theorem transfers_iff {k : Kind} (h : k ≠ .ack) : decide (k ≠ .halt) = k.transfers := by
  cases k <;> simp_all [Kind.transfers, Kind.reads, Kind.writes]

/-- Every operation is a transfer or halt cycle, an acknowledge, an Idle state or a lane pattern, and a MAXS pattern runs
in maximum mode only. -/
theorem exec_next {i : Instr} {s t : State} (h : exec i s = .next t) :
    (i.format = .maxs → s.mode = .max) ∧
    ((∃ k, kindOf i = some k ∧ k ≠ .ack ∧ runCycle i (decide (k ≠ .halt)) (finishOf k) s = .next t) ∨
     (kindOf i = some .ack ∧ runAck i s = .next t) ∨
     (kindOf i = none ∧ ((∃ x, runIdle x s = .next t) ∨ ∃ l, runLane l s = .next t))) := by
  cases i with
  | memr a b u =>
    cases u with
    | data g => exact ⟨nofun, .inl ⟨.memRead, rfl, nofun, h⟩⟩
    | fetch => exact ⟨nofun, .inl ⟨.fetch, rfl, nofun, h⟩⟩
  | memw a b g v => exact ⟨nofun, .inl ⟨.memWrite, rfl, nofun, h⟩⟩
  | ior p b => exact ⟨nofun, .inl ⟨.ioRead, rfl, nofun, h⟩⟩
  | iow p b v => exact ⟨nofun, .inl ⟨.ioWrite, rfl, nofun, h⟩⟩
  | inta m d => exact ⟨nofun, .inr (.inl ⟨rfl, h⟩)⟩
  | idle x => exact ⟨nofun, .inr (.inr ⟨rfl, .inl ⟨some x, h⟩⟩)⟩
  | sInta => exact ⟨fun _ => (inMaxMode_next h).1, .inr (.inl ⟨rfl, (inMaxMode_next h).2⟩)⟩
  | sIor p b => exact ⟨fun _ => (inMaxMode_next h).1, .inl ⟨.ioRead, rfl, nofun, (inMaxMode_next h).2⟩⟩
  | sIow p b v => exact ⟨fun _ => (inMaxMode_next h).1, .inl ⟨.ioWrite, rfl, nofun, (inMaxMode_next h).2⟩⟩
  | sHalt => exact ⟨fun _ => (inMaxMode_next h).1, .inl ⟨.halt, rfl, nofun, (inMaxMode_next h).2⟩⟩
  | sFetch a b => exact ⟨fun _ => (inMaxMode_next h).1, .inl ⟨.fetch, rfl, nofun, (inMaxMode_next h).2⟩⟩
  | sMemr a b g => exact ⟨fun _ => (inMaxMode_next h).1, .inl ⟨.memRead, rfl, nofun, (inMaxMode_next h).2⟩⟩
  | sMemw a b g v => exact ⟨fun _ => (inMaxMode_next h).1, .inl ⟨.memWrite, rfl, nofun, (inMaxMode_next h).2⟩⟩
  | sPassive => exact ⟨fun _ => (inMaxMode_next h).1, .inr (.inr ⟨rfl, .inl ⟨none, (inMaxMode_next h).2⟩⟩)⟩
  | laneBoth => exact ⟨nofun, .inr (.inr ⟨rfl, .inr ⟨.both, h⟩⟩)⟩
  | laneHigh => exact ⟨nofun, .inr (.inr ⟨rfl, .inr ⟨.high, h⟩⟩)⟩
  | laneLow => exact ⟨nofun, .inr (.inr ⟨rfl, .inr ⟨.low, h⟩⟩)⟩
  | laneNone => exact ⟨nofun, .inr (.inr ⟨rfl, .inr ⟨.none, h⟩⟩)⟩

/-! ## What comes next -/

/-- All that the look at the interrupts can be. -/
theorem poll_cases (s : State) :
    poll s = keepEnd s ∨
    (canServe s = true ∧ s.nmiPending = true ∧
      poll s = takeInterrupt Config.nmiType { keepEnd s with nmiPending := false }) ∨
    (canServe s = true ∧ s.nmiPending = false ∧ s.now.intr = true ∧ ifOf s.fr = true ∧
      poll s = { keepEnd s with ackPending := true }) := by
  unfold poll
  split
  · split
    · simp_all
    · split <;> simp_all
  · simp

/-- While the bus is given away no interrupt is served. -/
theorem poll_holdAck {s : State} (h : s.busState = .holdAck) : poll s = keepEnd s := by
  simp [poll, canServe, h]

/-- Outside HoldAck an end of an instruction that was kept has had its turn. -/
theorem keepEnd_owned {s : State} (h : s.busState ≠ .holdAck) : keepEnd s = { s with endPending := false } := by
  simp [keepEnd, h]

/-- Where no request is to be served the look at the interrupts does nothing else. -/
theorem poll_none {s : State} (h : canServe s = false ∨ (s.nmiPending = false ∧ (s.now.intr = false ∨ ifOf s.fr = false))) :
    poll s = keepEnd s := by
  unfold poll
  rcases h with h | ⟨h1, h2 | h2⟩ <;> simp [*]

theorem sampleTest_eq (s : State) : sampleTest s = { s with testWait := s.testWait && s.now.testN } := by
  unfold sampleTest
  cases h : s.testWait <;> cases h' : s.now.testN <;> simp <;> rw [← h]

theorem sampleTest_cases (s : State) : sampleTest s = s ∨ sampleTest s = { s with testWait := false } := by
  unfold sampleTest
  split <;> simp

/-- Some operations, the first now: their plan is one of them, or an Idle state. -/
theorem planItems_run {items : List Item} {s t : State} {i : Instr} (h : planItems items s = .run i t) :
    ∃ it r, items = it :: r ∧ i = it.instr ∧ t = { s with curPart := it.part, pendingOps := r } := by
  cases items with
  | nil => cases h
  | cons it r =>
    simp only [planItems, Plan.run.injEq] at h
    exact ⟨it, r, rfl, h.1.symm, h.2.symm⟩

theorem planFetch_run {i j : Instr} {taken s t : State} (h : planFetch i taken s = .run j t) :
    hasRoom s i = true ∧ j = i ∧ t = { taken with curPart := .whole } := by
  unfold planFetch at h
  split at h
  · simp_all
  · cases h

end Sys2Proof.Machine
end

