-- ==== Sys2Proof/Laws/Step.lean ====
section
/-! SUPPORT. What one step can be, said once: RESET, the end of RESET, a T-state of no operation, or a T-state of an
operation; and what the rules of a boundary may have changed before the T-state begins. -/

namespace Sys2Proof.Machine

/-- `u` is `s` with the interrupt book-keeping of this T-state done. -/
def Polled (s u : State) : Prop :=
  u = { s with
    nmiPending := u.nmiPending, raised := u.raised, waitStack := u.waitStack, testWait := u.testWait,
    entrySteps := u.entrySteps, ackPending := u.ackPending, endPending := u.endPending }

theorem polled_poll (s : State) : Polled s (poll (sampleTest s)) := by
  rcases poll_cases (sampleTest s) with h | ⟨-, -, h⟩ | ⟨-, -, -, -, h⟩ <;>
  rcases sampleTest_cases s with h' | h' <;>
  · unfold Polled
    rw [h, h']
    try rfl

/-- `u` is `s` with an operation taken: only the core's requests, the debts to the interrupts, the registers that
InterruptEntry writes, the split access in progress and the debt of the restart fetch may differ. -/
def Taken (s u : State) : Prop :=
  u = { s with
    cs := u.cs, ip := u.ip, fr := u.fr, sp := u.sp, curPart := u.curPart, pendingOps := u.pendingOps,
    restart := u.restart, program := u.program, entrySteps := u.entrySteps, ackPending := u.ackPending }

/-- `u` is `s` with no operation to run: as `Taken`, and the TEST# wait, the locked sequence, the queue and the current
operation may differ. -/
def Rested (s u : State) : Prop :=
  u = { s with
    cs := u.cs, ip := u.ip, fr := u.fr, sp := u.sp, curPart := u.curPart, pendingOps := u.pendingOps,
    restart := u.restart, program := u.program, entrySteps := u.entrySteps, ackPending := u.ackPending,
    waitStack := u.waitStack, testWait := u.testWait,
    lockHeld := u.lockHeld, curOp := u.curOp, idleDrive := u.idleDrive, queue := u.queue, qAct := u.qAct }

theorem Taken.refl (s : State) : Taken s s := rfl

theorem Taken.rested {s u : State} (h : Taken s u) : Rested s u := by
  unfold Taken at h
  unfold Rested
  rw [h]

/-! ## Operations of access primitives are never fetches -/

/-- A list of operations of which none is a fetch. -/
def NoFetch (l : List Item) : Prop := ∀ it ∈ l, kindOf it.instr ≠ some .fetch

theorem memReadItems_noFetch (m : Mode) (a : Addr) (w : Width) (g : Seg) : NoFetch (memReadItems m a w g) := by
  unfold memReadItems
  split <;> simp [NoFetch, kindOf_memReadOp]

theorem memWriteItems_noFetch (m : Mode) (a : Addr) (w : Width) (g : Seg) (v : Word) :
    NoFetch (memWriteItems m a w g v) := by
  unfold memWriteItems
  split <;> simp [NoFetch, kindOf_memWriteOp]

theorem ioReadItems_noFetch (m : Mode) (p : Port) (w : Width) : NoFetch (ioReadItems m p w) := by
  unfold ioReadItems
  split <;> simp [NoFetch, kindOf_ioReadOp]

theorem ioWriteItems_noFetch (m : Mode) (p : Port) (w : Width) (v : Word) : NoFetch (ioWriteItems m p w v) := by
  unfold ioWriteItems
  split <;> simp [NoFetch, kindOf_ioWriteOp]

/-! ## The next operation of a free bus -/

/-- What an operation that a free bus starts has to meet. -/
structure Started (s : State) (i : Instr) (u : State) : Prop where
  taken : Taken s u
  room : hasRoom s i = true
  noFetch : NoFetch s.pendingOps → NoFetch u.pendingOps

theorem started_items {items : List Item} {s r u : State} {i : Instr} (h : planItems items r = .run i u)
    (hr : Taken s r) (hit : NoFetch items) : Started s i u := by
  obtain ⟨it, l, rfl, rfl, rfl⟩ := planItems_run h
  refine ⟨?_, ?_, fun _ => ?_⟩
  · unfold Taken at *
    rw [hr]
  · have := hit it (by simp)
    unfold hasRoom
    split
    · rename_i hk
      exact absurd hk this
    · rfl
  · intro it' hm
    exact hit it' (by simp [hm])

theorem started_fetch {s r u : State} {i j : Instr} (h : planFetch i r s = .run j u) (hr : Taken s r)
    (hp : r.pendingOps = s.pendingOps) : Started s j u := by
  obtain ⟨hroom, rfl, rfl⟩ := planFetch_run h
  refine ⟨?_, hroom, fun hn => by simpa [hp] using hn⟩
  unfold Taken at *
  rw [hr]

theorem planEntry_run {e : EntryStep} {s r u : State} {i : Instr} (h : planEntry e r = .run i u) (hr : Taken s r) :
    Started s i u := by
  unfold Taken at hr
  cases e <;> simp only [planEntry, planPush, planVector, planPop, planIdle, reduceCtorEq] at h
  all_goals
    refine started_items h ?_ ?_
    · unfold Taken
      rw [hr]
    · first | exact memWriteItems_noFetch _ _ _ _ _ | exact memReadItems_noFetch _ _ _ _

theorem planReq_run {q : Req} {s r u : State} {i : Instr} (h : planReq q r s = .run i u) (hr : Taken s r)
    (hp : r.pendingOps = s.pendingOps) : Started s i u := by
  cases q with
  | word f w =>
    simp only [planReq] at h
    split at h
    · cases h
    · exact started_fetch h hr hp
  | memRead a w g => exact started_items h hr (memReadItems_noFetch _ _ _ _)
  | memWrite a w g v => exact started_items h hr (memWriteItems_noFetch _ _ _ _ _)
  | ioRead p w => exact started_items h hr (ioReadItems_noFetch _ _ _)
  | ioWrite p w v => exact started_items h hr (ioWriteItems_noFetch _ _ _ _)
  | fetch a => exact started_fetch h hr hp
  | testWait => cases h
  | iret =>
    simp only [planReq] at h
    split at h <;> cases h
  | lock => cases h
  | unlock => cases h

theorem ackOp_room (s : State) : hasRoom s (ackOp s) = true := by
  unfold ackOp
  split <;> rfl

/-- Every operation a free bus starts is taken as `Started` says. -/
theorem nextOp_run {s u : State} {i : Instr} (hn : NoFetch s.pendingOps) (h : nextOp s = .run i u) : Started s i u := by
  unfold nextOp at h
  split at h
  · rename_i it r hp
    exact started_items h (Taken.refl s) (by simpa [hp] using hn)
  · split at h
    · exact started_fetch h (by unfold Taken; rfl) rfl
    · split at h
      · cases h
        exact ⟨by unfold Taken; rfl, ackOp_room s, fun k => k⟩
      · split at h
        · exact planEntry_run h (by unfold Taken; rfl)
        · split at h
          · cases h
          · split at h
            · cases h
            · exact planReq_run h (by unfold Taken; rfl) rfl

theorem rested_idle {s r : State} (hr : Rested s r) : Rested s { r with curOp := none, idleDrive := none } := by
  unfold Rested at *
  rw [hr]

theorem planIdle_go {r u : State} {b : BusState} (h : planIdle r = .go b u) :
    b = .idle ∧ u = { r with curOp := none, idleDrive := none } := by
  cases h
  exact ⟨rfl, rfl⟩

/-- What a free bus that starts nothing has to meet. -/
structure Resting (s : State) (b : BusState) (u : State) : Prop where
  idle : b = .idle
  rested : Rested s u
  noOp : u.curOp = none
  queue : u.queue = s.queue ∨ u.queue = []
  mem : u.mem = s.mem
  owner : u.holdGranted = s.holdGranted ∧ u.granted = s.granted
  asked : u.rqPending0 = s.rqPending0 ∧ u.rqPending1 = s.rqPending1
  noFetch : NoFetch s.pendingOps → NoFetch u.pendingOps

theorem resting_of_rested {s r u : State} {b : BusState} (h : planIdle r = .go b u) (hr : Rested s r)
    (hp : r.pendingOps = s.pendingOps) (hq : r.queue = s.queue) : Resting s b u := by
  have hn : NoFetch s.pendingOps → NoFetch r.pendingOps := fun k => by simpa [hp] using k
  obtain ⟨rfl, rfl⟩ := planIdle_go h
  have hr' := hr
  unfold Rested at hr
  refine ⟨rfl, rested_idle hr', rfl, .inl hq, ?_, ⟨?_, ?_⟩, ⟨?_, ?_⟩, hn⟩ <;> · rw [hr]

theorem resting_of_taken {s r u : State} {b : BusState} (h : planIdle r = .go b u) (hr : Taken s r)
    (hp : r.pendingOps = s.pendingOps) : Resting s b u := by
  refine resting_of_rested h hr.rested hp ?_
  unfold Taken at hr
  rw [hr]

theorem planItems_go {items : List Item} {s r u : State} {b : BusState} (h : planItems items r = .go b u)
    (hr : Taken s r) (hp : r.pendingOps = s.pendingOps) : Resting s b u := by
  cases items with
  | nil => exact resting_of_taken h hr hp
  | cons it l => cases h

theorem planFetch_go {i : Instr} {r s u : State} {b : BusState} (h : planFetch i r s = .go b u) : Resting s b u := by
  unfold planFetch at h
  split at h
  · cases h
  · exact resting_of_taken h (Taken.refl s) rfl

theorem resumeWait_eq (s : State) :
    resumeWait s = { s with waitStack := (resumeWait s).waitStack, testWait := (resumeWait s).testWait } := by
  unfold resumeWait
  split <;> rfl

theorem planEntry_go {e : EntryStep} {s r u : State} {b : BusState} (h : planEntry e r = .go b u) (hr : Taken s r)
    (hp : r.pendingOps = s.pendingOps) : Resting s b u := by
  unfold Taken at hr
  cases e <;> simp only [planEntry, planPush, planVector, planPop] at h
  case entered =>
    obtain ⟨rfl, rfl⟩ := planIdle_go h
    rw [hr]
    exact ⟨rfl, rfl, rfl, .inr rfl, rfl, ⟨rfl, rfl⟩, ⟨rfl, rfl⟩, fun k => by simpa [hp] using k⟩
  case returned =>
    obtain ⟨rfl, rfl⟩ := planIdle_go h
    rw [resumeWait_eq, hr]
    exact ⟨rfl, rfl, rfl, .inr rfl, rfl, ⟨rfl, rfl⟩, ⟨rfl, rfl⟩, fun k => by simpa [hp] using k⟩
  all_goals
    refine planItems_go h ?_ hp
    unfold Taken
    rw [hr]

theorem planReq_go {q : Req} {s r u : State} {b : BusState} (h : planReq q r s = .go b u) (hr : Taken s r)
    (hp : r.pendingOps = s.pendingOps) : Resting s b u := by
  have hr' := hr
  unfold Taken at hr'
  cases q with
  | word f w =>
    simp only [planReq] at h
    split at h
    · cases h
    · exact planFetch_go h
  | memRead a w g => exact planItems_go h hr hp
  | memWrite a w g v => exact planItems_go h hr hp
  | ioRead p w => exact planItems_go h hr hp
  | ioWrite p w v => exact planItems_go h hr hp
  | fetch a => exact planFetch_go h
  | testWait =>
    simp only [planReq] at h
    refine resting_of_rested h ?_ hp ?_
    · unfold Rested
      rw [hr']
    · rw [hr']
  | iret =>
    simp only [planReq] at h
    split at h
    · rw [resumeWait_eq] at h
      refine resting_of_rested h ?_ hp ?_
      · unfold Rested
        rw [hr']
      · rw [hr']
    · refine resting_of_taken h ?_ hp
      unfold Taken
      rw [hr']
  | lock =>
    simp only [planReq] at h
    refine resting_of_rested h ?_ hp ?_
    · unfold Rested
      rw [hr']
    · rw [hr']
  | unlock =>
    simp only [planReq] at h
    refine resting_of_rested h ?_ hp ?_
    · unfold Rested
      rw [hr']
    · rw [hr']

/-- A free bus that starts no operation comes to an Idle state. -/
theorem nextOp_go {s u : State} {b : BusState} (h : nextOp s = .go b u) : Resting s b u := by
  unfold nextOp at h
  split at h
  · cases h
  · split at h
    · exact planFetch_go h
    · split at h
      · cases h
      · split at h
        · exact planEntry_go h (by unfold Taken; rfl) rfl
        · split at h
          · exact resting_of_taken h (Taken.refl s) rfl
          · split at h
            · exact resting_of_taken h (Taken.refl s) rfl
            · exact planReq_go h (by unfold Taken; rfl) rfl

/-! ## A free bus makes no new debts -/

/-- In `u` neither the restart fetch nor an acknowledge is owed that was not owed in `s`. -/
def NoNewDebt (s u : State) : Prop :=
  (u.restart = true → s.restart = true) ∧ (u.ackPending = true → s.ackPending = true)

/-- The state a plan goes on with owes nothing new. -/
def Plan.NoNewDebt (s : State) : Plan → Prop
  | .refuse _ => True
  | .stop _ => True
  | .go _ u => Machine.NoNewDebt s u
  | .run _ u => Machine.NoNewDebt s u

theorem planItems_noNewDebt {l : List Item} {s r : State} (h : NoNewDebt s r) : (planItems l r).NoNewDebt s := by
  cases l <;> exact h

theorem planFetch_noNewDebt {i : Instr} {s r : State} (h : NoNewDebt s r) : (planFetch i r s).NoNewDebt s := by
  unfold planFetch
  split
  · exact h
  · exact ⟨id, id⟩

theorem resumeWait_noNewDebt {s r : State} (h : NoNewDebt s r) : NoNewDebt s (resumeWait r) := by
  rw [resumeWait_eq]
  exact h

theorem planEntry_noNewDebt {e : EntryStep} {s r : State} (h : NoNewDebt s r) : (planEntry e r).NoNewDebt s := by
  cases e with
  | pushFr => exact planItems_noNewDebt h
  | pushCs => exact planItems_noNewDebt h
  | pushIp => exact planItems_noNewDebt h
  | readIp t => exact planItems_noNewDebt h
  | readCs t => exact planItems_noNewDebt h
  | entered => exact h
  | popIp => exact planItems_noNewDebt h
  | popCs => exact planItems_noNewDebt h
  | popFr => exact planItems_noNewDebt h
  | returned => exact resumeWait_noNewDebt (r := { r with fr := r.result.wordOr r.fr, queue := [], qAct := .emptied }) h

theorem planReq_noNewDebt {q : Req} {s r : State} (h : NoNewDebt s r) : (planReq q r s).NoNewDebt s := by
  cases q with
  | word f w =>
    simp only [planReq]
    split
    · trivial
    · exact planFetch_noNewDebt h
  | memRead a w g => exact planItems_noNewDebt h
  | memWrite a w g v => exact planItems_noNewDebt h
  | ioRead p w => exact planItems_noNewDebt h
  | ioWrite p w v => exact planItems_noNewDebt h
  | fetch a => exact planFetch_noNewDebt h
  | testWait => exact h
  | iret =>
    simp only [planReq]
    split
    · exact resumeWait_noNewDebt h
    · exact h
  | lock => exact h
  | unlock => exact h

theorem nextOp_noNewDebt (s : State) : (nextOp s).NoNewDebt s := by
  unfold nextOp
  split
  · exact planItems_noNewDebt ⟨id, id⟩
  · split
    · exact planFetch_noNewDebt ⟨nofun, id⟩
    · split
      · exact ⟨id, nofun⟩
      · split
        · exact planEntry_noNewDebt ⟨id, id⟩
        · split
          · exact ⟨id, id⟩
          · split
            · exact ⟨id, id⟩
            · exact planReq_noNewDebt ⟨id, id⟩

theorem nextOp_run_noNewDebt {s u : State} {i : Instr} (h : nextOp s = .run i u) : NoNewDebt s u := by
  have := nextOp_noNewDebt s
  rw [h] at this
  exact this

theorem nextOp_go_noNewDebt {s u : State} {b : BusState} (h : nextOp s = .go b u) : NoNewDebt s u := by
  have := nextOp_noNewDebt s
  rw [h] at this
  exact this

/-! ## Hand-over -/

/-- All that a hand-over can be. -/
theorem handOver_cases {s u : State} (h : handOver s = some u) :
    (s.mode = .min ∧ s.now.hold = true ∧ u = { s with holdGranted := true, curOp := none }) ∨
    (s.mode = .max ∧ s.lockActive = false ∧ s.rqPending0 = true ∧
      u = { s with granted := some .line0, rqPending0 := false, curOp := none }) ∨
    (s.mode = .max ∧ s.lockActive = false ∧ s.rqPending0 = false ∧ s.rqPending1 = true ∧
      u = { s with granted := some .line1, rqPending1 := false, curOp := none }) := by
  unfold handOver at h
  cases hm : s.mode <;> simp only [hm] at h
  · split at h
    · simp_all
    · cases h
  · split at h
    · cases h
    · split at h
      · simp_all
      · split at h
        · simp_all
        · cases h

/-! ## A boundary, and the end of any T-state outside RESET -/

/-- All the ways a T4 or Idle state can end in an operation. -/
theorem planBoundary_run {s u : State} {i : Instr} (hn : NoFetch s.pendingOps) (h : planBoundary s = .run i u) :
    ((s.ackPhase = .first ∨ ∃ n, s.ackPhase = .gap n) ∧ s.curOp = some i ∧ u = s) ∨
    ((s.ackPhase = .none ∨ s.ackPhase = .second) ∧ handOver s = none ∧ Started s i u) := by
  unfold planBoundary at h
  split at h
  · cases h
    simp_all
  · cases h
    simp_all
  · cases h
  · cases h
  · right
    refine ⟨?_, ?_⟩
    · cases hp : s.ackPhase with
      | none => simp
      | second => simp
      | first => cases hc : s.curOp <;> simp_all
      | gap n => cases hc : s.curOp <;> simp_all
    · split at h
      · cases h
      · exact ⟨‹_›, nextOp_run hn h⟩

/-- All the ways a T4 or Idle state can end in a T-state of no operation. -/
theorem planBoundary_go {s u : State} {b : BusState} (h : planBoundary s = .go b u) :
    (s.ackPhase = .none ∨ s.ackPhase = .second) ∧
    ((b = .holdAck ∧ handOver s = some u) ∨ (handOver s = none ∧ Resting s b u)) := by
  unfold planBoundary at h
  split at h
  · cases h
  · cases h
  · cases h
  · cases h
  · refine ⟨?_, ?_⟩
    · cases hp : s.ackPhase with
      | none => simp
      | second => simp
      | first => cases hc : s.curOp <;> simp_all
      | gap n => cases hc : s.curOp <;> simp_all
    · split at h
      · cases h
        exact .inl ⟨rfl, ‹_›⟩
      · exact .inr ⟨‹_›, nextOp_go h⟩

/-- A state from which the boundary rules look for what comes next. -/
def atBoundary (b : BusState) : Bool := decide (b = .t4) || decide (b = .idle)

/-- All the ways an active T-state can end in an operation. -/
theorem planActive_run {s u : State} {i : Instr} (hb : s.busState ≠ .inReset) (hn : NoFetch s.pendingOps)
    (h : planActive s = .run i u) :
    (inCycle s.busState = true ∧ s.curOp = some i ∧ u = s) ∨
    (atBoundary s.busState = true ∧ (s.ackPhase = .first ∨ ∃ n, s.ackPhase = .gap n) ∧ s.curOp = some i ∧ u = s) ∨
    (atBoundary s.busState = true ∧ (s.ackPhase = .none ∨ s.ackPhase = .second) ∧ handOver s = none ∧ Started s i u) := by
  unfold planActive at h
  split at h
  · split at h <;> cases h
  · rename_i hbs
    rcases planBoundary_run hn h with ⟨h1, h2, h3⟩ | ⟨h1, h2, h3⟩
    · exact .inr (.inl ⟨by simp [hbs, atBoundary], h1, h2, h3⟩)
    · exact .inr (.inr ⟨by simp [hbs, atBoundary], h1, h2, h3⟩)
  · rename_i hbs
    rcases planBoundary_run hn h with ⟨h1, h2, h3⟩ | ⟨h1, h2, h3⟩
    · exact .inr (.inl ⟨by simp [hbs, atBoundary], h1, h2, h3⟩)
    · exact .inr (.inr ⟨by simp [hbs, atBoundary], h1, h2, h3⟩)
  · split at h
    · cases h
      left
      refine ⟨?_, ‹_›, rfl⟩
      cases hbs : s.busState <;> simp_all [inCycle]
    · cases h

/-- All the ways an active T-state can end in a T-state of no operation. -/
theorem planActive_go {s u : State} {b : BusState} (h : planActive s = .go b u) :
    (s.busState = .holdAck ∧ released s = true ∧ b = .idle ∧
      u = { takeBack (applyExt s) with curOp := none, idleDrive := none }) ∨
    (s.busState = .holdAck ∧ released s = false ∧ b = .holdAck ∧ u = applyExt s) ∨
    (atBoundary s.busState = true ∧ (s.ackPhase = .none ∨ s.ackPhase = .second) ∧ b = .holdAck ∧ handOver s = some u) ∨
    (atBoundary s.busState = true ∧ (s.ackPhase = .none ∨ s.ackPhase = .second) ∧ handOver s = none ∧ Resting s b u) := by
  unfold planActive at h
  split at h
  · rename_i hbs
    split at h
    · obtain ⟨rfl, rfl⟩ := planIdle_go h
      exact .inl ⟨hbs, ‹_›, rfl, rfl⟩
    · cases h
      exact .inr (.inl ⟨hbs, by simpa using ‹¬released s = true›, rfl, rfl⟩)
  · rename_i hbs
    obtain ⟨h1, ⟨rfl, h2⟩ | ⟨h2, h3⟩⟩ := planBoundary_go h
    · exact .inr (.inr (.inl ⟨by simp [hbs, atBoundary], h1, rfl, h2⟩))
    · exact .inr (.inr (.inr ⟨by simp [hbs, atBoundary], h1, h2, h3⟩))
  · rename_i hbs
    obtain ⟨h1, ⟨rfl, h2⟩ | ⟨h2, h3⟩⟩ := planBoundary_go h
    · exact .inr (.inr (.inl ⟨by simp [hbs, atBoundary], h1, rfl, h2⟩))
    · exact .inr (.inr (.inr ⟨by simp [hbs, atBoundary], h1, h2, h3⟩))
  · split at h <;> cases h

/-! ## One step -/

/-- All that a step can be. -/
theorem step_next {s t : State} (h : step s = .next t) :
    s.now.mnmx = s.mode.strap ∧ violation s = none ∧
    (((nextFrame s).reset = true ∧ t = enter .inReset (resetInternal (outsideDone s))) ∨
     ((nextFrame s).reset = false ∧ s.busState = .inReset ∧ Config.resetMinClks ≤ s.resetClks ∧
        t = enter .idle { s with resetClks := 0, restart := true }) ∨
     ((nextFrame s).reset = false ∧ s.busState ≠ .inReset ∧
        ((∃ b u, planActive (poll (sampleTest s)) = .go b u ∧ t = enter b u) ∨
         (∃ i u, planActive (poll (sampleTest s)) = .run i u ∧ exec i u = .next t)))) := by
  unfold step runPlan planStep at h
  by_cases hm : s.now.mnmx = s.mode.strap
  · refine ⟨hm, ?_⟩
    simp only [hm, ne_eq, not_true_eq_false, if_false] at h
    cases hz : violation s with
    | some f => simp only [hz, reduceCtorEq] at h
    | none =>
      refine ⟨rfl, ?_⟩
      simp only [hz] at h
      by_cases hr : (nextFrame s).reset = true
      · simp only [hr, if_true] at h
        exact .inl ⟨hr, by simpa using h.symm⟩
      · have hr' : (nextFrame s).reset = false := by simpa using hr
        simp only [hr', Bool.false_eq_true, if_false] at h
        right
        unfold planNow planRestart at h
        by_cases hb : s.busState = .inReset
        · rw [if_pos hb] at h
          by_cases hc : s.resetClks < Config.resetMinClks
          · simp only [hc, if_true, reduceCtorEq] at h
          · simp only [hc, if_false, Host.Outcome.next.injEq] at h
            exact .inl ⟨hr', hb, by omega, h.symm⟩
        · simp only [hb, if_false] at h
          refine .inr ⟨hr', hb, ?_⟩
          split at h
          · cases h
          · cases h
          · rename_i b u hp
            exact .inl ⟨b, u, hp, by simpa using h.symm⟩
          · rename_i i u hp
            exact .inr ⟨i, u, hp, h⟩
  · simp only [ne_eq, hm, not_false_eq_true, if_true, reduceCtorEq] at h

/-- What the parts around the 8086 have done changes the address latch and memory only. -/
theorem outsideDone_eq (s : State) :
    outsideDone s = { s with
      latchAddr := (outsideDone s).latchAddr, latchBheN := (outsideDone s).latchBheN, mem := (outsideDone s).mem } := by
  unfold outsideDone
  split
  · rw [latchAddress_eq]
  · rfl
  · rfl

/-- In HoldAck they may have written memory. -/
theorem outsideDone_mem (s : State) :
    (outsideDone s).mem = if s.busState = .holdAck then extMemory s.mem s.now.ext else s.mem := by
  unfold outsideDone
  split <;> simp_all [applyExt]
  rw [latchAddress_eq]

end Sys2Proof.Machine
end

