-- ==== Sys2Proof/Laws/Pins.lean ====
section
/-! SUPPORT. The pins of a T-state depend on nothing that was on the pins before, and every step shows on the pins what
`pinsOf` says of the T-state it enters. -/

namespace Sys2Proof.Machine

/-- A state with other levels on its pins. -/
def State.withPins (s : State) (p : Pins) : State := { s with pins := p }

/-- A plan whose state has other levels on its pins. -/
def Plan.withPins (p : Pins) : Plan → Plan
  | .refuse r => .refuse r
  | .stop f => .stop f
  | .go b t => .go b (t.withPins p)
  | .run i t => .run i (t.withPins p)

@[simp] theorem withPins_curOp (s : State) (p : Pins) : (s.withPins p).curOp = s.curOp := rfl
@[simp] theorem withPins_busState (s : State) (p : Pins) : (s.withPins p).busState = s.busState := rfl
@[simp] theorem withPins_mode (s : State) (p : Pins) : (s.withPins p).mode = s.mode := rfl
@[simp] theorem withPins_params (s : State) (p : Pins) : (s.withPins p).params = s.params := rfl
@[simp] theorem withPins_ackPhase (s : State) (p : Pins) : (s.withPins p).ackPhase = s.ackPhase := rfl
@[simp] theorem withPins_draws (s : State) (p : Pins) : (s.withPins p).draws = s.draws := rfl
@[simp] theorem withPins_pins (s : State) (p : Pins) : (s.withPins p).pins = p := rfl

theorem poll_withPins (s : State) (p : Pins) : poll (s.withPins p) = (poll s).withPins p := by
  have hc : canServe (s.withPins p) = canServe s := rfl
  have hn : (s.withPins p).nmiPending = s.nmiPending := rfl
  have hi : ((s.withPins p).now.intr && ifOf (s.withPins p).fr) = (s.now.intr && ifOf s.fr) := rfl
  unfold poll
  rw [hc, hn, hi]
  split
  · split
    · rfl
    · split <;> rfl
  · rfl

theorem sampleTest_withPins (s : State) (p : Pins) : sampleTest (s.withPins p) = (sampleTest s).withPins p := by
  have hc : ((s.withPins p).testWait && !(s.withPins p).now.testN) = (s.testWait && !s.now.testN) := rfl
  unfold sampleTest
  rw [hc]
  split <;> rfl

theorem planItems_withPins (l : List Item) (s : State) (p : Pins) :
    planItems l (s.withPins p) = (planItems l s).withPins p := by
  cases l <;> rfl

theorem planFetch_withPins (i : Instr) (r s : State) (p : Pins) :
    planFetch i (r.withPins p) (s.withPins p) = (planFetch i r s).withPins p := by
  have hc : hasRoom (s.withPins p) i = hasRoom s i := rfl
  unfold planFetch
  rw [hc]
  split <;> rfl

theorem resumeWait_withPins (s : State) (p : Pins) : resumeWait (s.withPins p) = (resumeWait s).withPins p := by
  have hc : (s.withPins p).waitStack = s.waitStack := rfl
  unfold resumeWait
  rw [hc]
  split <;> rfl

theorem planEntry_withPins (e : EntryStep) (s : State) (p : Pins) :
    planEntry e (s.withPins p) = (planEntry e s).withPins p := by
  cases e with
  | pushFr => exact planItems_withPins _ { s with sp := s.sp - 2 } p
  | pushCs => exact planItems_withPins _ { s with fr := clearIfTf s.fr, sp := s.sp - 2 } p
  | pushIp => exact planItems_withPins _ { s with sp := s.sp - 2 } p
  | readIp t => exact planItems_withPins _ s p
  | readCs t => exact planItems_withPins _ { s with ip := s.result.wordOr s.ip } p
  | entered => rfl
  | popIp => exact planItems_withPins _ { s with sp := s.sp + 2 } p
  | popCs => exact planItems_withPins _ { s with ip := s.result.wordOr s.ip, sp := s.sp + 2 } p
  | popFr => exact planItems_withPins _ { s with cs := s.result.wordOr s.cs, sp := s.sp + 2 } p
  | returned =>
    have := resumeWait_withPins { s with fr := s.result.wordOr s.fr, queue := [], qAct := .emptied } p
    unfold State.withPins at this
    unfold State.withPins planEntry planIdle
    dsimp only at this ⊢
    rw [this]
    rfl

theorem planReq_withPins (q : Req) (r s : State) (p : Pins) :
    planReq q (r.withPins p) (s.withPins p) = (planReq q r s).withPins p := by
  cases q with
  | word f w =>
    simp only [planReq]
    split
    · rfl
    · exact planFetch_withPins _ r s p
  | memRead a w g => exact planItems_withPins _ r p
  | memWrite a w g v => exact planItems_withPins _ r p
  | ioRead q w => exact planItems_withPins _ r p
  | ioWrite q w v => exact planItems_withPins _ r p
  | fetch a => exact planFetch_withPins _ r s p
  | testWait => rfl
  | iret =>
    simp only [planReq, withPins_params]
    split
    · rw [resumeWait_withPins]
      rfl
    · rfl
  | lock => rfl
  | unlock => rfl

theorem nextOp_withPins (s : State) (p : Pins) : nextOp (s.withPins p) = (nextOp s).withPins p := by
  have h1 : (s.withPins p).pendingOps = s.pendingOps := rfl
  have h2 : ((s.withPins p).restart && !headIsIdle (s.withPins p)) = (s.restart && !headIsIdle s) := rfl
  have h3 : (s.withPins p).ackPending = s.ackPending := rfl
  have h4 : (s.withPins p).entrySteps = s.entrySteps := rfl
  have h5 : (s.withPins p).testWait = s.testWait := rfl
  have h6 : (s.withPins p).program = s.program := rfl
  unfold nextOp
  rw [h1, h2, h3, h4, h5, h6]
  split
  · exact planItems_withPins _ s p
  · split
    · exact planFetch_withPins _ { s with restart := false } s p
    · split
      · rfl
      · split
        · rename_i e r _
          exact planEntry_withPins e { s with entrySteps := r } p
        · split
          · rfl
          · split
            · rfl
            · rename_i q r _
              exact planReq_withPins q { s with program := r } s p

theorem handOver_withPins (s : State) (p : Pins) :
    handOver (s.withPins p) = (handOver s).map (State.withPins · p) := by
  have h1 : (s.withPins p).now = s.now := rfl
  have h2 : (s.withPins p).lockActive = s.lockActive := rfl
  have h3 : (s.withPins p).rqPending0 = s.rqPending0 := rfl
  have h4 : (s.withPins p).rqPending1 = s.rqPending1 := rfl
  unfold handOver
  rw [withPins_mode, h1, h2, h3, h4]
  split
  · split <;> rfl
  · split
    · rfl
    · split
      · rfl
      · split <;> rfl

theorem planBoundary_withPins (s : State) (p : Pins) :
    planBoundary (s.withPins p) = (planBoundary s).withPins p := by
  unfold planBoundary
  rw [withPins_ackPhase, withPins_curOp, handOver_withPins, nextOp_withPins]
  split
  · rfl
  · rfl
  · rfl
  · rfl
  · cases handOver s <;> rfl

theorem applyExt_withPins (s : State) (p : Pins) : applyExt (s.withPins p) = (applyExt s).withPins p := rfl

theorem planActive_withPins (s : State) (p : Pins) : planActive (s.withPins p) = (planActive s).withPins p := by
  have hr : released (s.withPins p) = released s := rfl
  unfold planActive
  rw [withPins_busState, hr, applyExt_withPins, planBoundary_withPins, withPins_curOp]
  split
  · split <;> rfl
  · rfl
  · rfl
  · split <;> rfl

theorem planNow_withPins (s : State) (p : Pins) : planNow (s.withPins p) = (planNow s).withPins p := by
  have hc : (s.withPins p).resetClks = s.resetClks := rfl
  unfold planNow
  rw [withPins_busState, sampleTest_withPins, poll_withPins, planActive_withPins]
  split
  · unfold planRestart
    rw [hc]
    split <;> rfl
  · rfl

theorem upcoming_withPins (s : State) (p : Pins) : upcoming (s.withPins p) = upcoming s := by
  have ho : ∀ i t, opensCycle i (State.withPins t p) = opensCycle i t := fun _ _ => rfl
  unfold upcoming
  rw [withPins_busState, planNow_withPins]
  split
  · cases planNow s <;> simp [Plan.withPins, ho]
  · cases planNow s <;> simp [Plan.withPins, ho]
  · rfl

/-- The pins of a T-state do not depend on what was on the pins. -/
theorem pinsOf_withPins (fresh : Bool) (s : State) (p : Pins) : pinsOf fresh (s.withPins p) = pinsOf fresh s := by
  have hu := upcoming_withPins s p
  have hmio : ∀ w, mioPin (s.withPins p) w = mioPin s w := fun w => by
    unfold mioPin
    rw [hu]
    rfl
  have hs : ∀ w, statusCode (s.withPins p) w = statusCode s w := fun w => by
    unfold statusCode
    rw [hu]
    rfl
  unfold pinsOf minPins maxPins
  simp only [hmio, hs]
  rfl

/-- What a T-state that has just begun shows. -/
theorem enter_shows (b : BusState) (s : State) :
    (enter b s).pins = pinsOf (decide (b = .holdAck) && decide (s.busState ≠ .holdAck)) (enter b s) := by
  have h : enter b s = (settle b s).withPins (enter b s).pins := rfl
  rw [h, pinsOf_withPins]
  rfl

/-- The T-state that an operation enters, if it is no lane pattern in T1, shows its own pins. -/
theorem exec_shows {i : Instr} {s t : State} (h : exec i s = .next t) (hc : s.busState = .t1 → (kindOf i).isSome = true) :
    ∃ b u, t = enter b u ∧ u.busState = s.busState := by
  obtain ⟨-, ⟨k, hk, hka, hr⟩ | ⟨hk, hr⟩ | ⟨hk, ⟨x, hr⟩ | ⟨l, hr⟩⟩⟩ := exec_next h
  · rcases runCycle_next hr with ⟨-, -, rfl⟩ | ⟨-, -, -, rfl⟩ | ⟨-, -, rfl⟩ | ⟨-, -, -, rfl⟩ | ⟨-, -, -, rfl⟩ | ⟨-, rfl⟩ | ⟨-, rfl⟩
    · exact ⟨_, _, rfl, rfl⟩
    · exact ⟨_, _, rfl, by rw [latchAddress_eq]⟩
    · exact ⟨_, _, rfl, rfl⟩
    · refine ⟨_, _, rfl, ?_⟩
      cases k <;> rfl
    · exact ⟨_, _, rfl, rfl⟩
    · exact ⟨_, _, rfl, rfl⟩
    · exact ⟨_, _, rfl, rfl⟩
  · rcases runAck_next hr with ⟨-, ⟨-, -, rfl⟩ | ⟨g, -, -, rfl⟩ | ⟨-, rfl⟩ | ⟨g, -, rfl⟩ | ⟨-, rfl⟩⟩ | ⟨-, -, rfl⟩ | ⟨-, -, rfl⟩ | ⟨-, -, -, hf⟩ | ⟨-, -, -, rfl⟩ | ⟨-, rfl⟩ | ⟨-, rfl⟩
    · exact ⟨_, _, rfl, rfl⟩
    · exact ⟨_, _, rfl, rfl⟩
    · exact ⟨_, _, rfl, rfl⟩
    · exact ⟨_, _, rfl, rfl⟩
    · exact ⟨_, _, rfl, rfl⟩
    · exact ⟨_, _, rfl, by rw [latchAddress_eq]⟩
    · exact ⟨_, _, rfl, rfl⟩
    · rcases finishAck_next hf with ⟨-, rfl⟩ | ⟨-, rfl⟩ <;> exact ⟨_, _, rfl, rfl⟩
    · exact ⟨_, _, rfl, rfl⟩
    · exact ⟨_, _, rfl, rfl⟩
    · exact ⟨_, _, rfl, rfl⟩
  · rcases runIdle_next hr with ⟨-, rfl⟩ | ⟨-, rfl⟩ | ⟨-, rfl⟩ <;> exact ⟨_, _, rfl, rfl⟩
  · obtain ⟨-, ⟨hb, rfl⟩ | ⟨-, rfl⟩ | ⟨-, rfl⟩ | ⟨-, rfl⟩⟩ := runLane_next hr
    · have := hc hb
      simp [hk] at this
    · exact ⟨_, _, rfl, rfl⟩
    · exact ⟨_, _, rfl, rfl⟩
    · exact ⟨_, _, rfl, rfl⟩

theorem handOver_busState {s u : State} (h : handOver s = some u) : u.busState = s.busState := by
  rcases handOver_cases h with ⟨-, -, rfl⟩ | ⟨-, -, -, rfl⟩ | ⟨-, -, -, -, rfl⟩ <;> rfl

theorem applyExt_busState (s : State) : (applyExt s).busState = s.busState := rfl

/-- Every step enters a T-state, and that T-state shows its own pins. -/
theorem step_enter {s t : State} (hi : Inv s) (h : step s = .next t) : ∃ b u, t = enter b u ∧ u.busState = s.busState := by
  obtain ⟨-, -, ⟨-, rfl⟩ | ⟨-, hb, -, rfl⟩ | ⟨-, hb, ⟨b, u, hp, rfl⟩ | ⟨i, u, hp, he⟩⟩⟩ := step_next h
  · exact ⟨_, _, rfl, by rw [outsideDone_eq]; rfl⟩
  · exact ⟨_, _, rfl, rfl⟩
  · have hpol := polled_poll s
    generalize poll (sampleTest s) = v at hp hpol
    have hvb : v.busState = s.busState := by
      unfold Polled at hpol
      rw [hpol]
    refine ⟨_, _, rfl, ?_⟩
    rw [← hvb]
    rcases planActive_go hp with ⟨-, -, -, rfl⟩ | ⟨-, -, -, rfl⟩ | ⟨-, -, -, ho⟩ | ⟨-, -, -, hre⟩
    · exact applyExt_busState v
    · exact applyExt_busState v
    · exact handOver_busState ho
    · have := hre.rested
      unfold Rested at this
      rw [this]
  · have hpol := polled_poll s
    generalize poll (sampleTest s) = v at hp hpol
    unfold Polled at hpol
    have hvb : v.busState = s.busState := by rw [hpol]
    have hvn : NoFetch v.pendingOps := by
      rw [hpol]
      exact hi.pending
    have hcyc : inCycle v.busState = true → (curKind v).isSome = true := by
      rw [hpol]
      exact hi.cycle
    rcases planActive_run (by rw [hvb]; exact hb) hvn hp with ⟨hbs, hcur, rfl⟩ | ⟨hbs, -, -, rfl⟩ | ⟨hbs, -, -, hst⟩
    · obtain ⟨b, w, rfl, hw⟩ := exec_shows he (fun _ => by simpa [curKind, hcur] using hcyc hbs)
      exact ⟨b, w, rfl, hw.trans hvb⟩
    · obtain ⟨b, w, rfl, hw⟩ := exec_shows he (fun h => by simp [h, atBoundary] at hbs)
      exact ⟨b, w, rfl, hw.trans hvb⟩
    · have htk := hst.taken
      unfold Taken at htk
      have hub : u.busState = v.busState := by rw [htk]
      obtain ⟨b, w, rfl, hw⟩ := exec_shows he (fun h => by rw [hub] at h; simp [h, atBoundary] at hbs)
      exact ⟨b, w, rfl, hw.trans (hub.trans hvb)⟩

theorem step_shows {s t : State} (hi : Inv s) (h : step s = .next t) :
    t.pins = pinsOf (decide (t.busState = .holdAck) && decide (s.busState ≠ .holdAck)) t := by
  obtain ⟨b, u, rfl, hu⟩ := step_enter hi h
  rw [enter_shows, hu, enter_busState]

end Sys2Proof.Machine
end

