-- ==== Sys2Proof/Laws/Exec.lean ====
section
/-! SUPPORT. One T-state of each kind of operation, and the step from each kind of T-state, as equations; and the frame of
a T-state that begins with nothing else changed. -/

namespace Sys2Proof.Machine

/-! ## One T-state of an operation -/

/-- An operation with a cycle runs the shared cycle or the shared acknowledge. -/
theorem exec_of_kind {i : Instr} {k : Kind} {s : State} (hk : kindOf i = some k)
    (hm : i.format = .maxs → s.mode = .max) :
    exec i s = if k = .ack then runAck i s else runCycle i (decide (k ≠ .halt)) (finishOf k) s := by
  cases i with
  | memr a b u => cases u <;> cases hk <;> rfl
  | memw a b g v => cases hk; rfl
  | ior p b => cases hk; rfl
  | iow p b v => cases hk; rfl
  | inta m d => cases hk; rfl
  | idle x => cases hk
  | sInta => cases hk; exact inMaxMode_max (hm rfl) _
  | sIor p b => cases hk; exact inMaxMode_max (hm rfl) _
  | sIow p b v => cases hk; exact inMaxMode_max (hm rfl) _
  | sHalt => cases hk; exact inMaxMode_max (hm rfl) _
  | sFetch a b => cases hk; exact inMaxMode_max (hm rfl) _
  | sMemr a b g => cases hk; exact inMaxMode_max (hm rfl) _
  | sMemw a b g v => cases hk; exact inMaxMode_max (hm rfl) _
  | sPassive => cases hk
  | laneBoth => cases hk
  | laneHigh => cases hk
  | laneLow => cases hk
  | laneNone => cases hk

theorem exec_open {i : Instr} {k : Kind} {s : State} (hk : kindOf i = some k) (hka : k ≠ .ack)
    (hm : i.format = .maxs → s.mode = .max) (hl : k.transfers = true → lanesOfInstr i ≠ .none)
    (hb : s.busState = .idle ∨ s.busState = .t4) : exec i s = .next (enter .t1 (loadOp i s)) := by
  have h : ¬((k.transfers && decide (lanesOfInstr i = .none)) = true) := by simpa using hl
  rw [exec_of_kind hk hm, if_neg hka, transfers_iff hka]
  rcases hb with hb | hb <;> simp [runCycle, hb, h]

/-- A transfer that selects no lane opens no cycle. -/
theorem exec_noLane {i : Instr} {k : Kind} {s : State} (hk : kindOf i = some k) (ht : k.transfers = true)
    (hm : i.format = .maxs → s.mode = .max) (hl : lanesOfInstr i = .none) (hb : s.busState = .idle ∨ s.busState = .t4) :
    exec i s = .fault .laneNone := by
  have hka : k ≠ .ack := by
    rintro rfl
    cases ht
  rw [exec_of_kind hk hm, if_neg hka, transfers_iff hka]
  rcases hb with hb | hb <;> simp [runCycle, hb, ht, hl]

theorem exec_t1 {i : Instr} {k : Kind} {s : State} (hk : kindOf i = some k) (hm : i.format = .maxs → s.mode = .max)
    (hc : s.curOp = some i) (hb : s.busState = .t1) (hl : k.transfers = true → s.curLanes ≠ .none) :
    exec i s = .next (enter .t2 (latchAddress s)) := by
  rw [exec_of_kind hk hm]
  split
  · simp [runAck, hb, during, hc]
  · rename_i hka
    rw [transfers_iff hka]
    unfold runCycle
    simp only [hb, during, hc, if_true]
    split
    · simp_all
    · rfl

theorem exec_t2 {i : Instr} {k : Kind} {s : State} (hk : kindOf i = some k) (hm : i.format = .maxs → s.mode = .max)
    (hc : s.curOp = some i) (hb : s.busState = .t2) : exec i s = .next (enter .t3 s) := by
  rw [exec_of_kind hk hm]
  split
  · simp [runAck, hb, during, hc]
  · simp [runCycle, hb, during, hc]

theorem exec_wait {i : Instr} {k : Kind} {s : State} (hk : kindOf i = some k) (hm : i.format = .maxs → s.mode = .max)
    (hc : s.curOp = some i) (hb : s.busState = .t3 ∨ s.busState = .tw) (hr : s.now.ready = false) :
    exec i s = .next (enter .tw s) := by
  rw [exec_of_kind hk hm]
  split
  · rcases hb with hb | hb <;> simp [runAck, hb, hc, hr]
  · rcases hb with hb | hb <;> simp [runCycle, hb, during, hc, hr]

theorem exec_end {i : Instr} {k : Kind} {s : State} (hk : kindOf i = some k) (hka : k ≠ .ack)
    (hm : i.format = .maxs → s.mode = .max) (hc : s.curOp = some i) (hb : s.busState = .t3 ∨ s.busState = .tw)
    (hr : s.now.ready = true) : exec i s = .next (enter .t4 (finishOf k s)) := by
  rw [exec_of_kind hk hm, if_neg hka]
  rcases hb with hb | hb <;> simp [runCycle, hb, during, hc, hr]

theorem exec_ackEnd {i : Instr} {s : State} (hk : kindOf i = some .ack) (hm : i.format = .maxs → s.mode = .max)
    (hc : s.curOp = some i) (hb : s.busState = .t3 ∨ s.busState = .tw) (hr : s.now.ready = true) :
    exec i s = finishAck s := by
  rw [exec_of_kind hk hm, if_pos rfl]
  rcases hb with hb | hb <;> simp [runAck, hb, hc, hr]

/-! ## The step from each kind of T-state -/

theorem step_undisturbed {s : State} (h : Undisturbed s) : step s = runPlan (planActive (poll (sampleTest s))) := by
  unfold step planStep planNow
  simp only [h.strap, h.noReset, h.active, h.noViolation, ne_eq, not_true_eq_false, if_false, Bool.false_eq_true]

/-- No interrupt is served and no TEST# wait goes on: only an end of an instruction that was kept has had its turn. -/
theorem poll_free {s : State} (h : BusFree s) : poll (sampleTest s) = { s with endPending := false } := by
  have h1 : sampleTest s = s := by simp [sampleTest, h.noWait]
  rw [h1, poll_none h.noneServed, keepEnd_owned]
  rcases h.boundary with h | h <;> simp [h]

theorem planBoundary_none {s : State} (h : s.ackPhase = .none) :
    planBoundary s = match handOver s with
      | some t => .go .holdAck t
      | none => nextOp s := by
  unfold planBoundary
  rw [h] <;> cases s.curOp <;> rfl

theorem planActive_boundary {s : State} (hb : s.busState = .idle ∨ s.busState = .t4) :
    planActive s = planBoundary s := by
  unfold planActive
  rcases hb with h | h <;> rw [h]

theorem planActive_cycle {s : State} {i : Instr} (hb : inCycle s.busState = true) (hc : s.curOp = some i) :
    planActive s = .run i s := by
  unfold planActive
  cases h : s.busState <;> simp_all [inCycle]

theorem step_boundary {s : State} (h : Undisturbed s) (hb : s.busState = .idle ∨ s.busState = .t4)
    (hp : s.ackPhase = .none) :
    step s = match handOver (poll (sampleTest s)) with
      | some u => .next (enter .holdAck u)
      | none => runPlan (nextOp (poll (sampleTest s))) := by
  rw [step_undisturbed h]
  have hpol := polled_poll s
  generalize poll (sampleTest s) = v at hpol ⊢
  unfold Polled at hpol
  rw [planActive_boundary (by rw [hpol]; exact hb), planBoundary_none (by rw [hpol]; exact hp)]
  cases handOver v <;> rfl

theorem step_holdAck {s : State} (h : Undisturbed s) (hb : s.busState = .holdAck) :
    step s =
      if released s then
        .next (enter .idle { takeBack (applyExt (poll (sampleTest s))) with curOp := none, idleDrive := none })
      else .next (enter .holdAck (applyExt (poll (sampleTest s)))) := by
  rw [step_undisturbed h]
  have hpol := polled_poll s
  generalize poll (sampleTest s) = v at hpol ⊢
  unfold Polled at hpol
  have hvb : v.busState = .holdAck := by rw [hpol]; exact hb
  have hvr : released v = released s := by rw [hpol]; rfl
  unfold planActive
  rw [hvb, hvr]
  cases released s <;> rfl

/-- The look at the interrupts does not change whether the bus is given away. -/
theorem handOver_polled {s v : State} (h : Polled s v) : (handOver s).isSome = (handOver v).isSome := by
  unfold Polled at h
  rw [h]
  unfold handOver
  dsimp only
  split
  · split <;> rfl
  · split
    · rfl
    · split
      · rfl
      · split <;> rfl

/-- Nor does a kept end of an instruction that has had its turn. -/
theorem handOver_free {s : State} (h : BusFree s) : handOver { s with endPending := false } = none := by
  have := handOver_polled (s := s) (v := { s with endPending := false }) rfl
  simpa [h.noHandOver] using this.symm

/-- Where the bus is free the core's next request is planned. -/
theorem step_atRequest {s : State} (h : AtRequest s) {q : Req} {rest : List Req} (hp : s.program = q :: rest) :
    step s = runPlan (planReq q { s with program := rest, endPending := false } { s with endPending := false }) := by
  have hf := h.free
  rw [step_boundary hf.undisturbed hf.boundary hf.noAck, poll_free hf, handOver_free hf]
  simp only [nextOp, hf.noRest, hf.noRestart, hf.noAckPending, h.noEntry, hf.noWait, hp, Bool.false_and,
    Bool.false_eq_true, if_false]

/-- Where the bus is free the next step of InterruptEntry is planned. -/
theorem step_atEntry {s : State} (hf : BusFree s) {e : EntryStep} {r : List EntryStep} (he : s.entrySteps = e :: r) :
    step s = runPlan (planEntry e { s with entrySteps := r, endPending := false }) := by
  rw [step_boundary hf.undisturbed hf.boundary hf.noAck, poll_free hf, handOver_free hf]
  simp only [nextOp, hf.noRest, hf.noRestart, hf.noAckPending, he, Bool.false_and, Bool.false_eq_true, if_false]

/-- A step of InterruptEntry or of the return leaves the registers that it does not write. -/
theorem planEntry_keeps {e : EntryStep} {r u : State} {x : Reg} (hx : x ∉ e.writes)
    (h : (∃ i, planEntry e r = .run i u) ∨ ∃ b, planEntry e r = .go b u) : readReg u x = readReg r x := by
  have run : ∀ {items : List Item} {q : State}, (∃ i, planItems items q = .run i u) ∨ (∃ b, planItems items q = .go b u) →
      readReg u x = readReg q x := by
    intro items q h
    cases items <;> rcases h with ⟨_, h⟩ | ⟨_, h⟩ <;> cases h <;> cases x <;> rfl
  cases e <;> simp only [planEntry, planPush, planVector, planPop, planIdle, reduceCtorEq, exists_false, false_or, Plan.go.injEq,
    exists_and_right, exists_eq', true_and] at h
  case entered =>
    subst h
    cases x <;> simp_all [EntryStep.writes, readReg]
  case returned =>
    subst h
    rw [resumeWait_eq]
    cases x <;> simp_all [EntryStep.writes, readReg]
  all_goals first
    | exact run h
    | rw [run h]; cases x <;> simp_all [EntryStep.writes, readReg]

/-- The first of some operations opens its cycle. -/
theorem run_planItems {r : State} {items l : List Item} {it : Item} {k : Kind} (he : items = it :: l)
    (hk : kindOf it.instr = some k) (hka : k ≠ .ack) (hm : it.instr.format = .maxs → r.mode = .max)
    (hl : k.transfers = true → lanesOfInstr it.instr ≠ .none) (hb : r.busState = .idle ∨ r.busState = .t4) :
    runPlan (planItems items r)
      = .next (enter .t1 (loadOp it.instr { r with curPart := it.part, pendingOps := l })) := by
  rw [he]
  exact exec_open hk hka hm hl hb

/-! ## The frame of a T-state -/

theorem sameCore_enter {b : BusState} {s u : State} (hb : b ≠ .inReset) (hp : plainFrame (nextFrame s) = true)
    (mode : u.mode = s.mode := by rfl) (params : u.params = s.params := by rfl)
    (regs : coreRegs u = coreRegs s := by rfl) (holdGranted : u.holdGranted = s.holdGranted := by rfl)
    (granted : u.granted = s.granted := by rfl) (testWait : u.testWait = s.testWait := by rfl)
    (waitStack : u.waitStack = s.waitStack := by rfl) (ackPending : u.ackPending = s.ackPending := by rfl)
    (entrySteps : u.entrySteps = s.entrySteps := by rfl) (endPending : u.endPending = s.endPending := by rfl)
    (lockHeld : u.lockHeld = s.lockHeld := by rfl) (lock : u.lockActive = s.lockActive := by rfl) (raised : u.raised = s.raised := by rfl)
    (pendingOps : u.pendingOps = s.pendingOps := by rfl) (program : u.program = s.program := by rfl)
    (nmi : u.nmiPending = s.nmiPending := by rfl) (rq0 : u.rqPending0 = s.rqPending0 := by rfl)
    (rq1 : u.rqPending1 = s.rqPending1 := by rfl) (restart : u.restart = s.restart := by rfl)
    (clks : u.resetClks = s.resetClks := by rfl) (now : u.now = s.now := by rfl)
    (frame : nextFrame u = nextFrame s := by rfl) : SameCore s (enter b u) := by
  have hp' : plainFrame (nextFrame u) = true := by rw [frame]; exact hp
  constructor
  case regs =>
    rw [← regs]
    simp [coreRegs, enter_plain_cs hp', enter_plain_ds hp', enter_plain_ss hp', enter_plain_es hp',
      enter_plain_ip hp', enter_plain_fr hp', enter_plain_sp hp']
  case program => rw [enter_plain_program hp', program]
  case nmiPending => rw [enter_nmiPending u hb, nmi, frame, now]
  case rqPending0 => rw [enter_rqPending0 u hb, rq0, frame, mode]
  case rqPending1 => rw [enter_rqPending1 u hb, rq1, frame, mode]
  case lockActive => rw [enter_lockActive u hb, frame, mode, enter_busState, lockHeld, lock]
  all_goals simp_all

theorem enter_queue_plain {b : BusState} {s u : State} (hp : plainFrame (nextFrame s) = true)
    (frame : nextFrame u = nextFrame s := by rfl) : (enter b u).queue = u.queue :=
  enter_plain_queue (by rw [frame]; exact hp)

theorem sameData_enter {b : BusState} {s u : State} (hp : plainFrame (nextFrame s) = true)
    (rdata : u.rdata = s.rdata := by rfl) (result : u.result = s.result := by rfl)
    (queue : u.queue = s.queue := by rfl) (mem : u.mem = s.mem := by rfl)
    (ackPhase : u.ackPhase = s.ackPhase := by rfl) (ackType : u.ackType = s.ackType := by rfl)
    (frame : nextFrame u = nextFrame s := by rfl) : SameData s (enter b u) :=
  ⟨by simp [rdata], by simp [result], by rw [enter_queue_plain hp frame, queue], fun a => by simp [readMem, mem],
    by simp [ackPhase], by simp [ackType]⟩

end Sys2Proof.Machine
end

