-- ==== Sys2Proof/Laws/PerInstr.lean ====
section
/-! SUPPORT. Statements made per instruction, as syntax: the word of every operation carries the pattern of its row of
spec/opcode_table.json, in the row's format. -/

namespace Sys2Proof.Laws.TableRow

/-- A row of spec/opcode_table.json: its format and its mask and match over the pattern's bits. -/
structure Row where
  format : Format
  mask : Byte
  value : Byte
  deriving DecidableEq, Repr

/-- The row of an operation, copied from spec/opcode_table.json. -/
def rowOf : Instr → Row
  | .memr _ _ _ => ⟨.minctl, 31, 19⟩
  | .memw _ _ _ _ => ⟨.minctl, 31, 29⟩
  | .ior _ _ => ⟨.minctl, 31, 3⟩
  | .iow _ _ _ => ⟨.minctl, 31, 13⟩
  | .inta _ _ => ⟨.minctl, 7, 6⟩
  | .idle _ => ⟨.minctl, 7, 7⟩
  | .sInta => ⟨.maxs, 7, 0⟩
  | .sIor _ _ => ⟨.maxs, 7, 1⟩
  | .sIow _ _ _ => ⟨.maxs, 7, 2⟩
  | .sHalt => ⟨.maxs, 7, 3⟩
  | .sFetch _ _ => ⟨.maxs, 7, 4⟩
  | .sMemr _ _ _ => ⟨.maxs, 7, 5⟩
  | .sMemw _ _ _ _ => ⟨.maxs, 7, 6⟩
  | .sPassive => ⟨.maxs, 7, 7⟩
  | .laneBoth => ⟨.lane, 3, 0⟩
  | .laneHigh => ⟨.lane, 3, 1⟩
  | .laneLow => ⟨.lane, 3, 2⟩
  | .laneNone => ⟨.lane, 3, 3⟩

/-- The operation's word is read in the row's format and its pattern is the row's. -/
def Statement (i : Instr) : Prop :=
  i.format = (rowOf i).format ∧ (fieldsOf (encode i)).pattern &&& (rowOf i).mask = (rowOf i).value

theorem pattern_eq (i : Instr) : (fieldsOf (encode i)).pattern = (encodeFields i).pattern := by
  rw [encode, fieldsOf_wordOf]

theorem memr (addr : Addr) (bheN : Bool) (use : ReadUse) : Statement (.memr addr bheN use) := by
  refine ⟨rfl, ?_⟩
  rw [pattern_eq]
  cases use <;> simp [encodeFields, memFields, fetchFields, rowOf]

theorem memw (addr : Addr) (bheN : Bool) (seg : Seg) (wdata : Word) : Statement (.memw addr bheN seg wdata) :=
  ⟨rfl, by rw [pattern_eq]; simp [encodeFields, memFields, rowOf]⟩

theorem ior (port : Port) (bheN : Bool) : Statement (.ior port bheN) := ⟨rfl, by rw [pattern_eq]; simp [encodeFields, portFields, rowOf]⟩

theorem iow (port : Port) (bheN : Bool) (wdata : Word) : Statement (.iow port bheN wdata) :=
  ⟨rfl, by rw [pattern_eq]; simp [encodeFields, portFields, rowOf]⟩

theorem inta (m d : Bool) : Statement (.inta m d) := ⟨rfl, by rw [pattern_eq]; cases m <;> cases d <;> rfl⟩

theorem idle (x : BitVec 2) : Statement (.idle x) := by
  refine ⟨rfl, ?_⟩
  rw [pattern_eq]
  revert x
  decide

theorem sInta : Statement .sInta := ⟨rfl, by rw [pattern_eq]; simp [encodeFields, bareFields, rowOf]⟩

theorem sIor (port : Port) (bheN : Bool) : Statement (.sIor port bheN) := ⟨rfl, by rw [pattern_eq]; simp [encodeFields, portFields, rowOf]⟩

theorem sIow (port : Port) (bheN : Bool) (wdata : Word) : Statement (.sIow port bheN wdata) :=
  ⟨rfl, by rw [pattern_eq]; simp [encodeFields, portFields, rowOf]⟩

theorem sHalt : Statement .sHalt := ⟨rfl, by rw [pattern_eq]; simp [encodeFields, bareFields, rowOf]⟩

theorem sFetch (addr : Addr) (bheN : Bool) : Statement (.sFetch addr bheN) := ⟨rfl, by rw [pattern_eq]; simp [encodeFields, fetchFields, rowOf]⟩

theorem sMemr (addr : Addr) (bheN : Bool) (seg : Seg) : Statement (.sMemr addr bheN seg) :=
  ⟨rfl, by rw [pattern_eq]; simp [encodeFields, memFields, rowOf]⟩

theorem sMemw (addr : Addr) (bheN : Bool) (seg : Seg) (wdata : Word) : Statement (.sMemw addr bheN seg wdata) :=
  ⟨rfl, by rw [pattern_eq]; simp [encodeFields, memFields, rowOf]⟩

theorem sPassive : Statement .sPassive := ⟨rfl, by rw [pattern_eq]; simp [encodeFields, bareFields, rowOf]⟩

theorem laneBoth : Statement .laneBoth := ⟨rfl, by rw [pattern_eq]; simp [encodeFields, bareFields, rowOf]⟩

theorem laneHigh : Statement .laneHigh := ⟨rfl, by rw [pattern_eq]; simp [encodeFields, bareFields, rowOf]⟩

theorem laneLow : Statement .laneLow := ⟨rfl, by rw [pattern_eq]; simp [encodeFields, bareFields, rowOf]⟩

theorem laneNone : Statement .laneNone := ⟨rfl, by rw [pattern_eq]; simp [encodeFields, bareFields, rowOf]⟩

end Sys2Proof.Laws.TableRow
end

