-- ==== Sys2Proof/Laws/Shape.lean ====
section
/-! SUPPORT. Every way one T-state can follow another outside RESET, with what each of them tells about the two. -/

namespace Sys2Proof.Machine

theorem boundary_cases {b : BusState} (h : atBoundary b = true) : b = .idle ∨ b = .t4 := by
  cases b <;> simp_all [atBoundary]

theorem boundary_not_inCycle {b : BusState} (h : atBoundary b = true) : inCycle b = false := by
  cases b <;> simp_all [atBoundary, inCycle]

/-- All that the T-state `s`, with its look at the interrupts done (`v`), can turn into. -/
inductive Turn (s v : State) : State → Prop
  /-- T1 to T2. -/
  | t1 (i : Instr) (k : Kind) (hb : s.busState = .t1) (hc : v.curOp = some i) (hk : kindOf i = some k) :
    Turn s v (enter .t2 (latchAddress v))
  /-- T2 to T3. -/
  | t2 (i : Instr) (k : Kind) (hb : s.busState = .t2) (hc : v.curOp = some i) (hk : kindOf i = some k) :
    Turn s v (enter .t3 v)
  /-- T3 or TW to TW. -/
  | wait (i : Instr) (k : Kind) (hb : s.busState = .t3 ∨ s.busState = .tw) (hc : v.curOp = some i)
    (hk : kindOf i = some k) (hr : s.now.ready = false) : Turn s v (enter .tw v)
  /-- T3 or TW to T4: a transfer or halt cycle ends. -/
  | fin (i : Instr) (k : Kind) (hb : s.busState = .t3 ∨ s.busState = .tw) (hc : v.curOp = some i)
    (hk : kindOf i = some k) (hka : k ≠ .ack) (hr : s.now.ready = true) : Turn s v (enter .t4 (finishOf k v))
  /-- T3 or TW to T4: the first acknowledge cycle ends. -/
  | ack1 (i : Instr) (hb : s.busState = .t3 ∨ s.busState = .tw) (hc : v.curOp = some i) (hk : kindOf i = some .ack)
    (hr : s.now.ready = true) (hp : s.ackPhase = .first) : Turn s v (enter .t4 v)
  /-- T3 or TW to T4: the second acknowledge cycle ends. -/
  | ack2 (i : Instr) (hb : s.busState = .t3 ∨ s.busState = .tw) (hc : v.curOp = some i) (hk : kindOf i = some .ack)
    (hr : s.now.ready = true) (hp : s.ackPhase = .second) :
    Turn s v (enter .t4 (takeInterrupt (lowIn v) { v with ackType := lowIn v, ackPhase := .none }))
  /-- HoldAck to Idle. -/
  | release (hb : s.busState = .holdAck) (hr : released s = true) :
    Turn s v (enter .idle { takeBack (applyExt v) with curOp := none, idleDrive := none })
  /-- HoldAck goes on. -/
  | hold (hb : s.busState = .holdAck) (hr : released s = false) : Turn s v (enter .holdAck (applyExt v))
  /-- T4 or Idle to HoldAck. -/
  | give (hb : atBoundary s.busState = true) (hp : s.ackPhase = .none) (u : State) (ho : handOver v = some u) :
    Turn s v (enter .holdAck u)
  /-- T4 or Idle to Idle: nothing starts. -/
  | rest (hb : atBoundary s.busState = true) (hp : s.ackPhase = .none) (ho : handOver v = none) (u : State)
    (hn : nextOp v = .go .idle u) (hr : Resting v .idle u) : Turn s v (enter .idle u)
  /-- T4 or Idle to T1 of the second acknowledge cycle. -/
  | ackGo (i : Instr) (hb : atBoundary s.busState = true)
    (hp : (s.ackPhase = .first ∧ s.params.ackGap = 0) ∨ s.ackPhase = .gap 0) (hc : v.curOp = some i)
    (hk : kindOf i = some .ack) : Turn s v (enter .t1 { loadOp i v with ackPhase := .second })
  /-- T4 or Idle to an Idle state between the acknowledge cycles. -/
  | ackGap (i : Instr) (n : Nat) (hb : atBoundary s.busState = true)
    (hp : (s.ackPhase = .first ∧ s.params.ackGap = n + 1) ∨ s.ackPhase = .gap (n + 1)) (hc : v.curOp = some i)
    (hk : kindOf i = some .ack) : Turn s v (enter .idle { v with ackPhase := .gap n, idleDrive := none })
  /-- T4 or Idle to T1 of a transfer or halt cycle. -/
  | start (i : Instr) (u : State) (k : Kind) (hb : atBoundary s.busState = true) (hp : s.ackPhase = .none)
    (ho : handOver v = none) (hn : nextOp v = .run i u) (hs : Started v i u) (hk : kindOf i = some k)
    (hka : k ≠ .ack) (hl : k.transfers = true → lanesOfInstr i ≠ .none) : Turn s v (enter .t1 (loadOp i u))
  /-- T4 or Idle to T1 of the first acknowledge cycle. -/
  | startAck (i : Instr) (u : State) (hb : atBoundary s.busState = true) (hp : s.ackPhase = .none)
    (ho : handOver v = none) (hn : nextOp v = .run i u) (hs : Started v i u) (hk : kindOf i = some .ack) :
    Turn s v (enter .t1 { loadOp i u with ackPhase := .first })
  /-- T4 or Idle to an Idle state that the core asks for. -/
  | startIdle (i : Instr) (u : State) (x : Option (BitVec 2)) (hb : atBoundary s.busState = true)
    (hp : s.ackPhase = .none) (ho : handOver v = none) (hn : nextOp v = .run i u) (hs : Started v i u)
    (hk : kindOf i = none) : Turn s v (enter .idle { u with curOp := none, idleDrive := x })
  /-- T4 or Idle to an Idle state that shows a lane pattern. -/
  | startLane (i : Instr) (u : State) (l : Lanes) (hb : atBoundary s.busState = true) (hp : s.ackPhase = .none)
    (ho : handOver v = none) (hn : nextOp v = .run i u) (hs : Started v i u) (hk : kindOf i = none) :
    Turn s v (enter .idle { u with curOp := none, idleDrive := none, curLanes := l })

/-- An active T-state turns into a T-state outside RESET. -/
theorem Turn.active {s v t : State} (h : Turn s v t) : t.busState ≠ .inReset := by
  cases h <;> simp

/-- Whatever a T-state turns into takes the same frame from outside. -/
theorem Turn.entered {s v t : State} (h : Turn s v t) (hi : v.inputs = s.inputs) (hn : v.now = s.now) :
    ∃ b u, b ≠ .inReset ∧ t = enter b u ∧ nextFrame u = nextFrame s := by
  have key : ∀ (b : BusState) (u : State), b ≠ .inReset → u.inputs = v.inputs → u.now = v.now →
      ∃ b' u', b' ≠ .inReset ∧ enter b u = enter b' u' ∧ nextFrame u' = nextFrame s := by
    intro b u hb h1 h2
    exact ⟨b, u, hb, rfl, by unfold nextFrame; rw [h1, h2, hi, hn]⟩
  have st : ∀ {i u}, Started v i u → u.inputs = v.inputs ∧ u.now = v.now := by
    intro i u hs
    have := hs.taken
    unfold Taken at this
    rw [this]
    exact ⟨rfl, rfl⟩
  cases h with
  | t1 => rw [latchAddress_eq]; exact key _ _ (by decide) rfl rfl
  | fin i k => cases k <;> exact key _ _ (by decide) rfl rfl
  | give hb hp u ho =>
    rcases handOver_cases ho with ⟨-, -, rfl⟩ | ⟨-, -, -, rfl⟩ | ⟨-, -, -, -, rfl⟩ <;> exact key _ _ (by decide) rfl rfl
  | rest hb hp ho u hn hre =>
    have := hre.rested
    unfold Rested at this
    rw [this]
    exact key _ _ (by decide) rfl rfl
  | start i u k hb hp ho hn hs => exact key _ _ (by decide) (st hs).1 (st hs).2
  | startAck i u hb hp ho hn hs => exact key _ _ (by decide) (st hs).1 (st hs).2
  | startIdle i u x hb hp ho hn hs => exact key _ _ (by decide) (st hs).1 (st hs).2
  | startLane i u l hb hp ho hn hs => exact key _ _ (by decide) (st hs).1 (st hs).2
  | _ => exact key _ _ (by decide) rfl rfl

/-- Inside a cycle: what an operation's T-state turns it into. -/
theorem turn_cycle {s v t : State} {i : Instr} (hb : inCycle s.busState = true) (hvb : v.busState = s.busState)
    (hva : v.ackPhase = s.ackPhase) (hvr : v.now.ready = s.now.ready)
    (hki : (kindOf i).isSome = true) (he : exec i v = .next t) : Turn s v t := by
  have h1 : ¬(v.busState = .idle ∨ v.busState = .t4) := by
    rw [hvb]
    rintro (h | h) <;> simp [h, inCycle] at hb
  have h2 : v.busState ≠ .holdAck := by
    rw [hvb]
    intro h
    simp [h, inCycle] at hb
  have h3 : v.busState ≠ .inReset := by
    rw [hvb]
    intro h
    simp [h, inCycle] at hb
  obtain ⟨-, ⟨k, hk, hka, hr⟩ | ⟨hk, hr⟩ | ⟨hk, -⟩⟩ := exec_next he
  · rcases runCycle_next hr with
      ⟨hb, -⟩ | ⟨hb, hc, -, rfl⟩ | ⟨hb, hc, rfl⟩ | ⟨hb, hc, hy, rfl⟩ | ⟨hb, hc, hy, rfl⟩ | ⟨hb, -⟩ | ⟨hb, -⟩
    · exact absurd hb h1
    · exact .t1 i k (hvb ▸ hb) hc hk
    · exact .t2 i k (hvb ▸ hb) hc hk
    · exact .fin i k (hvb ▸ hb) hc hk hka (hvr ▸ hy)
    · exact .wait i k (hvb ▸ hb) hc hk (hvr ▸ hy)
    · exact absurd hb h2
    · exact absurd hb h3
  · rcases runAck_next hr with
      ⟨hb, -⟩ | ⟨hb, hc, rfl⟩ | ⟨hb, hc, rfl⟩ | ⟨hb, hc, hy, hf⟩ | ⟨hb, hc, hy, rfl⟩ | ⟨hb, -⟩ | ⟨hb, -⟩
    · exact absurd hb h1
    · exact .t1 i _ (hvb ▸ hb) hc hk
    · exact .t2 i _ (hvb ▸ hb) hc hk
    · rcases finishAck_next hf with ⟨hp, rfl⟩ | ⟨hp, rfl⟩
      · exact .ack1 i (hvb ▸ hb) hc hk (hvr ▸ hy) (hva ▸ hp)
      · exact .ack2 i (hvb ▸ hb) hc hk (hvr ▸ hy) (hva ▸ hp)
    · exact .wait i _ (hvb ▸ hb) hc hk (hvr ▸ hy)
    · exact absurd hb h2
    · exact absurd hb h3
  · simp [hk] at hki

/-- At a boundary inside the acknowledge sequence: what its operation turns it into. -/
theorem turn_ack {s v t : State} {i : Instr} (hbs : atBoundary s.busState = true) (hvb : v.busState = s.busState)
    (hva : v.ackPhase = s.ackPhase) (hvp : v.params = s.params)
    (hph : v.ackPhase = .first ∨ ∃ n, v.ackPhase = .gap n) (hcur : v.curOp = some i) (hki : kindOf i = some .ack)
    (he : exec i v = .next t) : Turn s v t := by
  have hnb : v.busState = .idle ∨ v.busState = .t4 := boundary_cases (hvb ▸ hbs)
  obtain ⟨-, ⟨k, hk, hka, -⟩ | ⟨hk, hr⟩ | ⟨hk, -⟩⟩ := exec_next he
  · exact absurd (Option.some.inj (hk.symm.trans hki)) hka
  · rcases runAck_next hr with ⟨-, hcase⟩ | ⟨hb, -⟩ | ⟨hb, -⟩ | ⟨hb, -⟩ | ⟨hb, -⟩ | ⟨hb, -⟩ | ⟨hb, -⟩
    · rcases hcase with ⟨p, q, rfl⟩ | ⟨g, p, q, rfl⟩ | ⟨p, rfl⟩ | ⟨g, p, rfl⟩ | ⟨p, rfl⟩
      · exact .ackGo i hbs (.inl ⟨hva ▸ p, hvp ▸ q⟩) hcur hk
      · exact .ackGap i g hbs (.inl ⟨hva ▸ p, hvp ▸ q⟩) hcur hk
      · exact .ackGo i hbs (.inr (hva ▸ p)) hcur hk
      · exact .ackGap i g hbs (.inr (hva ▸ p)) hcur hk
      · rcases hph with h | ⟨n, h⟩ <;> simp [h] at p
    · simp [hb] at hnb
    · simp [hb] at hnb
    · rcases hb with hb | hb <;> simp [hb] at hnb
    · rcases hb with hb | hb <;> simp [hb] at hnb
    · simp [hb] at hnb
    · simp [hb] at hnb
  · rw [hki] at hk
    cases hk

/-- At a boundary of a free bus: what the next operation turns it into. -/
theorem turn_start {s v u t : State} {i : Instr} (hbs : atBoundary s.busState = true) (hp : s.ackPhase = .none)
    (hvb : v.busState = s.busState) (hva : v.ackPhase = s.ackPhase) (ho : handOver v = none)
    (hn : nextOp v = .run i u) (hst : Started v i u) (he : exec i u = .next t) : Turn s v t := by
  have htk := hst.taken
  unfold Taken at htk
  have hub : u.busState = s.busState := by
    rw [htk]
    exact hvb
  have hua : u.ackPhase = .none := by
    rw [htk]
    exact hva.trans hp
  have hnb : u.busState = .idle ∨ u.busState = .t4 := boundary_cases (hub ▸ hbs)
  obtain ⟨-, ⟨k, hk, hka, hr⟩ | ⟨hk, hr⟩ | ⟨hk, ⟨x, hr⟩ | ⟨l, hr⟩⟩⟩ := exec_next he
  · rcases runCycle_next hr with
      ⟨-, hl, rfl⟩ | ⟨hb, -⟩ | ⟨hb, -⟩ | ⟨hb, -⟩ | ⟨hb, -⟩ | ⟨hb, -⟩ | ⟨hb, -⟩
    · rw [transfers_iff hka] at hl
      exact .start i u k hbs hp ho hn hst hk hka fun ht hn => hl ⟨ht, hn⟩
    · simp [hb] at hnb
    · simp [hb] at hnb
    · rcases hb with hb | hb <;> simp [hb] at hnb
    · rcases hb with hb | hb <;> simp [hb] at hnb
    · simp [hb] at hnb
    · simp [hb] at hnb
  · rcases runAck_next hr with ⟨-, hcase⟩ | ⟨hb, -⟩ | ⟨hb, -⟩ | ⟨hb, -⟩ | ⟨hb, -⟩ | ⟨hb, -⟩ | ⟨hb, -⟩
    · rcases hcase with ⟨p, -⟩ | ⟨g, p, -⟩ | ⟨p, -⟩ | ⟨g, p, -⟩ | ⟨-, rfl⟩
      · simp [hua] at p
      · simp [hua] at p
      · simp [hua] at p
      · simp [hua] at p
      · exact .startAck i u hbs hp ho hn hst hk
    · simp [hb] at hnb
    · simp [hb] at hnb
    · rcases hb with hb | hb <;> simp [hb] at hnb
    · rcases hb with hb | hb <;> simp [hb] at hnb
    · simp [hb] at hnb
    · simp [hb] at hnb
  · rcases runIdle_next hr with ⟨-, rfl⟩ | ⟨hb, -⟩ | ⟨hb, -⟩
    · exact .startIdle i u x hbs hp ho hn hst hk
    · simp [hb] at hnb
    · simp [hb] at hnb
  · obtain ⟨-, ⟨hb, -⟩ | ⟨-, rfl⟩ | ⟨hb, -⟩ | ⟨hb, -⟩⟩ := runLane_next hr
    · simp [hb] at hnb
    · exact .startLane i u l hbs hp ho hn hst hk
    · simp [hb] at hnb
    · simp [hb] at hnb

/-- A step from an active T-state without RESET. -/
theorem step_turn {s t : State} (hi : Inv s) (h : step s = .next t) (hr : (nextFrame s).reset = false)
    (hs : s.busState ≠ .inReset) : violation s = none ∧ Turn s (poll (sampleTest s)) t := by
  obtain ⟨-, hz, ⟨hr', -⟩ | ⟨-, hb, -⟩ | ⟨-, -, hh⟩⟩ := step_next h
  · simp [hr] at hr'
  · exact absurd hb hs
  refine ⟨hz, ?_⟩
  have hpol := polled_poll s
  generalize poll (sampleTest s) = v at hh hpol ⊢
  unfold Polled at hpol
  have hvb : v.busState = s.busState := by rw [hpol]
  have hva : v.ackPhase = s.ackPhase := by rw [hpol]
  have hvn : v.now = s.now := by rw [hpol]
  have hvp : v.params = s.params := by rw [hpol]
  have hvo : v.pendingOps = s.pendingOps := by rw [hpol]
  have hvc : v.curOp = s.curOp := by rw [hpol]
  have hrel : released v = released s := by
    rw [hpol]
    rfl
  have hpn : atBoundary v.busState = true → v.ackPhase = .none ∨ v.ackPhase = .second → s.ackPhase = .none := by
    rintro hb (hp | hp)
    · exact hva ▸ hp
    · have := hi.phase
      rw [← hva, ← hvb, hp] at this
      simp [phaseFits, boundary_not_inCycle hb] at this
  rcases hh with ⟨b, u, hp, rfl⟩ | ⟨i, u, hp, he⟩
  · rcases planActive_go hp with ⟨hb, hl, rfl, rfl⟩ | ⟨hb, hl, rfl, rfl⟩ | ⟨hb, hph, rfl, ho⟩ | ⟨hb, hph, ho, hre⟩
    · exact .release (hvb ▸ hb) (hrel ▸ hl)
    · exact .hold (hvb ▸ hb) (hrel ▸ hl)
    · exact .give (hvb ▸ hb) (hpn hb hph) u ho
    · obtain rfl := hre.idle
      rw [planActive_boundary (boundary_cases hb), planBoundary_none (hva.trans (hpn hb hph)), ho] at hp
      exact .rest (hvb ▸ hb) (hpn hb hph) ho u hp hre
  · rcases planActive_run (hvb ▸ hs) (hvo ▸ hi.pending) hp with ⟨hb, hc, rfl⟩ | ⟨hb, hph, hc, rfl⟩ | ⟨hb, hph, ho, hst⟩
    · refine turn_cycle (hvb ▸ hb) hvb hva (by rw [hvn]) ?_ he
      have := hi.cycle (hvb ▸ hb)
      simpa [curKind, ← hvc, hc] using this
    · refine turn_ack (hvb ▸ hb) hvb hva hvp hph hc ?_ he
      have := hi.ack (by rw [← hva]; rcases hph with h | ⟨n, h⟩ <;> simp [h])
      simpa [curKind, ← hvc, hc] using this
    · rw [planActive_boundary (boundary_cases hb), planBoundary_none (hva.trans (hpn hb hph)), ho] at hp
      exact turn_start (hvb ▸ hb) (hpn hb hph) hvb hva ho hp hst he

/-- A step into RESET. -/
theorem step_reset {s t : State} (hi : Inv s) (h : step s = .next t) (hb : t.busState = .inReset) :
    (nextFrame s).reset = true ∧ t = enter .inReset (resetInternal (outsideDone s)) := by
  obtain ⟨-, -, ⟨hr, rfl⟩ | ⟨-, -, -, rfl⟩ | ⟨hr, hs, -⟩⟩ := step_next h
  · exact ⟨hr, rfl⟩
  · simp at hb
  · exact absurd hb (step_turn hi h hr hs).2.active

/-- A step out of RESET. -/
theorem step_leave {s t : State} (h : step s = .next t) (ht : t.busState ≠ .inReset) (hs : s.busState = .inReset) :
    (nextFrame s).reset = false ∧ t = enter .idle { s with resetClks := 0, restart := true } := by
  obtain ⟨-, -, ⟨-, rfl⟩ | ⟨hr, -, -, rfl⟩ | ⟨-, hb, -⟩⟩ := step_next h
  · simp at ht
  · exact ⟨hr, rfl⟩
  · exact absurd hs hb

/-- A step outside RESET. -/
theorem step_out {s t : State} (hi : Inv s) (h : step s = .next t) (ht : t.busState ≠ .inReset)
    (hs : s.busState ≠ .inReset) :
    (nextFrame s).reset = false ∧ violation s = none ∧ Turn s (poll (sampleTest s)) t := by
  have hr : (nextFrame s).reset = false := by
    obtain ⟨-, -, ⟨-, rfl⟩ | ⟨hr, -⟩ | ⟨hr, -⟩⟩ := step_next h
    · simp at ht
    · exact hr
    · exact hr
  exact ⟨hr, step_turn hi h hr hs⟩

end Sys2Proof.Machine
end

