-- ==== Sys2Proof/Tests/Slice0.lean ====
section
/-! SUPPORT. The model's own tests, their expected results taken from spec/95_test_vectors.md (V, P numbers) or worked out
by hand from the rules named, and for every statement with hypotheses a witness that meets them. -/

namespace Sys2Proof.Tests

open Sys2Proof Sys2Proof.Machine

/-! ## Well-formedness: the lane pattern `11` is refused in every transfer (30 R109) -/

theorem test_illFormed_memr : Instr.wellFormed (.memr 0x12345 true (.data .ds)) = false := by decide
theorem test_illFormed_memr_fetch : Instr.wellFormed (.memr 0xFFFF1 true .fetch) = false := by decide
theorem test_illFormed_memw : Instr.wellFormed (.memw 0x00001 true .ss 7) = false := by decide
theorem test_illFormed_ior : Instr.wellFormed (.ior 0x03F9 true) = false := by decide
theorem test_illFormed_iow : Instr.wellFormed (.iow 0xFFFF true 7) = false := by decide
theorem test_illFormed_sIor : Instr.wellFormed (.sIor 0x0001 true) = false := by decide
theorem test_illFormed_sIow : Instr.wellFormed (.sIow 0x0061 true 7) = false := by decide
theorem test_illFormed_sFetch : Instr.wellFormed (.sFetch 0xFFFF1 true) = false := by decide
theorem test_illFormed_sMemr : Instr.wellFormed (.sMemr 0x12345 true .es) = false := by decide
theorem test_illFormed_sMemw : Instr.wellFormed (.sMemw 0xFFFFF true .cs 7) = false := by decide

/-- The three other lane patterns are well formed. -/
theorem test_wellFormed_lanes : [(0x12344#20, false), (0x12345#20, false), (0x12344#20, true)].all
    (fun p => Instr.wellFormed (.memr p.1 p.2 (.data .ds))) = true := by decide

/-! ## Decoding: words written out from 30 R104, R105, 42 R180 and the operand fields of log 3

The low byte is the pattern, then 20 address bits, BHE#, three bits of segment tag, 16 bits of data. -/

/-- V14: `10011`, address 12344H, BHE# 0, DS (tag 011). -/
theorem test_decode_memr :
    decode .minctl 0b0110_00010010001101000100_00010011 = .ok (.memr 0x12344 false (.data .ds)) := by decide
/-- A fetch: bit 31. -/
theorem test_decode_memr_fetch :
    decode .minctl 0b1000_11111111111111110000_00010011 = .ok (.memr 0xFFFF0 false .fetch) := by decide
/-- V15: `11101`, data 1234H, SS (tag 001), BHE# 1. -/
theorem test_decode_memw :
    decode .minctl 0b0001001000110100_0011_00010010001101000100_00011101 = .ok (.memw 0x12344 true .ss 0x1234) := by decide
/-- V16: `00011`, port 03F9H. -/
theorem test_decode_ior : decode .minctl 0b0000_00000000001111111001_00000011 = .ok (.ior 0x03F9 false) := by decide
/-- V17: `01101`, port 0060H, BHE# 1, data 0041H (V29). -/
theorem test_decode_iow :
    decode .minctl 0b0000000001000001_0001_00000000000001100000_00001101 = .ok (.iow 0x0060 true 0x0041) := by decide
/-- V18: the four INTA patterns; `m`, `d` are not tested. -/
theorem test_decode_inta : [0b00110#64, 0b01110#64, 0b10110#64, 0b11110#64].map (decode .minctl) =
    [.ok (.inta false false), .ok (.inta false true), .ok (.inta true false), .ok (.inta true true)] := by decide
/-- V19: the four IDLE patterns. -/
theorem test_decode_idle : [0b00111#64, 0b01111#64, 0b10111#64, 0b11111#64].map (decode .minctl) =
    [.ok (.idle 0), .ok (.idle 1), .ok (.idle 2), .ok (.idle 3)] := by decide
/-- V24, the patterns with no operand. -/
theorem test_decode_maxs_bare : [0b000#64, 0b011#64, 0b111#64].map (decode .maxs) =
    [.ok .sInta, .ok .sHalt, .ok .sPassive] := by decide
/-- V24: `001`. -/
theorem test_decode_sIor : decode .maxs 0b0001_00000000000001100000_00000001 = .ok (.sIor 0x0060 true) := by decide
/-- V24: `010`. -/
theorem test_decode_sIow :
    decode .maxs 0b0000000001000001_0001_00000000000001100000_00000010 = .ok (.sIow 0x0060 true 0x0041) := by decide
/-- V24: `100` at FFFF0H (V48). -/
theorem test_decode_sFetch : decode .maxs 0b0000_11111111111111110000_00000100 = .ok (.sFetch 0xFFFF0 false) := by decide
/-- V24: `101`, ES (tag 000). -/
theorem test_decode_sMemr : decode .maxs 0b0000_00010010001101000101_00000101 = .ok (.sMemr 0x12345 false .es) := by decide
/-- V24: `110`, CS (tag 010). -/
theorem test_decode_sMemw :
    decode .maxs 0b0001001000110100_0100_00010010001101000000_00000110 = .ok (.sMemw 0x12340 false .cs 0x1234) := by decide
/-- V25. -/
theorem test_decode_lane : [0b00#64, 0b01#64, 0b10#64, 0b11#64].map (decode .lane) =
    [.ok .laneBoth, .ok .laneHigh, .ok .laneLow, .ok .laneNone] := by decide
/-- V20, V23 and the other words with two or three strobes low. -/
theorem test_decode_twoStrobes : [0b10001#64, 0b00010#64, 0b01100#64, 0b11000#64].map (decode .minctl) =
    List.replicate 4 (.error .twoStrobes) := by decide
/-- V21, V22. -/
theorem test_decode_strobeDirection : [0b11011#64, 0b10101#64, 0b01011#64, 0b00101#64].map (decode .minctl) =
    List.replicate 4 (.error .strobeDirection) := by decide
/-- V12: A19..A16 = 1H in an I/O operation. -/
theorem test_decode_ioAddressHigh :
    [decode .minctl 0x1006003, decode .minctl 0x100600D, decode .maxs 0x1006001, decode .maxs 0x1006002] =
      List.replicate 4 (.error .ioAddressHigh) := by decide
/-- A bit outside the operation's fields (log 3). -/
theorem test_decode_strayBits :
    [decode .minctl 0x33, decode .minctl 0x117, decode .maxs 0xB, decode .lane 0x5, decode .minctl 0x100000013] =
      List.replicate 5 (.error .strayBits) := by decide
/-- The opcode table's words at the width of their patterns. -/
theorem test_tableWords : [decodeTableWord 5 19, decodeTableWord 5 29, decodeTableWord 5 3, decodeTableWord 5 13, decodeTableWord 5 6,
      decodeTableWord 5 7, decodeTableWord 3 0, decodeTableWord 3 1, decodeTableWord 3 4, decodeTableWord 2 2] =
    [some (.memr 0 false (.data .es)), some (.memw 0 false .es 0), some (.ior 0 false), some (.iow 0 false 0),
      some (.inta false false), some (.idle 0), some .sInta, some (.sIor 0 false), some (.sFetch 0 false), some .laneLow] := by decide

/-! ## Small states -/

/-- The bus is free and nothing is owed. -/
def free (m : Mode) : State := { State.reset with mode := m, restart := false, now := Frame.quiet m }

/-- The bus interface in a T-state of the cycle of `i`. -/
def loaded (m : Mode) (b : BusState) (i : Instr) : State :=
  { free m with
    busState := b, curOp := some i, curAddr := addrOf i, curLanes := lanesOfInstr i, curWdata := wdataOf i
    curSeg := some (segOf i) }

/-- A T-state of the cycle of `i`, with its pins. -/
def during (m : Mode) (b : BusState) (i : Instr) : State :=
  { loaded m b i with pins := pinsOf false (loaded m b i) }

/-- A T-state of the acknowledge sequence of the wiring. -/
def ackIn (m : Mode) (b : BusState) (p : AckPhase) : State :=
  { during m b (match m with | .min => .inta true false | .max => .sInta) with ackPhase := p }

/-- The bus is given away. -/
def away (m : Mode) (l : Option Line) : State :=
  { free m with busState := .holdAck, holdGranted := decide (m = .min), granted := l }

/-- RESET is high for the first clock. -/
def resetting : State :=
  { free .min with busState := .inReset, restart := true, resetClks := 1, now := { Frame.quiet .min with reset := true } }

/-- Inputs in which only what is given differs from rest. -/
abbrev rest : Frame := Frame.quiet .min

/-- FR with IF set. -/
abbrev ifSet : Word := 0x0200#16

/-- The next state satisfies a test. -/
def nextIs (o : Host.Outcome State Fault Refusal) (p : State → Bool) : Bool :=
  match o with
  | .next t => p t
  | .fault _ => false
  | .refused _ => false

/-- The machine stops with this fault. -/
def faults (o : Host.Outcome State Fault Refusal) (f : Fault) : Bool :=
  match o with
  | .next _ => false
  | .fault g => decide (g = f)
  | .refused _ => false

/-- The machine refuses with this reason. -/
def refuses (o : Host.Outcome State Fault Refusal) (r : Refusal) : Bool :=
  match o with
  | .next _ => false
  | .fault _ => false
  | .refused q => decide (q = r)

theorem exists_next {o : Host.Outcome State Fault Refusal} {p : State → Bool} (h : nextIs o p = true) :
    ∃ t, o = .next t ∧ p t = true := by
  cases o with
  | next t => exact ⟨t, rfl, h⟩
  | fault f => cases h
  | refused r => cases h

/-- A Bool that says `Loaded`. -/
def loadedB (i : Instr) (s : State) : Bool :=
  decide (s.curAddr = addrOf i) && decide (s.curLanes = lanesOfInstr i) && decide (s.curSeg = some (segOf i))
    && decide (hasLow s.curLanes = true → s.curWdata.lo = (wdataOf i).lo)
    && decide (hasHigh s.curLanes = true → s.curWdata.hi = (wdataOf i).hi)

/-- A transfer in its cycle selects a lane. -/
def laneB (s : State) : Bool := !(inCycle s.busState && (curKind s).any Kind.transfers && decide (s.curLanes = .none))

/-- The two fields of the invariant about the current operation. -/
def opB (s : State) : Bool :=
  match s.curOp with
  | none => true
  | some i => decide (i.format = .maxs → s.mode = .max) && (!(inCycle s.busState || decide (s.busState = .t4)) || loadedB i s)

/-- The invariant as a Bool. -/
def invB (s : State) : Bool :=
  opB s && laneB s && (s.pendingOps.all fun it => decide (kindOf it.instr ≠ some .fetch)) && decide
    (Memory.wf s.mem = true ∧ s.queue.length + inFlight s ≤ s.params.queueDepth ∧
      (inCycle s.busState = true → (curKind s).isSome = true) ∧ (s.ackPhase ≠ .none → curKind s = some .ack) ∧
      phaseFits s.ackPhase s.busState = true ∧
      (inCycle s.busState = true → curKind s = some .ack → s.ackPhase = .first ∨ s.ackPhase = .second) ∧
      (s.busState = .holdAck → s.lockActive = false ∧ (s.holdGranted = true ∨ s.granted ≠ none)) ∧
      (s.busState ≠ .holdAck → s.holdGranted = false ∧ s.granted = none) ∧
      (s.mode = .min → s.lockActive = false ∧ s.rqPending0 = false ∧ s.rqPending1 = false ∧ s.granted = none) ∧
      (s.mode = .max → s.holdGranted = false)) && decide
    ((s.mode = .max → s.lockHeld = true → s.lockActive = true) ∧ observed s = none ∧ (s.busState = .inReset ↔ s.now.reset = true) ∧
      (s.busState ≠ .inReset → s.resetClks = 0) ∧ (s.busState = .inReset → s.restart = true) ∧
      (s.restart = true → inCycle s.busState = false ∧ s.busState ≠ .t4 ∧ s.pendingOps = [] ∧ s.ackPhase = .none ∧
        s.ackPending = false ∧ s.entrySteps = []))

theorem loaded_of {i : Instr} {s : State} (h : loadedB i s = true) : Loaded i s := by
  simp only [loadedB, Bool.and_eq_true, decide_eq_true_eq] at h
  obtain ⟨⟨⟨⟨h1, h2⟩, h3⟩, h4⟩, h5⟩ := h
  exact ⟨h1, h2, h3, h4, h5⟩

theorem inv_of {s : State} (h : invB s = true) : Inv s := by
  simp only [invB, Bool.and_eq_true, List.all_eq_true, decide_eq_true_eq] at h
  obtain ⟨⟨⟨⟨ho, hl⟩, hp⟩, h1, h2, h3, h4, h5, h6, h7, h8, h9, h10⟩, h11, h12, h13, h14, h15, h16⟩ := h
  refine ⟨h1, h2, h3, fun i hi => ?_, fun i hi hc => ?_, fun k hc hk ht hn => ?_, h4, h5, h6, hp, h7, h8, h9, h10, h11, h12, h13, h14, h15, h16⟩
  · simp only [opB, hi, Bool.and_eq_true, decide_eq_true_eq] at ho
    exact ho.1
  · simp only [opB, hi, Bool.and_eq_true] at ho
    apply loaded_of
    rcases hc with hc | hc <;> simpa [hc] using ho.2
  · simp [laneB, hc, hk, ht, hn] at hl

/-- A state of the invariant and its next state, with a test on both. -/
theorem reach {s : State} {p : State → Prop} [DecidablePred p] (h1 : invB s = true)
    (h2 : nextIs (step s) (fun t => decide (p t)) = true) : ∃ s t, Inv s ∧ step s = .next t ∧ p t := by
  obtain ⟨t, ht, hp⟩ := exists_next h2
  exact ⟨s, t, inv_of h1, ht, of_decide_eq_true hp⟩

/-! ## One step: the transfers -/

/-- V2: T1 of MEMR 12345H on the high lane. -/
theorem test_memr_T1 : nextIs (exec (.memr 0x12345 false (.data .ds)) (free .min)) (fun t => decide
    (t.busState = .t1 ∧ t.pins.a = some 0x1#4 ∧ t.pins.ad = some 0x2345#16 ∧ t.pins.bheN = some false ∧
      t.curLanes = .high)) = true := by decide

/-- V26: the word 5678H is taken in T3; in T4 the strobe is back at 1 and the status nibble is 3H. -/
theorem test_memr_T3 : nextIs (exec (.memr 0x00400 false (.data .ds))
    { during .min .t3 (.memr 0x00400 false (.data .ds)) with now := { rest with devLo := some 0x78, devHi := some 0x56 } })
    (fun t => decide (t.busState = .t4 ∧ t.rdata = 0x5678#16 ∧ t.result = .word 0x5678 ∧ t.pins.rdN = some true ∧
      t.pins.a = some 0x3#4)) = true := by decide

/-- V27: T2 of MEMW 12340H, 1234H, seg = ES with IF = 1. -/
theorem test_memw_T2 : nextIs (exec (.memw 0x12340 false .es 0x1234)
    { during .min .t1 (.memw 0x12340 false .es 0x1234) with fr := ifSet })
    (fun t => decide (t.busState = .t2 ∧ t.pins.a = some 0x4#4 ∧ t.pins.ad = some 0x1234#16 ∧ t.pins.rdN = some true ∧
      (minOf t.pins).any (fun m => decide (m.wrN = some false ∧ m.denN = some false ∧ m.mio = some true ∧ m.dtr = some true ∧
        m.ale = false ∧ m.intaN = some true)) = true)) = true := by decide

/-- V8: the low byte is stored, the other lane is not. -/
theorem test_memw_low : nextIs (exec (.memw 0x00200 true .ds 0x77EE)
    { during .min .t3 (.memw 0x00200 true .ds 0x77EE) with mem := [(0x201, 0x11)] })
    (fun t => decide (t.busState = .t4 ∧ t.mem = [(0x200, 0xEE), (0x201, 0x11)])) = true := by decide

/-- P2, t4: T1 of IOR 03F9H on the high lane. -/
theorem test_ior_T1 : nextIs (exec (.ior 0x03F9 false) (free .min)) (fun t => decide
    (t.pins.a = some 0#4 ∧ t.pins.ad = some 0x03F9#16 ∧ t.pins.bheN = some false ∧
      (minOf t.pins).any (fun m => decide (m.mio = some false ∧ m.dtr = some false ∧ m.ale = true)) = true)) = true := by decide

/-- P2, t7: in TW the device answers 7EH on AD15..AD8; the low lane is not used. -/
theorem test_ior_TW : nextIs (exec (.ior 0x03F9 false)
    { during .min .tw (.ior 0x03F9 false) with now := { rest with devHi := some 0x7E, devLo := some 0x55 } })
    (fun t => decide (t.busState = .t4 ∧ t.result = .byte 0x7E)) = true := by decide

/-- V29: T1 of IOW 0060H on the low lane. -/
theorem test_iow_T1 : nextIs (exec (.iow 0x0060 true 0x0041) (free .min)) (fun t => decide
    (t.pins.a = some 0#4 ∧ t.pins.ad = some 0x0060#16 ∧ t.pins.bheN = some true)) = true := by decide

/-- V29: T2 shows 41H on AD7..AD0 with WR# = 0, M/IO# = 0, DT/R# = 1. -/
theorem test_iow_T2 : nextIs (exec (.iow 0x0060 true 0x0041) (during .min .t1 (.iow 0x0060 true 0x0041))) (fun t => decide
    (t.pins.ad.any (fun v => decide (v.lo = 0x41)) = true ∧
      (minOf t.pins).any (fun m => decide (m.mio = some false ∧ m.dtr = some true ∧ m.wrN = some false)) = true)) = true := by
  decide

/-- V63, t2 of P3: INTA# = 0 in T2, AD15..AD0 not driven, status nibble 6H with IF = 1. -/
theorem test_inta_T2 : nextIs (exec (.inta true false) { ackIn .min .t1 .first with fr := ifSet }) (fun t => decide
    (t.busState = .t2 ∧ t.pins.ad = none ∧ t.pins.a = some 0x6#4 ∧ t.pins.rdN = some true ∧
      (minOf t.pins).any (fun m => decide (m.intaN = some false ∧ m.wrN = some true ∧ m.denN = some false)) = true)) = true := by
  decide

/-- V63, V65: the type is read from AD7..AD0 in T3 of the second cycle; AD15..AD8 are ignored. -/
theorem test_inta_type : nextIs (exec (.inta true false)
    { ackIn .min .t3 .second with now := { rest with devLo := some 0x21, devHi := some 0xA5 } })
    (fun t => decide (t.busState = .t4 ∧ t.ackType = 0x21 ∧ t.raised = [0x21] ∧ t.ackPhase = .none)) = true := by decide

/-- 40 R133: no strobe in Idle; M/IO# = 1 and DT/R# = 0 as the pattern `10111` asks. -/
theorem test_idle : nextIs (exec (.idle 2) (free .min)) (fun t => decide
    (t.busState = .idle ∧ t.pins.rdN = some true ∧ (minOf t.pins).any (fun m => decide (m.mio = some true ∧
      m.dtr = some false ∧ m.wrN = some true ∧ m.intaN = some true ∧ m.denN = some true ∧ m.ale = false)) = true)) = true := by
  decide

/-! ## One step: maximum mode -/

/-- The code on S2#, S1#, S0# in the T1 of each cycle (42 R180). -/
theorem test_status_codes : ([.sInta, .sIor 0x60 true, .sIow 0x60 true 7, .sHalt, .sFetch 0xFFFF0 false, .sMemr 0x12345 false .ds,
      .sMemw 0x02000 true .ds 1, .sPassive].map fun i => match exec i (free .max) with
        | .next t => (maxOf t.pins).bind MaxPins.s
        | _ => none) =
    [some 0, some 1, some 2, some 3, some 4, some 5, some 6, some 7] := by decide

/-- V46: in T3 with READY = 1 the code is passive, RD# = 0, the nibble 3H. -/
theorem test_sMemr_T3 : nextIs (exec (.sMemr 0x12345 false .ds) (during .max .t2 (.sMemr 0x12345 false .ds))) (fun t => decide
    (t.busState = .t3 ∧ t.pins.rdN = some false ∧ t.pins.a = some 0x3#4 ∧ t.pins.ad = none ∧
      (maxOf t.pins).any (fun m => decide (m.s = some 7 ∧ m.qs = 0 ∧ m.lockN = some true)) = true)) = true := by decide

/-- V47: in T3 with READY = 0 the code of the cycle stays. -/
theorem test_sMemw_T3 : nextIs (exec (.sMemw 0x02000 true .ds 1)
    { during .max .t2 (.sMemw 0x02000 true .ds 1) with inputs := [{ Frame.quiet .max with ready := false }] }) (fun t => decide
    (t.busState = .t3 ∧ (maxOf t.pins).any (fun m => decide (m.s = some 6)) = true)) = true := by decide

/-- P1: the bytes EAH, 5BH reach the queue in address order. -/
theorem test_sFetch_queue : nextIs (exec (.sFetch 0xFFFF0 false)
    { during .max .t3 (.sFetch 0xFFFF0 false) with mem := [(0xFFFF0, 0xEA), (0xFFFF1, 0x5B)] }) (fun t => decide
    (t.rdata = 0x5BEA#16 ∧ t.queue = [0xEA, 0x5B])) = true := by decide

/-- V72: the type is read in maximum mode the same way. -/
theorem test_sInta_type : nextIs (exec .sInta { ackIn .max .tw .second with now := { Frame.quiet .max with devLo := some 0x21 } })
    (fun t => decide (t.raised = [0x21])) = true := by decide

/-- 42 R181, R182, R183: a port read, a port write and a halt cycle end in T4 and leave memory alone. -/
theorem test_maxs_end : [Instr.sIor 0x60 true, .sIow 0x60 true 7, .sHalt].all (fun i => nextIs (exec i (during .max .t3 i))
    (fun t => decide (t.busState = .t4 ∧ t.mem = []))) = true := by decide

/-- 30 R107: a maximum-mode pattern in minimum mode. -/
theorem test_maxs_refused : refuses (exec .sPassive (free .min)) .maxModeOnly = true := by decide

/-! ## One step: lanes, splits, waits -/

/-- V25: the lanes selected in T1, and the fault. -/
theorem test_lanes : nextIs (exec .laneBoth (during .min .t1 (.memr 0x100 true .fetch))) (fun t => decide (t.curLanes = .both)) = true ∧
    nextIs (exec .laneHigh (during .min .t1 (.memr 0x100 true .fetch))) (fun t => decide (t.curLanes = .high)) = true ∧
    nextIs (exec .laneLow (during .min .t1 (.memr 0x100 false .fetch))) (fun t => decide (t.curLanes = .low)) = true ∧
    faults (exec .laneNone (free .min)) .laneNone = true := by decide

/-- V4: a transfer with lane pattern `11`: observed on the pins in T1, where RESET follows too, and asked for. -/
theorem test_laneNone_transfer :
    ([rest, { rest with reset := true }].all fun f =>
      faults (step { during .min .t1 (.memr 0x12345 true (.data .ds)) with inputs := [f] }) .laneNone) = true ∧
    faults (exec (.memr 0x12345 true (.data .ds)) (free .min)) .laneNone = true ∧
    faults (exec (.sIow 0x0061 true 7) (during .max .t4 (.sIor 0 true))) .laneNone = true := by decide

/-- V6: the word at 12345H is read on the high lane first, then at 12346H on the low lane. -/
theorem test_split_first : nextIs (step { free .min with program := [.memRead 0x12345 .word .ds] }) (fun t => decide
    (t.curAddr = 0x12345 ∧ t.curLanes = .high ∧ t.pendingOps = [⟨.memr 0x12346 true (.data .ds), .highByte⟩])) = true := by decide

/-- V6: 12H after 34H makes 1234H. -/
theorem test_split_second : nextIs (exec (.memr 0x12346 true (.data .ds)) { during .min .t3 (.memr 0x12346 true (.data .ds)) with
      curPart := .highByte, result := .byte 0x34, now := { rest with devLo := some 0x12, devHi := some 0x99 } })
    (fun t => decide (t.result = .word 0x1234)) = true := by decide

/-- V7: the write of ABCDH at FFFFFH: CDH on the high lane, then ABH at 00000H. -/
theorem test_split_wraps : nextIs (step { free .min with program := [.memWrite 0xFFFFF .word .ds 0xABCD] }) (fun t => decide
    (t.curAddr = 0xFFFFF ∧ t.curLanes = .high ∧ t.curOp.any (fun i => decide ((wdataOf i).hi = 0xCD)) = true ∧
      (t.pendingOps.map fun it => (addrOf it.instr, lanesOfInstr it.instr, (wdataOf it.instr).lo)) = [(0, .low, 0xAB)])) = true := by
  decide

/-- V11: port FFFFH is followed by port 0000H. -/
theorem test_port_wraps : nextIs (step { free .min with program := [.ioWrite 0xFFFF .word 0x1234] }) (fun t => decide
    (t.curAddr = 0x0FFFF ∧ t.curOp.any (fun i => decide ((wdataOf i).hi = 0x34)) = true ∧
      (t.pendingOps.map fun it => (addrOf it.instr, (wdataOf it.instr).lo)) = [(0, 0x12)])) = true := by decide

/-- V13: an even address does not wrap. -/
theorem test_even_word : nextIs (step { free .min with program := [.memRead 0xFFFFE .word .ds] }) (fun t => decide
    (t.curLanes = .both ∧ t.pendingOps = [])) = true := by decide

/-- V32, V33: READY decides in T3 and not in T2. -/
theorem test_ready : nextIs (step { during .min .t3 (.ior 0x60 true) with now := { rest with ready := false } }) (fun t => decide (t.busState = .tw)) = true ∧
    nextIs (step { during .min .t2 (.ior 0x60 true) with now := { rest with ready := false } }) (fun t => decide (t.busState = .t3)) = true := by
  decide

/-- V3 of 70 R260 HZ3: a device that drives in T1. -/
theorem test_contention : faults (step { during .min .t1 (.ior 0x60 true) with now := { rest with devLo := some 1 } }) .busContention = true := by
  decide

/-! ## One step: hand-over, interrupts, TEST#, RESET -/

/-- V38: HOLD in Idle. -/
theorem test_hold : nextIs (step { free .min with now := { rest with hold := true } }) (fun t => decide
    (t.busState = .holdAck ∧ triFloated t.pins = true ∧ (minOf t.pins).any (fun m => m.hlda && !m.ale) = true)) = true := by decide

/-- V41: HOLD falls in HoldAck. -/
theorem test_hold_end : nextIs (step (away .min none)) (fun t => decide
    (t.busState = .idle ∧ t.holdGranted = false ∧ (minOf t.pins).any (fun m => !m.hlda) = true)) = true := by decide

/-- V49: both lines ask, line 0 is granted. -/
theorem test_grant : nextIs (step { free .max with rqPending0 := true, rqPending1 := true }) (fun t => decide
    (t.busState = .holdAck ∧ t.granted = some .line0 ∧ t.rqPending1 = true ∧ triFloated t.pins = true)) = true := by decide

/-- V51: no grant while LOCK# = 0. -/
theorem test_lock : nextIs (step { free .max with rqPending0 := true, lockActive := true }) (fun t => decide
    (t.busState = .idle ∧ t.rqPending0 = true)) = true := by decide

/-- V62, V63: INTR is ignored with IF = 0 and served with IF = 1. -/
theorem test_intr : nextIs (step { free .min with now := { rest with intr := true, instrEnd := true } }) (fun t => decide
      (t.busState = .idle ∧ t.ackPhase = .none ∧ t.ackPending = false)) = true ∧
    nextIs (step { free .min with fr := ifSet, now := { rest with intr := true, instrEnd := true } }) (fun t => decide
      (t.busState = .t1 ∧ t.ackPhase = .first ∧ curKind t = some .ack)) = true := by decide

/-- V68: the non-maskable request with IF = 0. -/
theorem test_nmi : nextIs (step { free .min with nmiPending := true, now := { rest with instrEnd := true } }) (fun t => decide
    (t.nmiPending = false ∧ t.raised = [2] ∧ t.ackPending = false)) = true := by decide

/-- P3: InterruptEntry pushes FR at 000FEH through SS, both lanes, status nibble 5H in T2. -/
theorem test_entry_push : nextIs (step { free .min with sp := 0x0100, fr := ifSet, entrySteps := entrySequence 0x21 }) (fun t => decide
    (t.busState = .t1 ∧ t.sp = 0x00FE ∧ t.curOp = some (.memw 0x000FE false .ss 0x0200) ∧ t.pins.ad = some 0x00FE#16)) = true := by
  decide

/-- P3: the vector of type 21H is read at 00084H. -/
theorem test_entry_vector : nextIs (step { free .min with entrySteps := [.readIp 0x21] }) (fun t => decide
    (t.curAddr = 0x00084 ∧ t.curLanes = .both ∧ curKind t = some .memRead)) = true := by decide

/-- V84, V85: TEST# = 0 ends the wait, 1 does not. -/
theorem test_testWait : nextIs (step { free .min with testWait := true, now := { rest with testN := false } }) (fun t => decide (t.testWait = false)) = true ∧
    nextIs (step { free .min with testWait := true }) (fun t => decide (t.testWait = true ∧ t.busState = .idle)) = true := by decide

/-- V75: RESET in the middle of a cycle. -/
theorem test_reset : nextIs (step { during .min .t2 (.memw 0x00500 false .ds 0x1234) with
      ip := 5, fr := ifSet, nmiPending := true, inputs := [{ rest with reset := true }] }) (fun t => decide
    (t.busState = .inReset ∧ t.cs = 0xFFFF ∧ t.ip = 0 ∧ t.fr = 0 ∧ t.nmiPending = false ∧ t.curOp = none ∧ t.resetClks = 1)) = true := by
  decide

/-- V76, V77: RESET falls after 3 clocks, and after 4. -/
theorem test_reset_width : refuses (step { resetting with resetClks := 3, inputs := [rest] }) .resetTooShort = true ∧
    nextIs (step { resetting with resetClks := 4, inputs := [rest] }) (fun t => decide (t.busState = .idle ∧ t.restart = true)) = true := by
  decide

/-- V82: T1 of the first cycle after RESET. -/
theorem test_first_fetch : nextIs (step State.reset) (fun t => decide
    (t.busState = .t1 ∧ t.pins.a = some 0xF#4 ∧ t.pins.ad = some 0xFFF0#16 ∧ t.pins.bheN = some false ∧
      (minOf t.pins).any (fun m => decide (m.ale = true ∧ m.mio = some true ∧ m.dtr = some false)) = true)) = true := by decide

/-- V83. -/
theorem test_strap : refuses (step { free .min with now := Frame.quiet .max }) .strapChanged = true := by decide

/-- A placed word is the very next operation (log 5): IOR in minimum mode, S.MEMW in maximum mode. -/
theorem test_placed : nextIs (step (State.reset.withFetchWord 5 3)) (fun t => decide (t.busState = .t1 ∧ t.curOp = some (.ior 0 false))) = true ∧
    nextIs (step (State.reset.withFetchWord 3 6)) (fun t => decide (t.busState = .t1 ∧ t.curOp = some (.sMemw 0 false .es 0))) = true := by
  decide

/-- 42 R191: QS1, QS0 report the clock before, and a byte is taken from the front of the queue. -/
theorem test_queue_status : nextIs (step { free .max with
      queue := [0xEA, 0x5B], qAct := .emptied, inputs := [{ Frame.quiet .max with qAct := .first }] }) (fun t => decide
    (t.qOut = some 0xEA ∧ t.queue = [0x5B] ∧ (maxOf t.pins).any (fun m => decide (m.qs = 2)) = true)) = true := by decide

/-- 30 R109: in T2 of IOW both WR# and INTA# are low. -/
def showsBoth : State :=
  let s := during .min .t2 (.iow 0x0060 true 7)
  { s with pins := { s.pins with ctl := .min { mio := some false, dtr := some true, denN := some false, hlda := false, ale := false,
                                               intaN := some false, wrN := some false } } }

/-- RD# is low against DT/R# = 1. -/
def showsAgainst : State :=
  let s := during .min .t2 (.iow 0x0060 true 7)
  { s with pins := { s.pins with rdN := some false, ctl := .min { mio := some false, dtr := some true, denN := some false, hlda := false,
                                                                  ale := false, intaN := some true, wrN := some true } } }

/-- S6 = 1 in T3. -/
def showsS6 : State :=
  let s := during .max .t3 (.sMemr 0 false .ds)
  { s with pins := { s.pins with a := some 0xB } }

/-- A16 = 1 in T1 of an I/O operation. -/
def showsHigh (i : Instr) : State :=
  let s := during .min .t1 i
  { s with pins := { s.pins with a := some 1 } }

/-- BHE# = 1 and AD0 = 1 in T1 of a transfer. -/
def showsNoLane : State :=
  let s := during .min .t1 (.ior 0x0060 true)
  { s with pins := { s.pins with ad := some 0x0061 } }

/-- 30 R109, V60: each illegal pattern on the pins stops the step. -/
theorem test_pinFaults : faults (step showsBoth) .twoStrobes = true ∧ faults (step showsAgainst) .strobeDirection = true ∧
    faults (step showsS6) .s6High = true ∧ faults (step (showsHigh (.ior 0x0060 true))) .ioAddressHigh = true ∧
    faults (step showsNoLane) .laneNone = true := by decide

/-- 20 R93: LOCK# is low from the Idle state before a locked sequence, and high again after it. -/
theorem test_locked : nextIs (step { free .max with program := locked [.fetch 0] }) (fun t => decide
      (t.busState = .idle ∧ t.program = [.fetch 0, .unlock] ∧ (maxOf t.pins).any (fun m => decide (m.lockN = some false)) = true)) = true ∧
    nextIs (step { free .max with lockHeld := true, lockActive := true, program := [.unlock] }) (fun t => decide
      (t.busState = .idle ∧ (maxOf t.pins).any (fun m => decide (m.lockN = some true)) = true)) = true := by decide

/-- 41 R160: ALE has fallen in a T1 that RESET follows. -/
theorem test_latch_reset : nextIs (step { during .min .t1 (.memr 0x12345 false (.data .ds)) with inputs := [{ rest with reset := true }] })
    (fun t => decide (t.busState = .inReset ∧ t.latchAddr = 0x12345 ∧ t.latchBheN = false)) = true := by decide

/-- 41 R173: an instruction that ends in HoldAck lets the request in only after the release. -/
theorem test_nmi_after_hold : nextIs (step { away .min none with nmiPending := true, now := { rest with instrEnd := true } }) (fun t => decide
      (t.busState = .idle ∧ t.nmiPending = true ∧ t.raised = [] ∧ t.endPending = true)) = true ∧
    nextIs (step { free .min with nmiPending := true, endPending := true }) (fun t => decide (t.raised = [2])) = true := by decide

/-- 70 R260 HZ3: in HoldAck a device may answer the master that drives the bus and does not write (log 26). -/
theorem test_device_in_hold : nextIs (step { away .min none with
      now := { rest with hold := true, ext := [.drives .hold], devLo := some 7 } }) (fun t => decide (t.busState = .holdAck)) = true ∧
    ([[], [Ext.drives .hold, .writes .hold 0 7]].all fun e => faults (step { away .min none with
      now := { rest with hold := true, ext := e, devHi := some 7 } }) .busContention) = true ∧
    faults (step { away .min none with now := { rest with devLo := some 7 } }) .busContention = true := by decide

/-- Log 7: the last of the core's writes of a register stands, and the other registers are kept. -/
theorem test_regWrites : nextIs (step { free .min with
      inputs := [{ rest with regWrites := [(.fr, 1), (.ds, 5), (.fr, ifSet)] }] }) (fun t => decide
    (t.fr = ifSet ∧ t.ds = 5 ∧ t.cs = 0xFFFF ∧ t.sp = 0)) = true := by decide

/-- 70 R260 HZ8: a master without the grant drives the bus. -/
theorem test_foreign_master : faults (step { away .max (some .line0) with
    now := { Frame.quiet .max with ext := [.writes (.line .line1) 0 7] } }) .masterContention = true := by decide

/-- The constants that the source fixes, as the table of 00_scope.md R6 gives them. -/
theorem test_constants : Config.addrBits = 20 ∧ Config.memBytes = 1048576 ∧ Config.ioAddrBits = 16 ∧ Config.ioPorts = 65536 ∧
    Config.dataBits = 16 ∧ Config.resetMinClks = 4 ∧ Config.resetCs = 0xFFFF ∧ Config.resetStart = 0xFFFF0 ∧ Config.nmiType = 2 ∧
    Config.vccMillivolts = 5000 ∧ Config.vccTolerancePercent = 10 ∧ Config.gndPins = 2 := by decide

/-! ## Witnesses: for each statement with hypotheses, states and operands that meet all of them -/

/-- `Undisturbed` as a Bool. -/
def undB (s : State) : Bool :=
  decide (s.now.mnmx = s.mode.strap ∧ (nextFrame s).reset = false ∧ s.busState ≠ .inReset ∧ violation s = none)

theorem und_of {s : State} (h : undB s = true) : Undisturbed s := by
  obtain ⟨h1, h2, h3, h4⟩ := of_decide_eq_true h
  exact ⟨h1, h2, h3, h4⟩

/-- `BusFree` as a Bool. -/
def freeB (s : State) : Bool :=
  undB s && (handOver s).isNone && decide ((s.busState = .idle ∨ s.busState = .t4) ∧ s.ackPhase = .none ∧ s.pendingOps = [] ∧
    s.restart = false ∧ s.ackPending = false ∧ s.testWait = false ∧
    (canServe s = false ∨ (s.nmiPending = false ∧ (s.now.intr = false ∨ ifOf s.fr = false))))

theorem free_of {s : State} (h : freeB s = true) : BusFree s := by
  simp only [freeB, Bool.and_eq_true, decide_eq_true_eq, Option.isNone_iff_eq_none] at h
  obtain ⟨⟨h1, h2⟩, h3, h4, h5, h6, h7, h8, h9⟩ := h
  exact ⟨und_of h1, h3, h4, h2, h5, h6, h7, h9, h8⟩

/-- `NoAckAsked` as a Bool. -/
def noAckAskedB (s : State) : Bool :=
  (s.pendingOps.head?.all fun it => decide (kindOf it.instr ≠ some .ack)) && s.program.head?.all fun q =>
    match q with
    | .word f w =>
      match decode f w with
      | .ok i => decide (kindOf i ≠ some .ack)
      | .error _ => true
    | _ => true

theorem noAckAsked_of {s : State} (h : noAckAskedB s = true) : NoAckAsked s := by
  simp only [noAckAskedB, Bool.and_eq_true] at h
  exact ⟨fun it r hp => by simpa [hp] using h.1, fun f w r i hp hd => by simpa [hp, hd] using h.2⟩

theorem quiet_rest (m : Mode) (r : Bool) : QuietFrame m { Frame.quiet m with ready := r } := ⟨rfl, rfl, rfl, rfl, rfl⟩

/-- A state of the invariant, its next state with the minimum-mode pins it shows, and a test on it. -/
theorem reachMin {s : State} {p : State → Prop} [DecidablePred p] (h1 : invB s = true)
    (h2 : nextIs (step s) (fun t => decide (p t) && (minOf t.pins).isSome) = true) :
    ∃ s t m, Inv s ∧ step s = .next t ∧ minOf t.pins = some m ∧ p t := by
  obtain ⟨t, ht, hp⟩ := exists_next h2
  simp only [Bool.and_eq_true, decide_eq_true_eq, Option.isSome_iff_exists] at hp
  obtain ⟨hp, m, hm⟩ := hp
  exact ⟨s, t, m, inv_of h1, ht, hm, hp⟩

/-- The same in maximum mode. -/
theorem reachMax {s : State} {p : State → Prop} [DecidablePred p] (h1 : invB s = true)
    (h2 : nextIs (step s) (fun t => decide (p t) && (maxOf t.pins).isSome) = true) :
    ∃ s t m, Inv s ∧ step s = .next t ∧ maxOf t.pins = some m ∧ p t := by
  obtain ⟨t, ht, hp⟩ := exists_next h2
  simp only [Bool.and_eq_true, decide_eq_true_eq, Option.isSome_iff_exists] at hp
  obtain ⟨hp, m, hm⟩ := hp
  exact ⟨s, t, m, inv_of h1, ht, hm, hp⟩

/-- Two steps in a row. -/
theorem reachTwo {r : State} {p q : State → Prop} [DecidablePred p] [DecidablePred q] (h1 : invB r = true)
    (h2 : nextIs (step r) (fun s => decide (p s) && nextIs (step s) (fun t => decide (q t))) = true) :
    ∃ r s t, Inv r ∧ step r = .next s ∧ step s = .next t ∧ p s ∧ q t := by
  obtain ⟨s, hs, hp⟩ := exists_next h2
  simp only [Bool.and_eq_true, decide_eq_true_eq] at hp
  obtain ⟨t, ht, hq⟩ := exists_next hp.2
  exact ⟨r, s, t, inv_of h1, hs, ht, hp.1, of_decide_eq_true hq⟩

/-- Every operation that runs a cycle, but for the acknowledge. -/
def cycles : List Instr :=
  [.memr 0x12344 false (.data .ds), .memr 0xFFFF0 false .fetch, .memw 0x12345 false .ss 0x5A5A, .ior 0xFFFF false, .iow 0x0060 true 7,
    .sIor 0 true, .sIow 0xFFFF false 7, .sHalt, .sFetch 0xFFFF1 false, .sMemr 0xFFFFE true .es, .sMemw 0 false .cs 0xFFFF]

theorem witness_EncodeDecode : ∃ f w i, decode f w = .ok i :=
  ⟨.minctl, 0x13, .memr 0 false (.data .es), by decide⟩

/-- One word, or operation, for each clause. -/
theorem witness_IllegalPatterns :
    (∃ w : BitVec 64, w.getLsbD 2 = false ∧ w.getLsbD 1 = false) ∧ (∃ w : BitVec 64, w.getLsbD 2 = false ∧ w.getLsbD 0 = false) ∧
    (∃ w : BitVec 64, w.getLsbD 1 = false ∧ w.getLsbD 0 = false) ∧ (∃ w : BitVec 64, w.getLsbD 2 = false ∧ w.getLsbD 3 = true) ∧
    (∃ w : BitVec 64, w.getLsbD 1 = false ∧ w.getLsbD 3 = false) ∧
    (∃ w : BitVec 64, w.extractLsb' 0 5 = 0b00011#5 ∧ w.extractLsb' 24 4 ≠ 0) ∧
    (∃ w : BitVec 64, w.extractLsb' 0 5 = 0b01101#5 ∧ w.extractLsb' 24 4 ≠ 0) ∧
    (∃ w : BitVec 64, w.extractLsb' 0 3 = 0b001#3 ∧ w.extractLsb' 24 4 ≠ 0) ∧
    (∃ w : BitVec 64, w.extractLsb' 0 3 = 0b010#3 ∧ w.extractLsb' 24 4 ≠ 0) ∧
    ∃ i k, kindOf i = some k ∧ k.transfers = true ∧ lanesOfInstr i = .none :=
  ⟨⟨0x11, by decide⟩, ⟨0x02, by decide⟩, ⟨0x0C, by decide⟩, ⟨0x1B, by decide⟩, ⟨0x15, by decide⟩, ⟨0x1006003, by decide⟩,
    ⟨0x100600D, by decide⟩, ⟨0x1006001, by decide⟩, ⟨0xF006002, by decide⟩, .memr 0x12345 true (.data .ds), .memRead, by decide, by decide, by decide⟩

/-- A fetch that just fits in the queue; the same as an instruction ends with INTR = 1 and IF = 0, and with an end kept from a hold; a T-state inside a cycle; a placed word with the smallest queue that holds a fetch. -/
theorem witness_StepRunsDecoded :
    (∃ s f w i rest, AtRequest s ∧ s.program = .word f w :: rest ∧ decode f w = .ok i ∧ hasRoom s i = true) ∧
    ([{ free .min with program := [.word .minctl 0x8FFFF013], now := { Frame.quiet .min with intr := true, instrEnd := true } },
      { free .min with program := [.word .minctl 0x8FFFF013], endPending := true, fr := ifSet }].all fun s =>
      freeB s && s.entrySteps.isEmpty && canServe s) = true ∧
    (∃ s i, Undisturbed s ∧ inCycle s.busState = true ∧ s.curOp = some i) ∧
    ∃ (s : State) (nbits w : Nat) (i : Instr), decodeTableWord nbits w = some i ∧ 2 ≤ s.params.queueDepth :=
  ⟨⟨{ free .min with queue := [1, 2, 3, 4], program := [.word .minctl 0x8FFFF013] }, .minctl, 0x8FFFF013, .memr 0xFFFF0 false .fetch, [],
      ⟨free_of (by decide), rfl⟩, rfl, by decide, by decide⟩, by decide,
    ⟨during .min .tw (.ior 0xFFFF false), .ior 0xFFFF false, und_of (by decide), rfl, rfl⟩,
    { State.reset with params := { Params.default with queueDepth := 2 } }, 5, 19, .memr 0 false (.data .es), by decide, by decide⟩

/-- T1, T2, T3, TW of a cycle, and a T4 that each kind of T-state follows. -/
theorem witness_NextState :
    ([BusState.t1, .t2, .t3, .tw].all fun b => cycles.all fun i =>
      let s := during .max b i
      invB s && undB s && inCycle s.busState) = true ∧
    (∃ s t, Inv s ∧ step s = .next t ∧ Undisturbed s ∧ s.busState = .t4 ∧ t.busState = .idle) ∧
    (∃ s t, Inv s ∧ step s = .next t ∧ Undisturbed s ∧ s.busState = .t4 ∧ t.busState = .holdAck) ∧
    (∃ s t, Inv s ∧ step s = .next t ∧ Undisturbed s ∧ s.busState = .t4 ∧ t.busState = .t1) := by
  refine ⟨by decide, ?_, ?_, ?_⟩
  · obtain ⟨t, ht, hp⟩ := exists_next (o := step (during .min .t4 (.ior 0 false))) (p := fun t => decide (t.busState = .idle)) (by decide)
    exact ⟨_, t, inv_of (by decide), ht, und_of (by decide), rfl, of_decide_eq_true hp⟩
  · obtain ⟨t, ht, hp⟩ := exists_next (o := step { during .min .t4 (.ior 0 false) with now := { rest with hold := true } })
      (p := fun t => decide (t.busState = .holdAck)) (by decide)
    exact ⟨_, t, inv_of (by decide), ht, und_of (by decide), rfl, of_decide_eq_true hp⟩
  · obtain ⟨t, ht, hp⟩ := exists_next (o := step { during .min .t4 (.ior 0 false) with program := [.fetch 0] })
      (p := fun t => decide (t.busState = .t1)) (by decide)
    exact ⟨_, t, inv_of (by decide), ht, und_of (by decide), rfl, of_decide_eq_true hp⟩

/-- No wait state, and two of them. -/
theorem witness_CycleRuns (n : Nat) (h : n = 0 ∨ n = 2) : ∃ (s : State) (i : Instr) (k : Kind), Inv s ∧ QuietFrame s.mode s.now ∧
    s.busState = .t1 ∧ s.curOp = some i ∧ kindOf i = some k ∧ k ≠ .ack ∧
    (∀ j < n + 3, ∃ f, s.inputs[j]? = some f ∧ QuietFrame s.mode f) ∧
    (∀ j < n, ∀ f, s.inputs[j + 1]? = some f → f.ready = false) ∧ (∀ f, s.inputs[n + 1]? = some f → f.ready = true) := by
  rcases h with rfl | rfl
  · refine ⟨{ during .min .t1 (.memw 0x12345 false .ds 7) with inputs := [rest, rest, rest] }, _, .memWrite, inv_of (by decide),
      quiet_rest .min true, rfl, rfl, rfl, by decide, fun j hj => ?_, fun j hj => by omega, fun f hf => by cases hf; rfl⟩
    have : j = 0 ∨ j = 1 ∨ j = 2 := by omega
    rcases this with rfl | rfl | rfl <;> exact ⟨_, rfl, quiet_rest .min true⟩
  · refine ⟨{ during .max .t1 (.sMemr 0x12345 false .ds) with
      inputs := [Frame.quiet .max, { Frame.quiet .max with ready := false }, { Frame.quiet .max with ready := false }, Frame.quiet .max,
        Frame.quiet .max] }, _, .memRead, inv_of (by decide), quiet_rest .max true, rfl, rfl, rfl, by decide,
      fun j hj => ?_, fun j hj f hf => ?_, fun f hf => by cases hf; rfl⟩
    · have : j = 0 ∨ j = 1 ∨ j = 2 ∨ j = 3 ∨ j = 4 := by omega
      rcases this with rfl | rfl | rfl | rfl | rfl
      · exact ⟨_, rfl, quiet_rest .max true⟩
      · exact ⟨_, rfl, quiet_rest .max false⟩
      · exact ⟨_, rfl, quiet_rest .max false⟩
      · exact ⟨_, rfl, quiet_rest .max true⟩
      · exact ⟨_, rfl, quiet_rest .max true⟩
    · have : j = 0 ∨ j = 1 := by omega
      rcases this with rfl | rfl <;> (cases hf; rfl)

theorem witness_WaitsWhileNotReady : ∃ s : State, Inv s ∧ (s.busState = .t3 ∨ s.busState = .tw) ∧
    ∀ f ∈ s.now :: s.inputs, QuietFrame s.mode f ∧ f.ready = false := by
  refine ⟨{ during .min .t3 (.ior 0x60 true) with now := { rest with ready := false }, inputs := [{ rest with ready := false }] },
    inv_of (by decide), .inl rfl, fun f hf => ?_⟩
  have : f = { rest with ready := false } := by simpa using hf
  subst this
  exact ⟨quiet_rest .min false, rfl⟩

/-- Every T-state but T3 and TW. -/
theorem witness_ReadyElsewhereIgnored :
    ([during .min .t1 (.ior 0x60 true), during .min .t2 (.ior 0x60 true), during .min .t4 (.ior 0x60 true), free .min, away .min none,
      resetting].all fun s => invB { s with inputs := [rest] } && decide (s.busState ≠ .t3 ∧ s.busState ≠ .tw)) = true := by decide

/-! ### Each operation -/

/-- Every cycle, from Idle and from T4. -/
theorem witness_CycleOpens : ([free .max, during .max .t4 (.ior 0 false)].all fun s => cycles.all fun i =>
    (kindOf i).any (fun k => decide (k ≠ .ack) && decide (k.transfers = true → lanesOfInstr i ≠ .none)) && decide (i.format = .maxs → s.mode = .max) &&
      decide (s.busState = .idle ∨ s.busState = .t4)) = true := by decide

/-- Every cycle, and the acknowledge, in T1 with a lane, T2, and T3 and TW with READY = 0. -/
theorem witness_CycleAdvances : ((Instr.inta true false :: .sInta :: cycles).all fun i => [BusState.t1, .t2, .t3, .tw].all fun b =>
    let s := { during .max b i with now := { Frame.quiet .max with ready := false } }
    (kindOf i).any (fun k => decide
      ((s.busState = .t1 ∧ (k.transfers = true → s.curLanes ≠ .none)) ∨ s.busState = .t2 ∨
        ((s.busState = .t3 ∨ s.busState = .tw) ∧ s.now.ready = false))) &&
      decide (i.format = .maxs → s.mode = .max) && decide (s.curOp = some i)) = true := by decide

/-- The end of a cycle of `i`: T3 or TW with READY = 1, in maximum mode. -/
def ends (b : BusState) (i : Instr) : Prop :=
  let s := during .max b i
  (s.busState = .t3 ∨ s.busState = .tw) ∧ s.now.ready = true ∧ s.curOp = some i ∧ s.mode = .max ∧ Memory.wf s.mem = true

theorem ends_t3 (i : Instr) : ends .t3 i := ⟨.inl rfl, rfl, rfl, rfl, rfl⟩
theorem ends_tw (i : Instr) : ends .tw i := ⟨.inr rfl, rfl, rfl, rfl, rfl⟩

/-- Both lanes, the high and the low one; and the two parts of a split access. -/
theorem witness_MemoryReadCompletes :
    (∃ i a b g, i = .memr a b (.data g) ∧ ends .t3 i ∧ lanesOfInstr i = .both) ∧
    (∃ i a b g, i = .sMemr a b g ∧ ends .tw i ∧ lanesOfInstr i = .high) ∧
    (∃ i a b g, i = .sMemr a b g ∧ ends .t3 i ∧ lanesOfInstr i = .low) ∧
    (∃ i s, i = .memr 0xFFFFF false (.data .ds) ∧ s = { during .max .t3 i with curPart := .lowByte } ∧ s.curLanes = .high) ∧
    (∃ i s, i = .memr 0 true (.data .ds) ∧ s = { during .max .t3 i with curPart := .highByte, result := .byte 7 } ∧ s.curLanes = .low) :=
  ⟨⟨_, 0xFFFFE, false, .ds, rfl, ends_t3 _, rfl⟩, ⟨_, 0xFFFFF, false, .ss, rfl, ends_tw _, rfl⟩,
    ⟨_, 0, true, .es, rfl, ends_t3 _, rfl⟩, ⟨_, _, rfl, rfl, rfl⟩, _, _, rfl, rfl, rfl⟩

theorem witness_FetchCompletes : (∃ i a b, i = .memr a b .fetch ∧ ends .t3 i) ∧ (∃ i a b, i = .sFetch a b ∧ ends .tw i) :=
  ⟨⟨_, 0xFFFF0, false, rfl, ends_t3 _⟩, _, 0xFFFFF, false, rfl, ends_tw _⟩

theorem witness_MemoryWriteCompletes : (∃ i a b g v, i = .memw a b g v ∧ ends .t3 i) ∧ (∃ i a b g v, i = .sMemw a b g v ∧ ends .tw i) :=
  ⟨⟨_, 0xFFFFF, false, .ds, 0xABCD, rfl, ends_t3 _⟩, _, 0, true, .ss, 0xABCD, rfl, ends_tw _⟩

theorem witness_IoReadCompletes : (∃ i p b, i = .ior p b ∧ ends .t3 i) ∧ (∃ i p b, i = .sIor p b ∧ ends .tw i) ∧
    (∃ i s, i = .ior 0xFFFF false ∧ s = { during .max .t3 i with curPart := .lowByte } ∧ s.curLanes = .high) ∧
    (∃ i s, i = .ior 0 true ∧ s = { during .max .t3 i with curPart := .highByte, result := .byte 7 } ∧ s.curLanes = .low) :=
  ⟨⟨_, 0xFFFF, false, rfl, ends_t3 _⟩, ⟨_, 0, true, rfl, ends_tw _⟩, ⟨_, _, rfl, rfl, rfl⟩, _, _, rfl, rfl, rfl⟩

theorem witness_IoWriteAndHaltComplete : (∃ i p b v, i = .iow p b v ∧ ends .t3 i) ∧ (∃ i p b v, i = .sIow p b v ∧ ends .tw i) ∧
    ends .t3 .sHalt :=
  ⟨⟨_, 0xFFFF, false, 7, rfl, ends_t3 _⟩, ⟨_, 0, true, 7, rfl, ends_tw _⟩, ends_t3 _⟩

/-- Each clause: the first T1; the first T4; the second T1 with no gap and after a gap; an Idle state of a gap; the end. -/
theorem witness_AcknowledgeCompletes :
    (∃ s : State, s.mode = .max ∧ s.busState = .idle ∧ s.ackPhase = .none) ∧
    (∃ s : State, s.mode = .max ∧ s.busState = .t4 ∧ s.ackPhase = .none) ∧
    (∃ s : State, s.mode = .max ∧ s.busState = .tw ∧ s.now.ready = true ∧ s.curOp = some .sInta ∧ s.ackPhase = .first) ∧
    (∃ s : State, s.mode = .max ∧ s.busState = .t4 ∧ s.ackPhase = .first ∧ s.params.ackGap = 0) ∧
    (∃ s : State, s.mode = .max ∧ s.busState = .idle ∧ s.ackPhase = .gap 0) ∧
    (∃ s : State, s.mode = .max ∧ s.busState = .t4 ∧ s.curOp = some .sInta ∧ s.ackPhase = .first ∧ s.params.ackGap = 0 + 1) ∧
    (∃ s : State, s.mode = .min ∧ s.busState = .idle ∧ s.curOp = some (.inta true false) ∧ s.ackPhase = .gap (0 + 1)) ∧
    (∃ s : State, s.mode = .min ∧ s.busState = .t3 ∧ s.now.ready = true ∧ s.curOp = some (.inta true false) ∧ s.ackPhase = .second) :=
  ⟨⟨free .max, rfl, rfl, rfl⟩, ⟨during .max .t4 .sInta, rfl, rfl, rfl⟩, ⟨ackIn .max .tw .first, rfl, rfl, rfl, rfl, rfl⟩,
    ⟨ackIn .max .t4 .first, rfl, rfl, rfl, rfl⟩, ⟨ackIn .max .idle (.gap 0), rfl, rfl, rfl⟩,
    ⟨{ ackIn .max .t4 .first with params := { Params.default with ackGap := 1 } }, rfl, rfl, rfl, rfl, rfl⟩,
    ⟨ackIn .min .idle (.gap 1), rfl, rfl, rfl, rfl⟩, ackIn .min .t3 .second, rfl, rfl, rfl, rfl, rfl⟩

theorem witness_IdleCompletes : (∃ (i : Instr) (s : State) (x : BitVec 2), i = .idle x ∧ s.busState = .idle) ∧
    ∃ (i : Instr) (s : State), i = .sPassive ∧ s.mode = .max ∧ s.busState = .t4 :=
  ⟨⟨_, free .min, 3, rfl, rfl⟩, _, during .max .t4 (.sIor 0 true), rfl, rfl, rfl⟩

theorem witness_LanePatternsComplete : (∃ s : State, s.busState = .t1) ∧ (∃ s : State, s.busState = .idle) ∧ ∃ s : State, s.busState = .t4 :=
  ⟨⟨during .min .t1 (.ior 0 true), rfl⟩, ⟨free .min, rfl⟩, during .min .t4 (.ior 0 true), rfl⟩

/-- In T1, and where T1 would begin. -/
theorem witness_LaneTable : (∃ (i : Instr) (k : Kind) (s : State), kindOf i = some k ∧ k.transfers = true ∧
      (i.format = .maxs → s.mode = .max) ∧ s.busState = .t1 ∧ s.curLanes = .none) ∧
    ∃ (i : Instr) (k : Kind) (s : State), kindOf i = some k ∧ k.transfers = true ∧ (i.format = .maxs → s.mode = .max) ∧
      s.busState = .t4 ∧ lanesOfInstr i = .none :=
  ⟨⟨.memr 0x12345 true (.data .ds), .memRead, during .min .t1 (.memr 0x12345 true (.data .ds)), rfl, rfl, by decide, rfl, rfl⟩,
    .sIow 0xFFFF true 7, .ioWrite, during .max .t4 (.sIor 0 true), rfl, rfl, fun _ => rfl, rfl, rfl⟩

theorem witness_MaxPatternsNeedMaxMode : ∃ (i : Instr) (s : State), i.format = .maxs ∧ s.mode = .min :=
  ⟨.sHalt, free .min, rfl, rfl⟩

/-! ### The pins -/

theorem witness_AddressPhase : (∃ s t, Inv s ∧ step s = .next t ∧ t.busState = .t1 ∧ t.curOp = some (.memr 0xFFFF0 false .fetch)) ∧
    (∃ s t, Inv s ∧ step s = .next t ∧ t.busState = .t1 ∧ t.curOp = some (.sIor 0xFFFF false)) :=
  ⟨reach (s := State.reset) (by decide) (by decide),
    reach (s := { free .max with program := [.ioRead 0xFFFF .byte] }) (by decide) (by decide)⟩

/-- T2 of a read, T4 of a write; a TW after T3 and a TW after TW, in either wiring. -/
theorem witness_DataPhase :
    (∃ s t, Inv s ∧ step s = .next t ∧ dataPhase t.busState = true ∧ t.curOp = some (.memr 0 false (.data .es))) ∧
    (∃ s t, Inv s ∧ step s = .next t ∧ dataPhase t.busState = true ∧ t.curOp = some (.iow 0xFFFF false 7)) ∧
    (∃ r s t, Inv r ∧ step r = .next s ∧ step s = .next t ∧ (s.busState = .t3 ∧ (maxOf s.pins).isSome = true) ∧
      t.busState = .tw ∧ (maxOf t.pins).isSome = true) ∧
    (∃ r s t, Inv r ∧ step r = .next s ∧ step s = .next t ∧ s.busState = .tw ∧ t.busState = .tw) :=
  ⟨reach (s := during .min .t1 (.memr 0 false (.data .es))) (by decide) (by decide),
    reach (s := during .min .tw (.iow 0xFFFF false 7)) (by decide) (by decide),
    reachTwo (r := { during .max .t2 (.sMemw 0 false .ds 7) with inputs := [{ Frame.quiet .max with ready := false }] })
      (by decide) (by decide),
    reachTwo (r := { during .min .t3 (.iow 0 true 7) with now := { rest with ready := false }, inputs := [{ rest with ready := false }] })
      (by decide) (by decide)⟩

/-- T1 and T4 of acknowledge cycles, and HoldAck. -/
theorem witness_DataBusFloats :
    (∃ s t, Inv s ∧ step s = .next t ∧ curKind t = some .ack ∧ t.busState = .t1) ∧
    (∃ s t, Inv s ∧ step s = .next t ∧ curKind t = some .ack ∧ t.busState = .t4) ∧
    (∃ s t, Inv s ∧ step s = .next t ∧ t.busState = .holdAck) :=
  ⟨reach (s := ackIn .min .t4 .first) (by decide) (by decide), reach (s := ackIn .max .t3 .second) (by decide) (by decide),
    reach (s := { away .min none with now := { rest with hold := true } }) (by decide) (by decide)⟩

theorem witness_StatusBits :
    ∃ s t, Inv s ∧ step s = .next t ∧ dataPhase t.busState = true ∧ t.curSeg = some (.reg .ss) :=
  reach (s := during .min .t3 (.memr 0 false (.data .ss))) (by decide) (by decide)

theorem witness_ReadStrobe :
    (∃ s t, Inv s ∧ step s = .next t ∧ ownsBus t.busState = true ∧ t.busState = .tw ∧ curKind t = some .ioRead) ∧
    (∃ s t, Inv s ∧ step s = .next t ∧ t.busState = .holdAck) :=
  ⟨reach (s := { during .max .t3 (.sIor 0 true) with now := { Frame.quiet .max with ready := false } }) (by decide) (by decide),
    reach (s := { free .max with rqPending1 := true }) (by decide) (by decide)⟩

theorem witness_WriteStrobe :
    (∃ s t m, Inv s ∧ step s = .next t ∧ minOf t.pins = some m ∧ ownsBus t.busState = true ∧ curKind t = some .memWrite) ∧
    (∃ s t m, Inv s ∧ step s = .next t ∧ minOf t.pins = some m ∧ t.busState = .holdAck) :=
  ⟨reachMin (s := during .min .t1 (.memw 0 false .ds 7)) (by decide) (by decide),
    reachMin (s := { free .min with now := { rest with hold := true } }) (by decide) (by decide)⟩

theorem witness_AcknowledgeStrobe :
    (∃ s t m, Inv s ∧ step s = .next t ∧ minOf t.pins = some m ∧ ownsBus t.busState = true ∧ curKind t = some .ack) ∧
    (∃ s t m, Inv s ∧ step s = .next t ∧ minOf t.pins = some m ∧ t.busState = .holdAck) :=
  ⟨reachMin (s := ackIn .min .t1 .second) (by decide) (by decide),
    reachMin (s := { free .min with now := { rest with hold := true } }) (by decide) (by decide)⟩

/-- The T1 of an acknowledge cycle; the end of a T1 that T2 follows, and of one that RESET follows; a T-state that is no T1. -/
theorem witness_AddressLatch :
    (∃ s t m, Inv s ∧ step s = .next t ∧ minOf t.pins = some m ∧ t.busState = .t1) ∧
    (∃ r s t, Inv r ∧ step r = .next s ∧ step s = .next t ∧ (s.busState = .t1 ∧ s.curOp = some (.memr 0xFFFFF false (.data .es))) ∧
      t.busState = .t2) ∧
    (∃ r s t, Inv r ∧ step r = .next s ∧ step s = .next t ∧ (s.busState = .t1 ∧ s.curOp = some (.memr 0xFFFFF false (.data .es))) ∧
      t.busState = .inReset) ∧
    (∃ s t, Inv s ∧ step s = .next t ∧ s.busState ≠ .t1 ∧ t.busState = .inReset) := by
  refine ⟨reachMin (s := ackIn .min .t4 .first) (by decide) (by decide),
    reachTwo (r := { free .min with program := [.memRead 0xFFFFF .byte .es] }) (by decide) (by decide),
    reachTwo (r := { free .min with program := [.memRead 0xFFFFF .byte .es], inputs := [rest, { rest with reset := true }] })
      (by decide) (by decide), ?_⟩
  obtain ⟨t, ht, hp⟩ := exists_next (o := step { free .min with inputs := [{ rest with reset := true }] })
    (p := fun t => decide (t.busState = .inReset)) (by decide)
  exact ⟨_, t, inv_of (by decide), ht, by decide, of_decide_eq_true hp⟩

theorem witness_MemoryOrIo :
    (∃ s t m, Inv s ∧ step s = .next t ∧ minOf t.pins = some m ∧ inCycle t.busState = true ∧ curKind t = some .fetch) ∧
    (∃ s t m, Inv s ∧ step s = .next t ∧ minOf t.pins = some m ∧ inCycle t.busState = true ∧ curKind t = some .ioWrite) ∧
    (∃ s t m, Inv s ∧ step s = .next t ∧ minOf t.pins = some m ∧ t.busState = .holdAck) :=
  ⟨reachMin (s := State.reset) (by decide) (by decide), reachMin (s := during .min .t1 (.iow 0 true 7)) (by decide) (by decide),
    reachMin (s := { free .min with now := { rest with hold := true } }) (by decide) (by decide)⟩

theorem witness_TransceiverControl :
    (∃ s t m, Inv s ∧ step s = .next t ∧ minOf t.pins = some m ∧ t.busState = .t4 ∧ curKind t = some .memWrite) ∧
    (∃ s t m, Inv s ∧ step s = .next t ∧ minOf t.pins = some m ∧ t.busState = .holdAck) :=
  ⟨reachMin (s := during .min .t3 (.memw 0 false .ds 7)) (by decide) (by decide),
    reachMin (s := { free .min with now := { rest with hold := true } }) (by decide) (by decide)⟩

/-- A step; and for each illegal pattern a T-state that shows it. -/
theorem witness_PinsLegal :
    (∃ s t, Inv s ∧ step s = .next t ∧ dataPhase t.busState = true) ∧ (∃ s t, Inv s ∧ step s = .next t ∧ t.busState = .idle) ∧
    (∃ s t, Inv s ∧ step s = .next t ∧ t.busState = .t1 ∧ curKind t = some .ioWrite) ∧
    ([showsBoth, showsAgainst, showsS6, showsNoLane, showsHigh (.ior 0 true), showsHigh (.iow 0 true 7)].all fun s => decide
      (s.now.mnmx = s.mode.strap ∧ hazard s = none ∧ ownsBus s.busState = true)) = true ∧
    twoStrobesLow showsBoth.pins = true ∧
    (twoStrobesLow showsAgainst.pins = false ∧ strobeAgainst showsAgainst.pins = true) ∧
    (minctlLegal showsS6.pins = true ∧ dataPhase showsS6.busState = true ∧ s6Low showsS6.pins = false) ∧
    ([Instr.ior 0 true, .iow 0 true 7].all fun i => minctlLegal (showsHigh i).pins && decide ((showsHigh i).busState = .t1 ∧
      (curKind (showsHigh i) = some .ioRead ∨ curKind (showsHigh i) = some .ioWrite) ∧ (showsHigh i).pins.a = some 1)) = true ∧
    (minctlLegal showsNoLane.pins = true ∧ showsNoLane.busState = .t1 ∧ curKind showsNoLane = some .ioRead ∧
      showsNoLane.pins.a = some 0 ∧ showsNoLane.pins.bheN = some true ∧ showsNoLane.pins.ad = some 0x0061) :=
  ⟨reach (s := during .min .t1 (.ior 0 true)) (by decide) (by decide), reach (s := free .min) (by decide) (by decide),
    reach (s := { free .max with program := [.ioWrite 0xFFFF .word 7] }) (by decide) (by decide),
    by decide, by decide, by decide, by decide, by decide, by decide⟩

theorem witness_HoldAckFloats :
    (∃ s t m, Inv s ∧ step s = .next t ∧ minOf t.pins = some m ∧ t.busState = .holdAck) ∧
    (∃ s t m, Inv s ∧ step s = .next t ∧ maxOf t.pins = some m ∧ t.busState = .holdAck) :=
  ⟨reachMin (s := { free .min with now := { rest with hold := true } }) (by decide) (by decide),
    reachMax (s := { free .max with rqPending0 := true }) (by decide) (by decide)⟩

theorem witness_ResetPins :
    (∃ s t m, Inv s ∧ step s = .next t ∧ minOf t.pins = some m ∧ t.busState = .inReset) ∧
    (∃ s t m, Inv s ∧ step s = .next t ∧ maxOf t.pins = some m ∧ t.busState = .inReset) :=
  ⟨reachMin (s := { during .min .t2 (.memw 0 false .ds 7) with inputs := [{ rest with reset := true }] }) (by decide) (by decide),
    reachMax (s := { away .max (some .line1) with inputs := [{ Frame.quiet .max with reset := true }] }) (by decide) (by decide)⟩

/-- T1, a T3 that READY ends, a T3 that it does not, T4 before a T1, Idle before an Idle. -/
theorem witness_StatusCode :
    (∃ s t m, Inv s ∧ step s = .next t ∧ maxOf t.pins = some m ∧ curKind t = some .ack ∧ t.busState = .t1) ∧
    (∃ s t m, Inv s ∧ step s = .next t ∧ maxOf t.pins = some m ∧ curKind t = some .halt ∧ t.busState = .t3 ∧ t.now.ready = true) ∧
    (∃ s t m, Inv s ∧ step s = .next t ∧ maxOf t.pins = some m ∧ curKind t = some .fetch ∧ t.busState = .t3 ∧ t.now.ready = false) ∧
    (∃ r s t, Inv r ∧ step r = .next s ∧ step s = .next t ∧ ((maxOf s.pins).isSome = true ∧ s.busState = .t4) ∧ t.busState = .t1) ∧
    (∃ r s t, Inv r ∧ step r = .next s ∧ step s = .next t ∧ ((maxOf s.pins).isSome = true ∧ s.busState = .idle) ∧ t.busState = .idle) :=
  ⟨reachMax (s := ackIn .max .t4 .first) (by decide) (by decide), reachMax (s := during .max .t2 .sHalt) (by decide) (by decide),
    reachMax (s := { during .max .t2 (.sFetch 0xFFFF0 false) with inputs := [{ Frame.quiet .max with ready := false }] })
      (by decide) (by decide),
    reachTwo (r := { during .max .t3 (.sMemr 0x02000 true .ds) with program := [.memWrite 0x02000 .byte .ds 1] }) (by decide) (by decide),
    reachTwo (r := free .max) (by decide) (by decide)⟩

/-- No action; the queue emptied; a byte taken from a queue that holds one, and from an empty one; the end of a fetch; the
end of InterruptEntry and of the return on a free bus; and each queue action in the cycles before those. -/
theorem witness_QueueStatus :
    (∃ s t m, Inv s ∧ step s = .next t ∧ maxOf t.pins = some m ∧ t.busState ≠ .inReset ∧ t.qsShown = .emptied) ∧
    ([(QAct.emptied, [0xEA#8]), (.first, [0xEA]), (.next, [0xEA]), (.next, [])].all fun p =>
      let s := { free .max with queue := p.2, inputs := [{ Frame.quiet .max with qAct := p.1 }] }
      invB s && decide (s.entrySteps.head? ≠ some .entered ∧ s.entrySteps.head? ≠ some .returned ∧ (nextFrame s).qAct = p.1) &&
        nextIs (step s) fun t => decide (t.busState ≠ .inReset)) = true ∧
    (∃ s : State, ∃ t, Inv s ∧ step s = .next t ∧ t.busState = .t4 ∧ curKind s = some .fetch) ∧
    ([{ free .max with entrySteps := [.entered] }, { free .max with entrySteps := [.returned] }].all fun s =>
      invB s && freeB s && nextIs (step s) fun t => (maxOf t.pins).isSome && decide (t.busState ≠ .inReset ∧
        t.entrySteps.length < s.entrySteps.length)) = true ∧
    ([(BusState.t1, QAct.first), (.t2, .noop), (.t3, .emptied), (.tw, .next)].all fun p =>
      [EntryStep.entered, .returned].all fun e =>
        let s := { during .max p.1 (.sMemr 0 true .ss) with
          entrySteps := [e], queue := [0xEA], inputs := [{ Frame.quiet .max with qAct := p.2 }] }
        invB s && nextIs (step s) fun t => (maxOf t.pins).isSome && decide (t.busState ≠ .inReset ∧ (nextFrame s).qAct = p.2 ∧
          ¬t.entrySteps.length < s.entrySteps.length)) = true := by
  refine ⟨reachMax (s := { free .max with qAct := .emptied }) (by decide) (by decide), by decide, ?_, by decide, by decide⟩
  obtain ⟨t, ht, hp⟩ := exists_next (o := step (during .max .t3 (.sFetch 0xFFFF0 false))) (p := fun t => decide (t.busState = .t4))
    (by decide)
  exact ⟨_, t, inv_of (by decide), ht, of_decide_eq_true hp, rfl⟩

theorem witness_BusControllerAgrees : (∃ (e : SEnc) (k : Kind) (s : State) (i : Instr) (m : MinPins), e.codes.Nodup ∧ s.curOp = some i ∧
    kindOf i = some k ∧ s.busState ≠ .idle ∧ s.busState ≠ .holdAck ∧ s.busState ≠ .inReset ∧ minOf (pinsOf false s) = some m) ∧
    ∃ (s : State) (m : MinPins), s.busState = .idle ∧ minOf (pinsOf false s) = some m :=
  ⟨⟨SEnc.default, .memWrite, during .min .t2 (.memw 0 false .ds 7), _, _, by decide, rfl, rfl, by decide, by decide, by decide, rfl⟩,
    free .min, _, rfl, rfl⟩

/-! ### Hand-over -/

theorem witness_HoldIsServed :
    (∃ s : State, Inv s ∧ Undisturbed s ∧ s.mode = .min ∧ s.busState = .t4 ∧ s.ackPhase = .none ∧ s.now.hold = true) ∧
    (∃ s t, Inv s ∧ step s = .next t ∧ t.mode = .min ∧ t.busState = .holdAck ∧ t.now.hold = true) ∧
    (∃ s : State, Inv s ∧ Undisturbed s ∧ s.mode = .min ∧ s.busState = .holdAck ∧ s.now.hold = false) ∧
    (∃ s : State, Inv s ∧ Undisturbed s ∧ s.mode = .min ∧ s.busState = .holdAck ∧ s.now.hold = true) :=
  ⟨⟨{ during .min .t4 (.ior 0 true) with now := { rest with hold := true } }, inv_of (by decide), und_of (by decide), rfl, rfl, rfl, rfl⟩,
    reach (s := { free .min with now := { rest with hold := true } }) (by decide) (by decide),
    ⟨away .min none, inv_of (by decide), und_of (by decide), rfl, rfl, rfl⟩,
    { away .min none with now := { rest with hold := true } }, inv_of (by decide), und_of (by decide), rfl, rfl, rfl⟩

theorem witness_Line0BeforeLine1 :
    (∃ s : State, Inv s ∧ Undisturbed s ∧ s.mode = .max ∧ s.busState = .idle ∧ s.ackPhase = .none ∧ s.lockActive = false ∧
      s.rqPending0 = true ∧ s.rqPending1 = true) ∧
    (∃ s : State, Inv s ∧ Undisturbed s ∧ s.mode = .max ∧ s.busState = .holdAck ∧ s.granted = some .line0 ∧ s.rqPending1 = true ∧
      s.now.rel0 = false) :=
  ⟨⟨{ free .max with rqPending0 := true, rqPending1 := true }, inv_of (by decide), und_of (by decide), rfl, rfl, rfl, rfl, rfl, rfl⟩,
    { away .max (some .line0) with rqPending1 := true }, inv_of (by decide), und_of (by decide), rfl, rfl, rfl, rfl, rfl⟩

/-- A request of each line alone; HoldAck entered for each line; a release by each master, and none; and a T-state for each way a
pending bit goes: set in HoldAck and inside a cycle, kept through the other line's grant and release, cleared by its own grant. -/
theorem witness_RequestIsGranted :
    ([Line.line0, .line1].all fun l =>
      let s := { during .max .t4 (.sIor 0 true) with rqPending0 := decide (l = .line0), rqPending1 := decide (l = .line1) }
      invB s && undB s && decide (s.busState = .t4 ∧ s.ackPhase = .none ∧ s.lockActive = false)
        && nextIs (step s) fun t => (maxOf t.pins).isSome && decide (t.busState = .holdAck ∧ s.busState ≠ .holdAck)) = true ∧
    ([Line.line0, .line1].all fun l => [true, false].all fun r =>
      let s := { away .max (some l) with now := { Frame.quiet .max with rel0 := r, rel1 := r } }
      invB s && undB s && decide (s.mode = .max ∧ s.busState = .holdAck ∧ s.granted = some l ∧ s.now.rel0 = r ∧ s.now.rel1 = r)) = true ∧
    ([({ away .max (some .line0) with inputs := [{ Frame.quiet .max with rq0 := true, rq1 := true }] }, true, true),
      ({ during .max .t2 (.sIor 0 true) with inputs := [{ Frame.quiet .max with rq1 := true }] }, false, true),
      ({ away .max (some .line0) with rqPending1 := true, now := { Frame.quiet .max with rel0 := true } }, false, true),
      ({ away .max (some .line1) with rqPending0 := true }, true, false),
      ({ free .max with rqPending0 := true, rqPending1 := true }, false, true),
      ({ free .max with rqPending1 := true }, false, false)].all fun p =>
      invB p.1 && decide (p.1.mode = .max) && nextIs (step p.1) fun t =>
        decide (t.busState ≠ .inReset ∧ t.rqPending0 = p.2.1 ∧ t.rqPending1 = p.2.2)) = true :=
  ⟨by decide, by decide, by decide⟩

/-- LOCK# low, and Z; both requests held off; a TW, and a locked sequence that goes on; and each of the two requests. -/
theorem witness_LockHoldsOffGrants :
    (∃ s t m, Inv s ∧ step s = .next t ∧ maxOf t.pins = some m ∧ ownsBus t.busState = true ∧ t.lockActive = true) ∧
    (∃ s t m, Inv s ∧ step s = .next t ∧ maxOf t.pins = some m ∧ t.busState = .holdAck) ∧
    (∃ s : State, ∃ t, Inv s ∧ step s = .next t ∧ s.mode = .max ∧ s.lockActive = true ∧ s.rqPending0 = true ∧ s.rqPending1 = true ∧
      t.busState ≠ .inReset) ∧
    (∃ s t, Inv s ∧ step s = .next t ∧ t.mode = .max ∧ t.busState = .tw) ∧
    (∃ s : State, ∃ t, Inv s ∧ step s = .next t ∧ s.mode = .max ∧ ownsBus t.busState = true ∧ s.lockHeld = true ∧
      s.program.head? ≠ some .unlock) ∧
    ([Req.lock, .unlock].all fun q =>
      let s := { free .max with lockHeld := decide (q = .unlock), lockActive := decide (q = .unlock), program := [q] }
      freeB s && decide (s.mode = .max ∧ s.entrySteps = [])) = true := by
  refine ⟨reachMax (s := { free .max with inputs := [{ Frame.quiet .max with lock := true }] }) (by decide) (by decide),
    reachMax (s := { free .max with rqPending0 := true, inputs := [{ Frame.quiet .max with lock := true }] }) (by decide) (by decide), ?_,
    reach (s := { during .max .t3 (.sIor 0 true) with now := { Frame.quiet .max with ready := false } }) (by decide) (by decide), ?_,
    by decide⟩
  · obtain ⟨t, ht, hp⟩ := exists_next (o := step { free .max with rqPending0 := true, rqPending1 := true, lockActive := true })
      (p := fun t => decide (t.busState ≠ .inReset)) (by decide)
    exact ⟨_, t, inv_of (by decide), ht, rfl, rfl, rfl, rfl, of_decide_eq_true hp⟩
  · obtain ⟨t, ht, hp⟩ := exists_next (o := step { free .max with lockHeld := true, lockActive := true, program := [.fetch 0] })
      (p := fun t => ownsBus t.busState) (by decide)
    exact ⟨_, t, inv_of (by decide), ht, rfl, hp, rfl, by decide⟩

/-- In the T4 of the first cycle, with HOLD high. -/
theorem witness_NoGrantInsideAcknowledge : ∃ s : State, ∃ t, Inv s ∧ step s = .next t ∧ s.ackPhase ≠ .none ∧ s.now.hold = true ∧
    t.busState ≠ .inReset := by
  obtain ⟨t, ht, hp⟩ := exists_next (o := step { ackIn .min .t4 .first with now := { rest with hold := true } })
    (p := fun t => decide (t.busState ≠ .inReset)) (by decide)
  exact ⟨_, t, inv_of (by decide), ht, by decide, rfl, of_decide_eq_true hp⟩

/-! ### Interrupts -/

/-- An edge, and the request taken. -/
theorem witness_NmiIsRemembered :
    (∃ s : State, ∃ t, Inv s ∧ step s = .next t ∧ s.busState ≠ .inReset ∧ s.now.nmi = false ∧ t.busState ≠ .inReset ∧ t.now.nmi = true) ∧
    (∃ s : State, ∃ t, Inv s ∧ step s = .next t ∧ s.busState ≠ .inReset ∧ s.nmiPending = true ∧ t.busState ≠ .inReset ∧
      t.nmiPending = false) := by
  constructor
  · obtain ⟨t, ht, hp⟩ := exists_next (o := step { free .min with inputs := [{ rest with nmi := true }] })
      (p := fun t => decide (t.busState ≠ .inReset ∧ t.now.nmi = true)) (by decide)
    exact ⟨_, t, inv_of (by decide), ht, by decide, rfl, of_decide_eq_true hp⟩
  · obtain ⟨t, ht, hp⟩ := exists_next (o := step { free .min with nmiPending := true, now := { rest with instrEnd := true } })
      (p := fun t => decide (t.busState ≠ .inReset ∧ t.nmiPending = false)) (by decide)
    exact ⟨_, t, inv_of (by decide), ht, by decide, rfl, of_decide_eq_true hp⟩

/-- At the end of an instruction inside a cycle; after a hold in which one ended; in a TEST# wait; in HoldAck; and the end of an
acknowledge sequence. -/
theorem witness_NmiIsTaken :
    ([{ during .min .t3 (.ior 0 true) with nmiPending := true, now := { rest with instrEnd := true } },
      { free .min with nmiPending := true, endPending := true },
      { free .min with nmiPending := true, testWait := true }].all fun s =>
      [EntryKind.core, .sequence].all fun e =>
      let s := { s with params := { s.params with entry := e } }
      invB s && decide (s.busState ≠ .inReset ∧ s.nmiPending = true ∧ (s.now.instrEnd = true ∨ s.endPending = true ∨
        (s.testWait = true ∧ s.params.waitInterruptible = true ∧ s.now.testN = true)) ∧ s.busState ≠ .holdAck ∧
        s.ackPhase = .none ∧ s.ackPending = false ∧ s.entrySteps = [] ∧ s.restart = false) &&
        nextIs (step s) fun t => decide (t.busState ≠ .inReset ∧ t.nmiPending = false ∧ t.raised ≠ s.raised)) = true ∧
    (∃ s : State, ∃ t, Inv s ∧ step s = .next t ∧ t.busState ≠ .inReset ∧ s.busState = .holdAck ∧ s.nmiPending = true ∧
      s.now.instrEnd = true) ∧
    (let s := ackIn .min .t3 .second
    invB s && decide (s.busState ≠ .inReset) && nextIs (step s) fun t => decide (t.busState ≠ .inReset ∧ t.raised ≠ s.raised)) = true := by
  refine ⟨by decide, ?_, by decide⟩
  obtain ⟨t, ht, hp⟩ := exists_next (o := step { away .min none with nmiPending := true, now := { rest with instrEnd := true } })
    (p := fun t => decide (t.busState ≠ .inReset)) (by decide)
  exact ⟨_, t, inv_of (by decide), ht, of_decide_eq_true hp, rfl, rfl, rfl⟩

/-- In a TEST# wait, at the end of an instruction inside a cycle, after a hold, with requests of the core waiting and without; on a
free bus, for each kind of end; accepted inside a cycle, into a hold and before the second cycle of a split access; and, accepted
before, kept inside a cycle and in HoldAck, and acknowledged on a free bus, whatever waits. -/
theorem witness_IntrIsServed :
    ([{ free .max with testWait := true, fr := ifSet, now := { Frame.quiet .max with intr := true } },
      { during .max .t2 (.sIor 0 true) with fr := ifSet, now := { Frame.quiet .max with intr := true, instrEnd := true } },
      { free .max with endPending := true, fr := ifSet, now := { Frame.quiet .max with intr := true } }].all fun s =>
      [[], [Req.word .maxs 0x8FFFF004], [.fetch 0, .word .maxs 0]].all fun p =>
      let s := { s with program := p }
      invB s && noAckAskedB s && decide (s.busState ≠ .inReset ∧ s.ackPending = false ∧ s.ackPhase = .none) &&
        nextIs (step s) fun t => decide (t.busState ≠ .inReset ∧ (t.ackPending = true ∨ t.ackPhase ≠ .none))) = true ∧
    (let s := { during .max .t3 (.sMemr 0xFFFFF false .ds) with
      fr := ifSet, now := { Frame.quiet .max with intr := true, instrEnd := true }, program := [.fetch 0]
      pendingOps := [⟨.sMemr 0 true .ds, .highByte⟩] }
    invB s && decide (s.busState ≠ .inReset ∧ s.ackPending = false) &&
      nextIs (step s) fun t => decide (t.busState ≠ .inReset ∧ t.ackPending = true)) = true ∧
    ([{ during .min .t4 (.ior 0 true) with fr := ifSet, now := { rest with intr := true, instrEnd := true } },
      { free .min with endPending := true, fr := ifSet, now := { rest with intr := true } },
      { free .min with testWait := true, fr := ifSet, now := { rest with intr := true } }].all fun s =>
      invB s && undB s && (handOver s).isNone && decide ((s.busState = .t4 ∨ s.busState = .idle) ∧ s.ackPhase = .none ∧
        s.ackPending = false ∧ s.entrySteps = [] ∧ s.restart = false ∧ s.pendingOps = [] ∧ s.nmiPending = false ∧
        (s.now.instrEnd = true ∨ s.endPending = true ∨ (s.testWait = true ∧ s.params.waitInterruptible = true ∧ s.now.testN = true)) ∧
        s.now.intr = true ∧ ifOf s.fr = true)) = true ∧
    ([during .min .t2 (.ior 0 true), { free .min with now := { rest with hold := true } },
      { during .min .t4 (.memr 1 false (.data .ds)) with pendingOps := [⟨.memr 2 true (.data .ds), .highByte⟩] }].all fun s =>
      let s := { s with fr := ifSet, now := { s.now with intr := true, instrEnd := true } }
      invB s && decide (s.busState ≠ .inReset ∧ s.busState ≠ .holdAck ∧ s.ackPhase = .none ∧ s.ackPending = false ∧ s.entrySteps = [] ∧
        s.restart = false ∧ s.nmiPending = false ∧ s.now.instrEnd = true ∧ s.now.intr = true ∧ ifOf s.fr = true) &&
        (inCycle s.busState || (handOver s).isSome || !s.pendingOps.isEmpty) &&
        nextIs (step s) fun t => decide (t.busState ≠ .inReset)) = true ∧
    ([during .min .t3 (.ior 0 true), away .min none].all fun s =>
      let s := { s with ackPending := true }
      invB s && decide (s.busState ≠ .inReset) && nextIs (step s) fun t => decide (t.busState ≠ .inReset)) = true ∧
    ([free .min, { free .max with program := [.fetch 0], testWait := true }, { during .min .t4 (.ior 0 true) with nmiPending := true }].all
      fun s =>
      let s := { s with ackPending := true }
      invB s && undB s && (handOver s).isNone && decide ((s.busState = .t4 ∨ s.busState = .idle) ∧ s.ackPhase = .none ∧
        s.pendingOps = [] ∧ s.restart = false)) = true :=
  ⟨by decide, by decide, by decide, by decide, by decide, by decide⟩

/-- No gap: seven frames, the device answers in the sixth. -/
theorem witness_AcknowledgeSequence : ∃ (g : Nat) (s : State) (v : Byte), Inv s ∧ QuietFrame s.mode s.now ∧ s.busState = .t1 ∧
    curKind s = some .ack ∧ s.ackPhase = .first ∧ s.params.ackGap = g ∧
    (∀ j < g + 7, ∃ f, s.inputs[j]? = some f ∧ f.mnmx = s.mode.strap ∧ f.reset = false ∧ f.ready = true ∧ f.devHi = none ∧
      f.ext = [] ∧ f.devLo = if j = g + 5 then some v else none) := by
  refine ⟨0, { ackIn .min .t1 .first with inputs := [rest, rest, rest, rest, rest, { rest with devLo := some 0x21 }, rest] }, 0x21,
    inv_of (by decide), quiet_rest .min true, rfl, rfl, rfl, rfl, fun j hj => ?_⟩
  have : j = 0 ∨ j = 1 ∨ j = 2 ∨ j = 3 ∨ j = 4 ∨ j = 5 ∨ j = 6 := by omega
  rcases this with rfl | rfl | rfl | rfl | rfl | rfl | rfl <;> exact ⟨_, rfl, rfl, rfl, rfl, rfl, rfl, rfl⟩

/-- Each step of the entry and of the return, with a word read last and a wait to go back to; and the return request, with and
without the model's own InterruptEntry. -/
theorem witness_InterruptEntry : ([EntryStep.pushFr, .pushCs, .pushIp, .readIp 0xFF, .readCs 0, .entered, .popIp, .popCs, .popFr,
      .returned].all fun e =>
    let s := { free .min with entrySteps := [e], result := .word 0x1234, waitStack := [true] }
    freeB s && plainFrame (nextFrame s)) = true ∧
    ([EntryKind.core, .sequence].all fun e =>
      let s := { free .min with params := { Params.default with entry := e }, program := [.iret], waitStack := [true] }
      freeB s && decide (s.entrySteps = [] ∧ s.params.entry = e)) = true := ⟨by decide, by decide⟩

/-- The request; TEST# = 0, with a request that waits and without one; and TEST# = 1. -/
theorem witness_TestWait :
    freeB { free .min with program := [.testWait] } = true ∧
    ([[], [Req.fetch 0]].all fun p =>
      let s := { free .min with testWait := true, program := p, now := { rest with testN := false } }
      invB s && decide (s.busState ≠ .inReset ∧ s.testWait = true ∧ s.entrySteps = [] ∧ s.now.testN = false ∧
        s.program.head? ≠ some .testWait ∧ s.program.head? ≠ some .iret) && nextIs (step s) fun t => decide (t.busState ≠ .inReset)) = true ∧
    (∃ s : State, ∃ t, Inv s ∧ step s = .next t ∧ t.busState ≠ .inReset ∧ s.busState ≠ .inReset ∧ s.testWait = true ∧ s.entrySteps = [] ∧
      s.now.testN = true ∧ t.raised = s.raised ∧ s.ackPhase = .none ∧ s.ackPending = false ∧ t.ackPhase = .none ∧ s.pendingOps = [] ∧
      s.restart = false ∧ inCycle s.busState = false) := by
  refine ⟨by decide, by decide, ?_⟩
  obtain ⟨t, ht, hp⟩ := exists_next (o := step { free .min with testWait := true, program := [.fetch 0] })
    (p := fun t => decide (t.busState ≠ .inReset ∧ t.raised = [] ∧ t.ackPhase = .none)) (by decide)
  obtain ⟨h1, h2, h3⟩ := of_decide_eq_true hp
  exact ⟨_, t, inv_of (by decide), ht, h1, by decide, rfl, rfl, rfl, h2, rfl, rfl, h3, rfl, rfl, rfl⟩

/-! ### RESET, requests, memory, the invariant -/

/-- In the middle of a memory write, from HoldAck, and a second clock of RESET. -/
theorem witness_ResetState :
    ([during .min .t2 (.memw 0x00500 false .ds 0x1234), away .min none, resetting].all fun s =>
      let s := { s with inputs := [{ rest with reset := true }] }
      decide (s.now.mnmx = s.mode.strap ∧ violation s = none ∧ (nextFrame s).reset = true)) = true ∧
    ∃ (s : State) (a : Addr), Memory.wf s.mem = true ∧ ¬(inCycle s.busState = true ∧ curKind s = some .memWrite) ∧
      ¬(s.busState = .holdAck ∧ ∃ m v, .writes m a v ∈ s.now.ext) :=
  ⟨by decide, { away .min none with mem := [(5, 7)] }, 5, by decide, by decide, by simp [away, free, Frame.quiet]⟩

/-- Three clocks, and four. -/
theorem witness_ResetWidth (n : Nat) (h : n = 3 ∨ n = 4) : ∃ s : State, Inv s ∧ s.busState ≠ .inReset ∧ s.now.mnmx = s.mode.strap ∧
    hazard s = none ∧ 0 < n ∧
    (∀ j < n, ∃ f, s.inputs[j]? = some f ∧ f.mnmx = s.mode.strap ∧ f.reset = true ∧ f.devLo = none ∧ f.devHi = none ∧ f.ext = []) ∧
    (∀ f, s.inputs[n]? = some f → f.reset = false) ∧ (s.inputs[n]?).isSome = true := by
  refine ⟨{ free .min with inputs := List.replicate n { rest with reset := true } ++ [rest] }, ?_⟩
  rcases h with rfl | rfl
  · refine ⟨inv_of (by decide), by decide, rfl, by decide, by decide, fun j hj => ?_, fun f hf => by cases hf; rfl, rfl⟩
    have : j = 0 ∨ j = 1 ∨ j = 2 := by omega
    rcases this with rfl | rfl | rfl <;> exact ⟨_, rfl, rfl, rfl, rfl, rfl, rfl⟩
  · refine ⟨inv_of (by decide), by decide, rfl, by decide, by decide, fun j hj => ?_, fun f hf => by cases hf; rfl, rfl⟩
    have : j = 0 ∨ j = 1 ∨ j = 2 ∨ j = 3 := by omega
    rcases this with rfl | rfl | rfl | rfl <;> exact ⟨_, rfl, rfl, rfl, rfl, rfl, rfl⟩

/-- The restart fetch; and a fetch that the core asks for at an even address, as a word and as a byte, and at an odd one, with
room in the queue and without. -/
theorem witness_RestartFetch :
    (∃ s : State, Inv s ∧ Undisturbed s ∧ s.busState = .idle ∧ s.restart = true ∧ handOver s = none ∧ headIsIdle s = false ∧
      s.queue = [] ∧ 2 ≤ s.params.queueDepth ∧ fetchWidth s.params.fetchLanes 0xFFFF0 = .word) ∧
    (∃ s : State, ∃ t, Inv s ∧ step s = .next t ∧ s.restart = true ∧ inCycle t.busState = true) ∧
    ([(0xFFFFE#20, [], Lanes.both), (0xFFFFE, [0xFFFFE], .low), (0xFFFFF, [], .high)].all fun p => [0, 6].all fun d =>
      let s := { free .min with
        program := [.fetch p.1], params := { Params.default with queueDepth := d, fetchLanes := { usual := .word, except := p.2.1 } } }
      freeB s && decide (s.entrySteps = [] ∧ p.2.2 = (if p.1.getLsbD 0 then .high
          else if fetchWidth s.params.fetchLanes p.1 = .word then .both else .low) ∧
        (d = 6 → s.queue.length + laneCount p.2.2 ≤ s.params.queueDepth) ∧
        (d = 0 → s.params.queueDepth < s.queue.length + laneCount p.2.2))) = true := by
  refine ⟨⟨State.reset, inv_of (by decide), und_of (by decide), rfl, rfl, rfl, rfl, rfl, by decide, rfl⟩, ?_, by decide⟩
  obtain ⟨t, ht, hp⟩ := exists_next (o := step State.reset) (p := fun t => inCycle t.busState) (by decide)
  exact ⟨_, t, inv_of (by decide), ht, rfl, hp⟩

theorem witness_ModeIsFixed : (∃ s : State, s.now.mnmx ≠ s.mode.strap) ∧ ∃ s t, Inv s ∧ step s = .next t ∧ t.busState = .t1 :=
  ⟨⟨{ free .min with now := Frame.quiet .max }, by decide⟩, reach (s := State.reset) (by decide) (by decide)⟩

/-- A word at the last odd address, a word at an even one, a byte at each; read and write; and the second cycle of a split one. -/
theorem witness_MemoryAccessSplits : ([(0xFFFFF#20, Width.word), (0xFFFFE, .word), (0xFFFFF, .byte), (0, .byte)].all fun p =>
    [Req.memRead p.1 p.2 .ds, .memWrite p.1 p.2 .ss 0xABCD].all fun q =>
      let s := { free .min with program := [q] }
      freeB s && s.entrySteps.isEmpty && decide (s.program = [q])) = true ∧
    ∃ (s : State) (it : Item) (r : List Item) (k : Kind), Undisturbed s ∧ s.busState = .t4 ∧ s.ackPhase = .none ∧ handOver s = none ∧
      s.pendingOps = it :: r ∧ kindOf it.instr = some k ∧ k ≠ .ack ∧ (it.instr.format = .maxs → s.mode = .max) ∧
      (k.transfers = true → lanesOfInstr it.instr ≠ .none) ∧ s.program ≠ [] :=
  ⟨by decide, { during .max .t4 (.sIor 0xFFFF false) with pendingOps := [⟨.sIor 0 true, .highByte⟩], program := [.fetch 0] }, _, _, .ioRead,
    und_of (by decide), rfl, rfl, rfl, rfl, rfl, by decide, fun _ => rfl, by decide, by decide⟩

/-- The same with ports. -/
theorem witness_PortAccessSplits : ([(0xFFFF#16, Width.word), (0xFFFE, .word), (0xFFFF, .byte), (0, .byte)].all fun p =>
    [Req.ioRead p.1 p.2, .ioWrite p.1 p.2 0xABCD].all fun q =>
      let s := { free .max with program := [q] }
      freeB s && s.entrySteps.isEmpty && decide (s.program = [q])) = true := by decide

/-- A write that ends; and other writes of the master that has the bus, the last of them at the last address, which the end of the
T-state follows, or RESET. -/
theorem witness_MemoryChangesOnlyByWrites :
    (∃ s : State, ∃ t, Inv s ∧ step s = .next t ∧ readMem t 0xFFFFF ≠ readMem s 0xFFFFF ∧ s.busState = .t3) ∧
    ([rest, { rest with reset := true }].all fun f =>
      let s := { away .min none with
        now := { rest with hold := true, ext := [.writes .hold 0xFFFFF 3, .writes .hold 0xFFFFF 7, .writes .hold 0 9] }, inputs := [f] }
      invB s && nextIs (step s) fun t => decide (readMem t 0xFFFFF ≠ readMem s 0xFFFFF)) = true ∧
    ∃ l₁ l₂, [Ext.writes .hold 0xFFFFF 3, .writes .hold 0xFFFFF 7, .writes .hold 0 9] = l₁ ++ .writes .hold 0xFFFFF 7 :: l₂ ∧
      ∀ n w, Ext.writes n 0xFFFFF w ∉ l₂ := by
  refine ⟨?_, by decide, [.writes .hold 0xFFFFF 3], [.writes .hold 0 9], rfl, by simp⟩
  obtain ⟨t, ht, hp⟩ := exists_next (o := step (during .min .t3 (.memw 0xFFFFF false .ds 0xABCD)))
    (p := fun t => decide (readMem t 0xFFFFF ≠ 0)) (by decide)
  exact ⟨_, t, inv_of (by decide), ht, of_decide_eq_true hp, rfl⟩

/-- A T-state in which an instruction ends with no request to serve, and the core writes one register twice and no other; a
step of InterruptEntry that does not write DS or FR; a T-state at whose end the NMI is raised on a free bus, in T2, and into HoldAck; and
one between the two cycles of a split access. -/
theorem witness_RegistersKept :
    (∃ s : State, ∃ t, Inv s ∧ step s = .next t ∧ s.entrySteps = [] ∧ s.now.instrEnd = true ∧
      t.raised = s.raised ∧ t.busState = .t4 ∧ (∀ v, (Reg.ds, v) ∉ (nextFrame s).regWrites) ∧
      ∃ l₁ l₂, (nextFrame s).regWrites = l₁ ++ (.sp, 7) :: l₂ ∧ ∀ w, (Reg.sp, w) ∉ l₂) ∧
    ([EntryStep.pushFr, .readCs 2, .popCs, .entered].all fun e =>
      let s := { free .min with entrySteps := [e], result := .word 0x1234 }
      invB s && freeB s && decide ((nextFrame s).regWrites = [] ∧ Reg.ds ∉ e.writes ∧ Reg.fr ∉ e.writes) &&
        nextIs (step s) fun t => decide (t.busState ≠ .inReset)) = true ∧
    ([free .min, during .min .t2 (.ior 0x60 true), { free .min with now := { rest with hold := true } }].all fun s =>
      let s := { s with nmiPending := true, now := { s.now with instrEnd := true } }
      invB s && decide ((nextFrame s).regWrites = [] ∧ s.entrySteps = []) &&
        nextIs (step s) fun t => decide (t.busState ≠ .inReset ∧ t.raised ≠ s.raised)) = true ∧
    (let s := { during .min .t4 (.memr 1 false (.data .ds)) with pendingOps := [⟨.memr 2 true (.data .ds), .highByte⟩] }
     invB s && decide ((nextFrame s).regWrites = []) && nextIs (step s) fun t => decide (t.busState = .t1)) = true := by
  refine ⟨?_, by decide, by decide, by decide⟩
  obtain ⟨t, ht, hp⟩ := exists_next (o := step { during .min .t3 (.memw 0xFFFFF false .ds 0xABCD) with
      now := { rest with instrEnd := true }, inputs := [{ rest with regWrites := [(.sp, 3), (.sp, 7)] }] })
    (p := fun t => decide (t.raised = [] ∧ t.busState = .t4)) (by decide)
  obtain ⟨h1, h2⟩ := of_decide_eq_true hp
  exact ⟨_, t, inv_of (by decide), ht, rfl, rfl, h1, h2, by simp [nextFrame], [(.sp, 3)], [], rfl, by simp⟩

/-- Each place where a device, or another master, is in the way. -/
theorem witness_ContentionFaults :
    ([during .min .t1 (.ior 0x60 true), free .min, resetting, during .min .t2 (.iow 0x60 true 7), during .min .t3 (.memw 0 false .ds 7),
      ackIn .min .t3 .first, ackIn .min .t4 .first, during .max .t2 .sHalt, during .max .t3 .sHalt, during .max .tw .sHalt,
      during .max .t4 .sHalt].all fun s =>
      let s := { s with now := { Frame.quiet s.mode with devHi := some 1 } }
      decide (s.now.mnmx = s.mode.strap ∧ s.now.devHi.isSome = true ∧ (s.busState = .t1 ∨ s.busState = .idle ∨ s.busState = .inReset ∨
        (dataPhase s.busState = true ∧ ((curKind s).any fun k => !k.reads) = true ∧ (curKind s = some .ack →
          ¬(s.ackPhase = .second ∨ (s.busState = .t4 ∧ s.ackPhase = .none))))))) = true ∧
    (∃ s : State, dataPhase s.busState = true ∧ curKind s = some .memRead ∧ s.now.devHi.isSome = true ∧ hasHigh s.curLanes = false) ∧
    (∃ s : State, dataPhase s.busState = true ∧ curKind s = some .ioRead ∧ s.now.devLo.isSome = true ∧ hasLow s.curLanes = false) ∧
    ([(true, []), (false, [Ext.drives .hold]), (true, [.writes .hold 0 7])].all fun p =>
      let s := { away .min none with now := { rest with hold := p.1, ext := p.2, devLo := some 1 } }
      decide (s.now.mnmx = s.mode.strap ∧ s.busState = .holdAck ∧ s.now.devLo.isSome = true ∧
        (s.now.ext = [] ∨ released s = true ∨ s.now.ext = [.writes .hold 0 7]))) = true ∧
    ([({ free .min with now := { rest with ext := [.drives .hold] } }, Master.hold),
      ({ away .min none with now := { rest with ext := [.drives .hold] } }, .hold),
      ({ away .min none with now := { rest with hold := true, ext := [.drives (.line .line0)] } }, .line .line0),
      ({ away .max (some .line1) with now := { Frame.quiet .max with ext := [.writes (.line .line0) 0 7] } }, .line .line0)].all fun p =>
      let s := p.1
      decide (s.now.mnmx = s.mode.strap ∧ s.now.ext.map Ext.master = [p.2] ∧ s.now.devLo = none ∧ s.now.devHi = none ∧
        (s.busState ≠ .holdAck ∨ released s = true ∨ (s.mode = .min ∧ p.2 ≠ .hold) ∨
          (s.mode = .max ∧ s.granted = some .line1 ∧ p.2 = .line .line0)))) = true :=
  ⟨by decide, ⟨{ during .min .t4 (.memr 0 true (.data .ds)) with now := { rest with devHi := some 1 } }, rfl, rfl, rfl, rfl⟩,
    ⟨{ during .min .t2 (.ior 0xFFFF false) with now := { rest with devLo := some 1 } }, rfl, rfl, rfl, rfl⟩, by decide, by decide⟩

/-- Each place where a device may drive, and HoldAck with the master that has the bus, with a device that answers it and without. -/
theorem witness_ContentionFaults_drivers :
    ([BusState.t2, .t3, .tw, .t4].all fun b =>
      [Instr.memr 0 true (.data .ds), .memr 1 false .fetch, .ior 0x61 false].all fun i =>
        let s := during .min b i
        let s := { s with now := { rest with
          devLo := if hasLow s.curLanes then some 0x12 else none, devHi := if hasHigh s.curLanes then some 0x34 else none } }
        invB s && decide (s.now.ext = [] ∧ (s.now.devLo.isSome = true ∨ s.now.devHi.isSome = true) ∧ dataPhase s.busState = true ∧
          s.now.mnmx = s.mode.strap ∧ (nextFrame s).reset = false ∧ inCycle s.busState = decide (b ≠ .t4) ∧ s.now.ready = true) &&
          (curKind s).any Kind.reads) = true ∧
    ([(BusState.t2, AckPhase.second), (.t3, .second), (.tw, .second), (.t4, .none)].all fun p =>
      let s := { ackIn .min p.1 p.2 with now := { rest with devLo := some 8 } }
      invB s && decide (s.now.ext = [] ∧ dataPhase s.busState = true ∧ curKind s = some .ack ∧ s.ackPhase = p.2)) = true ∧
    ([([], none), ([Ext.drives .hold], some 1#8), ([.writes .hold 0 7], none)].all fun p =>
      let s := { away .min none with now := { rest with hold := true, ext := p.1, devLo := p.2 } }
      invB s && decide (s.busState = .holdAck ∧ released s = false ∧ (s.now.ext.all fun e => busMaster s = some e.master) = true ∧
        s.now.mnmx = s.mode.strap ∧ (nextFrame s).reset = false)) = true := ⟨by decide, by decide, by decide⟩

theorem witness_StepKeepsInvariant : ∃ s t, Inv s ∧ step s = .next t ∧ t.busState = .t4 :=
  reach (s := during .min .t3 (.memw 0xFFFFF false .ds 0xABCD)) (by decide) (by decide)

end Sys2Proof.Tests
end

/-! The address/data bus (spec/40_address_data_bus.md): the order of the T-states (R120), the address phase (R122, R125,
R130), and where AD15..AD0 float (R124). -/

namespace Sys2Proof.Machine

/-! ## What the look at the interrupts leaves as it was -/

@[simp] theorem poll_sampleTest_mode (s : State) : (poll (sampleTest s)).mode = s.mode :=
  (congrArg State.mode (polled_poll s)).trans rfl

@[simp] theorem poll_sampleTest_busState (s : State) : (poll (sampleTest s)).busState = s.busState :=
  (congrArg State.busState (polled_poll s)).trans rfl

@[simp] theorem poll_sampleTest_curOp (s : State) : (poll (sampleTest s)).curOp = s.curOp :=
  (congrArg State.curOp (polled_poll s)).trans rfl

@[simp] theorem poll_sampleTest_curLanes (s : State) : (poll (sampleTest s)).curLanes = s.curLanes :=
  (congrArg State.curLanes (polled_poll s)).trans rfl

@[simp] theorem poll_sampleTest_ackPhase (s : State) : (poll (sampleTest s)).ackPhase = s.ackPhase :=
  (congrArg State.ackPhase (polled_poll s)).trans rfl

@[simp] theorem poll_sampleTest_now (s : State) : (poll (sampleTest s)).now = s.now :=
  (congrArg State.now (polled_poll s)).trans rfl

/-! ## The order of the T-states -/

/-- The operation of a bus cycle in progress, and its kind. -/
theorem Inv.cycle_op {s : State} (hi : Inv s) (hb : inCycle s.busState = true) :
    ∃ i k, s.curOp = some i ∧ kindOf i = some k := by
  obtain ⟨k, hk⟩ := Option.isSome_iff_exists.1 (hi.cycle hb)
  obtain ⟨i, hc, hk⟩ := Option.bind_eq_some_iff.1 hk
  exact ⟨i, k, hc, hk⟩

/-- Inside the cycle of `i` the step is one T-state of `i`. -/
theorem step_inCycle {s : State} {i : Instr} (hu : Undisturbed s) (hb : inCycle s.busState = true)
    (hc : s.curOp = some i) : step s = exec i (poll (sampleTest s)) := by
  rw [step_undisturbed hu, planActive_cycle (by simpa using hb) (by simpa using hc)]
  rfl

@[simp] theorem finishOf_curOp (k : Kind) (s : State) : (finishOf k s).curOp = s.curOp := by
  cases k <;> rfl

/-- With READY in T3 or TW every cycle comes to its T4; an acknowledge cycle because it is one of the two of a sequence. -/
theorem exec_ready {i : Instr} {k : Kind} {s : State} (hk : kindOf i = some k) (hm : i.format = .maxs → s.mode = .max)
    (hc : s.curOp = some i) (hb : s.busState = .t3 ∨ s.busState = .tw) (hr : s.now.ready = true)
    (hp : k = .ack → s.ackPhase = .first ∨ s.ackPhase = .second) :
    ∃ t, exec i s = .next t ∧ t.curOp = s.curOp ∧ t.busState = .t4 := by
  by_cases hka : k = .ack
  · subst hka
    rw [exec_ackEnd hk hm hc hb hr]
    rcases hp rfl with hp | hp
    · exact ⟨enter .t4 s, by simp [finishAck, hp], by simp⟩
    · exact ⟨enter .t4 (takeInterrupt (lowIn s) { s with ackType := lowIn s, ackPhase := .none }),
        by simp [finishAck, hp], by simp⟩
  · exact ⟨enter .t4 (finishOf k s), exec_end hk hka hm hc hb hr, by simp⟩

/-- From T3 and TW the next T-state is T4 if READY, and else TW. -/
theorem step_t3_or_tw {s : State} (hi : Inv s) (hu : Undisturbed s) (hb : s.busState = .t3 ∨ s.busState = .tw) :
    ∃ t, step s = .next t ∧ t.curOp = s.curOp ∧ t.busState = if s.now.ready then .t4 else .tw := by
  have hcyc : inCycle s.busState = true := by rcases hb with hb | hb <;> simp [hb, inCycle]
  obtain ⟨i, k, hc, hk⟩ := hi.cycle_op hcyc
  have hm : i.format = .maxs → (poll (sampleTest s)).mode = .max := by simpa using hi.wired i hc
  have hcv : (poll (sampleTest s)).curOp = some i := by simpa using hc
  have hbv : (poll (sampleTest s)).busState = .t3 ∨ (poll (sampleTest s)).busState = .tw := by simpa using hb
  have hrv : (poll (sampleTest s)).now.ready = s.now.ready := by simp
  rw [step_inCycle hu hcyc hc]
  cases hr : s.now.ready with
  | true =>
    have hp : k = .ack → s.ackPhase = .first ∨ s.ackPhase = .second := by
      rintro rfl
      exact hi.acked hcyc (by simp [curKind, hc, hk])
    simpa using exec_ready hk hm hcv hbv (hrv.trans hr) (by simpa using hp)
  | false => exact ⟨enter .tw (poll (sampleTest s)), exec_wait hk hm hcv hbv (hrv.trans hr), by simp⟩

/-- From T1 the next T-state is T2. -/
theorem step_t1 {s : State} (hi : Inv s) (hu : Undisturbed s) (hb : s.busState = .t1) :
    ∃ t, step s = .next t ∧ t.curOp = s.curOp ∧ t.busState = .t2 := by
  have hcyc : inCycle s.busState = true := by simp [hb, inCycle]
  obtain ⟨i, k, hc, hk⟩ := hi.cycle_op hcyc
  refine ⟨enter .t2 (latchAddress (poll (sampleTest s))), ?_, ?_, rfl⟩
  · rw [step_inCycle hu hcyc hc]
    exact exec_t1 hk (by simpa using hi.wired i hc) (by simpa using hc) (by simpa using hb)
      (by simpa using hi.laned k hcyc (by simp [curKind, hc, hk]))
  · rw [latchAddress_eq]
    simp

/-- From T2 the next T-state is T3. -/
theorem step_t2 {s : State} (hi : Inv s) (hu : Undisturbed s) (hb : s.busState = .t2) :
    ∃ t, step s = .next t ∧ t.curOp = s.curOp ∧ t.busState = .t3 := by
  have hcyc : inCycle s.busState = true := by simp [hb, inCycle]
  obtain ⟨i, k, hc, hk⟩ := hi.cycle_op hcyc
  refine ⟨enter .t3 (poll (sampleTest s)), ?_, by simp, rfl⟩
  rw [step_inCycle hu hcyc hc]
  exact exec_t2 hk (by simpa using hi.wired i hc) (by simpa using hc) (by simpa using hb)

/-- From T4 the next T-state is T1, Idle or HoldAck. -/
theorem Turn.of_t4 {s v t : State} (h : Turn s v t) (hb : s.busState = .t4) :
    t.busState = .t1 ∨ t.busState = .idle ∨ t.busState = .holdAck := by
  cases h with
  | t1 i k hb' | t2 i k hb' | wait i k hb' | fin i k hb' | ack1 i hb' | ack2 i hb' => simp [hb] at hb'
  | start | startAck | ackGo => exact .inl rfl
  | release | rest | ackGap | startIdle | startLane => exact .inr (.inl rfl)
  | hold | give => exact .inr (.inr rfl)

/-- Settles O6: inside a cycle by the T-state it is in, from T4 by the ways a T-state can turn into another. -/
theorem nextState : Obligations.NextState := by
  refine ⟨fun s hi hu hb => ?_, fun s t hi hu hb h => (step_turn hi h hu.noReset hu.active).2.of_t4 hb⟩
  cases hs : s.busState with
  | t1 =>
    obtain ⟨t, h, hc, ht⟩ := step_t1 hi hu hs
    exact ⟨t, h, hc, fun _ => ht, nofun, nofun, nofun⟩
  | t2 =>
    obtain ⟨t, h, hc, ht⟩ := step_t2 hi hu hs
    exact ⟨t, h, hc, nofun, fun _ => ht, nofun, nofun⟩
  | t3 =>
    obtain ⟨t, h, hc, ht⟩ := step_t3_or_tw hi hu (.inl hs)
    exact ⟨t, h, hc, nofun, nofun, fun _ => ht, nofun⟩
  | tw =>
    obtain ⟨t, h, hc, ht⟩ := step_t3_or_tw hi hu (.inr hs)
    exact ⟨t, h, hc, nofun, nofun, nofun, fun _ => ht⟩
  | t4 | idle | holdAck | inReset => simp [hs, inCycle] at hb

/-! ## The pins of the bus after a step -/

/-- AD15..AD0 after a step. -/
theorem step_ad {s t : State} (hi : Inv s) (h : step s = .next t) :
    t.pins.ad = adPins t (Config.freeWord t.heldDraw) :=
  congrArg Pins.ad (step_shows hi h)

/-- A19..A16 after a step. -/
theorem step_a {s t : State} (hi : Inv s) (h : step s = .next t) : t.pins.a = aPins t (Config.freeWord t.draws) :=
  congrArg Pins.a (step_shows hi h)

/-- BHE# after a step. -/
theorem step_bheN {s t : State} (hi : Inv s) (h : step s = .next t) :
    t.pins.bheN = bhePin t (Config.freeWord t.draws) :=
  congrArg Pins.bheN (step_shows hi h)

/-! ## T1 of a transfer -/

/-- A T1 holds the address and the lanes of its operation. -/
theorem Turn.t1_operands {s v t : State} {i : Instr} (h : Turn s v t) (hb : t.busState = .t1) (hc : t.curOp = some i) :
    t.curAddr = addrOf i ∧ t.curLanes = lanesOfInstr i := by
  cases h with
  | start | startAck | ackGo =>
    simp only [enter_curOp, loadOp_curOp, Option.some.injEq] at hc
    subst hc
    simp
  | _ => simp at hb

/-- Only an active T-state comes before a T1, and the T1 holds the address and the lanes of its operation. -/
theorem step_t1_operands {s t : State} {i : Instr} (hi : Inv s) (h : step s = .next t) (hb : t.busState = .t1)
    (hc : t.curOp = some i) : t.curAddr = addrOf i ∧ t.curLanes = lanesOfInstr i := by
  have ht : t.busState ≠ .inReset := by simp [hb]
  have hs : s.busState ≠ .inReset := by
    intro hs
    obtain ⟨-, rfl⟩ := step_leave h ht hs
    simp at hb
  obtain ⟨-, -, hturn⟩ := step_out hi h ht hs
  exact hturn.t1_operands hb hc

/-- A19..A16 of the address of an I/O operation are 0. -/
theorem addrOf_io_high {i : Instr} (hk : kindOf i = some .ioRead ∨ kindOf i = some .ioWrite) :
    (addrOf i).extractLsb' 16 4 = 0 := by
  have hport (p : Port) : (portAddr p).extractLsb' 16 4 = 0 := BitVec.extractLsb'_append_eq_left
  cases i with
  | ior p | iow p | sIor p | sIow p => exact hport p
  | memr a b u => cases u <;> simp [kindOf] at hk
  | _ => simp [kindOf] at hk

/-- BHE# is 0 exactly when the high lane takes part. -/
theorem bheLevel_eq (l : Lanes) : bheLevel l = !hasHigh l := by
  cases l <;> rfl

theorem adPins_t1 {s : State} {k : Kind} (w : BitVec 64) (hb : s.busState = .t1) (hk : curKind s = some k)
    (ht : k.transfers = true) : adPins s w = some (s.curAddr.extractLsb' 0 16) := by
  cases k <;> simp_all [adPins, Kind.transfers, Kind.reads, Kind.writes]

theorem bhePin_t1 {s : State} {k : Kind} (w : BitVec 64) (hb : s.busState = .t1) (hk : curKind s = some k)
    (ht : k.transfers = true) : bhePin s w = some (!hasHigh s.curLanes) := by
  rw [← bheLevel_eq]
  cases k <;> simp_all [bhePin, Kind.transfers, Kind.reads, Kind.writes]

theorem aPins_t1_io {s : State} {k : Kind} (w : BitVec 64) (hb : s.busState = .t1) (hk : curKind s = some k)
    (hio : k = .ioRead ∨ k = .ioWrite) : aPins s w = some 0 := by
  rcases hio with rfl | rfl <;> simp [aPins, hb, hk]

theorem aPins_t1_mem {s : State} {k : Kind} (w : BitVec 64) (hb : s.busState = .t1) (hk : curKind s = some k)
    (ht : k.transfers = true) (hio : ¬(k = .ioRead ∨ k = .ioWrite)) :
    aPins s w = some (s.curAddr.extractLsb' 16 4) := by
  cases k <;> simp_all [aPins, Kind.transfers, Kind.reads, Kind.writes]

/-- Settles O22: the T1 has just loaded its operands, and its pins are made from them; for a port the high bits of the
address are 0 themselves. -/
theorem addressPhase : Obligations.AddressPhase := by
  intro s t i k hi h hb hc hk ht
  have hck : curKind t = some k := by simp [curKind, hc, hk]
  obtain ⟨haddr, hlanes⟩ := step_t1_operands hi h hb hc
  have hio : k = .ioRead ∨ k = .ioWrite → t.pins.a = some 0 := fun hio => by
    rw [step_a hi h, aPins_t1_io _ hb hck hio]
  refine ⟨?_, ?_, hio, ?_⟩
  · rw [step_ad hi h, adPins_t1 _ hb hck ht, haddr]
  · by_cases hport : k = .ioRead ∨ k = .ioWrite
    · have hhigh := addrOf_io_high (i := i) (by rcases hport with rfl | rfl <;> simp [hk])
      rw [hio hport, hhigh]
    · rw [step_a hi h, aPins_t1_mem _ hb hck ht hport, haddr]
  · rw [step_bheN hi h, bhePin_t1 _ hb hck ht, hlanes]

/-! ## Where AD15..AD0 float -/

theorem adPins_holdAck {s : State} (w : BitVec 64) (hb : s.busState = .holdAck) : adPins s w = none := by
  simp [adPins, hb]

/-- The 8086 drives neither an address nor data in an acknowledge cycle. -/
theorem adPins_ack {s : State} (w : BitVec 64) (hk : curKind s = some .ack)
    (hb : inCycle s.busState = true ∨ s.busState = .t4) : adPins s w = none := by
  cases hs : s.busState with
  | t1 => simp [adPins, hs, hk]
  | t2 | t3 | tw | t4 => simp [adPins, hs, hk, Kind.writes]
  | idle | holdAck | inReset => simp [hs, inCycle] at hb

/-- Settles O24: what the T-state shows on AD15..AD0 is made from the T-state alone. -/
theorem dataBusFloats : Obligations.DataBusFloats := by
  intro s t hi h
  rw [step_ad hi h]
  exact ⟨adPins_ack _, adPins_holdAck _⟩

end Sys2Proof.Machine

/-! The minimum-mode outputs (spec/41_min_mode_control.md): WR# (R162) and M/IO# (R155 to R157). -/

namespace Sys2Proof.Machine

/-! ## The minimum-mode outputs after a step -/

/-- The minimum-mode outputs shown after a step are made from the T-state alone. -/
theorem step_minOf {s t : State} {m : MinPins} (hi : Inv s) (h : step s = .next t) (hm : minOf t.pins = some m) :
    m = minPins t (Config.freeWord t.draws) := by
  rw [step_shows hi h] at hm
  cases hmode : t.mode with
  | min => simpa [minOf, pinsOf, hmode] using hm.symm
  | max => simp [minOf, pinsOf, hmode] at hm

/-! ## The strobes -/

theorem strobeState_iff {b : BusState} : strobeState b = true ↔ b = .t2 ∨ b = .t3 ∨ b = .tw := by
  cases b <;> simp [strobeState]

@[simp] theorem lowActive_holdAck (freeZ asserted : Bool) : lowActive .holdAck freeZ asserted = none := rfl

/-- While the 8086 owns the bus an active-low output is driven, and low exactly when it is asserted. -/
theorem lowActive_of_ownsBus {b : BusState} (hb : ownsBus b = true) (freeZ asserted : Bool) :
    lowActive b freeZ asserted = some (!asserted) := by
  cases b with
  | holdAck | inReset => simp [ownsBus] at hb
  | t1 | t2 | t3 | tw | t4 | idle => rfl

theorem Kind.writes_iff {k : Kind} : k.writes = true ↔ k = .memWrite ∨ k = .ioWrite := by
  cases k <;> simp [Kind.writes]

theorem any_writes_iff {o : Option Kind} : o.any Kind.writes = true ↔ o = some .memWrite ∨ o = some .ioWrite := by
  cases o <;> simp [Kind.writes_iff]

/-- Settles O27: WR# is asserted in the strobe T-states of the two kinds that write. -/
theorem writeStrobe : Obligations.WriteStrobe := by
  intro s t m hi h hm
  have hwr : m.wrN = lowActive t.busState ((Config.freeWord t.draws).getLsbD 12)
      (strobeState t.busState && (curKind t).any Kind.writes) := congrArg MinPins.wrN (step_minOf hi h hm)
  refine ⟨fun hb => ⟨_, hwr.trans (lowActive_of_ownsBus hb _ _), ?_⟩, fun hb => by simp [hwr, hb]⟩
  rw [Bool.not_eq_false', Bool.and_eq_true, strobeState_iff, any_writes_iff]

/-! ## M/IO# -/

/-- The level of M/IO# that belongs to a transfer: 1 when it addresses memory. -/
theorem mioOf_transfer {i : Instr} {k : Kind} (hk : kindOf i = some k) (ht : k.transfers = true) (free : Bool) :
    mioOf i free = decide (k = .memRead ∨ k = .fetch ∨ k = .memWrite) := by
  unfold mioOf
  rw [hk]
  cases k with
  | memRead | fetch | memWrite | ioRead | ioWrite => rfl
  | ack | halt => simp [Kind.transfers, Kind.reads, Kind.writes] at ht

theorem mioPin_holdAck {s : State} (w : BitVec 64) (hb : s.busState = .holdAck) : mioPin s w = none := by
  simp [mioPin, hb]

/-- Inside a cycle M/IO# has the level that belongs to its operation. -/
theorem mioPin_inCycle {s : State} {i : Instr} (w : BitVec 64) (hb : inCycle s.busState = true)
    (hc : s.curOp = some i) : mioPin s w = some (mioOf i (w.getLsbD 1)) := by
  cases hs : s.busState with
  | t1 | t2 | t3 | tw => simp [mioPin, hs, hc]
  | t4 | idle | holdAck | inReset => simp [hs, inCycle] at hb

/-- Settles O30: a transfer holds its own level of M/IO# from T1 to TW. -/
theorem memoryOrIo : Obligations.MemoryOrIo := by
  intro s t m k hi h hm
  have hmio : m.mio = mioPin t (Config.freeWord t.draws) := congrArg MinPins.mio (step_minOf hi h hm)
  rw [hmio]
  refine ⟨fun hb hk ht => ?_, mioPin_holdAck _⟩
  obtain ⟨i, hc, hki⟩ := Option.bind_eq_some_iff.1 hk
  rw [mioPin_inCycle _ hb hc, mioOf_transfer hki ht]

end Sys2Proof.Machine


/-! The decoder and the encoder (spec/30_encoding.md R103 to R109, log 3): each shape of operand fields is read by its
decoder and by no other word. -/

namespace Sys2Proof

/-! ## The operand fields, one shape at a time -/

theorem decodeBare_bareFields (p : Byte) (i : Instr) : decodeBare (bareFields p) i = .ok i := by
  simp [decodeBare, bareFields]

/-- A word with no operand has nothing but its pattern. -/
theorem decodeBare_ok {f : WordFields} {i j : Instr} (h : decodeBare f i = .ok j) :
    j = i ∧ f = bareFields f.pattern := by
  obtain ⟨p, a, b, u, d, r⟩ := f
  unfold decodeBare at h
  split at h
  · cases h
    simp_all [bareFields]
  · cases h

theorem decodePort_portFields (p : Byte) (port : Port) (b : Bool) (k : Port → Bool → Instr) :
    decodePort (portFields p port b 0#16) k = .ok (k port b) := by
  have hhigh : (0#4 ++ port).extractLsb' 16 4 = 0 := BitVec.extractLsb'_append_eq_left
  have hlow : (0#4 ++ port).extractLsb' 0 16 = port := BitVec.extractLsb'_append_eq_right
  simp only [decodePort, portFields]
  rw [if_neg (by simpa using hhigh), if_pos (by simp), hlow]

theorem decodePortData_portFields (p : Byte) (port : Port) (b : Bool) (v : Word) (k : Port → Bool → Word → Instr) :
    decodePortData (portFields p port b v) k = .ok (k port b v) := by
  have hhigh : (0#4 ++ port).extractLsb' 16 4 = 0 := BitVec.extractLsb'_append_eq_left
  have hlow : (0#4 ++ port).extractLsb' 0 16 = port := BitVec.extractLsb'_append_eq_right
  simp only [decodePortData, portFields]
  rw [if_neg (by simpa using hhigh), if_pos (by simp), hlow]

/-- An address whose high bits are 0 is that of a port. -/
theorem port_join {a : Addr} (h : a.extractLsb' 16 4 = 0) : a = 0#4 ++ a.extractLsb' 0 16 := by
  conv_lhs => rw [← Machine.addr_join a, h]
  rfl

theorem decodePort_ok {f : WordFields} {k : Port → Bool → Instr} {j : Instr} (h : decodePort f k = .ok j) :
    ∃ port, j = k port f.bheN ∧ f = portFields f.pattern port f.bheN 0 := by
  obtain ⟨p, a, b, u, d, r⟩ := f
  unfold decodePort at h
  split at h
  · cases h
  · rename_i hhigh
    split at h
    · cases h
      have hjoin := port_join (not_not.1 hhigh)
      exact ⟨_, rfl, by
        obtain ⟨rfl, rfl, rfl⟩ := ‹u = 0 ∧ _›
        rw [portFields, ← hjoin]⟩
    · cases h

theorem decodePortData_ok {f : WordFields} {k : Port → Bool → Word → Instr} {j : Instr}
    (h : decodePortData f k = .ok j) :
    ∃ port, j = k port f.bheN f.wdata ∧ f = portFields f.pattern port f.bheN f.wdata := by
  obtain ⟨p, a, b, u, d, r⟩ := f
  unfold decodePortData at h
  split at h
  · cases h
  · rename_i hhigh
    split at h
    · cases h
      have hjoin := port_join (not_not.1 hhigh)
      exact ⟨_, rfl, by
        obtain ⟨rfl, rfl⟩ := ‹u = 0 ∧ _›
        rw [portFields, ← hjoin]⟩
    · cases h

/-- A segment tag below a 0 is that of a segment register, and the tag is its own. -/
theorem use_of_segTag (g : Seg) : (0#1 ++ segTag g).getLsbD 2 = false ∧
    segOfTag ((0#1 ++ segTag g).getLsbD 1) ((0#1 ++ segTag g).getLsbD 0) = g := by
  cases g <;> decide

theorem segTag_of_use {u : BitVec 3} (h : u.getLsbD 2 = false) :
    u = 0#1 ++ segTag (segOfTag (u.getLsbD 1) (u.getLsbD 0)) := by
  revert u
  decide

theorem decodeMemAddr_memFields (p : Byte) (a : Addr) (b : Bool) (g : Seg) (k : Addr → Bool → Seg → Instr) :
    decodeMemAddr (memFields p a b g 0#16) k = .ok (k a b g) := by
  obtain ⟨hbit, htag⟩ := use_of_segTag g
  simp only [decodeMemAddr, memFields]
  rw [if_pos ⟨hbit, by simp⟩, htag]

theorem decodeMemData_memFields (p : Byte) (a : Addr) (b : Bool) (g : Seg) (v : Word)
    (k : Addr → Bool → Seg → Word → Instr) : decodeMemData (memFields p a b g v) k = .ok (k a b g v) := by
  obtain ⟨hbit, htag⟩ := use_of_segTag g
  simp only [decodeMemData, memFields]
  rw [if_pos ⟨hbit, by simp⟩, htag]

theorem decodeMemAddr_ok {f : WordFields} {k : Addr → Bool → Seg → Instr} {j : Instr} (h : decodeMemAddr f k = .ok j) :
    ∃ g, j = k f.addr f.bheN g ∧ f = memFields f.pattern f.addr f.bheN g 0 := by
  obtain ⟨p, a, b, u, d, r⟩ := f
  unfold decodeMemAddr at h
  split at h
  · rename_i hfields
    obtain ⟨hu, rfl, rfl⟩ := hfields
    cases h
    exact ⟨_, rfl, by simpa [memFields] using segTag_of_use hu⟩
  · cases h

theorem decodeMemData_ok {f : WordFields} {k : Addr → Bool → Seg → Word → Instr} {j : Instr}
    (h : decodeMemData f k = .ok j) :
    ∃ g, j = k f.addr f.bheN g f.wdata ∧ f = memFields f.pattern f.addr f.bheN g f.wdata := by
  obtain ⟨p, a, b, u, d, r⟩ := f
  unfold decodeMemData at h
  split at h
  · rename_i hfields
    obtain ⟨hu, rfl⟩ := hfields
    cases h
    exact ⟨_, rfl, by simpa [memFields] using segTag_of_use hu⟩
  · cases h

theorem decodeMemr_data (p : Byte) (a : Addr) (b : Bool) (g : Seg) :
    decodeMemr (memFields p a b g 0#16) = .ok (.memr a b (.data g)) := by
  unfold decodeMemr
  rw [if_neg (by simpa [memFields] using (use_of_segTag g).1), decodeMemAddr_memFields]

theorem eq_fetchFields {f : WordFields} {u : BitVec 3} (h : f.use = u ∧ f.wdata = 0 ∧ f.rest = 0) :
    f = fetchFields f.pattern f.addr f.bheN u := by
  obtain ⟨p, a, b, u', d, r⟩ := f
  obtain ⟨rfl, rfl, rfl⟩ := h
  rfl

/-- A MEMR word is a data read or, with its tag 4, a fetch. -/
theorem decodeMemr_ok {f : WordFields} {j : Instr} (h : decodeMemr f = .ok j) :
    (∃ g, j = .memr f.addr f.bheN (.data g) ∧ f = memFields f.pattern f.addr f.bheN g 0) ∨
    (j = .memr f.addr f.bheN .fetch ∧ f = fetchFields f.pattern f.addr f.bheN 4) := by
  unfold decodeMemr at h
  split at h
  · split at h
    · rename_i hfields
      cases h
      exact .inr ⟨rfl, eq_fetchFields hfields⟩
    · cases h
  · exact .inl (decodeMemAddr_ok h)

/-! ## The patterns -/

/-- A pattern of format MINCTL is its five levels. -/
theorem minctl_pattern {p : Byte} {m d r w i : Bool} (h : p.extractLsb' 5 3 = 0) (h4 : p.getLsbD 4 = m)
    (h3 : p.getLsbD 3 = d) (h2 : p.getLsbD 2 = r) (h1 : p.getLsbD 1 = w) (h0 : p.getLsbD 0 = i) :
    p = 0#3 ++ BitVec.ofBool m ++ BitVec.ofBool d ++ (BitVec.ofBool r ++ BitVec.ofBool w ++ BitVec.ofBool i) := by
  subst h4 h3 h2 h1 h0
  revert p
  decide

theorem minctl_idle {p : Byte} (h : p.extractLsb' 5 3 = 0) (h2 : p.getLsbD 2 = true) (h1 : p.getLsbD 1 = true)
    (h0 : p.getLsbD 0 = true) : p = 0#3 ++ p.extractLsb' 3 2 ++ 0b111#3 := by
  revert p
  decide

/-- A pattern of format MAXS is its three levels. -/
theorem maxs_pattern {p : Byte} {s2 s1 s0 : Bool} (h : p.extractLsb' 3 5 = 0) (h2 : p.getLsbD 2 = s2)
    (h1 : p.getLsbD 1 = s1) (h0 : p.getLsbD 0 = s0) :
    p = 0#5 ++ (BitVec.ofBool s2 ++ BitVec.ofBool s1 ++ BitVec.ofBool s0) := by
  subst h2 h1 h0
  revert p
  decide

/-- A pattern of format LANE is its two levels. -/
theorem lane_pattern {p : Byte} {b a : Bool} (h : p.extractLsb' 2 6 = 0) (h1 : p.getLsbD 1 = b)
    (h0 : p.getLsbD 0 = a) : p = 0#6 ++ (BitVec.ofBool b ++ BitVec.ofBool a) := by
  subst h1 h0
  revert p
  decide

/-! ## From the operation to its word and back -/

/-- What the decoder of a format makes of the fields of a word. -/
def decodeFields : Format → WordFields → Except DecodeError Instr
  | .minctl => decodeMinctl
  | .maxs => decodeMaxs
  | .lane => decodeLane

theorem decode_eq (fmt : Format) (w : BitVec 64) : decode fmt w = decodeFields fmt (fieldsOf w) := by
  cases fmt <;> rfl

theorem decodeMinctl_inta (m d : Bool) : decodeMinctl (encodeFields (.inta m d)) = .ok (.inta m d) := by
  cases m <;> cases d <;> rfl

theorem decodeMinctl_idle (x : BitVec 2) : decodeMinctl (encodeFields (.idle x)) = .ok (.idle x) := by
  revert x
  decide

@[simp] theorem bareFields_pattern (p : Byte) : (bareFields p).pattern = p := rfl

@[simp] theorem portFields_pattern (p : Byte) (port : Port) (b : Bool) (v : Word) :
    (portFields p port b v).pattern = p := rfl

@[simp] theorem memFields_pattern (p : Byte) (a : Addr) (b : Bool) (g : Seg) (v : Word) :
    (memFields p a b g v).pattern = p := rfl

@[simp] theorem fetchFields_pattern (p : Byte) (a : Addr) (b : Bool) (u : BitVec 3) :
    (fetchFields p a b u).pattern = p := rfl

theorem decodeMemr_fetch (p : Byte) (a : Addr) (b : Bool) :
    decodeMemr (fetchFields p a b 4#3) = .ok (.memr a b .fetch) := by
  simp [decodeMemr, fetchFields]

/-- The fields of an operation are read as that operation. -/
theorem decodeFields_encodeFields (i : Instr) : decodeFields i.format (encodeFields i) = .ok i := by
  cases i with
  | memr a b u =>
    cases u with
    | data g => simp [decodeFields, Instr.format, encodeFields, decodeMinctl, decodeMemr_data]
    | fetch => simp [decodeFields, Instr.format, encodeFields, decodeMinctl, decodeMemr_fetch]
  | memw a b g v => simp [decodeFields, Instr.format, encodeFields, decodeMinctl, decodeMemData_memFields]
  | ior p b => simp [decodeFields, Instr.format, encodeFields, decodeMinctl, decodePort_portFields]
  | iow p b v => simp [decodeFields, Instr.format, encodeFields, decodeMinctl, decodePortData_portFields]
  | inta m d => exact decodeMinctl_inta m d
  | idle x => exact decodeMinctl_idle x
  | sIor p b => simp [decodeFields, Instr.format, encodeFields, decodeMaxs, decodePort_portFields]
  | sIow p b v => simp [decodeFields, Instr.format, encodeFields, decodeMaxs, decodePortData_portFields]
  | sFetch a b => simp [decodeFields, Instr.format, encodeFields, decodeMaxs, fetchFields]
  | sMemr a b g => simp [decodeFields, Instr.format, encodeFields, decodeMaxs, decodeMemAddr_memFields]
  | sMemw a b g v => simp [decodeFields, Instr.format, encodeFields, decodeMaxs, decodeMemData_memFields]
  | sInta | sHalt | sPassive =>
    simp [decodeFields, Instr.format, encodeFields, decodeMaxs, decodeBare_bareFields]
  | laneBoth | laneHigh | laneLow | laneNone =>
    simp [decodeFields, Instr.format, encodeFields, decodeLane, decodeBare_bareFields]

/-! ## From the word to its operation and back -/

/-- A word of format MINCTL that is an operation has the fields of that operation. -/
theorem decodeMinctl_ok {f : WordFields} {i : Instr} (h : decodeMinctl f = .ok i) :
    i.format = .minctl ∧ encodeFields i = f := by
  unfold decodeMinctl at h
  dsimp only at h
  split at h
  · cases h
  · rename_i hrest
    replace hrest := not_not.1 hrest
    split at h <;> rename_i h2 h1 h0
    case h_1 =>
      obtain ⟨rfl, hf⟩ := decodeBare_ok h
      exact ⟨rfl, (congrArg bareFields (minctl_idle hrest h2 h1 h0).symm).trans hf.symm⟩
    case h_2 =>
      obtain ⟨rfl, hf⟩ := decodeBare_ok h
      exact ⟨rfl, (congrArg bareFields (minctl_pattern hrest rfl rfl h2 h1 h0).symm).trans hf.symm⟩
    case h_3 =>
      split at h
      · cases h
      · rename_i hd
        split at h <;> rename_i hm
        · have hpat := minctl_pattern hrest hm (by simpa using hd) h2 h1 h0
          rcases decodeMemr_ok h with ⟨g, rfl, hf⟩ | ⟨rfl, hf⟩
          · exact ⟨rfl, (congrArg (memFields · f.addr f.bheN g 0) hpat.symm).trans hf.symm⟩
          · exact ⟨rfl, (congrArg (fetchFields · f.addr f.bheN 4) hpat.symm).trans hf.symm⟩
        · have hpat := minctl_pattern hrest (by simpa using hm) (by simpa using hd) h2 h1 h0
          obtain ⟨port, rfl, hf⟩ := decodePort_ok h
          exact ⟨rfl, (congrArg (portFields · port f.bheN 0) hpat.symm).trans hf.symm⟩
    case h_4 =>
      split at h
      · cases h
      · rename_i hd
        split at h <;> rename_i hm
        · have hpat := minctl_pattern hrest hm (by simpa using hd) h2 h1 h0
          obtain ⟨g, rfl, hf⟩ := decodeMemData_ok h
          exact ⟨rfl, (congrArg (memFields · f.addr f.bheN g f.wdata) hpat.symm).trans hf.symm⟩
        · have hpat := minctl_pattern hrest (by simpa using hm) (by simpa using hd) h2 h1 h0
          obtain ⟨port, rfl, hf⟩ := decodePortData_ok h
          exact ⟨rfl, (congrArg (portFields · port f.bheN f.wdata) hpat.symm).trans hf.symm⟩
    all_goals cases h

/-- A word of format MAXS that is an operation has the fields of that operation. -/
theorem decodeMaxs_ok {f : WordFields} {i : Instr} (h : decodeMaxs f = .ok i) :
    i.format = .maxs ∧ encodeFields i = f := by
  unfold decodeMaxs at h
  split at h
  · cases h
  · rename_i hrest
    replace hrest := not_not.1 hrest
    split at h <;> rename_i h2 h1 h0 <;> have hpat := maxs_pattern hrest h2 h1 h0
    case h_1 | h_4 | h_8 =>
      obtain ⟨rfl, hf⟩ := decodeBare_ok h
      exact ⟨rfl, (congrArg bareFields hpat.symm).trans hf.symm⟩
    case h_2 =>
      obtain ⟨port, rfl, hf⟩ := decodePort_ok h
      exact ⟨rfl, (congrArg (portFields · port f.bheN 0) hpat.symm).trans hf.symm⟩
    case h_3 =>
      obtain ⟨port, rfl, hf⟩ := decodePortData_ok h
      exact ⟨rfl, (congrArg (portFields · port f.bheN f.wdata) hpat.symm).trans hf.symm⟩
    case h_5 =>
      split at h
      · rename_i hfields
        cases h
        exact ⟨rfl, (congrArg (fetchFields · f.addr f.bheN 0) hpat.symm).trans (eq_fetchFields hfields).symm⟩
      · cases h
    case h_6 =>
      obtain ⟨g, rfl, hf⟩ := decodeMemAddr_ok h
      exact ⟨rfl, (congrArg (memFields · f.addr f.bheN g 0) hpat.symm).trans hf.symm⟩
    case h_7 =>
      obtain ⟨g, rfl, hf⟩ := decodeMemData_ok h
      exact ⟨rfl, (congrArg (memFields · f.addr f.bheN g f.wdata) hpat.symm).trans hf.symm⟩

/-- A word of format LANE that is an operation has the fields of that operation. -/
theorem decodeLane_ok {f : WordFields} {i : Instr} (h : decodeLane f = .ok i) :
    i.format = .lane ∧ encodeFields i = f := by
  unfold decodeLane at h
  split at h
  · cases h
  · rename_i hrest
    split at h <;> rename_i h1 h0 <;> have hpat := lane_pattern (not_not.1 hrest) h1 h0 <;>
    · obtain ⟨rfl, hf⟩ := decodeBare_ok h
      exact ⟨rfl, (congrArg bareFields hpat.symm).trans hf.symm⟩

theorem decodeFields_ok {fmt : Format} {f : WordFields} {i : Instr} (h : decodeFields fmt f = .ok i) :
    i.format = fmt ∧ encodeFields i = f := by
  cases fmt with
  | minctl => exact decodeMinctl_ok h
  | maxs => exact decodeMaxs_ok h
  | lane => exact decodeLane_ok h


/-- Settles O2: the word gives its fields back, and the fields are read as the operation that they were made of. -/
theorem decodeEncode : Obligations.DecodeEncode := by
  intro i
  rw [decode_eq, encode, fieldsOf_wordOf, decodeFields_encodeFields]

/-- A word that is an operation has the format and the fields of that operation. -/
theorem decode_ok {fmt : Format} {w : BitVec 64} {i : Instr} (h : decode fmt w = .ok i) :
    i.format = fmt ∧ encodeFields i = fieldsOf w := by
  rw [decode_eq] at h
  exact decodeFields_ok h

/-- Settles O3: the fields of the word are those of the operation, and the word is made of its fields. -/
theorem encodeDecode : Obligations.EncodeDecode := by
  intro fmt w i h
  obtain ⟨hfmt, hfields⟩ := decode_ok h
  exact ⟨hfmt, by rw [encode, hfields, wordOf_fieldsOf]⟩

/-! ## Illegal patterns -/

/-- A word that is no operation is an error. -/
theorem decode_error {fmt : Format} {w : BitVec 64} (h : ∀ i, decode fmt w ≠ .ok i) : ∃ e, decode fmt w = .error e := by
  cases hd : decode fmt w with
  | error e => exact ⟨e, rfl⟩
  | ok i => exact absurd hd (h i)

/-- The pattern of a word that is an operation is that of the operation. -/
theorem pattern_of_decode_ok {fmt : Format} {w : BitVec 64} {i : Instr} (h : decode fmt w = .ok i) :
    w.extractLsb' 0 8 = (encodeFields i).pattern :=
  (congrArg WordFields.pattern (decode_ok h).2).symm

/-- In format MINCTL an operation has at most one strobe low, and it agrees with DT/R#. -/
theorem minctl_strobes {i : Instr} (h : i.format = .minctl) (p : Byte) (hp : p = (encodeFields i).pattern) :
    ¬((p.getLsbD 2 = false ∧ p.getLsbD 1 = false) ∨ (p.getLsbD 2 = false ∧ p.getLsbD 0 = false) ∨
      (p.getLsbD 1 = false ∧ p.getLsbD 0 = false)) ∧
    ¬((p.getLsbD 2 = false ∧ p.getLsbD 3 = true) ∨ (p.getLsbD 1 = false ∧ p.getLsbD 3 = false)) := by
  cases i with
  | memr a b u => cases u <;> simp [hp, encodeFields]
  | memw | ior | iow => simp [hp, encodeFields]
  | inta m d =>
    subst hp
    revert m d
    decide
  | idle x =>
    subst hp
    revert x
    decide
  | _ => simp [Instr.format] at h

/-- A19..A16 in the word of an operation on a port are 0. -/
theorem portFields_addr_high (p : Byte) (port : Port) (b : Bool) (v : Word) :
    (portFields p port b v).addr.extractLsb' 16 4 = 0 :=
  BitVec.extractLsb'_append_eq_left

/-- The I/O patterns are those of the operations on ports. -/
theorem addr_high_of_ioPattern {i : Instr} {p : Byte} (hp : p = (encodeFields i).pattern)
    (h : (i.format = .minctl ∧ (p.extractLsb' 0 5 = 0b00011#5 ∨ p.extractLsb' 0 5 = 0b01101#5)) ∨
      (i.format = .maxs ∧ (p.extractLsb' 0 3 = 0b001#3 ∨ p.extractLsb' 0 3 = 0b010#3))) :
    (encodeFields i).addr.extractLsb' 16 4 = 0 := by
  cases i with
  | ior port b | iow port b | sIor port b | sIow port b => exact portFields_addr_high ..
  | memr a b u => cases u <;> simp [hp, encodeFields, Instr.format] at h
  | inta m d =>
    subst hp
    revert m d
    decide
  | idle x =>
    subst hp
    revert x
    decide
  | _ => simp [hp, encodeFields, Instr.format] at h

theorem fieldsOf_addr_high (w : BitVec 64) : (fieldsOf w).addr.extractLsb' 16 4 = w.extractLsb' 24 4 := by
  apply BitVec.eq_of_getLsbD_eq
  intro n hn
  have : 16 + n < 20 := by omega
  simp [fieldsOf, hn, this, ← Nat.add_assoc]

theorem fieldsOf_pattern_low (w : BitVec 64) {n : Nat} (hn : n ≤ 8) :
    (fieldsOf w).pattern.extractLsb' 0 n = w.extractLsb' 0 n := by
  apply BitVec.eq_of_getLsbD_eq
  intro j hj
  have : j < 8 := by omega
  simp [fieldsOf, hj, this]

theorem laneSelected_of_lanesOf {b a : Bool} (h : Machine.lanesOf b a = .none) : Instr.laneSelected b a = false := by
  revert b a
  decide

/-- A transfer that selects no lane is not well formed. -/
theorem wellFormed_of_noLane {i : Instr} {k : Machine.Kind} (hk : Machine.kindOf i = some k) (ht : k.transfers = true)
    (hl : Machine.lanesOfInstr i = .none) : i.wellFormed = false := by
  cases i with
  | memr | memw | ior | iow | sIor | sIow | sFetch | sMemr | sMemw => exact laneSelected_of_lanesOf hl
  | inta | sInta | sHalt =>
    cases hk
    cases ht
  | idle | sPassive | laneBoth | laneHigh | laneLow | laneNone => cases hk

/-- Every code of S2#, S1#, S0# without operands is an operation. -/
theorem decode_maxs_code (p : BitVec 3) : ∃ i, decode .maxs (p.setWidth 64) = .ok i := by
  have h : (decode .maxs (p.setWidth 64)).toOption.isSome = true := by
    revert p
    decide
  cases hd : decode .maxs (p.setWidth 64) with
  | error e => simp [hd, Except.toOption] at h
  | ok i => exact ⟨i, rfl⟩

/-- Every pattern of BHE#, AD0 is an operation. -/
theorem decode_lane_pattern (p : BitVec 2) : ∃ i, decode .lane (p.setWidth 64) = .ok i := by
  have h : (decode .lane (p.setWidth 64)).toOption.isSome = true := by
    revert p
    decide
  cases hd : decode .lane (p.setWidth 64) with
  | error e => simp [hd, Except.toOption] at h
  | ok i => exact ⟨i, rfl⟩

/-- Settles O4: the patterns of the operations are legal, so an illegal one is that of no operation. -/
theorem illegalPatterns : Obligations.IllegalPatterns := by
  refine ⟨fun w h => decode_error fun i hd => ?_, fun w h => decode_error fun i hd => ?_,
    fun w h hhigh => decode_error fun i hd => hhigh ?_, fun w h hhigh => decode_error fun i hd => hhigh ?_,
    fun i k hk ht hl => wellFormed_of_noLane hk ht hl, decode_maxs_code, decode_lane_pattern⟩
  · exact (minctl_strobes (decode_ok hd).1 _ (pattern_of_decode_ok hd)).1 (by simpa using h)
  · exact (minctl_strobes (decode_ok hd).1 _ (pattern_of_decode_ok hd)).2 (by simpa using h)
  · obtain ⟨hfmt, hfields⟩ := decode_ok hd
    rw [← fieldsOf_addr_high, ← hfields]
    refine addr_high_of_ioPattern rfl (.inl ⟨hfmt, ?_⟩)
    rwa [hfields, fieldsOf_pattern_low w (by decide)]
  · obtain ⟨hfmt, hfields⟩ := decode_ok hd
    rw [← fieldsOf_addr_high, ← hfields]
    refine addr_high_of_ioPattern rfl (.inr ⟨hfmt, ?_⟩)
    rwa [hfields, fieldsOf_pattern_low w (by decide)]

/-- Settles O1: each word is computed. -/
theorem wordsDecode : Obligations.WordsDecode :=
  ⟨rfl, rfl, rfl, rfl, rfl, rfl, rfl, rfl, rfl, rfl, rfl, rfl, rfl⟩

end Sys2Proof


/-! What the look at TEST# and at the interrupt requests leaves as it was, and what an operation that is taken from the
free bus may have changed: the facts that the proofs about one step share. -/

namespace Sys2Proof.Machine

/-! ## The look at TEST# and at the interrupt requests, field by field -/

@[simp] theorem poll_sampleTest_params (s : State) : (poll (sampleTest s)).params = s.params :=
  (congrArg State.params (polled_poll s)).trans rfl

@[simp] theorem poll_sampleTest_cs (s : State) : (poll (sampleTest s)).cs = s.cs :=
  (congrArg State.cs (polled_poll s)).trans rfl

@[simp] theorem poll_sampleTest_ds (s : State) : (poll (sampleTest s)).ds = s.ds :=
  (congrArg State.ds (polled_poll s)).trans rfl

@[simp] theorem poll_sampleTest_ss (s : State) : (poll (sampleTest s)).ss = s.ss :=
  (congrArg State.ss (polled_poll s)).trans rfl

@[simp] theorem poll_sampleTest_es (s : State) : (poll (sampleTest s)).es = s.es :=
  (congrArg State.es (polled_poll s)).trans rfl

@[simp] theorem poll_sampleTest_ip (s : State) : (poll (sampleTest s)).ip = s.ip :=
  (congrArg State.ip (polled_poll s)).trans rfl

@[simp] theorem poll_sampleTest_fr (s : State) : (poll (sampleTest s)).fr = s.fr :=
  (congrArg State.fr (polled_poll s)).trans rfl

@[simp] theorem poll_sampleTest_sp (s : State) : (poll (sampleTest s)).sp = s.sp :=
  (congrArg State.sp (polled_poll s)).trans rfl

@[simp] theorem poll_sampleTest_queue (s : State) : (poll (sampleTest s)).queue = s.queue :=
  (congrArg State.queue (polled_poll s)).trans rfl

@[simp] theorem poll_sampleTest_curAddr (s : State) : (poll (sampleTest s)).curAddr = s.curAddr :=
  (congrArg State.curAddr (polled_poll s)).trans rfl

@[simp] theorem poll_sampleTest_curWdata (s : State) : (poll (sampleTest s)).curWdata = s.curWdata :=
  (congrArg State.curWdata (polled_poll s)).trans rfl

@[simp] theorem poll_sampleTest_curSeg (s : State) : (poll (sampleTest s)).curSeg = s.curSeg :=
  (congrArg State.curSeg (polled_poll s)).trans rfl

@[simp] theorem poll_sampleTest_curPart (s : State) : (poll (sampleTest s)).curPart = s.curPart :=
  (congrArg State.curPart (polled_poll s)).trans rfl

@[simp] theorem poll_sampleTest_rdata (s : State) : (poll (sampleTest s)).rdata = s.rdata :=
  (congrArg State.rdata (polled_poll s)).trans rfl

@[simp] theorem poll_sampleTest_result (s : State) : (poll (sampleTest s)).result = s.result :=
  (congrArg State.result (polled_poll s)).trans rfl

@[simp] theorem poll_sampleTest_pendingOps (s : State) : (poll (sampleTest s)).pendingOps = s.pendingOps :=
  (congrArg State.pendingOps (polled_poll s)).trans rfl

@[simp] theorem poll_sampleTest_holdGranted (s : State) : (poll (sampleTest s)).holdGranted = s.holdGranted :=
  (congrArg State.holdGranted (polled_poll s)).trans rfl

@[simp] theorem poll_sampleTest_granted (s : State) : (poll (sampleTest s)).granted = s.granted :=
  (congrArg State.granted (polled_poll s)).trans rfl

@[simp] theorem poll_sampleTest_rqPending0 (s : State) : (poll (sampleTest s)).rqPending0 = s.rqPending0 :=
  (congrArg State.rqPending0 (polled_poll s)).trans rfl

@[simp] theorem poll_sampleTest_rqPending1 (s : State) : (poll (sampleTest s)).rqPending1 = s.rqPending1 :=
  (congrArg State.rqPending1 (polled_poll s)).trans rfl

@[simp] theorem poll_sampleTest_lockActive (s : State) : (poll (sampleTest s)).lockActive = s.lockActive :=
  (congrArg State.lockActive (polled_poll s)).trans rfl

@[simp] theorem poll_sampleTest_lockHeld (s : State) : (poll (sampleTest s)).lockHeld = s.lockHeld :=
  (congrArg State.lockHeld (polled_poll s)).trans rfl

@[simp] theorem poll_sampleTest_ackType (s : State) : (poll (sampleTest s)).ackType = s.ackType :=
  (congrArg State.ackType (polled_poll s)).trans rfl

@[simp] theorem poll_sampleTest_resetClks (s : State) : (poll (sampleTest s)).resetClks = s.resetClks :=
  (congrArg State.resetClks (polled_poll s)).trans rfl

@[simp] theorem poll_sampleTest_restart (s : State) : (poll (sampleTest s)).restart = s.restart :=
  (congrArg State.restart (polled_poll s)).trans rfl

@[simp] theorem poll_sampleTest_qAct (s : State) : (poll (sampleTest s)).qAct = s.qAct :=
  (congrArg State.qAct (polled_poll s)).trans rfl

@[simp] theorem poll_sampleTest_qsShown (s : State) : (poll (sampleTest s)).qsShown = s.qsShown :=
  (congrArg State.qsShown (polled_poll s)).trans rfl

@[simp] theorem poll_sampleTest_qOut (s : State) : (poll (sampleTest s)).qOut = s.qOut :=
  (congrArg State.qOut (polled_poll s)).trans rfl

@[simp] theorem poll_sampleTest_idleDrive (s : State) : (poll (sampleTest s)).idleDrive = s.idleDrive :=
  (congrArg State.idleDrive (polled_poll s)).trans rfl

@[simp] theorem poll_sampleTest_latchAddr (s : State) : (poll (sampleTest s)).latchAddr = s.latchAddr :=
  (congrArg State.latchAddr (polled_poll s)).trans rfl

@[simp] theorem poll_sampleTest_latchBheN (s : State) : (poll (sampleTest s)).latchBheN = s.latchBheN :=
  (congrArg State.latchBheN (polled_poll s)).trans rfl

@[simp] theorem poll_sampleTest_mem (s : State) : (poll (sampleTest s)).mem = s.mem :=
  (congrArg State.mem (polled_poll s)).trans rfl

@[simp] theorem poll_sampleTest_program (s : State) : (poll (sampleTest s)).program = s.program :=
  (congrArg State.program (polled_poll s)).trans rfl

@[simp] theorem poll_sampleTest_inputs (s : State) : (poll (sampleTest s)).inputs = s.inputs :=
  (congrArg State.inputs (polled_poll s)).trans rfl

@[simp] theorem poll_sampleTest_pins (s : State) : (poll (sampleTest s)).pins = s.pins :=
  (congrArg State.pins (polled_poll s)).trans rfl

@[simp] theorem poll_sampleTest_draws (s : State) : (poll (sampleTest s)).draws = s.draws :=
  (congrArg State.draws (polled_poll s)).trans rfl

@[simp] theorem poll_sampleTest_heldDraw (s : State) : (poll (sampleTest s)).heldDraw = s.heldDraw :=
  (congrArg State.heldDraw (polled_poll s)).trans rfl

@[simp] theorem curKind_poll_sampleTest (s : State) : curKind (poll (sampleTest s)) = curKind s := by simp [curKind]

@[simp] theorem nextFrame_poll_sampleTest (s : State) : nextFrame (poll (sampleTest s)) = nextFrame s := by
  simp [nextFrame]

@[simp] theorem coreRegs_poll_sampleTest (s : State) : coreRegs (poll (sampleTest s)) = coreRegs s := by simp [coreRegs]

@[simp] theorem readReg_poll_sampleTest (s : State) (r : Reg) : readReg (poll (sampleTest s)) r = readReg s r := by
  cases r <;> simp [readReg]

@[simp] theorem readMem_poll_sampleTest (s : State) (a : Addr) : readMem (poll (sampleTest s)) a = readMem s a := by
  simp [readMem]

@[simp] theorem lowIn_poll_sampleTest (s : State) : lowIn (poll (sampleTest s)) = lowIn s := by
  simp [lowIn]

@[simp] theorem highIn_poll_sampleTest (s : State) : highIn (poll (sampleTest s)) = highIn s := by
  simp [highIn]

@[simp] theorem busIn_poll_sampleTest (s : State) : busIn (poll (sampleTest s)) = busIn s := by
  simp [busIn]

@[simp] theorem observed_poll_sampleTest (s : State) : observed (poll (sampleTest s)) = observed s := by
  simp [observed]

/-- While the restart fetch is owed no interrupt is served. -/
theorem poll_restart {s : State} (h : s.restart = true) : poll s = keepEnd s := by
  simp [poll, canServe, h]

theorem poll_sampleTest_owed {s : State} (h : s.restart = true) :
    (poll (sampleTest s)).ackPending = s.ackPending ∧ (poll (sampleTest s)).entrySteps = s.entrySteps := by
  rw [poll_restart (by simpa [sampleTest_eq] using h)]
  simp [keepEnd, sampleTest_eq]

/-- The look at the interrupts keeps the invariant. -/
theorem Inv.polled {s : State} (hi : Inv s) : Inv (poll (sampleTest s)) where
  memory := by simpa using hi.memory
  queue := by simpa [inFlight] using hi.queue
  cycle := by simpa using hi.cycle
  wired := by simpa using hi.wired
  loaded := by
    intro i hc hb
    obtain ⟨addr, lanes, seg, low, high⟩ := hi.loaded i (by simpa using hc) (by simpa using hb)
    exact ⟨by simpa using addr, by simpa using lanes, by simpa using seg, by simpa using low, by simpa using high⟩
  laned := by simpa using hi.laned
  ack := by simpa using hi.ack
  phase := by simpa using hi.phase
  acked := by simpa using hi.acked
  pending := by simpa using hi.pending
  given := by simpa using hi.given
  owned := by simpa using hi.owned
  minOnly := by simpa using hi.minOnly
  maxOnly := by simpa using hi.maxOnly
  locked := by simpa using hi.locked
  legal := by simpa using hi.legal
  reset := by simpa using hi.reset
  clocks := by simpa using hi.clocks
  owed := by simpa using hi.owed
  first := by
    intro hr
    have hr' : s.restart = true := by simpa using hr
    obtain ⟨ha, he⟩ := poll_sampleTest_owed hr'
    rw [ha, he]
    simpa using hi.first hr'

/-! ## The falling edge of ALE, field by field -/

@[simp] theorem latchAddress_mode (s : State) : (latchAddress s).mode = s.mode := by rw [latchAddress_eq]

@[simp] theorem latchAddress_params (s : State) : (latchAddress s).params = s.params := by rw [latchAddress_eq]

@[simp] theorem latchAddress_cs (s : State) : (latchAddress s).cs = s.cs := by rw [latchAddress_eq]

@[simp] theorem latchAddress_ds (s : State) : (latchAddress s).ds = s.ds := by rw [latchAddress_eq]

@[simp] theorem latchAddress_ss (s : State) : (latchAddress s).ss = s.ss := by rw [latchAddress_eq]

@[simp] theorem latchAddress_es (s : State) : (latchAddress s).es = s.es := by rw [latchAddress_eq]

@[simp] theorem latchAddress_ip (s : State) : (latchAddress s).ip = s.ip := by rw [latchAddress_eq]

@[simp] theorem latchAddress_fr (s : State) : (latchAddress s).fr = s.fr := by rw [latchAddress_eq]

@[simp] theorem latchAddress_sp (s : State) : (latchAddress s).sp = s.sp := by rw [latchAddress_eq]

@[simp] theorem latchAddress_busState (s : State) : (latchAddress s).busState = s.busState := by rw [latchAddress_eq]

@[simp] theorem latchAddress_curOp (s : State) : (latchAddress s).curOp = s.curOp := by rw [latchAddress_eq]

@[simp] theorem latchAddress_curAddr (s : State) : (latchAddress s).curAddr = s.curAddr := by rw [latchAddress_eq]

@[simp] theorem latchAddress_curLanes (s : State) : (latchAddress s).curLanes = s.curLanes := by rw [latchAddress_eq]

@[simp] theorem latchAddress_curWdata (s : State) : (latchAddress s).curWdata = s.curWdata := by rw [latchAddress_eq]

@[simp] theorem latchAddress_curSeg (s : State) : (latchAddress s).curSeg = s.curSeg := by rw [latchAddress_eq]

@[simp] theorem latchAddress_curPart (s : State) : (latchAddress s).curPart = s.curPart := by rw [latchAddress_eq]

@[simp] theorem latchAddress_pendingOps (s : State) : (latchAddress s).pendingOps = s.pendingOps := by rw [latchAddress_eq]

@[simp] theorem latchAddress_nmiPending (s : State) : (latchAddress s).nmiPending = s.nmiPending := by rw [latchAddress_eq]

@[simp] theorem latchAddress_holdGranted (s : State) : (latchAddress s).holdGranted = s.holdGranted := by rw [latchAddress_eq]

@[simp] theorem latchAddress_granted (s : State) : (latchAddress s).granted = s.granted := by rw [latchAddress_eq]

@[simp] theorem latchAddress_rqPending0 (s : State) : (latchAddress s).rqPending0 = s.rqPending0 := by rw [latchAddress_eq]

@[simp] theorem latchAddress_rqPending1 (s : State) : (latchAddress s).rqPending1 = s.rqPending1 := by rw [latchAddress_eq]

@[simp] theorem latchAddress_testWait (s : State) : (latchAddress s).testWait = s.testWait := by rw [latchAddress_eq]

@[simp] theorem latchAddress_lockActive (s : State) : (latchAddress s).lockActive = s.lockActive := by rw [latchAddress_eq]

@[simp] theorem latchAddress_lockHeld (s : State) : (latchAddress s).lockHeld = s.lockHeld := by rw [latchAddress_eq]

@[simp] theorem latchAddress_ackPhase (s : State) : (latchAddress s).ackPhase = s.ackPhase := by rw [latchAddress_eq]

@[simp] theorem latchAddress_ackPending (s : State) : (latchAddress s).ackPending = s.ackPending := by rw [latchAddress_eq]

@[simp] theorem latchAddress_endPending (s : State) : (latchAddress s).endPending = s.endPending := by rw [latchAddress_eq]

@[simp] theorem latchAddress_ackType (s : State) : (latchAddress s).ackType = s.ackType := by rw [latchAddress_eq]

@[simp] theorem latchAddress_raised (s : State) : (latchAddress s).raised = s.raised := by rw [latchAddress_eq]

@[simp] theorem latchAddress_entrySteps (s : State) : (latchAddress s).entrySteps = s.entrySteps := by rw [latchAddress_eq]

@[simp] theorem latchAddress_waitStack (s : State) : (latchAddress s).waitStack = s.waitStack := by rw [latchAddress_eq]

@[simp] theorem latchAddress_resetClks (s : State) : (latchAddress s).resetClks = s.resetClks := by rw [latchAddress_eq]

@[simp] theorem latchAddress_restart (s : State) : (latchAddress s).restart = s.restart := by rw [latchAddress_eq]

@[simp] theorem latchAddress_qAct (s : State) : (latchAddress s).qAct = s.qAct := by rw [latchAddress_eq]

@[simp] theorem latchAddress_qsShown (s : State) : (latchAddress s).qsShown = s.qsShown := by rw [latchAddress_eq]

@[simp] theorem latchAddress_qOut (s : State) : (latchAddress s).qOut = s.qOut := by rw [latchAddress_eq]

@[simp] theorem latchAddress_idleDrive (s : State) : (latchAddress s).idleDrive = s.idleDrive := by rw [latchAddress_eq]

@[simp] theorem latchAddress_program (s : State) : (latchAddress s).program = s.program := by rw [latchAddress_eq]

@[simp] theorem latchAddress_now (s : State) : (latchAddress s).now = s.now := by rw [latchAddress_eq]

@[simp] theorem latchAddress_inputs (s : State) : (latchAddress s).inputs = s.inputs := by rw [latchAddress_eq]

@[simp] theorem latchAddress_draws (s : State) : (latchAddress s).draws = s.draws := by rw [latchAddress_eq]

@[simp] theorem latchAddress_heldDraw (s : State) : (latchAddress s).heldDraw = s.heldDraw := by rw [latchAddress_eq]

@[simp] theorem latchAddress_queue (s : State) : (latchAddress s).queue = s.queue := by rw [latchAddress_eq]

@[simp] theorem latchAddress_rdata (s : State) : (latchAddress s).rdata = s.rdata := by rw [latchAddress_eq]

@[simp] theorem latchAddress_result (s : State) : (latchAddress s).result = s.result := by rw [latchAddress_eq]

@[simp] theorem latchAddress_mem (s : State) : (latchAddress s).mem = s.mem := by rw [latchAddress_eq]

@[simp] theorem nextFrame_latchAddress (s : State) : nextFrame (latchAddress s) = nextFrame s := by simp [nextFrame]

@[simp] theorem curKind_latchAddress (s : State) : curKind (latchAddress s) = curKind s := by simp [curKind]

/-! ## The end of a transfer or halt cycle, field by field -/

@[simp] theorem finishOf_mode (k : Kind) (s : State) : (finishOf k s).mode = s.mode := by cases k <;> rfl

@[simp] theorem finishOf_params (k : Kind) (s : State) : (finishOf k s).params = s.params := by cases k <;> rfl

@[simp] theorem finishOf_cs (k : Kind) (s : State) : (finishOf k s).cs = s.cs := by cases k <;> rfl

@[simp] theorem finishOf_ds (k : Kind) (s : State) : (finishOf k s).ds = s.ds := by cases k <;> rfl

@[simp] theorem finishOf_ss (k : Kind) (s : State) : (finishOf k s).ss = s.ss := by cases k <;> rfl

@[simp] theorem finishOf_es (k : Kind) (s : State) : (finishOf k s).es = s.es := by cases k <;> rfl

@[simp] theorem finishOf_ip (k : Kind) (s : State) : (finishOf k s).ip = s.ip := by cases k <;> rfl

@[simp] theorem finishOf_fr (k : Kind) (s : State) : (finishOf k s).fr = s.fr := by cases k <;> rfl

@[simp] theorem finishOf_sp (k : Kind) (s : State) : (finishOf k s).sp = s.sp := by cases k <;> rfl

@[simp] theorem finishOf_busState (k : Kind) (s : State) : (finishOf k s).busState = s.busState := by cases k <;> rfl

@[simp] theorem finishOf_latchAddr (k : Kind) (s : State) : (finishOf k s).latchAddr = s.latchAddr := by cases k <;> rfl

@[simp] theorem finishOf_latchBheN (k : Kind) (s : State) : (finishOf k s).latchBheN = s.latchBheN := by cases k <;> rfl

@[simp] theorem finishOf_curAddr (k : Kind) (s : State) : (finishOf k s).curAddr = s.curAddr := by cases k <;> rfl

@[simp] theorem finishOf_curLanes (k : Kind) (s : State) : (finishOf k s).curLanes = s.curLanes := by cases k <;> rfl

@[simp] theorem finishOf_curWdata (k : Kind) (s : State) : (finishOf k s).curWdata = s.curWdata := by cases k <;> rfl

@[simp] theorem finishOf_curSeg (k : Kind) (s : State) : (finishOf k s).curSeg = s.curSeg := by cases k <;> rfl

@[simp] theorem finishOf_curPart (k : Kind) (s : State) : (finishOf k s).curPart = s.curPart := by cases k <;> rfl

@[simp] theorem finishOf_pendingOps (k : Kind) (s : State) : (finishOf k s).pendingOps = s.pendingOps := by cases k <;> rfl

@[simp] theorem finishOf_nmiPending (k : Kind) (s : State) : (finishOf k s).nmiPending = s.nmiPending := by cases k <;> rfl

@[simp] theorem finishOf_holdGranted (k : Kind) (s : State) : (finishOf k s).holdGranted = s.holdGranted := by cases k <;> rfl

@[simp] theorem finishOf_granted (k : Kind) (s : State) : (finishOf k s).granted = s.granted := by cases k <;> rfl

@[simp] theorem finishOf_rqPending0 (k : Kind) (s : State) : (finishOf k s).rqPending0 = s.rqPending0 := by cases k <;> rfl

@[simp] theorem finishOf_rqPending1 (k : Kind) (s : State) : (finishOf k s).rqPending1 = s.rqPending1 := by cases k <;> rfl

@[simp] theorem finishOf_testWait (k : Kind) (s : State) : (finishOf k s).testWait = s.testWait := by cases k <;> rfl

@[simp] theorem finishOf_lockActive (k : Kind) (s : State) : (finishOf k s).lockActive = s.lockActive := by cases k <;> rfl

@[simp] theorem finishOf_lockHeld (k : Kind) (s : State) : (finishOf k s).lockHeld = s.lockHeld := by cases k <;> rfl

@[simp] theorem finishOf_ackPhase (k : Kind) (s : State) : (finishOf k s).ackPhase = s.ackPhase := by cases k <;> rfl

@[simp] theorem finishOf_ackPending (k : Kind) (s : State) : (finishOf k s).ackPending = s.ackPending := by cases k <;> rfl

@[simp] theorem finishOf_endPending (k : Kind) (s : State) : (finishOf k s).endPending = s.endPending := by cases k <;> rfl

@[simp] theorem finishOf_ackType (k : Kind) (s : State) : (finishOf k s).ackType = s.ackType := by cases k <;> rfl

@[simp] theorem finishOf_raised (k : Kind) (s : State) : (finishOf k s).raised = s.raised := by cases k <;> rfl

@[simp] theorem finishOf_entrySteps (k : Kind) (s : State) : (finishOf k s).entrySteps = s.entrySteps := by cases k <;> rfl

@[simp] theorem finishOf_waitStack (k : Kind) (s : State) : (finishOf k s).waitStack = s.waitStack := by cases k <;> rfl

@[simp] theorem finishOf_resetClks (k : Kind) (s : State) : (finishOf k s).resetClks = s.resetClks := by cases k <;> rfl

@[simp] theorem finishOf_restart (k : Kind) (s : State) : (finishOf k s).restart = s.restart := by cases k <;> rfl

@[simp] theorem finishOf_qAct (k : Kind) (s : State) : (finishOf k s).qAct = s.qAct := by cases k <;> rfl

@[simp] theorem finishOf_qsShown (k : Kind) (s : State) : (finishOf k s).qsShown = s.qsShown := by cases k <;> rfl

@[simp] theorem finishOf_qOut (k : Kind) (s : State) : (finishOf k s).qOut = s.qOut := by cases k <;> rfl

@[simp] theorem finishOf_idleDrive (k : Kind) (s : State) : (finishOf k s).idleDrive = s.idleDrive := by cases k <;> rfl

@[simp] theorem finishOf_program (k : Kind) (s : State) : (finishOf k s).program = s.program := by cases k <;> rfl

@[simp] theorem finishOf_now (k : Kind) (s : State) : (finishOf k s).now = s.now := by cases k <;> rfl

@[simp] theorem finishOf_inputs (k : Kind) (s : State) : (finishOf k s).inputs = s.inputs := by cases k <;> rfl

@[simp] theorem finishOf_draws (k : Kind) (s : State) : (finishOf k s).draws = s.draws := by cases k <;> rfl

@[simp] theorem finishOf_heldDraw (k : Kind) (s : State) : (finishOf k s).heldDraw = s.heldDraw := by cases k <;> rfl

@[simp] theorem nextFrame_finishOf (k : Kind) (s : State) : nextFrame (finishOf k s) = nextFrame s := by simp [nextFrame]

@[simp] theorem curKind_finishOf (k : Kind) (s : State) : curKind (finishOf k s) = curKind s := by simp [curKind]

/-! ## What another master writes, field by field -/

@[simp] theorem applyExt_mode (s : State) : (applyExt s).mode = s.mode := rfl

@[simp] theorem applyExt_params (s : State) : (applyExt s).params = s.params := rfl

@[simp] theorem applyExt_cs (s : State) : (applyExt s).cs = s.cs := rfl

@[simp] theorem applyExt_ds (s : State) : (applyExt s).ds = s.ds := rfl

@[simp] theorem applyExt_ss (s : State) : (applyExt s).ss = s.ss := rfl

@[simp] theorem applyExt_es (s : State) : (applyExt s).es = s.es := rfl

@[simp] theorem applyExt_ip (s : State) : (applyExt s).ip = s.ip := rfl

@[simp] theorem applyExt_fr (s : State) : (applyExt s).fr = s.fr := rfl

@[simp] theorem applyExt_sp (s : State) : (applyExt s).sp = s.sp := rfl

@[simp] theorem applyExt_queue (s : State) : (applyExt s).queue = s.queue := rfl

@[simp] theorem busState_applyExt (s : State) : (applyExt s).busState = s.busState := rfl

@[simp] theorem applyExt_curOp (s : State) : (applyExt s).curOp = s.curOp := rfl

@[simp] theorem applyExt_curAddr (s : State) : (applyExt s).curAddr = s.curAddr := rfl

@[simp] theorem applyExt_curLanes (s : State) : (applyExt s).curLanes = s.curLanes := rfl

@[simp] theorem applyExt_curWdata (s : State) : (applyExt s).curWdata = s.curWdata := rfl

@[simp] theorem applyExt_curSeg (s : State) : (applyExt s).curSeg = s.curSeg := rfl

@[simp] theorem applyExt_curPart (s : State) : (applyExt s).curPart = s.curPart := rfl

@[simp] theorem applyExt_rdata (s : State) : (applyExt s).rdata = s.rdata := rfl

@[simp] theorem applyExt_result (s : State) : (applyExt s).result = s.result := rfl

@[simp] theorem applyExt_pendingOps (s : State) : (applyExt s).pendingOps = s.pendingOps := rfl

@[simp] theorem applyExt_nmiPending (s : State) : (applyExt s).nmiPending = s.nmiPending := rfl

@[simp] theorem applyExt_holdGranted (s : State) : (applyExt s).holdGranted = s.holdGranted := rfl

@[simp] theorem applyExt_granted (s : State) : (applyExt s).granted = s.granted := rfl

@[simp] theorem applyExt_rqPending0 (s : State) : (applyExt s).rqPending0 = s.rqPending0 := rfl

@[simp] theorem applyExt_rqPending1 (s : State) : (applyExt s).rqPending1 = s.rqPending1 := rfl

@[simp] theorem applyExt_testWait (s : State) : (applyExt s).testWait = s.testWait := rfl

@[simp] theorem applyExt_lockActive (s : State) : (applyExt s).lockActive = s.lockActive := rfl

@[simp] theorem applyExt_lockHeld (s : State) : (applyExt s).lockHeld = s.lockHeld := rfl

@[simp] theorem applyExt_ackPhase (s : State) : (applyExt s).ackPhase = s.ackPhase := rfl

@[simp] theorem applyExt_ackPending (s : State) : (applyExt s).ackPending = s.ackPending := rfl

@[simp] theorem applyExt_endPending (s : State) : (applyExt s).endPending = s.endPending := rfl

@[simp] theorem applyExt_ackType (s : State) : (applyExt s).ackType = s.ackType := rfl

@[simp] theorem applyExt_raised (s : State) : (applyExt s).raised = s.raised := rfl

@[simp] theorem applyExt_entrySteps (s : State) : (applyExt s).entrySteps = s.entrySteps := rfl

@[simp] theorem applyExt_waitStack (s : State) : (applyExt s).waitStack = s.waitStack := rfl

@[simp] theorem applyExt_resetClks (s : State) : (applyExt s).resetClks = s.resetClks := rfl

@[simp] theorem applyExt_restart (s : State) : (applyExt s).restart = s.restart := rfl

@[simp] theorem applyExt_qAct (s : State) : (applyExt s).qAct = s.qAct := rfl

@[simp] theorem applyExt_program (s : State) : (applyExt s).program = s.program := rfl

@[simp] theorem applyExt_now (s : State) : (applyExt s).now = s.now := rfl

@[simp] theorem applyExt_inputs (s : State) : (applyExt s).inputs = s.inputs := rfl

@[simp] theorem applyExt_latchAddr (s : State) : (applyExt s).latchAddr = s.latchAddr := rfl

@[simp] theorem applyExt_latchBheN (s : State) : (applyExt s).latchBheN = s.latchBheN := rfl

@[simp] theorem applyExt_draws (s : State) : (applyExt s).draws = s.draws := rfl

@[simp] theorem applyExt_heldDraw (s : State) : (applyExt s).heldDraw = s.heldDraw := rfl

@[simp] theorem nextFrame_applyExt (s : State) : nextFrame (applyExt s) = nextFrame s := rfl

/-! ## An operation taken from the free bus -/

/-- A state with an operation taken, written out. -/
theorem Taken.eq {s u : State} (h : Taken s u) : ∃ cs ip fr sp part ops re prog steps ap, u = { s with
    cs := cs, ip := ip, fr := fr, sp := sp, curPart := part, pendingOps := ops, restart := re, program := prog,
    entrySteps := steps, ackPending := ap } :=
  ⟨_, _, _, _, _, _, _, _, _, _, h⟩

/-- A state with no operation to run, written out. -/
theorem Rested.eq {s u : State} (h : Rested s u) : ∃ cs ip fr sp part ops re prog steps ap stack wait held op drive q act,
    u = { s with
      cs := cs, ip := ip, fr := fr, sp := sp, curPart := part, pendingOps := ops, restart := re, program := prog,
      entrySteps := steps, ackPending := ap, waitStack := stack, testWait := wait, lockHeld := held, curOp := op,
      idleDrive := drive, queue := q, qAct := act } :=
  ⟨_, _, _, _, _, _, _, _, _, _, _, _, _, _, _, _, _, h⟩

/-- The head of the core's requests that asks for an Idle state before the restart fetch. -/
theorem headIsIdle_eq {s : State} (h : headIsIdle s = true) :
    ∃ f w r i, s.program = .word f w :: r ∧ decode f w = .ok i ∧ kindOf i = none := by
  unfold headIsIdle at h
  split at h
  · rename_i f w r hp
    split at h
    · rename_i x hd
      exact ⟨f, w, r, _, hp, hd, rfl⟩
    · rename_i hd
      exact ⟨f, w, r, _, hp, hd, rfl⟩
    · cases h
  · cases h

/-- What a free bus does while the restart fetch is owed and nothing else is: the fetch if the queue has room for it, or an
Idle state, asked for or not. -/
theorem nextOp_restart {s : State} (hr : s.restart = true) (hp : s.pendingOps = []) (ha : s.ackPending = false)
    (he : s.entrySteps = []) :
    nextOp s = planIdle s ∨
    nextOp s = .run (fetchOp s.mode s.params.fetchLanes Config.resetStart) { s with restart := false, curPart := .whole } ∨
    ∃ i r, kindOf i = none ∧ nextOp s = .run i { s with program := r, curPart := .whole } := by
  unfold nextOp
  simp only [hp, hr, ha, he, Bool.true_and, Bool.false_eq_true, if_false]
  cases hh : headIsIdle s with
  | false =>
    simp only [Bool.not_false, if_true, planFetch]
    split <;> simp
  | true =>
    obtain ⟨f, w, r, i, hq, hd, hk⟩ := headIsIdle_eq hh
    have hroom : ∀ u : State, hasRoom u i = true := fun u => by simp [hasRoom, hk]
    simp only [Bool.not_true, Bool.false_eq_true, if_false]
    split
    · exact .inl rfl
    · rw [hq]
      simp only [planReq, hd, planFetch, hroom, if_true]
      exact .inr (.inr ⟨i, r, hk, rfl⟩)

end Sys2Proof.Machine


/-! The invariant of the bus interface: what a state has to meet before a T-state begins from it, and that every way one
T-state can follow another meets it. -/

namespace Sys2Proof.Machine

/-! ## What a T-state needs before it begins -/

/-- The current operation fits the T-state `b` that is to begin. -/
structure OpFits (b : BusState) (u : State) : Prop where
  cycle : inCycle b = true → (curKind u).isSome = true
  wired : ∀ i, u.curOp = some i → i.format = .maxs → u.mode = .max
  loaded : ∀ i, u.curOp = some i → inCycle b = true ∨ b = .t4 → Loaded i u
  laned : ∀ k, inCycle b = true → curKind u = some k → k.transfers = true → u.curLanes ≠ .none
  ack : u.ackPhase ≠ .none → curKind u = some .ack
  phase : phaseFits u.ackPhase b = true
  acked : inCycle b = true → curKind u = some .ack → u.ackPhase = .first ∨ u.ackPhase = .second

/-- Who has the bus, and the lock, fit the T-state `b` that is to begin. -/
structure OwnerFits (b : BusState) (u : State) : Prop where
  given : b = .holdAck → (u.holdGranted = true ∨ u.granted ≠ none) ∧ (u.mode = .max → u.lockHeld = false)
  owned : b ≠ .holdAck → u.holdGranted = false ∧ u.granted = none
  minOnly : u.mode = .min → u.rqPending0 = false ∧ u.rqPending1 = false ∧ u.granted = none
  maxOnly : u.mode = .max → u.holdGranted = false
  lock : b = .tw → (u.mode = .min → u.lockActive = false) ∧ (u.mode = .max → u.lockHeld = true → u.lockActive = true)

/-- The state `u` can go on with the T-state `b`, outside RESET. -/
structure Ready (b : BusState) (u : State) : Prop where
  active : b ≠ .inReset
  noReset : (nextFrame u).reset = false
  memory : Memory.wf u.mem = true
  queue : u.queue.length + (if inCycle b && decide (curKind u = some .fetch) then laneCount u.curLanes else 0) ≤
    u.params.queueDepth
  op : OpFits b u
  owner : OwnerFits b u
  pending : NoFetch u.pendingOps
  clocks : u.resetClks = 0
  first : u.restart = true → inCycle b = false ∧ b ≠ .t4 ∧ u.pendingOps = [] ∧ u.ackPhase = .none ∧
    u.ackPending = false ∧ u.entrySteps = []

/-! ## The pins of a T-state are legal -/

/-- A transfer that selects a lane does not show the lane pattern `11`. -/
theorem laneShown {i : Instr} {k : Kind} (hk : kindOf i = some k) (ht : k.transfers = true)
    (hl : lanesOfInstr i ≠ .none) : ¬(bheLevel (lanesOfInstr i) = true ∧ (addrOf i).getLsbD 0 = true) := by
  have hlanes : ∀ b a : Bool, lanesOf b a ≠ .none → ¬(bheLevel (lanesOf b a) = true ∧ a = true) := by decide
  have hport (p : Port) : (portAddr p).getLsbD 0 = p.getLsbD 0 := by
    rw [portAddr, BitVec.getLsbD_append]
    rfl
  cases i with
  | memr a b u | memw a b | sFetch a b | sMemr a b | sMemw a b => exact hlanes _ _ hl
  | ior p b | iow p b | sIor p b | sIow p b =>
    rw [addrOf, hport]
    exact hlanes _ _ hl
  | inta | sInta | sHalt =>
    cases hk
    cases ht
  | idle | sPassive | laneBoth | laneHigh | laneLow | laneNone => cases hk

theorem dtrPin_inCycle {s : State} {i : Instr} (w : BitVec 64) (hb : inCycle s.busState = true ∨ s.busState = .t4)
    (hc : s.curOp = some i) : dtrPin s w = some (dtrOf i (w.getLsbD 2)) := by
  cases hs : s.busState with
  | t1 | t2 | t3 | tw | t4 => simp [dtrPin, hs, hc]
  | idle | holdAck | inReset => simp [hs, inCycle] at hb

/-- The level of DT/R# that belongs to a transfer: 1 when it writes. -/
theorem dtrOf_transfer {i : Instr} {k : Kind} (hk : kindOf i = some k) (ht : k.transfers = true) (free : Bool) :
    dtrOf i free = k.writes := by
  unfold dtrOf
  rw [hk]
  cases k with
  | memRead | fetch | memWrite | ioRead | ioWrite => rfl
  | ack | halt => cases ht

theorem inCycle_of_strobeState {b : BusState} (h : strobeState b = true) : inCycle b = true := by
  cases b <;> simp_all [strobeState, inCycle]

theorem low_lowActive {b : BusState} {z a : Bool} (h : low (lowActive b z a) = true) : a = true := by
  cases b <;> cases z <;> cases a <;> simp_all [low, lowActive]

/-- A strobe that is low is the one of the kind of the cycle in progress. -/
theorem strobe_low {s : State} {z : Bool} {p : Kind → Bool}
    (h : low (lowActive s.busState z (strobeState s.busState && (curKind s).any p)) = true) :
    strobeState s.busState = true ∧ ∃ k, curKind s = some k ∧ p k = true := by
  have := low_lowActive h
  rw [Bool.and_eq_true, Option.any_eq_true] at this
  exact this

theorem intaN_low {s : State} {z : Bool}
    (h : low (lowActive s.busState z (strobeState s.busState && decide (curKind s = some .ack))) = true) :
    curKind s = some .ack := by
  have := low_lowActive h
  rw [Bool.and_eq_true, decide_eq_true_eq] at this
  exact this.2

/-- The pins of a T-state never show two strobes, nor a strobe against DT/R#. -/
theorem pinsOf_minctlLegal (fresh : Bool) (s : State) : minctlLegal (pinsOf fresh s) = true := by
  have hdtr : ∀ {k : Kind}, curKind s = some k → strobeState s.busState = true → k.transfers = true →
      dtrPin s (Config.freeWord s.draws) = some k.writes := by
    intro k hk hs ht
    obtain ⟨i, hc, hki⟩ := Option.bind_eq_some_iff.1 hk
    rw [dtrPin_inCycle _ (.inl (inCycle_of_strobeState hs)) hc, dtrOf_transfer hki ht]
  unfold minctlLegal
  rw [Bool.and_eq_true, Bool.not_eq_true', Bool.not_eq_true']
  cases hm : s.mode with
  | max => simp [pinsOf, hm, twoStrobesLow, strobeAgainst]
  | min =>
    constructor
    · rw [← Bool.not_eq_true]
      simp only [pinsOf, hm, twoStrobesLow, minPins, rdPin, Bool.or_eq_true, Bool.and_eq_true]
      rintro ((⟨hrd, hwr⟩ | ⟨hrd, hia⟩) | ⟨hwr, hia⟩)
      · obtain ⟨-, k, hk, hrd⟩ := strobe_low hrd
        obtain ⟨-, k', hk', hwr⟩ := strobe_low hwr
        obtain rfl := Option.some.inj (hk.symm.trans hk')
        cases k <;> simp_all [Kind.reads, Kind.writes]
      · obtain ⟨-, k, hk, hrd⟩ := strobe_low hrd
        obtain rfl := Option.some.inj (hk.symm.trans (intaN_low hia))
        cases hrd
      · obtain ⟨-, k, hk, hwr⟩ := strobe_low hwr
        obtain rfl := Option.some.inj (hk.symm.trans (intaN_low hia))
        cases hwr
    · rw [← Bool.not_eq_true]
      simp only [pinsOf, hm, strobeAgainst, minPins, rdPin, Bool.or_eq_true, Bool.and_eq_true, decide_eq_true_eq]
      rintro (⟨hrd, hne⟩ | ⟨hwr, hne⟩)
      · obtain ⟨hs, k, hk, hrd⟩ := strobe_low hrd
        rw [hdtr hk hs (by simp [Kind.transfers, hrd])] at hne
        cases k <;> simp_all [Kind.reads, Kind.writes]
      · obtain ⟨hs, k, hk, hwr⟩ := strobe_low hwr
        rw [hdtr hk hs (by simp [Kind.transfers, hwr]), hwr] at hne
        exact hne rfl

theorem statusNibble_s6 (s : State) (free : BitVec 2) : (statusNibble s free).getLsbD 3 = false := by
  unfold statusNibble
  generalize ifOf s.fr = f
  cases s.curSeg with
  | none =>
    dsimp only
    revert f free
    decide
  | some g =>
    dsimp only
    generalize segCode s.params.segEnc g = c
    revert f c
    decide

/-- In the T-states of data and status A19..A16 carry the status. -/
theorem aPins_status {s : State} (w : BitVec 64) (hb : dataPhase s.busState = true ∨ s.busState = .idle) :
    aPins s w = some (statusNibble s (w.extractLsb' 36 2)) := by
  cases hs : s.busState with
  | t2 | t3 | tw | t4 | idle => simp [aPins, hs]
  | t1 | holdAck | inReset => simp [hs, dataPhase, strobeState] at hb

/-- A T-state shows no illegal pattern, if in T1 of a transfer the lanes and the address are those of its operation and a
lane is selected. -/
theorem observed_pinsOf {s : State} (fresh : Bool) (hp : s.pins = pinsOf fresh s)
    (hl : ∀ i k, s.busState = .t1 → s.curOp = some i → kindOf i = some k → k.transfers = true →
      s.curAddr = addrOf i ∧ s.curLanes = lanesOfInstr i ∧ lanesOfInstr i ≠ .none) : observed s = none := by
  have hlegal := pinsOf_minctlLegal fresh s
  rw [← hp, minctlLegal, Bool.and_eq_true, Bool.not_eq_true', Bool.not_eq_true'] at hlegal
  obtain ⟨htwo, hagainst⟩ := hlegal
  have ha : s.pins.a = aPins s (Config.freeWord s.draws) := congrArg Pins.a hp
  have had : s.pins.ad = adPins s (Config.freeWord s.heldDraw) := congrArg Pins.ad hp
  have hbhe : s.pins.bheN = bhePin s (Config.freeWord s.draws) := congrArg Pins.bheN hp
  unfold observed
  rw [htwo, hagainst]
  split
  · rfl
  · simp only [Bool.false_eq_true, if_false]
    rw [if_neg, if_neg, if_neg]
    · rw [Bool.and_eq_true, Bool.and_eq_true, decide_eq_true_eq, Option.any_eq_true]
      rintro ⟨⟨hb, k, hk, ht⟩, hnone⟩
      obtain ⟨i, hc, hki⟩ := Option.bind_eq_some_iff.1 hk
      obtain ⟨haddr, hlanes, hsel⟩ := hl i k hb hc hki ht
      rw [noLaneShown, hbhe, had, bhePin_t1 _ hb hk ht, adPins_t1 _ hb hk ht, haddr, hlanes, ← bheLevel_eq] at hnone
      exact laneShown hki ht hsel (by simpa using hnone)
    · rw [Bool.and_eq_true, Bool.and_eq_true, decide_eq_true_eq, decide_eq_true_eq]
      rintro ⟨⟨hb, hk⟩, hnone⟩
      rcases hk with hk | hk <;> rw [ha, aPins_t1_io _ hb hk (by decide)] at hnone <;> simp at hnone
    · rw [Bool.and_eq_true]
      rintro ⟨hb, hs6⟩
      rw [ha, aPins_status _ (.inl hb), Option.any_some, statusNibble_s6] at hs6
      cases hs6

/-! ## The invariant of the T-state that begins -/

theorem Loaded.enter {i : Instr} {u : State} (h : Loaded i u) (b : BusState) : Loaded i (enter b u) :=
  ⟨by simpa using h.addr, by simpa using h.lanes, by simpa using h.seg, by simpa using h.low, by simpa using h.high⟩

theorem Ready.observed {b : BusState} {u : State} (h : Ready b u) : observed (enter b u) = none := by
  refine observed_pinsOf _ (enter_shows b u) fun i k hb hc hk ht => ?_
  obtain rfl : b = .t1 := hb
  have hc' : u.curOp = some i := by simpa using hc
  have hl := h.op.loaded i hc' (.inl rfl)
  refine ⟨by simpa using hl.addr, by simpa using hl.lanes, ?_⟩
  rw [← hl.lanes]
  exact h.op.laned k rfl (by simp [curKind, hc', hk]) ht

/-- A T-state that begins from a state that can go on with it meets the invariant. -/
theorem Ready.inv {b : BusState} {u : State} (h : Ready b u) : Inv (enter b u) where
  memory := by simpa using h.memory
  queue := by
    have hq := enter_queue b u
    have := h.queue
    simp only [inFlight, enter_busState, curKind_enter, enter_curLanes, enter_params]
    omega
  cycle := by simpa using h.op.cycle
  wired := by simpa using h.op.wired
  loaded := fun i hc hb => (h.op.loaded i (by simpa using hc) hb).enter b
  laned := by simpa using h.op.laned
  ack := by simpa using h.op.ack
  phase := by simpa using h.op.phase
  acked := by simpa using h.op.acked
  pending := by simpa [NoFetch] using h.pending
  given := fun hb => by
    obtain rfl : b = .holdAck := hb
    rw [enter_lockActive u (by decide)]
    exact ⟨by simp, by simpa using (h.owner.given rfl).1⟩
  owned := by simpa using h.owner.owned
  minOnly := fun hm => by
    have hm' : u.mode = .min := by simpa using hm
    obtain ⟨h0, h1, hg⟩ := h.owner.minOnly hm'
    rw [enter_lockActive u h.active, enter_rqPending0 u h.active, enter_rqPending1 u h.active, h0, h1]
    refine ⟨?_, by simp [hm'], by simp [hm'], by simpa using hg⟩
    split
    · rename_i hb
      exact (h.owner.lock hb).1 hm'
    · simp [hm']
  maxOnly := by simpa using h.owner.maxOnly
  locked := fun hm hl => by
    have hm' : u.mode = .max := by simpa using hm
    have hl' : u.lockHeld = true := by simpa using hl
    rw [enter_lockActive u h.active]
    split
    · rename_i hb
      exact (h.owner.lock hb).2 hm' hl'
    · have hb : b ≠ .holdAck := fun hb => by simp [(h.owner.given hb).2 hm'] at hl'
      simp [hl', hm', hb]
  legal := h.observed
  reset := by simp [h.active, h.noReset]
  clocks := fun _ => by simpa using h.clocks
  owed := fun hb => absurd hb h.active
  first := by simpa using h.first

/-! ## The current operation, in each way a T-state can turn into another -/

/-- No cycle is in progress. -/
theorem OpFits.noCycle {b : BusState} {u : State} (hb : inCycle b = false ∧ b ≠ .t4)
    (hw : ∀ i, u.curOp = some i → i.format = .maxs → u.mode = .max) (hp : u.ackPhase = .none) : OpFits b u where
  cycle := by simp [hb]
  wired := hw
  loaded := by simp [hb]
  laned := by simp [hb]
  ack := by simp [hp]
  phase := by simp [hp, phaseFits]
  acked := by simp [hb]

/-- The operation of a cycle goes on, or comes to its T4. -/
theorem OpFits.goesOn {b : BusState} {v u : State} (hv : Inv v) (hvb : inCycle v.busState = true)
    (hb : inCycle b = true ∨ b = .t4)
    (hp : (u.ackPhase = v.ackPhase ∧ (b = .t4 → v.ackPhase ≠ .second)) ∨ (b = .t4 ∧ u.ackPhase = .none))
    (op : u.curOp = v.curOp := by rfl) (addr : u.curAddr = v.curAddr := by rfl)
    (lanes : u.curLanes = v.curLanes := by rfl) (data : u.curWdata = v.curWdata := by rfl)
    (seg : u.curSeg = v.curSeg := by rfl) (mode : u.mode = v.mode := by rfl) : OpFits b u := by
  have hk : curKind u = curKind v := by simp [curKind, op]
  have hnoCycle : b = .t4 → inCycle b = false := by
    rintro rfl
    rfl
  refine ⟨fun _ => ?_, ?_, fun i hc _ => ?_, fun k _ => ?_, fun hn => ?_, ?_, fun hcyc hka => ?_⟩
  · rw [hk]
    exact hv.cycle hvb
  · rw [op, mode]
    exact hv.wired
  · obtain ⟨haddr, hlanes, hseg, hlow, hhigh⟩ := hv.loaded i (op ▸ hc) (.inl hvb)
    constructor <;> simp only [addr, lanes, seg, data] <;> assumption
  · rw [hk, lanes]
    exact hv.laned k hvb
  · rw [hk]
    rcases hp with ⟨hp, -⟩ | ⟨-, hp⟩
    · exact hv.ack (hp ▸ hn)
    · exact absurd hp hn
  · rcases hp with ⟨hp, hsec⟩ | ⟨-, hp⟩
    · have hphase := hv.phase
      rw [hp]
      cases ha : v.ackPhase with
      | none => rfl
      | first => rcases hb with hb | hb <;> simp [phaseFits, hb]
      | gap n =>
        rw [ha, phaseFits, decide_eq_true_eq] at hphase
        simp [hphase, inCycle] at hvb
      | second =>
        rcases hb with hb | hb
        · exact hb
        · exact absurd ha (hsec hb)
    · simp [hp, phaseFits]
  · rcases hp with ⟨hp, -⟩ | ⟨hb, -⟩
    · rw [hp]
      exact hv.acked hvb (hk ▸ hka)
    · simp [hnoCycle hb] at hcyc

theorem onLanes_low (l : Lanes) (v fill : Word) (h : hasLow l = true) : (onLanes l v fill).lo = v.lo := by
  simp [onLanes, h]

theorem onLanes_high (l : Lanes) (v fill : Word) (h : hasHigh l = true) : (onLanes l v fill).hi = v.hi := by
  simp [onLanes, h]

/-- The operands of an operation are held when it is taken. -/
theorem loadOp_loaded (i : Instr) (s : State) : Loaded i (loadOp i s) :=
  ⟨rfl, rfl, rfl, onLanes_low _ _ _, onLanes_high _ _ _⟩

/-- An operation opens its T1, in the phase `p` of the acknowledge sequence. -/
theorem OpFits.opens {i : Instr} {k : Kind} {p : AckPhase} {w : State} (hk : kindOf i = some k)
    (hm : i.format = .maxs → w.mode = .max) (hl : k.transfers = true → lanesOfInstr i ≠ .none)
    (hp : (k = .ack ∧ (p = .first ∨ p = .second)) ∨ (k ≠ .ack ∧ p = .none)) :
    OpFits .t1 { loadOp i w with ackPhase := p } := by
  have hck : curKind { loadOp i w with ackPhase := p } = some k := hk
  refine ⟨fun _ => by rw [hck]; rfl, fun j hc => ?_, fun j hc _ => ?_, fun k' _ hk' ht => ?_, fun hn => ?_, ?_, fun _ hka => ?_⟩
  · obtain rfl := Option.some.inj hc
    exact hm
  · obtain rfl := Option.some.inj hc
    exact ⟨rfl, rfl, rfl, onLanes_low _ _ _, onLanes_high _ _ _⟩
  · obtain rfl := Option.some.inj (hck.symm.trans hk')
    exact hl ht
  · rcases hp with ⟨rfl, -⟩ | ⟨-, hp⟩
    · exact hck
    · exact absurd hp hn
  · rcases hp with ⟨-, rfl | rfl⟩ | ⟨-, rfl⟩ <;> rfl
  · rcases hp with ⟨-, hp⟩ | ⟨hne, -⟩
    · exact hp
    · exact absurd (Option.some.inj (hck.symm.trans hka)) hne

/-- The Idle states between the two acknowledge cycles keep the operation. -/
theorem OpFits.gap {n : Nat} {v u : State} (hv : Inv v) (hp : v.ackPhase ≠ .none) (hu : u.ackPhase = .gap n)
    (op : u.curOp = v.curOp := by rfl) (mode : u.mode = v.mode := by rfl) : OpFits .idle u where
  cycle := by simp [inCycle]
  wired := by
    rw [op, mode]
    exact hv.wired
  loaded := by simp [inCycle]
  laned := by simp [inCycle]
  ack := fun _ => by
    rw [curKind, op]
    exact hv.ack hp
  phase := by simp [hu, phaseFits]
  acked := by simp [inCycle]

/-! ## Who has the bus, in each way a T-state can turn into another -/

/-- Nobody is given the bus. -/
theorem OwnerFits.keeps {b : BusState} {v u : State} (hv : Inv v) (hvb : v.busState ≠ .holdAck) (hb : b ≠ .holdAck)
    (hold : u.holdGranted = v.holdGranted := by rfl) (granted : u.granted = v.granted := by rfl)
    (mode : u.mode = v.mode := by rfl) (rq0 : u.rqPending0 = v.rqPending0 := by rfl)
    (rq1 : u.rqPending1 = v.rqPending1 := by rfl) (lock : u.lockActive = v.lockActive := by rfl)
    (held : u.lockHeld = v.lockHeld ∨ b ≠ .tw := by exact .inl rfl) : OwnerFits b u where
  given := fun h => absurd h hb
  owned := fun _ => by
    rw [hold, granted]
    exact hv.owned hvb
  minOnly := by
    rw [mode, rq0, rq1, granted]
    exact fun hm => (hv.minOnly hm).2
  maxOnly := by
    rw [mode, hold]
    exact hv.maxOnly
  lock := fun hw => by
    rw [mode, lock]
    refine ⟨fun hm => (hv.minOnly hm).1, fun hm hl => hv.locked hm ?_⟩
    rcases held with h | h
    · exact h ▸ hl
    · exact absurd hw h

/-- In maximum mode no locked sequence is on while LOCK# is not. -/
theorem Inv.lockHeld_of_inactive {v : State} (hv : Inv v) (hm : v.mode = .max) (h : v.lockActive = false) :
    v.lockHeld = false := by
  rw [← Bool.not_eq_true]
  intro hl
  simp [hv.locked hm hl] at h

/-- The bus stays away. -/
theorem OwnerFits.holds {v : State} (hv : Inv v) (hvb : v.busState = .holdAck) : OwnerFits .holdAck (applyExt v) where
  given := fun _ => ⟨(hv.given hvb).2, fun hm => hv.lockHeld_of_inactive hm (hv.given hvb).1⟩
  owned := fun h => absurd rfl h
  minOnly := fun hm => (hv.minOnly hm).2
  maxOnly := hv.maxOnly
  lock := nofun

/-- The bus is the 8086's again. -/
theorem OwnerFits.takesBack {v u : State} (hv : Inv v) (hold : u.holdGranted = false) (granted : u.granted = none)
    (mode : u.mode = v.mode := by rfl) (rq0 : u.rqPending0 = v.rqPending0 := by rfl)
    (rq1 : u.rqPending1 = v.rqPending1 := by rfl) : OwnerFits .idle u where
  given := nofun
  owned := fun _ => ⟨hold, granted⟩
  minOnly := by
    rw [mode, rq0, rq1]
    exact fun hm => ⟨(hv.minOnly hm).2.1, (hv.minOnly hm).2.2.1, granted⟩
  maxOnly := fun _ => hold
  lock := nofun

/-- The bus is given away. -/
theorem OwnerFits.gives {v u : State} (hv : Inv v) (hvb : v.busState ≠ .holdAck) (h : handOver v = some u) :
    OwnerFits .holdAck u := by
  obtain ⟨hhold, hgr⟩ := hv.owned hvb
  rcases handOver_cases h with ⟨hm, -, rfl⟩ | ⟨hm, hl, -, rfl⟩ | ⟨hm, hl, h0, -, rfl⟩
  · exact ⟨fun _ => ⟨.inl rfl, fun h => by simp [hm] at h⟩, fun h => absurd rfl h,
      fun h => (hv.minOnly hm).2, fun h => by simp [hm] at h, nofun⟩
  · exact ⟨fun _ => ⟨.inr nofun, fun hm => hv.lockHeld_of_inactive hm hl⟩, fun h => absurd rfl h,
      fun h => by simp [hm] at h, fun _ => hhold, nofun⟩
  · exact ⟨fun _ => ⟨.inr nofun, fun hm => hv.lockHeld_of_inactive hm hl⟩, fun h => absurd rfl h,
      fun h => by simp [hm] at h, fun _ => hhold, nofun⟩

/-! ## Every way a T-state can turn into another -/

/-- The operation of the T-state that comes is one of the wiring. -/
theorem exec_curOp {i : Instr} {s t : State} (h : exec i s = .next t) :
    t.mode = s.mode ∧ (t.curOp = some i ∨ t.curOp = none ∨ t.curOp = s.curOp) := by
  obtain ⟨-, ⟨k, -, -, hr⟩ | ⟨-, hr⟩ | ⟨-, ⟨x, hr⟩ | ⟨l, hr⟩⟩⟩ := exec_next h
  · rcases runCycle_next hr with
      ⟨-, -, rfl⟩ | ⟨-, -, -, rfl⟩ | ⟨-, -, rfl⟩ | ⟨-, -, -, rfl⟩ | ⟨-, -, -, rfl⟩ | ⟨-, rfl⟩ | ⟨-, rfl⟩ <;> simp
  · rcases runAck_next hr with
      ⟨-, hcase⟩ | ⟨-, -, rfl⟩ | ⟨-, -, rfl⟩ | ⟨-, -, -, hf⟩ | ⟨-, -, -, rfl⟩ | ⟨-, rfl⟩ | ⟨-, rfl⟩
    · rcases hcase with ⟨-, -, rfl⟩ | ⟨g, -, -, rfl⟩ | ⟨-, rfl⟩ | ⟨g, -, rfl⟩ | ⟨-, rfl⟩ <;> simp
    · simp
    · simp
    · rcases finishAck_next hf with ⟨-, rfl⟩ | ⟨-, rfl⟩ <;> simp
    all_goals simp
  · rcases runIdle_next hr with ⟨-, rfl⟩ | ⟨-, rfl⟩ | ⟨-, rfl⟩ <;> simp
  · obtain ⟨-, ⟨-, rfl⟩ | ⟨-, rfl⟩ | ⟨-, rfl⟩ | ⟨-, rfl⟩⟩ := runLane_next hr <;> simp

/-- After every step outside RESET the operation in progress is one of the wiring. -/
theorem step_wired {s t : State} (hi : Inv s) (h : step s = .next t) {i : Instr} (hc : t.curOp = some i)
    (hf : i.format = .maxs) : t.mode = .max := by
  obtain ⟨-, -, ⟨-, rfl⟩ | ⟨-, -, -, rfl⟩ | ⟨-, hb, ⟨b, u, hp, rfl⟩ | ⟨j, u, hp, he⟩⟩⟩ := step_next h
  · simp [resetInternal] at hc
  · simpa using hi.wired i (by simpa using hc) hf
  · have hv := hi.polled
    generalize poll (sampleTest s) = v at hp hv
    rcases planActive_go hp with ⟨-, -, -, rfl⟩ | ⟨-, -, -, rfl⟩ | ⟨-, -, -, ho⟩ | ⟨-, -, -, hre⟩
    · simp at hc
    · simpa using hv.wired i (by simpa using hc) hf
    · rcases handOver_cases ho with ⟨-, -, rfl⟩ | ⟨-, -, -, rfl⟩ | ⟨-, -, -, -, rfl⟩ <;> simp at hc
    · simp [hre.noOp] at hc
  · have hv := hi.polled
    have hvb : (poll (sampleTest s)).busState ≠ .inReset := by simpa using hb
    generalize poll (sampleTest s) = v at hp hv hvb
    have hvu : u.mode = v.mode ∧ u.curOp = v.curOp := by
      rcases planActive_run hvb hv.pending hp with ⟨-, -, rfl⟩ | ⟨-, -, -, rfl⟩ | ⟨-, -, -, hst⟩
      · exact ⟨rfl, rfl⟩
      · exact ⟨rfl, rfl⟩
      · obtain ⟨_, _, _, _, _, _, _, _, _, _, rfl⟩ := hst.taken.eq
        exact ⟨rfl, rfl⟩
    obtain ⟨hmode, hop⟩ := exec_curOp he
    rw [hmode, hvu.1]
    rcases hop with hop | hop | hop
    · obtain rfl := Option.some.inj (hc.symm.trans hop)
      exact hvu.1 ▸ (exec_next he).1 hf
    · simp [hc] at hop
    · exact hv.wired i (by rw [← hvu.2, ← hop, hc]) hf

theorem laneBytes_length (l : Lanes) (v : Word) : (laneBytes l v).length = laneCount l := by
  cases l <;> rfl

theorem finishOf_wf {k : Kind} {v : State} (h : Memory.wf v.mem = true) : Memory.wf (finishOf k v).mem = true := by
  cases k with
  | memWrite => exact storeLanes_wf h _ _ _
  | memRead | fetch | ioRead | ioWrite | ack | halt => exact h

/-- The bytes of a fetch that ends had their room. -/
theorem finishOf_queue {k : Kind} {v : State} (hv : Inv v) (hb : inCycle v.busState = true) (hk : curKind v = some k) :
    (finishOf k v).queue.length ≤ v.params.queueDepth := by
  have hq := hv.queue
  cases k with
  | fetch =>
    rw [inFlight, hb, hk] at hq
    simpa [finishOf, laneBytes_length] using hq
  | memRead | ioRead | memWrite | ioWrite | ack | halt => exact le_trans (Nat.le_add_right _ _) hq

/-- While the restart fetch is owed, a free bus that starts nothing still owes nothing else. -/
theorem rest_first {v u : State} (hv : Inv v) (hn : nextOp v = .go .idle u) (hr : u.restart = true) :
    u.pendingOps = [] ∧ u.ackPending = false ∧ u.entrySteps = [] := by
  obtain ⟨-, -, hp, -, ha, he⟩ := hv.first ((nextOp_go_noNewDebt hn).1 hr)
  rcases nextOp_restart ((nextOp_go_noNewDebt hn).1 hr) hp ha he with h | h | ⟨i, r, -, h⟩ <;> rw [hn] at h
  · cases h
    exact ⟨hp, ha, he⟩
  · cases h
  · cases h

/-- While the restart fetch is owed, no other operation with a cycle starts, and nothing else is owed. -/
theorem start_first {v u : State} {i : Instr} (hv : Inv v) (hn : nextOp v = .run i u) (hr : u.restart = true) :
    kindOf i = none ∧ u.pendingOps = [] ∧ u.ackPending = false ∧ u.entrySteps = [] := by
  obtain ⟨-, -, hp, -, ha, he⟩ := hv.first ((nextOp_run_noNewDebt hn).1 hr)
  rcases nextOp_restart ((nextOp_run_noNewDebt hn).1 hr) hp ha he with h | h | ⟨j, r, hk, h⟩ <;> rw [hn] at h
  · cases h
  · cases h
    cases hr
  · cases h
    exact ⟨hk, hp, ha, he⟩

/-- Where no cycle is in progress the queue is within its depth. -/
theorem Inv.queue_le {s : State} (hi : Inv s) : s.queue.length ≤ s.params.queueDepth :=
  le_trans (Nat.le_add_right _ _) hi.queue

/-- A fetch that is started has its room in the queue. -/
theorem Started.queue {v u : State} {i : Instr} (h : Started v i u) (hv : Inv v) :
    v.queue.length + (if decide (kindOf i = some .fetch) then laneCount (lanesOfInstr i) else 0) ≤ v.params.queueDepth := by
  split
  · rename_i hk
    rw [decide_eq_true_eq] at hk
    simpa [hasRoom, hk] using h.room
  · exact hv.queue_le

/-- Inside a cycle no RESET is over yet that owes its fetch. -/
theorem Inv.restart_inCycle {s : State} (hi : Inv s) (hb : inCycle s.busState = true) : s.restart = false := by
  rw [← Bool.not_eq_true]
  intro hr
  simp [(hi.first hr).1] at hb

theorem Inv.ackPhase_holdAck {s : State} (hi : Inv s) (hb : s.busState = .holdAck) : s.ackPhase = .none := by
  have := hi.phase
  cases hp : s.ackPhase <;> simp_all [phaseFits, inCycle]

theorem Inv.ackPhase_ne_ack {s : State} (hi : Inv s) {k : Kind} (hk : curKind s = some k) (hka : k ≠ .ack) :
    s.ackPhase = .none := by
  by_contra hp
  exact hka (Option.some.inj (hk.symm.trans (hi.ack hp)))

/-- Inside a cycle the bytes of a fetch in progress have their room in the queue. -/
theorem Inv.queue_inCycle {s : State} (hi : Inv s) (hb : inCycle s.busState = true) :
    s.queue.length + (if curKind s = some .fetch then laneCount s.curLanes else 0) ≤ s.params.queueDepth := by
  have := hi.queue
  rw [inFlight, hb, Bool.true_and] at this
  simpa using this

/-- Every T-state outside RESET begins from a state that can go on with it. -/
theorem Turn.ready {s v t : State} (h : Turn s v t) (hv : Inv v) (hvb : v.busState = s.busState)
    (hva : v.ackPhase = s.ackPhase) (hact : s.busState ≠ .inReset) (hr : (nextFrame v).reset = false)
    (hw : ∀ i, t.curOp = some i → i.format = .maxs → t.mode = .max) : ∃ b u, t = enter b u ∧ Ready b u := by
  have hclk : v.resetClks = 0 := hv.clocks (hvb ▸ hact)
  have hbound : ∀ {b : BusState}, atBoundary b = true → b ≠ .holdAck := by
    rintro b hb rfl
    cases hb
  cases h with
  | t1 i k hb hc hk =>
    have hcyc : inCycle v.busState = true := by simp [hvb, hb, inCycle]
    refine ⟨_, _, rfl, by decide, by simpa using hr, by simpa using hv.memory, ?_, ?_, ?_,
      by rw [latchAddress_pendingOps]; exact hv.pending, by simpa using hclk, by simp [hv.restart_inCycle hcyc]⟩
    · simpa [inCycle] using hv.queue_inCycle hcyc
    · rw [latchAddress_eq]
      exact .goesOn hv hcyc (.inl rfl) (.inl ⟨rfl, nofun⟩)
    · rw [latchAddress_eq]
      exact .keeps hv (by simp [hvb, hb]) (by decide)
  | t2 i k hb hc hk =>
    have hcyc : inCycle v.busState = true := by simp [hvb, hb, inCycle]
    refine ⟨_, _, rfl, by decide, hr, hv.memory, ?_, .goesOn hv hcyc (.inl rfl) (.inl ⟨rfl, nofun⟩),
      .keeps hv (by simp [hvb, hb]) (by decide), hv.pending, hclk, by simp [hv.restart_inCycle hcyc]⟩
    simpa [inCycle] using hv.queue_inCycle hcyc
  | wait i k hb hc hk hrd =>
    have hcyc : inCycle v.busState = true := by rcases hb with hb | hb <;> simp [hvb, hb, inCycle]
    refine ⟨_, _, rfl, by decide, hr, hv.memory, ?_, .goesOn hv hcyc (.inl rfl) (.inl ⟨rfl, nofun⟩),
      .keeps hv (by rcases hb with hb | hb <;> simp [hvb, hb]) (by decide), hv.pending, hclk,
      by simp [hv.restart_inCycle hcyc]⟩
    simpa [inCycle] using hv.queue_inCycle hcyc
  | fin i k hb hc hk hka hrd =>
    have hcyc : inCycle v.busState = true := by rcases hb with hb | hb <;> simp [hvb, hb, inCycle]
    have hck : curKind v = some k := by simp [curKind, hc, hk]
    have hp := hv.ackPhase_ne_ack hck hka
    refine ⟨_, _, rfl, by decide, by simpa using hr, finishOf_wf hv.memory, ?_, ?_, ?_,
      by rw [finishOf_pendingOps]; exact hv.pending, by simpa using hclk, by simp [hv.restart_inCycle hcyc]⟩
    · simpa [inCycle] using finishOf_queue hv hcyc hck
    · exact .goesOn hv hcyc (.inr rfl) (.inr ⟨rfl, by simpa using hp⟩) (by simp) (by simp) (by simp) (by simp) (by simp)
        (by simp)
    · exact .keeps hv (by rcases hb with hb | hb <;> simp [hvb, hb]) (by decide) (by simp) (by simp) (by simp) (by simp)
        (by simp) (by simp) (by simp)
  | ack1 i hb hc hk hrd hp =>
    have hcyc : inCycle v.busState = true := by rcases hb with hb | hb <;> simp [hvb, hb, inCycle]
    refine ⟨_, _, rfl, by decide, hr, hv.memory, ?_,
      .goesOn hv hcyc (.inr rfl) (.inl ⟨rfl, fun _ => by simp [hva, hp]⟩),
      .keeps hv (by rcases hb with hb | hb <;> simp [hvb, hb]) (by decide), hv.pending, hclk,
      by simp [hv.restart_inCycle hcyc]⟩
    simpa [inCycle] using hv.queue_le
  | ack2 i hb hc hk hrd hp =>
    have hcyc : inCycle v.busState = true := by rcases hb with hb | hb <;> simp [hvb, hb, inCycle]
    refine ⟨_, _, rfl, by decide, hr, hv.memory, ?_, .goesOn hv hcyc (.inr rfl) (.inr ⟨rfl, rfl⟩),
      .keeps hv (by rcases hb with hb | hb <;> simp [hvb, hb]) (by decide), hv.pending, hclk,
      by simp [hv.restart_inCycle hcyc]⟩
    simpa [inCycle] using hv.queue_le
  | release hb hrel =>
    have hp := hv.ackPhase_holdAck (hvb.trans hb)
    refine ⟨_, _, rfl, by decide, hr, extMemory_wf hv.memory _, ?_, .noCycle (by decide) nofun hp, .takesBack hv rfl rfl, hv.pending,
      hclk, fun hre => ⟨rfl, nofun, (hv.first hre).2.2⟩⟩
    simpa [inCycle] using hv.queue_le
  | hold hb hrel =>
    have hp := hv.ackPhase_holdAck (hvb.trans hb)
    refine ⟨_, _, rfl, by decide, hr, extMemory_wf hv.memory _, ?_, .noCycle (by decide) hv.wired hp, .holds hv (hvb.trans hb),
      hv.pending, hclk, fun hre => ⟨rfl, nofun, (hv.first hre).2.2⟩⟩
    simpa [inCycle] using hv.queue_le
  | give hb hp u ho =>
    have howner := OwnerFits.gives hv (hvb ▸ hbound hb) ho
    have hu : ∃ h g r0 r1, u = { v with holdGranted := h, granted := g, rqPending0 := r0, rqPending1 := r1, curOp := none } := by
      rcases handOver_cases ho with ⟨-, -, rfl⟩ | ⟨-, -, -, rfl⟩ | ⟨-, -, -, -, rfl⟩ <;> exact ⟨_, _, _, _, rfl⟩
    obtain ⟨h, g, r0, r1, rfl⟩ := hu
    refine ⟨_, _, rfl, by decide, hr, hv.memory, ?_, .noCycle (by decide) nofun (hva.trans hp), howner, hv.pending, hclk,
      fun hre => ⟨rfl, nofun, (hv.first hre).2.2⟩⟩
    simpa [inCycle] using hv.queue_le
  | rest hb hp ho u hn hre =>
    have hfirst := fun h => rest_first hv hn h
    have hpend := hre.noFetch hv.pending
    have hop : ∀ i, u.curOp = some i → i.format = .maxs → u.mode = .max := by simp [hre.noOp]
    have hq := hre.queue
    obtain ⟨_, _, _, _, _, _, _, _, _, _, _, _, _, _, _, _, _, rfl⟩ := hre.rested.eq
    refine ⟨_, _, rfl, by decide, hr, hv.memory, ?_, .noCycle (by decide) hop (hva.trans hp),
      .keeps hv (hvb ▸ hbound hb) (by decide) (held := .inr nofun), hpend, hclk,
      fun h => ⟨rfl, nofun, (hfirst h).1, hva.trans hp, (hfirst h).2⟩⟩
    rcases hq with hq | hq <;> simp only at hq <;> simp [inCycle, hq, hv.queue_le]
  | ackGo i hb hp hc hk =>
    have hpn : v.ackPhase ≠ .none := by rcases hp with ⟨hp, -⟩ | hp <;> simp [hva, hp]
    have hre : v.restart = false := by
      rw [← Bool.not_eq_true]
      exact fun h => hpn (hv.first h).2.2.2.1
    refine ⟨_, _, rfl, by decide, hr, hv.memory, ?_, .opens hk (hv.wired i hc) nofun (.inl ⟨rfl, .inr rfl⟩),
      .keeps hv (hvb ▸ hbound hb) (by decide), hv.pending, hclk, by simp [hre]⟩
    simpa [curKind, hk] using hv.queue_le
  | ackGap i n hb hp hc hk =>
    have hpn : v.ackPhase ≠ .none := by rcases hp with ⟨hp, -⟩ | hp <;> simp [hva, hp]
    have hre : v.restart = false := by
      rw [← Bool.not_eq_true]
      exact fun h => hpn (hv.first h).2.2.2.1
    refine ⟨_, _, rfl, by decide, hr, hv.memory, ?_, .gap hv hpn rfl, .keeps hv (hvb ▸ hbound hb) (by decide), hv.pending,
      hclk, by simp [hre]⟩
    simpa [inCycle] using hv.queue_le
  | start i u k hb hp ho hn hs hk hka hl =>
    have hfirst := fun h => start_first hv hn h
    have hop : OpFits .t1 (loadOp i u) :=
      .opens (w := u) (p := u.ackPhase) hk (by simpa using hw i (enter_curOp _ _)) hl
        (.inr ⟨hka, (congrArg State.ackPhase hs.taken).trans (hva.trans hp)⟩)
    have hq := hs.queue hv
    have hpend := hs.noFetch hv.pending
    obtain ⟨_, _, _, _, _, _, _, _, _, _, rfl⟩ := hs.taken.eq
    refine ⟨_, _, rfl, by decide, hr, hv.memory, ?_, hop,
      .keeps hv (hvb ▸ hbound hb) (by decide), hpend, hclk, fun h => by simp [(hfirst h).1] at hk⟩
    exact hq
  | startAck i u hb hp ho hn hs hk =>
    have hfirst := fun h => start_first hv hn h
    have hwi := hw i (enter_curOp _ _)
    have hpend := hs.noFetch hv.pending
    obtain ⟨_, _, _, _, _, _, _, _, _, _, rfl⟩ := hs.taken.eq
    refine ⟨_, _, rfl, by decide, hr, hv.memory, ?_, .opens hk (by simpa using hwi) nofun (.inl ⟨rfl, .inl rfl⟩),
      .keeps hv (hvb ▸ hbound hb) (by decide), hpend, hclk, fun h => by simp [(hfirst h).1] at hk⟩
    simpa [curKind, hk] using hv.queue_le
  | startIdle i u x hb hp ho hn hs hk =>
    have hfirst := fun h => start_first hv hn h
    have hpend := hs.noFetch hv.pending
    obtain ⟨_, _, _, _, _, _, _, _, _, _, rfl⟩ := hs.taken.eq
    refine ⟨_, _, rfl, by decide, hr, hv.memory, ?_, .noCycle (by decide) nofun (hva.trans hp),
      .keeps hv (hvb ▸ hbound hb) (by decide), hpend, hclk,
      fun h => ⟨rfl, nofun, (hfirst h).2.1, hva.trans hp, (hfirst h).2.2⟩⟩
    simpa [inCycle] using hv.queue_le
  | startLane i u l hb hp ho hn hs hk =>
    have hfirst := fun h => start_first hv hn h
    have hpend := hs.noFetch hv.pending
    obtain ⟨_, _, _, _, _, _, _, _, _, _, rfl⟩ := hs.taken.eq
    refine ⟨_, _, rfl, by decide, hr, hv.memory, ?_, .noCycle (by decide) nofun (hva.trans hp),
      .keeps hv (hvb ▸ hbound hb) (by decide), hpend, hclk,
      fun h => ⟨rfl, nofun, (hfirst h).2.1, hva.trans hp, (hfirst h).2.2⟩⟩
    simpa [inCycle] using hv.queue_le

/-! ## RESET -/

/-- The T-state that follows RESET begins from a state that can go on with it. -/
theorem ready_leave {s : State} (hi : Inv s) (hs : s.busState = .inReset) (hr : (nextFrame s).reset = false) :
    Ready .idle { s with resetClks := 0, restart := true } := by
  obtain ⟨-, -, hpend, hp, hap, hes⟩ := hi.first (hi.owed hs)
  refine ⟨by decide, hr, hi.memory, ?_, .noCycle (by decide) hi.wired hp, .keeps hi (by simp [hs]) (by decide), hi.pending,
    rfl, fun _ => ⟨rfl, nofun, hpend, hp, hap, hes⟩⟩
  simpa [inCycle] using hi.queue_le

theorem outsideDone_wf {s : State} (h : Memory.wf s.mem = true) : Memory.wf (outsideDone s).mem = true := by
  rw [outsideDone_mem]
  split
  · exact extMemory_wf h _
  · exact h

/-- The T-states of RESET meet the invariant. -/
theorem inv_resetInternal {s : State} (hm : Memory.wf s.mem = true) (hr : (nextFrame s).reset = true) :
    Inv (enter .inReset (resetInternal s)) where
  memory := by simpa [resetInternal] using cutWrite_wf hm
  queue := by simp [resetInternal, inFlight, inCycle]
  cycle := by simp [inCycle]
  wired := by simp [resetInternal]
  loaded := by simp [resetInternal]
  laned := by simp [inCycle]
  ack := by simp [resetInternal]
  phase := by simp [resetInternal, phaseFits]
  acked := by simp [inCycle]
  pending := by simp [resetInternal]
  given := by simp
  owned := by simp [resetInternal]
  minOnly := by simp [resetInternal]
  maxOnly := by simp [resetInternal]
  locked := by simp [resetInternal]
  legal := by simp [observed, ownsBus]
  reset := by
    have : nextFrame (resetInternal s) = nextFrame s := rfl
    simp [this, hr]
  clocks := by simp
  owed := by simp [resetInternal]
  first := by simp [resetInternal, inCycle]

/-- Settles O60: RESET sets what the invariant asks for, and every other T-state begins from a state that can go on with it. -/
theorem stepKeepsInvariant : Obligations.StepKeepsInvariant := by
  intro s t hi h
  by_cases ht : t.busState = .inReset
  · obtain ⟨hr, rfl⟩ := step_reset hi h ht
    refine inv_resetInternal (outsideDone_wf hi.memory) ?_
    rw [outsideDone_eq]
    exact hr
  · by_cases hs : s.busState = .inReset
    · obtain ⟨hr, rfl⟩ := step_leave h ht hs
      exact (ready_leave hi hs hr).inv
    · obtain ⟨hr, -, hturn⟩ := step_out hi h ht hs
      obtain ⟨b, u, rfl, hready⟩ := hturn.ready hi.polled (by simp) (by simp) hs (by simpa using hr)
        fun i hc hf => step_wired hi h hc hf
      exact hready.inv

/-- Settles O59: each part of the invariant is read off the reset state. -/
theorem resetInvariant : Obligations.ResetInvariant where
  memory := rfl
  queue := by decide
  cycle := nofun
  wired := nofun
  loaded := nofun
  laned := nofun
  ack := fun h => absurd rfl h
  phase := rfl
  acked := nofun
  pending := nofun
  given := nofun
  owned := fun _ => ⟨rfl, rfl⟩
  minOnly := fun _ => ⟨rfl, rfl, rfl, rfl⟩
  maxOnly := nofun
  locked := nofun
  legal := by
    have hs6 : dataPhase State.reset.busState = false := rfl
    have ht1 : State.reset.busState ≠ .t1 := by decide
    unfold observed
    rw [hs6]
    simp only [ht1, decide_false, Bool.false_and, Bool.false_eq_true, if_false]
    rfl
  reset := by decide
  clocks := fun _ => rfl
  owed := nofun
  first := fun _ => ⟨rfl, nofun, rfl, rfl, rfl, rfl⟩

end Sys2Proof.Machine


/-! What the pins carry after a step (spec/40_address_data_bus.md R122 to R134, spec/41_min_mode_control.md R150 to R163,
spec/42_max_mode_control.md R187 to R193, spec/43_common_control.md R200, R205). -/

namespace Sys2Proof.Machine

/-! ## RD#, INTA# and the transceiver controls -/

/-- RD# after a step. -/
theorem step_rdN {s t : State} (hi : Inv s) (h : step s = .next t) : t.pins.rdN = rdPin t (Config.freeWord t.draws) :=
  congrArg Pins.rdN (step_shows hi h)

theorem Kind.reads_iff {k : Kind} : k.reads = true ↔ k = .memRead ∨ k = .fetch ∨ k = .ioRead := by
  cases k <;> simp [Kind.reads]

theorem any_reads_iff {o : Option Kind} :
    o.any Kind.reads = true ↔ o = some .memRead ∨ o = some .fetch ∨ o = some .ioRead := by
  cases o <;> simp [Kind.reads_iff]

/-- Settles O26: RD# is asserted in the strobe T-states of the three kinds that read. -/
theorem readStrobe : Obligations.ReadStrobe := by
  intro s t hi h
  rw [step_rdN hi h]
  refine ⟨fun hb => ⟨_, lowActive_of_ownsBus hb _ _, ?_⟩, fun hb => by simp [rdPin, hb]⟩
  rw [Bool.not_eq_false', Bool.and_eq_true, strobeState_iff, any_reads_iff]

/-- Settles O28: INTA# is asserted in the strobe T-states of an acknowledge cycle. -/
theorem acknowledgeStrobe : Obligations.AcknowledgeStrobe := by
  intro s t m hi h hm
  have hia : m.intaN = lowActive t.busState ((Config.freeWord t.draws).getLsbD 13)
      (strobeState t.busState && decide (curKind t = some .ack)) := congrArg MinPins.intaN (step_minOf hi h hm)
  refine ⟨fun hb => ⟨_, hia.trans (lowActive_of_ownsBus hb _ _), ?_⟩, fun hb => by simp [hia, hb]⟩
  rw [Bool.not_eq_false', Bool.and_eq_true, strobeState_iff, decide_eq_true_eq]

/-- Of the kinds of cycle all but the halt cycle move data. -/
theorem movesData_iff {k : Kind} : (k.reads || k.writes || decide (k = .ack)) = true ↔ k ≠ .halt := by
  cases k <;> decide

theorem dtrPin_holdAck {s : State} (w : BitVec 64) (hb : s.busState = .holdAck) : dtrPin s w = none := by
  simp [dtrPin, hb]

/-- Settles O31: DEN# is asserted in the strobe T-states of a cycle that moves data, and a cycle has an operation; DT/R# has
the level of that operation. -/
theorem transceiverControl : Obligations.TransceiverControl := by
  intro s t m hi h hm
  have hden : m.denN = lowActive t.busState ((Config.freeWord t.draws).getLsbD 14)
      (strobeState t.busState && (curKind t).any fun k => k.reads || k.writes || decide (k = .ack)) :=
    congrArg MinPins.denN (step_minOf hi h hm)
  have hdtr : m.dtr = dtrPin t (Config.freeWord t.draws) := congrArg MinPins.dtr (step_minOf hi h hm)
  refine ⟨fun hb => ⟨_, hden.trans (lowActive_of_ownsBus hb _ _), ?_⟩, fun k hb hk ht => ?_,
    fun hb => ⟨by simp [hden, hb], by rw [hdtr, dtrPin_holdAck _ hb]⟩⟩
  · rw [Bool.not_eq_false', Bool.and_eq_true, ← strobeState_iff]
    refine and_congr_right fun hs => ?_
    obtain ⟨k, hk⟩ := Option.isSome_iff_exists.1 ((stepKeepsInvariant s t hi h).cycle (inCycle_of_strobeState hs))
    rw [hk, Option.any_some, movesData_iff, ne_eq, ne_eq, Option.some_inj]
  · obtain ⟨i, hc, hki⟩ := Option.bind_eq_some_iff.1 hk
    rw [hdtr, dtrPin_inCycle _ hb hc, dtrOf_transfer hki ht]

/-! ## HoldAck and RESET -/

/-- Settles O33: in HoldAck every pin of the group is made Z, and HLDA is made from the T-state alone. -/
theorem holdAckFloats : Obligations.HoldAckFloats := by
  intro s t hi h
  refine ⟨fun hb => ?_, fun m hm => ?_⟩
  · rw [step_shows hi h]
    cases hm : t.mode <;>
      simp [triFloated, pinsOf, hm, minPins, maxPins, adPins, aPins, bhePin, rdPin, mioPin, dtrPin, statusCode, hb]
  · rw [step_minOf hi h hm]
    simp only [minPins, decide_eq_true_eq, true_and]
    intro hb
    simp [hb]

theorem low_lowActive_inReset (z a : Bool) : low (lowActive .inReset z a) = false := by
  cases z <;> rfl

/-- While RESET is high the pins assert nothing. -/
theorem pinsOf_inReset {s : State} (hb : s.busState = .inReset) : noneAsserted s.params.sEnc (pinsOf false s) = true := by
  cases hm : s.mode with
  | min => simp [noneAsserted, pinsOf, hm, minPins, rdPin, hb, low_lowActive_inReset]
  | max =>
    have hs : ∀ w, statusCode s w = none ∨ statusCode s w = some s.params.sEnc.passive := by
      intro w
      simp only [statusCode, hb]
      cases w.getLsbD 33 <;> simp
    have hs' := hs (Config.freeWord s.draws)
    simp [noneAsserted, pinsOf, hm, maxPins, rdPin, hb, low_lowActive_inReset, hs']

/-- The maximum-mode outputs shown after a step are made from the T-state, and from whether it is a first HoldAck state. -/
theorem step_maxOf {s t : State} {m : MaxPins} (hi : Inv s) (h : step s = .next t) (hm : maxOf t.pins = some m) :
    t.mode = .max ∧
    m = maxPins (decide (t.busState = .holdAck) && decide (s.busState ≠ .holdAck)) t (Config.freeWord t.draws) := by
  rw [step_shows hi h] at hm
  cases hmode : t.mode with
  | max => exact ⟨rfl, by simpa [maxOf, pinsOf, hmode] using hm.symm⟩
  | min => simp [maxOf, pinsOf, hmode] at hm

/-- Settles O34: in RESET no output is asserted, and the state of RESET reports no queue action. -/
theorem resetPins : Obligations.ResetPins := by
  intro s t hi h hb
  refine ⟨?_, fun m hm => ?_⟩
  · have := pinsOf_inReset hb
    rw [step_shows hi h]
    simpa [hb] using this
  · obtain ⟨-, rfl⟩ := step_maxOf hi h hm
    obtain ⟨-, rfl⟩ := step_reset hi h hb
    rfl

/-! ## The status on A19..A16 -/

theorem statusNibble_s5 (s : State) (free : BitVec 2) : (statusNibble s free).getLsbD 2 = ifOf s.fr := by
  unfold statusNibble
  generalize ifOf s.fr = f
  cases s.curSeg with
  | none =>
    dsimp only
    revert f free
    decide
  | some g =>
    dsimp only
    generalize segCode s.params.segEnc g = c
    revert f c
    decide

theorem statusNibble_seg {s : State} {g : SegUse} (free : BitVec 2) (h : s.curSeg = some g) :
    (statusNibble s free).extractLsb' 0 2 = segCode s.params.segEnc g := by
  simp only [statusNibble, h]
  exact BitVec.extractLsb'_append_eq_right

/-- Settles O25: the status is made bit by bit. -/
theorem statusBits : Obligations.StatusBits := by
  intro s t hi h hb
  rw [step_a hi h]
  exact ⟨_, aPins_status _ (.inl hb), statusNibble_s6 _ _, statusNibble_s5 _ _, fun g hg => statusNibble_seg _ hg⟩

end Sys2Proof.Machine


/-! What the pins carry after a step: the data phase (spec/40_address_data_bus.md R123 to R129, spec/43_common_control.md
R205), the address latch (spec/41_min_mode_control.md R160), the legal patterns (spec/30_encoding.md R109) and the status
codes (spec/42_max_mode_control.md R187, R192). -/

namespace Sys2Proof.Machine

/-- A T-state that is neither RESET nor Idle comes from an active one. -/
theorem step_busy {s t : State} (hi : Inv s) (h : step s = .next t) (ht : t.busState ≠ .inReset) (hidle : t.busState ≠ .idle) :
    s.busState ≠ .inReset ∧ Turn s (poll (sampleTest s)) t := by
  have hs : s.busState ≠ .inReset := by
    intro hs
    obtain ⟨-, rfl⟩ := step_leave h ht hs
    exact hidle rfl
  obtain ⟨-, -, hturn⟩ := step_out hi h ht hs
  exact ⟨hs, hturn⟩

/-! ## The data phase -/

theorem dataPhase_iff {b : BusState} : dataPhase b = true ↔ strobeState b = true ∨ b = .t4 := by
  simp [dataPhase]

theorem inCycle_or_t4_of_dataPhase {b : BusState} (h : dataPhase b = true) : inCycle b = true ∨ b = .t4 :=
  (dataPhase_iff.1 h).imp inCycle_of_strobeState id

/-- In the data phase of a write AD15..AD0 carry the write data; in a read the 8086 does not drive them. -/
theorem adPins_data {s : State} {k : Kind} (w : BitVec 64) (hb : dataPhase s.busState = true) (hk : curKind s = some k)
    (ht : k.transfers = true) : adPins s w = if k.writes then some s.curWdata else none := by
  cases hs : s.busState with
  | t2 | t3 | tw | t4 =>
    cases k with
    | ack | halt => cases ht
    | _ => simp [adPins, hs, hk, Kind.writes]
  | t1 | idle | holdAck | inReset => simp [hs, dataPhase, strobeState] at hb

theorem bhePin_data {s : State} (w : BitVec 64) (hb : dataPhase s.busState = true) : bhePin s w = some (w.getLsbD 0) := by
  cases hs : s.busState with
  | t2 | t3 | tw | t4 => simp [bhePin, hs]
  | t1 | idle | holdAck | inReset => simp [hs, dataPhase, strobeState] at hb

theorem Started.draws {v u : State} {i : Instr} (h : Started v i u) : u.draws = v.draws :=
  (congrArg State.draws h.taken).trans rfl

theorem Resting.draws {v u : State} {b : BusState} (h : Resting v b u) : u.draws = v.draws :=
  (congrArg State.draws h.rested).trans rfl

/-- Every T-state outside RESET takes one free value. -/
theorem Turn.draws {s v t : State} (h : Turn s v t) : t.draws = v.draws + 1 := by
  cases h with
  | give hb hp u ho =>
    rcases handOver_cases ho with ⟨-, -, rfl⟩ | ⟨-, -, -, rfl⟩ | ⟨-, -, -, -, rfl⟩ <;> rfl
  | rest hb hp ho u hn hr => simp [hr.draws]
  | start i u k hb hp ho hn hs => simp [hs.draws]
  | startAck i u hb hp ho hn hs => simp [hs.draws]
  | startIdle i u x hb hp ho hn hs => simp [hs.draws]
  | startLane i u l hb hp ho hn hs => simp [hs.draws]
  | _ => simp

/-- What the data phase of a cycle shows. -/
theorem dataPhase_shows {s t : State} {i : Instr} {k : Kind} (hi : Inv s) (h : step s = .next t)
    (hb : dataPhase t.busState = true) (hc : t.curOp = some i) (hk : kindOf i = some k) :
    (k.writes = true → ∃ v, t.pins.ad = some v ∧ (hasLow (lanesOfInstr i) = true → v.lo = (wdataOf i).lo) ∧
      (hasHigh (lanesOfInstr i) = true → v.hi = (wdataOf i).hi)) ∧
    (k.reads = true → t.pins.ad = none) ∧
    (t.draws = s.draws + 1 ∧ t.pins.bheN = some ((Config.freeWord t.draws).getLsbD 0)) ∧
    ∃ a, t.pins.a = some a ∧ a.extractLsb' 0 2 = segCode t.params.segEnc (segOf i) := by
  have hck : curKind t = some k := by simp [curKind, hc, hk]
  have hl := (stepKeepsInvariant s t hi h).loaded i hc (inCycle_or_t4_of_dataPhase hb)
  have hbusy := step_busy hi h (by rintro h; simp [h, dataPhase, strobeState] at hb)
    (by rintro h; simp [h, dataPhase, strobeState] at hb)
  rw [step_ad hi h, step_bheN hi h, step_a hi h, bhePin_data _ hb, aPins_status _ (.inl hb)]
  refine ⟨fun hw => ⟨t.curWdata, ?_, hl.lanes ▸ hl.low, hl.lanes ▸ hl.high⟩, fun hr => ?_,
    ⟨by simpa using hbusy.2.draws, rfl⟩, _, rfl, statusNibble_seg _ hl.seg⟩
  · rw [adPins_data _ hb hck (by simp [Kind.transfers, hw]), if_pos hw]
  · rw [adPins_data _ hb hck (by simp [Kind.transfers, hr]), if_neg (by cases k <;> simp_all [Kind.reads, Kind.writes])]

/-! ## TW holds the outputs -/

/-- A minimum-mode operation has its own levels of M/IO# and DT/R#. -/
theorem mioOf_free {i : Instr} {k : Kind} (hk : kindOf i = some k) (hf : i.format ≠ .maxs) (x y : Bool) :
    mioOf i x = mioOf i y ∧ dtrOf i x = dtrOf i y := by
  cases i with
  | memr a b u => cases u <;> exact ⟨rfl, rfl⟩
  | memw | ior | iow | inta => exact ⟨rfl, rfl⟩
  | sInta | sIor | sIow | sHalt | sFetch | sMemr | sMemw | sPassive => exact absurd rfl hf
  | idle | laneBoth | laneHigh | laneLow | laneNone => cases hk

/-- Only T3 and TW come before a TW, which keeps all that the pins are made from but the free value and the frame. -/
theorem Turn.tw {s v t : State} (h : Turn s v t) (ht : t.busState = .tw) :
    (s.busState = .t3 ∨ s.busState = .tw) ∧ t = enter .tw v := by
  cases h with
  | wait i k hb => exact ⟨hb, rfl⟩
  | _ => simp at ht

/-- The minimum-mode outputs of the strobe T-states after T2 are the same in each. -/
theorem minPins_held {s t : State} (hmode : t.mode = .min) (hi : Inv t) (ht : t.busState = .tw)
    (hs : s.busState = .t3 ∨ s.busState = .tw) (hc : t.curOp = s.curOp) (w w' : BitVec 64) :
    minPins t w' = minPins s w := by
  obtain ⟨i, k, hci, hk⟩ := hi.cycle_op (by simp [ht, inCycle])
  have hck : curKind t = curKind s := by simp [curKind, hc]
  have hf : i.format ≠ .maxs := fun h => by
    have := hi.wired i hci h
    simp [hmode] at this
  have hcs : s.curOp = some i := hc ▸ hci
  have hcyc : inCycle s.busState = true := by rcases hs with h | h <;> simp [h, inCycle]
  have hmio : mioPin t w' = mioPin s w := by
    rw [mioPin_inCycle _ (by simp [ht, inCycle]) hci, mioPin_inCycle _ hcyc hcs, (mioOf_free hk hf _ _).1]
  have hdtr : dtrPin t w' = dtrPin s w := by
    rw [dtrPin_inCycle _ (.inl (by simp [ht, inCycle])) hci, dtrPin_inCycle _ (.inl hcyc) hcs, (mioOf_free hk hf _ _).2]
  unfold minPins
  rw [hmio, hdtr, hck, ht]
  rcases hs with hs | hs <;> rw [hs] <;> rfl

theorem adPins_held {s t : State} (ht : t.busState = .tw) (hs : s.busState = .t3 ∨ s.busState = .tw)
    (hc : t.curOp = s.curOp) (hd : t.curWdata = s.curWdata) (w : BitVec 64) : adPins t w = adPins s w := by
  have hck : curKind t = curKind s := by simp [curKind, hc]
  unfold adPins
  rw [hck, hd, ht]
  rcases hs with hs | hs <;> rw [hs]

/-- In TW the outputs hold what they had. -/
theorem tw_holds {r s t : State} (hr : Inv r) (h₁ : step r = .next s) (h₂ : step s = .next t) (ht : t.busState = .tw) :
    t.pins.ad = s.pins.ad ∧ t.pins.rdN = s.pins.rdN ∧ minOf t.pins = minOf s.pins ∧
    (∀ m n, maxOf s.pins = some m → maxOf t.pins = some n → n.lockN = m.lockN) ∧
    ∀ a b, s.pins.a = some a → t.pins.a = some b → b.getLsbD 3 = a.getLsbD 3 ∧ b.extractLsb' 0 2 = a.extractLsb' 0 2 := by
  have hi := stepKeepsInvariant r s hr h₁
  have hj := stepKeepsInvariant s t hi h₂
  obtain ⟨hb, heq⟩ := (step_busy hi h₂ (by simp [ht]) (by simp [ht])).2.tw ht
  have hcyc : inCycle s.busState = true := by rcases hb with h | h <;> simp [h, inCycle]
  have hc : t.curOp = s.curOp := by simp [heq]
  have hck : curKind t = curKind s := by simp [curKind, hc]
  have hmode : t.mode = s.mode := by simp [heq]
  obtain ⟨i, k, hci, hk⟩ := hi.cycle_op hcyc
  have hseg := (hi.loaded i hci (.inl hcyc)).seg
  have hstrobe : strobeState s.busState = true := by rcases hb with h | h <;> simp [h, strobeState]
  have hphase : dataPhase s.busState = true := dataPhase_iff.2 (.inl hstrobe)
  have hown : ownsBus s.busState = true := by rcases hb with h | h <;> simp [h, ownsBus]
  refine ⟨?_, ?_, ?_, fun m n hm hn => ?_, fun a b ha hb => ?_⟩
  · rw [step_ad hi h₂, step_ad hr h₁, show t.heldDraw = s.heldDraw by simp [heq]]
    exact adPins_held ht hb hc (by simp [heq]) _
  · rw [step_rdN hi h₂, step_rdN hr h₁, rdPin, rdPin, lowActive_of_ownsBus hown, ht, hck, hstrobe]
    rfl
  · rw [step_shows hi h₂, step_shows hr h₁]
    cases hm : s.mode with
    | min =>
      simp only [minOf, pinsOf, hmode, hm]
      exact congrArg some (minPins_held (hmode.trans hm) hj ht hb hc _ _)
    | max => simp [minOf, pinsOf, hmode, hm]
  · obtain ⟨-, rfl⟩ := step_maxOf hr h₁ hm
    obtain ⟨-, rfl⟩ := step_maxOf hi h₂ hn
    simp only [maxPins]
    rw [lowActive_of_ownsBus hown, lowActive_of_ownsBus (by simp [ht, ownsBus]), heq, enter_lockActive _ (by decide)]
    simp
  · rw [step_a hr h₁, aPins_status _ (.inl hphase), Option.some_inj] at ha
    rw [step_a hi h₂, aPins_status _ (.inl (by simp [ht, dataPhase, strobeState])), Option.some_inj] at hb
    rw [← ha, ← hb, statusNibble_s6, statusNibble_s6, statusNibble_seg _ hseg,
      statusNibble_seg (g := segOf i) _ (by simp [heq, hseg]), heq]
    simp

/-- Settles O23: the T-state holds the operands of its operation, and TW changes nothing of what the outputs are made from. -/
theorem dataPhaseShown : Obligations.DataPhase :=
  ⟨fun _ _ _ _ hi h hb hc hk => dataPhase_shows hi h hb hc hk, fun _ _ _ hr h₁ h₂ ht => tw_holds hr h₁ h₂ ht⟩

/-! ## The address latch -/

/-- In T1 of a transfer the latch takes the address and BHE#. -/
theorem latchAddress_shown {s : State} {i : Instr} (ha : s.pins.a = some ((addrOf i).extractLsb' 16 4))
    (had : s.pins.ad = some ((addrOf i).extractLsb' 0 16)) (hb : s.pins.bheN = some (!hasHigh (lanesOfInstr i))) :
    (latchAddress s).latchAddr = addrOf i ∧ (latchAddress s).latchBheN = !hasHigh (lanesOfInstr i) := by
  unfold latchAddress
  rw [ha, had, hb]
  exact ⟨addr_join _, rfl⟩

theorem Started.latch {v u : State} {i : Instr} (h : Started v i u) :
    u.latchAddr = v.latchAddr ∧ u.latchBheN = v.latchBheN := by
  obtain ⟨_, _, _, _, _, _, _, _, _, _, rfl⟩ := h.taken.eq
  exact ⟨rfl, rfl⟩

theorem Resting.latch {v u : State} {b : BusState} (h : Resting v b u) :
    u.latchAddr = v.latchAddr ∧ u.latchBheN = v.latchBheN := by
  obtain ⟨_, _, _, _, _, _, _, _, _, _, _, _, _, _, _, _, _, rfl⟩ := h.rested.eq
  exact ⟨rfl, rfl⟩

/-- The latch changes at the end of T1 only. -/
theorem Turn.latch {s v t : State} (h : Turn s v t) (hs : s.busState ≠ .t1) :
    t.latchAddr = v.latchAddr ∧ t.latchBheN = v.latchBheN := by
  cases h with
  | t1 i k hb => exact absurd hb hs
  | give hb hp u ho =>
    rcases handOver_cases ho with ⟨-, -, rfl⟩ | ⟨-, -, -, rfl⟩ | ⟨-, -, -, -, rfl⟩ <;> simp
  | rest hb hp ho u hn hr => simpa using hr.latch
  | start i u k hb hp ho hn hs => simpa using hs.latch
  | startAck i u hb hp ho hn hs => simpa using hs.latch
  | startIdle i u x hb hp ho hn hs => simpa using hs.latch
  | startLane i u l hb hp ho hn hs => simpa using hs.latch
  | _ => simp

/-- The latch at the end of T1. -/
theorem Turn.latch_t1 {s v t : State} (h : Turn s v t) (hs : s.busState = .t1) :
    t.latchAddr = (latchAddress v).latchAddr ∧ t.latchBheN = (latchAddress v).latchBheN := by
  cases h with
  | t1 => simp
  | t2 i k hb => simp [hs] at hb
  | wait i k hb => simp [hs] at hb
  | fin i k hb => simp [hs] at hb
  | ack1 i hb => simp [hs] at hb
  | ack2 i hb => simp [hs] at hb
  | release hb => simp [hs] at hb
  | hold hb => simp [hs] at hb
  | give hb => simp [hs, atBoundary] at hb
  | rest hb => simp [hs, atBoundary] at hb
  | ackGo i hb => simp [hs, atBoundary] at hb
  | ackGap i n hb => simp [hs, atBoundary] at hb
  | start i u k hb => simp [hs, atBoundary] at hb
  | startAck i u hb => simp [hs, atBoundary] at hb
  | startIdle i u x hb => simp [hs, atBoundary] at hb
  | startLane i u l hb => simp [hs, atBoundary] at hb

theorem outsideDone_latch {s : State} (hs : s.busState ≠ .t1) :
    (outsideDone s).latchAddr = s.latchAddr ∧ (outsideDone s).latchBheN = s.latchBheN := by
  unfold outsideDone
  split
  · exact absurd ‹_› hs
  · exact ⟨rfl, rfl⟩
  · exact ⟨rfl, rfl⟩

/-- The latch takes the address and BHE# at the end of every T1 of a transfer, whatever comes next. -/
theorem step_latches {r s t : State} {i : Instr} {k : Kind} (hr : Inv r) (h₁ : step r = .next s) (hb : s.busState = .t1)
    (hc : s.curOp = some i) (hk : kindOf i = some k) (ht : k.transfers = true) (h₂ : step s = .next t) :
    t.latchAddr = addrOf i ∧ t.latchBheN = !hasHigh (lanesOfInstr i) := by
  have hi := stepKeepsInvariant r s hr h₁
  obtain ⟨had, ha, -, hbhe⟩ := addressPhase r s i k hr h₁ hb hc hk ht
  by_cases hreset : t.busState = .inReset
  · obtain ⟨-, rfl⟩ := step_reset hi h₂ hreset
    have hd : outsideDone s = latchAddress s := by simp [outsideDone, hb]
    simpa [resetInternal, hd] using latchAddress_shown ha had hbhe
  · obtain ⟨hl, hn⟩ := (step_out hi h₂ hreset (by simp [hb])).2.2.latch_t1 hb
    rw [hl, hn]
    exact latchAddress_shown (by simpa using ha) (by simpa using had) (by simpa using hbhe)

/-- Settles O29: ALE is made from the T-state, the latch takes what a T1 shows, and no other T-state touches it. -/
theorem addressLatch : Obligations.AddressLatch := by
  refine ⟨fun s t m hi h hm => ?_, fun r s t i k hr h₁ hb hc hk ht h₂ => step_latches hr h₁ hb hc hk ht h₂,
    fun s t hi h hs => ?_⟩
  · rw [step_minOf hi h hm]
    simp [minPins]
  · by_cases hreset : t.busState = .inReset
    · obtain ⟨-, rfl⟩ := step_reset hi h hreset
      simpa [resetInternal] using outsideDone_latch hs
    · by_cases hact : s.busState = .inReset
      · obtain ⟨-, rfl⟩ := step_leave h hreset hact
        simp
      · simpa using (step_out hi h hreset hact).2.2.latch hs

/-! ## Legal patterns -/

/-- In T1 of a transfer the pins show the lanes of the address, and those of a port no address above FFFFH. -/
theorem t1_shows {s t : State} {k : Kind} (hi : Inv s) (h : step s = .next t) (hb : t.busState = .t1)
    (hk : curKind t = some k) (ht : k.transfers = true) :
    (∃ b v, t.pins.bheN = some b ∧ t.pins.ad = some v ∧ ¬(b = true ∧ v.getLsbD 0 = true)) ∧
    (k = .ioRead ∨ k = .ioWrite → t.pins.a = some 0) := by
  obtain ⟨i, hc, hki⟩ := Option.bind_eq_some_iff.1 hk
  obtain ⟨had, -, hio, hbhe⟩ := addressPhase s t i k hi h hb hc hki ht
  have hj := stepKeepsInvariant s t hi h
  have hcyc : inCycle t.busState = true := by simp [hb, inCycle]
  have hl := hj.laned k hcyc hk ht
  rw [(hj.loaded i hc (.inl hcyc)).lanes] at hl
  refine ⟨⟨_, _, hbhe, had, ?_⟩, hio⟩
  rw [← bheLevel_eq]
  simpa using laneShown hki ht hl

theorem s6Low_status {p : Pins} {s : State} {free : BitVec 2} (h : p.a = some (statusNibble s free)) : s6Low p = true := by
  unfold s6Low
  rw [h]
  simp only [statusNibble_s6, Bool.not_false]

/-- A pattern that the pins show stops the step, whatever comes next. -/
theorem step_observed {s : State} {f : Fault} (hm : s.now.mnmx = s.mode.strap) (hz : hazard s = none)
    (ho : observed s = some f) : step s = .fault f := by
  simp [step, planStep, violation, hm, hz, ho, runPlan]

/-- Settles O32: the pins are legal as they are made, and each illegal pattern is the first that is found. -/
theorem pinsLegal : Obligations.PinsLegal := by
  refine ⟨fun s t hi h => ⟨?_, fun hb => ?_, fun k hb hk ht => t1_shows hi h hb hk ht⟩, fun s hm hz hown => ?_⟩
  · rw [step_shows hi h]
    exact pinsOf_minctlLegal _ _
  · exact s6Low_status (by rw [step_a hi h, aPins_status _ hb])
  have hown' : (!ownsBus s.busState) = false := by simp [hown]
  have legal : minctlLegal s.pins = true → twoStrobesLow s.pins = false ∧ strobeAgainst s.pins = false := by
    simp [minctlLegal]
  refine ⟨fun h2 => step_observed hm hz ?_, fun h2 hd => step_observed hm hz ?_, fun hl hp hs6 => step_observed hm hz ?_,
    fun a hl hb hk ha hne => step_observed hm hz ?_, fun k v hl hb hk ht hio hbhe had h0 => step_observed hm hz ?_⟩
  · simp [observed, hown', h2]
  · simp [observed, hown', h2, hd]
  · obtain ⟨h2, hd⟩ := legal hl
    have hs6' : s.pins.a.any (fun a => a.getLsbD 3) = true := by
      unfold s6Low at hs6
      cases ha : s.pins.a <;> simp_all
    unfold observed
    simp only [hown', h2, hd, hp, hs6', Bool.true_and, Bool.false_eq_true, if_false, if_true]
  · obtain ⟨h2, hd⟩ := legal hl
    simpa [observed, ownsBus, h2, hd, dataPhase, strobeState, hb, hk, ha] using hne
  · obtain ⟨h2, hd⟩ := legal hl
    have hio' : k = .ioRead ∨ k = .ioWrite → (s.pins.a.any fun a => !decide (a = 0#4)) = false := fun hk' => by
      cases ha : s.pins.a with
      | none => rfl
      | some a => simp [hio hk' a ha]
    have hnone : noLaneShown s.pins = true := by simp [noLaneShown, hbhe, had, h0]
    simpa [observed, ownsBus, h2, hd, dataPhase, strobeState, hb, hk, ht, hnone] using hio'

end Sys2Proof.Machine


/-! Each operation completes (spec/40_address_data_bus.md R120, R121, spec/41_min_mode_control.md R150 to R153,
spec/42_max_mode_control.md R181 to R187, spec/60_exceptions.md R220 to R222): the T-state it enters, and the frame. -/

namespace Sys2Proof.Machine

/-! ## A cycle opens and goes on -/

/-- Settles O10: T1 is entered from the state with the operands loaded. -/
theorem cycleOpens : Obligations.CycleOpens := by
  intro i k s hk hka hm hl hb
  exact ⟨_, exec_open hk hka hm hl hb, by simp, by simp, (loadOp_loaded i s).enter _, by simp,
    fun hp => ⟨sameCore_enter (by decide) hp, sameData_enter hp⟩⟩

/-- A T-state inside the cycle that changes nothing but the bus state keeps the operands and everything else. -/
theorem enter_goesOn {i : Instr} {s u : State} {b : BusState} (hb : b ≠ .inReset) (hc : s.curOp = some i)
    (hu : u = s ∨ u = latchAddress s) :
    (enter b u).curOp = some i ∧ (enter b u).curAddr = s.curAddr ∧ (enter b u).curLanes = s.curLanes ∧
      (enter b u).curWdata = s.curWdata ∧ (enter b u).curSeg = s.curSeg ∧ (enter b u).curPart = s.curPart ∧
      (u = s → (enter b u).latchAddr = s.latchAddr ∧ (enter b u).latchBheN = s.latchBheN) ∧
      (plainFrame (nextFrame s) = true → SameCore s (enter b u) ∧ SameData s (enter b u)) := by
  rcases hu with rfl | rfl
  · simp only [enter_curOp, enter_curAddr, enter_curLanes, enter_curWdata, enter_curSeg, enter_curPart, enter_latchAddr,
      enter_latchBheN, hc, true_and, and_self, implies_true]
    exact fun hp => ⟨sameCore_enter hb hp, sameData_enter hp⟩
  · refine ⟨by simp [hc], by simp, by simp, by simp, by simp, by simp, fun h => by rw [h]; simp, fun hp => ?_⟩
    rw [latchAddress_eq]
    exact ⟨sameCore_enter hb hp, sameData_enter hp⟩

/-- Settles O11: one case a T-state. -/
theorem cycleAdvances : Obligations.CycleAdvances := by
  rintro i k s hk hm hc (⟨hb, hl⟩ | hb | ⟨hb, hr⟩)
  · obtain ⟨h₁, h₂, h₃, h₄, h₅, h₆, -, h₈⟩ := enter_goesOn (b := .t2) (by decide) hc (.inr rfl)
    exact ⟨_, exec_t1 hk hm hc hb hl, by simp [hb], h₁, h₂, h₃, h₄, h₅, h₆, fun h => absurd hb h, h₈⟩
  · obtain ⟨h₁, h₂, h₃, h₄, h₅, h₆, h₇, h₈⟩ := enter_goesOn (b := .t3) (by decide) hc (.inl rfl)
    exact ⟨_, exec_t2 hk hm hc hb, by simp [hb], h₁, h₂, h₃, h₄, h₅, h₆, fun _ => h₇ rfl, h₈⟩
  · obtain ⟨h₁, h₂, h₃, h₄, h₅, h₆, h₇, h₈⟩ := enter_goesOn (b := .tw) (by decide) hc (.inl rfl)
    exact ⟨_, exec_wait hk hm hc hb hr, by rcases hb with hb | hb <;> simp [hb], h₁, h₂, h₃, h₄, h₅, h₆, fun _ => h₇ rfl, h₈⟩

/-! ## What a read takes from the lanes -/

theorem busIn_lo (s : State) : (busIn s).lo = lowIn s := Word.lo_ofBytes _ _

theorem busIn_hi (s : State) : (busIn s).hi = highIn s := Word.hi_ofBytes _ _

/-- On a selected lane of a memory read stands what a device drives, or else the memory's byte. -/
theorem lowIn_memory {s : State} {k : Kind} (hk : curKind s = some k) (hm : k.readsMemory = true)
    (hl : hasLow s.curLanes = true) : lowIn s = s.now.devLo.getD (readMem s (lowAddr s.curAddr)) := by
  unfold lowIn
  cases s.now.devLo <;> simp [hk, hm, hl]

theorem highIn_memory {s : State} {k : Kind} (hk : curKind s = some k) (hm : k.readsMemory = true)
    (hl : hasHigh s.curLanes = true) : highIn s = s.now.devHi.getD (readMem s (highAddr s.curAddr)) := by
  unfold highIn
  cases s.now.devHi <;> simp [hk, hm, hl]

theorem lowIn_device {s : State} {v : Byte} (h : s.now.devLo = some v) : lowIn s = v := by
  simp [lowIn, h]

theorem highIn_device {s : State} {v : Byte} (h : s.now.devHi = some v) : highIn s = v := by
  simp [highIn, h]

/-- What a read cycle makes of the value in progress, for each part and the lanes that go with it. -/
theorem joinPart_parts (p : Part) (l : Lanes) (v : Word) (old : Value) :
    (p = .whole → l = .both → joinPart p l v old = .word v) ∧
    (p = .whole → l = .high → joinPart p l v old = .byte v.hi) ∧
    (p = .whole → l = .low → joinPart p l v old = .byte v.lo) ∧
    (p = .lowByte → l = .high → joinPart p l v old = .byte v.hi) ∧
    (∀ b, p = .highByte → l = .low → old = .byte b → joinPart p l v old = .word (Word.ofBytes v.lo b)) := by
  refine ⟨?_, ?_, ?_, ?_, ?_⟩
  all_goals
    intros
    subst_vars
    rfl

/-! ## A transfer ends -/

/-- Settles O12: `finishRead` takes what stands on the lanes. -/
theorem memoryReadCompletes : Obligations.MemoryReadCompletes := by
  intro i s hop hb hr hc
  have hop' : kindOf i = some .memRead ∧ (i.format = .maxs → s.mode = .max) := by
    rcases hop with ⟨a, b, g, rfl⟩ | ⟨⟨a, b, g, rfl⟩, hm⟩
    · exact ⟨rfl, nofun⟩
    · exact ⟨rfl, fun _ => hm⟩
  obtain ⟨hk, hm⟩ := hop'
  have hcur : curKind s = some .memRead := by simp [curKind, hc, hk]
  obtain ⟨h₁, h₂, h₃, h₄, h₅⟩ := joinPart_parts s.curPart s.curLanes (busIn s) s.result
  refine ⟨_, exec_end hk nofun hm hc hb hr, by simp, by simpa using hc, fun hl => ?_, fun hl => ?_, ?_⟩
  · simpa [finishOf, busIn_lo] using lowIn_memory hcur rfl hl
  · simpa [finishOf, busIn_hi] using highIn_memory hcur rfl hl
  · simp only [enter_rdata, enter_result]
    exact ⟨h₁, h₂, h₃, h₄, h₅, fun hp => ⟨sameCore_enter (by decide) hp, fun a => by simp [readMem, finishOf],
      enter_queue_plain hp, by simp, by simp⟩⟩

/-- Settles O15: `finishRead` takes what the device drives. -/
theorem ioReadCompletes : Obligations.IoReadCompletes := by
  intro i s hop hb hr hc
  have hop' : kindOf i = some .ioRead ∧ (i.format = .maxs → s.mode = .max) := by
    rcases hop with ⟨p, b, rfl⟩ | ⟨⟨p, b, rfl⟩, hm⟩
    · exact ⟨rfl, nofun⟩
    · exact ⟨rfl, fun _ => hm⟩
  obtain ⟨hk, hm⟩ := hop'
  obtain ⟨h₁, h₂, h₃, h₄, h₅⟩ := joinPart_parts s.curPart s.curLanes (busIn s) s.result
  refine ⟨_, exec_end hk nofun hm hc hb hr, by simp, by simpa using hc, fun v hv => ?_, fun v hv => ?_, ?_⟩
  · simpa [finishOf, busIn_lo] using lowIn_device hv
  · simpa [finishOf, busIn_hi] using highIn_device hv
  · simp only [enter_rdata, enter_result]
    exact ⟨h₁, h₂, h₃, h₄, h₅, fun hp => ⟨sameCore_enter (by decide) hp, fun a => by simp [readMem, finishOf],
      enter_queue_plain hp, by simp, by simp⟩⟩

/-- The bytes of a transfer, lane by lane. -/
theorem laneBytes_eq (l : Lanes) (v : Word) :
    laneBytes l v = (if hasLow l then [v.lo] else []) ++ (if hasHigh l then [v.hi] else []) := by
  cases l <;> rfl

/-- Settles O13: `finishFetch` takes what stands on the lanes and puts it in the queue. -/
theorem fetchCompletes : Obligations.FetchCompletes := by
  intro i s hop hb hr hc
  have hop' : kindOf i = some .fetch ∧ (i.format = .maxs → s.mode = .max) := by
    rcases hop with ⟨a, b, rfl⟩ | ⟨⟨a, b, rfl⟩, hm⟩
    · exact ⟨rfl, nofun⟩
    · exact ⟨rfl, fun _ => hm⟩
  obtain ⟨hk, hm⟩ := hop'
  have hcur : curKind s = some .fetch := by simp [curKind, hc, hk]
  refine ⟨_, exec_end hk nofun hm hc hb hr, by simp, by simpa using hc, fun hl => ?_, fun hl => ?_, fun hp => ⟨?_, ?_⟩⟩
  · simpa [finishOf, busIn_lo] using lowIn_memory hcur rfl hl
  · simpa [finishOf, busIn_hi] using highIn_memory hcur rfl hl
  · rw [enter_queue_plain hp, List.append_assoc]
    simp [finishOf, finishFetch, laneBytes_eq]
  · exact ⟨sameCore_enter (by decide) hp, fun a => by simp [readMem, finishOf], by simp [finishOf], by simp, by simp⟩

/-- Settles O14: `finishMemWrite` stores the selected lanes. -/
theorem memoryWriteCompletes : Obligations.MemoryWriteCompletes := by
  intro i s hop hwf hb hr hc
  have hop' : kindOf i = some .memWrite ∧ (i.format = .maxs → s.mode = .max) := by
    rcases hop with ⟨a, b, g, v, rfl⟩ | ⟨⟨a, b, g, v, rfl⟩, hm⟩
    · exact ⟨rfl, nofun⟩
    · exact ⟨rfl, fun _ => hm⟩
  obtain ⟨hk, hm⟩ := hop'
  refine ⟨_, exec_end hk nofun hm hc hb hr, by simp, by simpa using hc, fun hl => ?_, fun hl => ?_, fun a h₁ h₂ => ?_,
    fun hp => ⟨sameCore_enter (by decide) hp, by simp [finishOf], by simp [finishOf], enter_queue_plain hp, by simp, by simp⟩⟩
  · simpa [readMem, finishOf] using storeLanes_low hwf s.curAddr s.curWdata hl
  · simpa [readMem, finishOf] using storeLanes_high hwf s.curAddr s.curWdata hl
  · simpa [readMem, finishOf] using storeLanes_other hwf s.curAddr s.curLanes s.curWdata (fun hl e => h₁ ⟨hl, e⟩)
      (fun hl e => h₂ ⟨hl, e⟩)

/-- Settles O16: `finishNothing` changes nothing. -/
theorem ioWriteAndHaltComplete : Obligations.IoWriteAndHaltComplete := by
  intro i s hop hb hr hc
  have hop' : ∃ k, kindOf i = some k ∧ k ≠ .ack ∧ finishOf k s = s ∧ (i.format = .maxs → s.mode = .max) := by
    rcases hop with ⟨p, b, v, rfl⟩ | ⟨⟨p, b, v, rfl⟩, hm⟩ | ⟨rfl, hm⟩
    · exact ⟨.ioWrite, rfl, nofun, rfl, nofun⟩
    · exact ⟨.ioWrite, rfl, nofun, rfl, fun _ => hm⟩
    · exact ⟨.halt, rfl, nofun, rfl, fun _ => hm⟩
  obtain ⟨k, hk, hka, hf, hm⟩ := hop'
  have he := exec_end hk hka hm hc hb hr
  rw [hf] at he
  exact ⟨_, he, by simp, by simpa using hc, by simp, fun hp => ⟨sameCore_enter (by decide) hp, sameData_enter hp⟩⟩

/-! ## The acknowledge sequence -/

section
variable {i : Instr} {s : State} (hk : kindOf i = some .ack) (hm : i.format = .maxs → s.mode = .max)
  (hb : s.busState = .idle ∨ s.busState = .t4)
include hk hm hb

theorem exec_ackFirst (hp : s.ackPhase = .none) : exec i s = .next (enter .t1 { loadOp i s with ackPhase := .first }) := by
  rw [exec_of_kind hk hm, if_pos rfl]
  rcases hb with hb | hb <;> simp [runAck, hb, hp]

theorem exec_ackSecond (hp : (s.ackPhase = .first ∧ s.params.ackGap = 0) ∨ s.ackPhase = .gap 0) :
    exec i s = .next (enter .t1 { loadOp i s with ackPhase := .second }) := by
  rw [exec_of_kind hk hm, if_pos rfl]
  rcases hb with hb | hb <;> rcases hp with ⟨hp, hg⟩ | hp <;> simp [runAck, *]

theorem exec_ackGap {g : Nat} (hp : (s.ackPhase = .first ∧ s.params.ackGap = g + 1) ∨ s.ackPhase = .gap (g + 1)) :
    exec i s = .next (enter .idle { s with ackPhase := .gap g, idleDrive := none }) := by
  rw [exec_of_kind hk hm, if_pos rfl]
  rcases hb with hb | hb <;> rcases hp with ⟨hp, hg⟩ | hp <;> simp [runAck, *]

end

/-- The end of the second acknowledge cycle: the type is handed to the core. -/
theorem finishAck_second {s : State} (hp : s.ackPhase = .second) :
    finishAck s = .next (enter .t4 (takeInterrupt (lowIn s) { s with ackType := lowIn s, ackPhase := .none })) := by
  simp [finishAck, hp]

theorem finishAck_first {s : State} (hp : s.ackPhase = .first) : finishAck s = .next (enter .t4 s) := by
  simp [finishAck, hp]

/-- An acknowledge operation and the wiring that it needs. -/
theorem ack_wired {i : Instr} {s : State} (h : (∃ m d, i = .inta m d) ∨ (i = .sInta ∧ s.mode = .max)) :
    kindOf i = some .ack ∧ (i.format = .maxs → s.mode = .max) := by
  rcases h with ⟨m, d, rfl⟩ | ⟨rfl, hm⟩
  · exact ⟨rfl, nofun⟩
  · exact ⟨rfl, fun _ => hm⟩

/-- Settles O17: one clause a part of the sequence. -/
theorem acknowledgeCompletes : Obligations.AcknowledgeCompletes := by
  intro i s hop
  obtain ⟨hk, hm⟩ := ack_wired hop
  refine ⟨fun hb hp => ?_, fun hb hr hc hp => ?_, fun hb hp => ?_, fun hb hc g hp => ?_, fun hb hr hc hp => ?_⟩
  · exact ⟨_, exec_ackFirst hk hm hb hp, by simp, by simp, by simp, fun hf =>
      ⟨sameCore_enter (by decide) hf, fun a => by simp [readMem], by simp, enter_queue_plain hf⟩⟩
  · exact ⟨_, (exec_ackEnd hk hm hc hb hr).trans (finishAck_first hp), by simp, by simpa using hc, fun hf =>
      ⟨sameCore_enter (by decide) hf, sameData_enter hf⟩⟩
  · exact ⟨_, exec_ackSecond hk hm hb hp, by simp, by simp, by simp, fun hf =>
      ⟨sameCore_enter (by decide) hf, fun a => by simp [readMem], by simp, enter_queue_plain hf⟩⟩
  · exact ⟨_, exec_ackGap hk hm hb hp, by simp, by simpa using hc, by simp, fun hf =>
      ⟨sameCore_enter (by decide) hf, fun a => by simp [readMem], by simp, enter_queue_plain hf⟩⟩
  · refine ⟨_, (exec_ackEnd hk hm hc hb hr).trans (finishAck_second hp), by simp, by simpa using hc, by simp,
      by simp [takeInterrupt], fun v hv => by simpa using lowIn_device hv, by simp [takeInterrupt],
      by simp [takeInterrupt], fun he => by simp [takeInterrupt, he], fun he => by simp [takeInterrupt, he, entrySequence],
      by simp, by simp, by simp, by simp, fun a => by simp [readMem], by simp, by simp, fun hf => ?_⟩
    refine ⟨?_, enter_queue_plain hf, enter_plain_program hf⟩
    exact (sameCore_enter (s := { s with
        raised := s.raised ++ [lowIn s], waitStack := s.testWait :: s.waitStack, testWait := false, entrySteps := _ })
      (by decide) hf).regs

/-! ## Operations without a bus cycle -/

/-- An Idle state shows no strobe. -/
theorem pinsOf_idle {s : State} (fresh : Bool) (hb : s.busState = .idle) : (pinsOf fresh s).rdN = some true ∧
    ∀ m, minOf (pinsOf fresh s) = some m →
      m.wrN = some true ∧ m.intaN = some true ∧ m.denN = some true ∧ m.ale = false ∧ m.hlda = false := by
  refine ⟨by simp [pinsOf, rdPin, hb, lowActive, strobeState], fun m h => ?_⟩
  cases hm : s.mode with
  | min =>
    obtain rfl : minPins s (Config.freeWord s.draws) = m := by simpa [pinsOf, hm, minOf] using h
    simp [minPins, hb, lowActive, strobeState]
  | max => simp [pinsOf, hm, minOf] at h

/-- An Idle state shows the levels that are asked for. -/
theorem pinsOf_idleDrive {s : State} {x : BitVec 2} {m : MinPins} (fresh : Bool) (hb : s.busState = .idle)
    (hx : s.idleDrive = some x) (h : minOf (pinsOf fresh s) = some m) :
    m.mio = some (x.getLsbD 1) ∧ m.dtr = some (x.getLsbD 0) := by
  cases hm : s.mode with
  | min =>
    obtain rfl : minPins s (Config.freeWord s.draws) = m := by simpa [pinsOf, hm, minOf] using h
    simp [minPins, mioPin, dtrPin, hb, hx]
  | max => simp [pinsOf, hm, minOf] at h

/-- Settles O18: an Idle state is entered with the levels that the pattern names. -/
theorem idleCompletes : Obligations.IdleCompletes := by
  intro i s hop hb
  have hop' : ∃ x, exec i s = .next (enter .idle { s with curOp := none, idleDrive := x }) ∧ ∀ y, i = .idle y → x = some y := by
    rcases hop with ⟨x, rfl⟩ | ⟨rfl, hm⟩
    · refine ⟨some x, ?_, fun y h => by simpa using h⟩
      rcases hb with hb | hb <;> simp [exec, execIdle, runIdle, hb]
    · refine ⟨none, ?_, nofun⟩
      rcases hb with hb | hb <;> simp [exec, execSPassive, hm, runIdle, hb]
  obtain ⟨x, he, hx⟩ := hop'
  refine ⟨_, he, by simp, by simp, ?_, fun y m hi hmin => ?_, fun hf => ⟨sameCore_enter (by decide) hf, sameData_enter hf⟩⟩
  · rw [enter_shows]
    exact (pinsOf_idle _ (by simp)).1
  · rw [enter_shows] at hmin
    obtain ⟨h₁, h₂⟩ := pinsOf_idleDrive (x := y) _ (by simp) (by simp [hx y hi]) hmin
    exact ⟨h₁, h₂, (pinsOf_idle _ (by simp)).2 m hmin⟩

/-- Settles O19: a lane pattern is the lane selection of T1, or is announced in an Idle state. -/
theorem lanePatternsComplete : Obligations.LanePatternsComplete := by
  intro i l s hop
  have hop' : exec i s = runLane l s ∧ l ≠ .none := by
    rcases hop with ⟨rfl, rfl⟩ | ⟨rfl, rfl⟩ | ⟨rfl, rfl⟩ <;> exact ⟨rfl, nofun⟩
  obtain ⟨he, hl⟩ := hop'
  refine ⟨fun hb => by simp [he, runLane, hl, hb], fun hb =>
    ⟨enter .idle { s with curOp := none, idleDrive := none, curLanes := l }, ?_, by simp, by simp, by simp, fun hf =>
      ⟨sameCore_enter (by decide) hf, sameData_enter hf⟩⟩⟩
  rcases hb with hb | hb <;> simp [he, runLane, hl, hb]

/-- Settles O20: no lane faults where the cycle would open and in T1. -/
theorem laneTable : Obligations.LaneTable := by
  refine ⟨rfl, rfl, rfl, rfl, fun s => rfl, fun i k s hk ht hm h => ?_⟩
  rcases h with ⟨hb, hl⟩ | ⟨hb, hl⟩
  · have hka : k ≠ .ack := by
      rintro rfl
      cases ht
    rw [exec_of_kind hk hm, if_neg hka, transfers_iff hka]
    simp [runCycle, hb, ht, hl]
  · exact exec_noLane hk ht hm hl hb

/-- Settles O21: every MAXS pattern goes through `inMaxMode`. -/
theorem maxPatternsNeedMaxMode : Obligations.MaxPatternsNeedMaxMode := by
  intro i s hf hm
  have hrefuse (o : Host.Outcome State Fault Refusal) : inMaxMode s o = .refused .maxModeOnly := by simp [inMaxMode, hm]
  cases i with
  | sInta | sIor | sIow | sHalt | sFetch | sMemr | sMemw | sPassive => exact hrefuse _
  | memr | memw | ior | iow | inta | idle | laneBoth | laneHigh | laneLow | laneNone => cases hf

end Sys2Proof.Machine


/-! What a free bus does next, flattened: every Idle state and every operation that `nextOp` can answer, with what was owed
and with the state that goes on (30_encoding.md R111; 60_exceptions.md R228, R229; log 36). -/

namespace Sys2Proof.Machine

/-! ## The kinds of the operations of access primitives -/

theorem memReadItems_kind {m : Mode} {a : Addr} {w : Width} {g : Seg} {it : Item} (h : it ∈ memReadItems m a w g) :
    kindOf it.instr = some .memRead := by
  unfold memReadItems at h
  split at h <;> simp only [List.mem_cons, List.not_mem_nil, or_false] at h
  · rw [h, kindOf_memReadOp]
  · rw [h, kindOf_memReadOp]
  · rcases h with rfl | rfl <;> exact kindOf_memReadOp _ _ _ _

theorem memWriteItems_kind {m : Mode} {a : Addr} {w : Width} {g : Seg} {v : Word} {it : Item}
    (h : it ∈ memWriteItems m a w g v) : kindOf it.instr = some .memWrite := by
  unfold memWriteItems at h
  split at h <;> simp only [List.mem_cons, List.not_mem_nil, or_false] at h
  · rw [h, kindOf_memWriteOp]
  · rw [h, kindOf_memWriteOp]
  · rcases h with rfl | rfl <;> exact kindOf_memWriteOp _ _ _ _ _

theorem ioReadItems_kind {m : Mode} {p : Port} {w : Width} {it : Item} (h : it ∈ ioReadItems m p w) :
    kindOf it.instr = some .ioRead := by
  unfold ioReadItems at h
  split at h <;> simp only [List.mem_cons, List.not_mem_nil, or_false] at h
  · rw [h, kindOf_ioReadOp]
  · rw [h, kindOf_ioReadOp]
  · rcases h with rfl | rfl <;> exact kindOf_ioReadOp _ _ _

theorem ioWriteItems_kind {m : Mode} {p : Port} {w : Width} {v : Word} {it : Item} (h : it ∈ ioWriteItems m p w v) :
    kindOf it.instr = some .ioWrite := by
  unfold ioWriteItems at h
  split at h <;> simp only [List.mem_cons, List.not_mem_nil, or_false] at h
  · rw [h, kindOf_ioWriteOp]
  · rw [h, kindOf_ioWriteOp]
  · rcases h with rfl | rfl <;> exact kindOf_ioWriteOp _ _ _ _

/-- No access primitive is without an operation. -/
theorem planItems_memRead_ne_go {m : Mode} {a : Addr} {w : Width} {g : Seg} {s u : State} {b : BusState} :
    planItems (memReadItems m a w g) s ≠ .go b u := by
  unfold memReadItems
  split <;> nofun

theorem planItems_memWrite_ne_go {m : Mode} {a : Addr} {w : Width} {g : Seg} {v : Word} {s u : State} {b : BusState} :
    planItems (memWriteItems m a w g v) s ≠ .go b u := by
  unfold memWriteItems
  split <;> nofun

theorem planItems_ioRead_ne_go {m : Mode} {p : Port} {w : Width} {s u : State} {b : BusState} :
    planItems (ioReadItems m p w) s ≠ .go b u := by
  unfold ioReadItems
  split <;> nofun

theorem planItems_ioWrite_ne_go {m : Mode} {p : Port} {w : Width} {v : Word} {s u : State} {b : BusState} :
    planItems (ioWriteItems m p w v) s ≠ .go b u := by
  unfold ioWriteItems
  split <;> nofun

/-! ## A free bus that comes to an Idle state -/

/-- What a free bus makes of `v` in an Idle state, but for the current operation, of which there is none then. -/
inductive Rests (v : State) : State → Prop
  /-- Nothing to do, a TEST# wait, or a fetch for which there is no room. -/
  | nothing : Rests v v
  /-- The last step of InterruptEntry. -/
  | entered (r : List EntryStep) (he : v.entrySteps = .entered :: r) :
    Rests v { v with entrySteps := r, cs := v.result.wordOr v.cs, queue := [], qAct := .emptied }
  /-- The last step of the return. -/
  | returned (r : List EntryStep) (he : v.entrySteps = .returned :: r) :
    Rests v (resumeWait { v with entrySteps := r, fr := v.result.wordOr v.fr, queue := [], qAct := .emptied })
  /-- A TEST# wait starts. -/
  | waits (rs : List Req) (he : v.entrySteps = []) (hw : v.testWait = false) (hq : v.program = .testWait :: rs) :
    Rests v { v with program := rs, testWait := true }
  /-- The core leaves a handler that it has entered itself. -/
  | resumes (rs : List Req) (he : v.entrySteps = []) (hw : v.testWait = false) (hq : v.program = .iret :: rs)
    (hc : v.params.entry = .core) : Rests v (resumeWait { v with program := rs })
  /-- The return begins. -/
  | returns (rs : List Req) (he : v.entrySteps = []) (hw : v.testWait = false) (hq : v.program = .iret :: rs)
    (hc : v.params.entry = .sequence) : Rests v { v with program := rs, entrySteps := returnSequence }
  /-- A locked sequence begins. -/
  | locks (rs : List Req) (he : v.entrySteps = []) (hw : v.testWait = false) (hq : v.program = .lock :: rs) :
    Rests v { v with program := rs, lockHeld := true }
  /-- A locked sequence ends. -/
  | unlocks (rs : List Req) (he : v.entrySteps = []) (hw : v.testWait = false) (hq : v.program = .unlock :: rs) :
    Rests v { v with program := rs, lockHeld := false }

theorem planFetch_rests {i : Instr} {r v u : State} {b : BusState} (h : planFetch i r v = .go b u) :
    u = { v with curOp := none, idleDrive := none } := by
  unfold planFetch at h
  split at h
  · cases h
  · exact (planIdle_go h).2

theorem planEntry_rests {v u : State} {e : EntryStep} {r : List EntryStep} {b : BusState} (he : v.entrySteps = e :: r)
    (h : planEntry e { v with entrySteps := r } = .go b u) :
    ∃ w, Rests v w ∧ u = { w with curOp := none, idleDrive := none } := by
  cases e with
  | entered => exact ⟨_, .entered r he, (planIdle_go h).2⟩
  | returned => exact ⟨_, .returned r he, (planIdle_go h).2⟩
  | pushFr => exact absurd h planItems_memWrite_ne_go
  | pushCs => exact absurd h planItems_memWrite_ne_go
  | pushIp => exact absurd h planItems_memWrite_ne_go
  | readIp t => exact absurd h planItems_memRead_ne_go
  | readCs t => exact absurd h planItems_memRead_ne_go
  | popIp => exact absurd h planItems_memRead_ne_go
  | popCs => exact absurd h planItems_memRead_ne_go
  | popFr => exact absurd h planItems_memRead_ne_go

theorem planReq_rests {v u : State} {q : Req} {rs : List Req} {b : BusState} (he : v.entrySteps = [])
    (hw : v.testWait = false) (hq : v.program = q :: rs) (h : planReq q { v with program := rs } v = .go b u) :
    ∃ w, Rests v w ∧ u = { w with curOp := none, idleDrive := none } := by
  cases q with
  | word f w =>
    simp only [planReq] at h
    split at h
    · cases h
    · exact ⟨v, .nothing, planFetch_rests h⟩
  | memRead a w g => exact absurd h planItems_memRead_ne_go
  | memWrite a w g x => exact absurd h planItems_memWrite_ne_go
  | ioRead p w => exact absurd h planItems_ioRead_ne_go
  | ioWrite p w x => exact absurd h planItems_ioWrite_ne_go
  | fetch a => exact ⟨v, .nothing, planFetch_rests h⟩
  | testWait => exact ⟨_, .waits rs he hw hq, (planIdle_go h).2⟩
  | iret =>
    simp only [planReq] at h
    split at h <;> rename_i hc
    · exact ⟨_, .resumes rs he hw hq hc, (planIdle_go h).2⟩
    · exact ⟨_, .returns rs he hw hq hc, (planIdle_go h).2⟩
  | lock => exact ⟨_, .locks rs he hw hq, (planIdle_go h).2⟩
  | unlock => exact ⟨_, .unlocks rs he hw hq, (planIdle_go h).2⟩

/-- A free bus that starts no operation has done one of the things of `Rests`. -/
theorem nextOp_rests {v u : State} {b : BusState} (h : nextOp v = .go b u) :
    v.pendingOps = [] ∧ ∃ w, Rests v w ∧ u = { w with curOp := none, idleDrive := none } := by
  unfold nextOp at h
  split at h
  · cases h
  rename_i hp
  refine ⟨hp, ?_⟩
  split at h
  · exact ⟨v, .nothing, planFetch_rests h⟩
  split at h
  · cases h
  split at h
  · exact planEntry_rests ‹_› h
  rename_i he
  split at h
  · exact ⟨v, .nothing, (planIdle_go h).2⟩
  rename_i hw
  split at h
  · exact ⟨v, .nothing, (planIdle_go h).2⟩
  · exact planReq_rests he (by simpa using hw) ‹_› h

/-! ## A free bus that starts an operation -/

/-- The operations that a free bus can start from `v`, and the state with the operation taken. -/
inductive Starts (v : State) : Instr → State → Prop
  /-- The second cycle of a split access. -/
  | rest (it : Item) (l : List Item) (hp : v.pendingOps = it :: l) :
    Starts v it.instr { v with curPart := it.part, pendingOps := l }
  /-- The restart fetch. -/
  | restart (hp : v.pendingOps = []) (hr : v.restart = true) :
    Starts v (fetchOp v.mode v.params.fetchLanes Config.resetStart) { v with restart := false, curPart := .whole }
  /-- The acknowledge sequence. -/
  | ack (hp : v.pendingOps = []) (ha : v.ackPending = true) : Starts v (ackOp v) { v with ackPending := false }
  /-- A memory cycle of a step of InterruptEntry or of the return. -/
  | entry (e : EntryStep) (r : List EntryStep) (it : Item) (l : List Item) (cs ip fr sp : Word)
    (hp : v.pendingOps = []) (he : v.entrySteps = e :: r) (ho : e ≠ .entered ∧ e ≠ .returned)
    (hk : kindOf it.instr = some .memRead ∨ kindOf it.instr = some .memWrite)
    (hx : ∀ x, x ∉ e.writes → readReg { v with cs := cs, ip := ip, fr := fr, sp := sp } x = readReg v x) :
    Starts v it.instr
      { v with entrySteps := r, cs := cs, ip := ip, fr := fr, sp := sp, curPart := it.part, pendingOps := l }
  /-- A word that the core asks for. -/
  | word (f : Format) (w : BitVec 64) (i : Instr) (rs : List Req) (hp : v.pendingOps = []) (he : v.entrySteps = [])
    (hw : v.testWait = false) (hq : v.program = .word f w :: rs) (hd : decode f w = .ok i) :
    Starts v i { v with program := rs, curPart := .whole }
  /-- A fetch that the core asks for. -/
  | fetch (a : Addr) (rs : List Req) (hp : v.pendingOps = []) (he : v.entrySteps = []) (hw : v.testWait = false)
    (hq : v.program = .fetch a :: rs) :
    Starts v (fetchOp v.mode v.params.fetchLanes a) { v with program := rs, curPart := .whole }
  /-- The first cycle of an access primitive that the core asks for. -/
  | access (q : Req) (rs : List Req) (it : Item) (l : List Item) (k : Kind) (hp : v.pendingOps = [])
    (he : v.entrySteps = []) (hw : v.testWait = false) (hq : v.program = q :: rs) (hk : kindOf it.instr = some k)
    (ht : k.transfers = true) (hn : q ≠ .unlock) :
    Starts v it.instr { v with program := rs, curPart := it.part, pendingOps := l }

theorem planEntry_starts {v u : State} {e : EntryStep} {r : List EntryStep} {i : Instr} (hp : v.pendingOps = [])
    (he : v.entrySteps = e :: r) (h : planEntry e { v with entrySteps := r } = .run i u) : Starts v i u := by
  have hx := fun x (hx : x ∉ e.writes) => planEntry_keeps hx (.inl ⟨i, h⟩)
  have hkeep : ∀ x, readReg { v with entrySteps := r } x = readReg v x := fun x => by cases x <;> rfl
  cases e with
  | entered => cases h
  | returned => cases h
  | pushFr | pushCs | pushIp =>
    obtain ⟨it, l, hl, rfl, rfl⟩ := planItems_run h
    refine .entry _ r it l _ _ _ _ hp he (by simp) (.inr (memWriteItems_kind (hl ▸ List.mem_cons_self))) fun x hw => ?_
    refine Eq.trans ?_ ((hx x hw).trans (hkeep x))
    cases x <;> rfl
  | readIp t | readCs t | popIp | popCs | popFr =>
    obtain ⟨it, l, hl, rfl, rfl⟩ := planItems_run h
    refine .entry _ r it l _ _ _ _ hp he (by simp) (.inl (memReadItems_kind (hl ▸ List.mem_cons_self))) fun x hw => ?_
    refine Eq.trans ?_ ((hx x hw).trans (hkeep x))
    cases x <;> rfl

theorem planReq_starts {v u : State} {q : Req} {rs : List Req} {i : Instr} (hp : v.pendingOps = []) (he : v.entrySteps = [])
    (hw : v.testWait = false) (hq : v.program = q :: rs) (h : planReq q { v with program := rs } v = .run i u) :
    Starts v i u := by
  cases q with
  | word f w =>
    simp only [planReq] at h
    split at h
    · cases h
    · obtain ⟨-, rfl, rfl⟩ := planFetch_run h
      exact .word f w _ rs hp he hw hq ‹_›
  | memRead a w g =>
    obtain ⟨it, l, hl, rfl, rfl⟩ := planItems_run h
    exact .access _ rs it l _ hp he hw hq (memReadItems_kind (hl ▸ List.mem_cons_self)) rfl nofun
  | memWrite a w g x =>
    obtain ⟨it, l, hl, rfl, rfl⟩ := planItems_run h
    exact .access _ rs it l _ hp he hw hq (memWriteItems_kind (hl ▸ List.mem_cons_self)) rfl nofun
  | ioRead p w =>
    obtain ⟨it, l, hl, rfl, rfl⟩ := planItems_run h
    exact .access _ rs it l _ hp he hw hq (ioReadItems_kind (hl ▸ List.mem_cons_self)) rfl nofun
  | ioWrite p w x =>
    obtain ⟨it, l, hl, rfl, rfl⟩ := planItems_run h
    exact .access _ rs it l _ hp he hw hq (ioWriteItems_kind (hl ▸ List.mem_cons_self)) rfl nofun
  | fetch a =>
    obtain ⟨-, rfl, rfl⟩ := planFetch_run h
    exact .fetch a rs hp he hw hq
  | testWait => cases h
  | iret =>
    simp only [planReq] at h
    split at h <;> cases h
  | lock => cases h
  | unlock => cases h

/-- An operation that a free bus starts is one of those of `Starts`. -/
theorem nextOp_starts {v u : State} {i : Instr} (h : nextOp v = .run i u) : Starts v i u := by
  unfold nextOp at h
  split at h
  · cases h
    exact .rest _ _ ‹_›
  rename_i hp
  split at h
  · rename_i hr
    obtain ⟨-, rfl, rfl⟩ := planFetch_run h
    exact .restart hp (Bool.and_eq_true_iff.1 hr).1
  split at h
  · cases h
    exact .ack hp ‹_›
  split at h
  · exact planEntry_starts hp ‹_› h
  rename_i he
  split at h
  · cases h
  rename_i hw
  split at h
  · cases h
  · exact planReq_starts hp he (by simpa using hw) ‹_› h

/-! ## The look at TEST# and at the interrupt requests -/

/-- In the T-state `s` an interrupt can be served, TEST# having been looked at. -/
structure Served (s : State) : Prop where
  ends : s.now.instrEnd = true ∨ s.endPending = true ∨
    (s.testWait = true ∧ s.params.waitInterruptible = true ∧ s.now.testN = true)
  owned : s.busState ≠ .holdAck
  noAck : s.ackPhase = .none
  noAckPending : s.ackPending = false
  noEntry : s.entrySteps = []
  noRestart : s.restart = false

theorem canServe_sampleTest_iff (s : State) : canServe (sampleTest s) = true ↔ Served s := by
  rw [sampleTest_eq]
  constructor
  · intro h
    simp only [canServe, Bool.and_eq_true, Bool.or_eq_true, decide_eq_true_eq, Bool.not_eq_true', List.isEmpty_iff] at h
    obtain ⟨⟨⟨⟨⟨he, hb⟩, hp⟩, ha⟩, hs⟩, hr⟩ := h
    exact ⟨by tauto, hb, hp, ha, hs, hr⟩
  · rintro ⟨he, hb, hp, ha, hs, hr⟩
    simp only [canServe, Bool.and_eq_true, Bool.or_eq_true, decide_eq_true_eq, Bool.not_eq_true', List.isEmpty_iff]
    exact ⟨⟨⟨⟨⟨by tauto, hb⟩, hp⟩, ha⟩, hs⟩, hr⟩

/-- The steps of InterruptEntry that a raised type leaves owed, where none were. -/
def entryOwed (s : State) (type : Byte) : List EntryStep :=
  if s.params.entry = .sequence then entrySequence type else []

/-- All that the look at TEST# and at the interrupt requests makes of `s`. -/
inductive Looked (s : State) : State → Prop
  /-- No interrupt is served. -/
  | none (h : ¬Served s ∨ (s.nmiPending = false ∧ (s.now.intr = false ∨ ifOf s.fr = false))) :
    Looked s { s with
      testWait := s.testWait && s.now.testN
      endPending := decide (s.busState = .holdAck) && (s.endPending || s.now.instrEnd) }
  /-- The non-maskable request is taken. -/
  | nmi (h : Served s) (hn : s.nmiPending = true) :
    Looked s { s with
      nmiPending := false, endPending := false, raised := s.raised ++ [Config.nmiType], testWait := false
      waitStack := (s.testWait && s.now.testN) :: s.waitStack, entrySteps := entryOwed s Config.nmiType }
  /-- INTR is accepted. -/
  | intr (h : Served s) (hn : s.nmiPending = false) (hi : s.now.intr = true) (hf : ifOf s.fr = true) :
    Looked s { s with testWait := s.testWait && s.now.testN, endPending := false, ackPending := true }

theorem looked (s : State) : Looked s (poll (sampleTest s)) := by
  have hserve := canServe_sampleTest_iff s
  rw [sampleTest_eq] at hserve ⊢
  unfold poll
  split
  · rename_i hc
    have hs := hserve.1 hc
    have hend : keepEnd { s with testWait := s.testWait && s.now.testN } =
        { s with testWait := s.testWait && s.now.testN, endPending := false } := keepEnd_owned hs.owned
    rw [hend]
    dsimp only
    split
    · have he : takeInterrupt Config.nmiType { s with
          testWait := s.testWait && s.now.testN, endPending := false, nmiPending := false } = { s with
          nmiPending := false, endPending := false, raised := s.raised ++ [Config.nmiType], testWait := false
          waitStack := (s.testWait && s.now.testN) :: s.waitStack, entrySteps := entryOwed s Config.nmiType } := by
        unfold takeInterrupt entryOwed
        cases hp : s.params.entry <;> simp [hs.noEntry]
      rw [he]
      exact .nmi hs ‹_›
    · rename_i hn
      rw [Bool.not_eq_true] at hn
      split
      · rename_i hi
        rw [Bool.and_eq_true] at hi
        exact .intr hs hn hi.1 hi.2
      · rename_i hi
        have := Looked.none (s := s) (.inr ⟨hn, by simpa [← Bool.not_eq_true, imp_iff_not_or] using hi⟩)
        simpa [hs.owned] using this
  · rename_i hc
    exact .none (.inl fun h => hc (hserve.2 h))

end Sys2Proof.Machine


/-! The maximum-mode outputs after a step (spec/42_max_mode_control.md): the queue status (R191), the status code (R187,
R192) and the 8288 (R192). -/

namespace Sys2Proof.Machine

/-! ## The queue status -/

theorem not_entryEnds_of_length {s t : State} (h : s.entrySteps.length ≤ t.entrySteps.length) : ¬EntryEnds s t :=
  fun he => absurd he.2 (by omega)

/-- The look at the interrupts does not take away or bring a last step. -/
theorem entryEnds_looked {s v t : State} (h : Looked s v) : EntryEnds v t ↔ EntryEnds s t := by
  cases h with
  | none => exact Iff.rfl
  | intr => exact Iff.rfl
  | nmi hs _ =>
    have hv : ¬((entryOwed s Config.nmiType).head? = some .entered ∨ (entryOwed s Config.nmiType).head? = some .returned) := by
      unfold entryOwed
      split <;> simp [entrySequence]
    have hs' : ¬(s.entrySteps.head? = some .entered ∨ s.entrySteps.head? = some .returned) := by simp [hs.noEntry]
    exact ⟨fun e => absurd e.1 hv, fun e => absurd e.1 hs'⟩

theorem takeInterrupt_entrySteps_length (type : Byte) (s : State) :
    s.entrySteps.length ≤ (takeInterrupt type s).entrySteps.length := by
  unfold takeInterrupt
  dsimp only
  split <;> simp

/-- What the 8086 itself has done to the queue when the coming T-state takes the core's action: the bytes of a fetch have
come, or the last step of an entry or return has emptied it, or nothing. -/
def QueueMade (v u t : State) : Prop :=
  (u.qAct = v.qAct ∧ ¬EntryEnds v t ∧
    u.queue = if t.busState = .t4 ∧ curKind v = some .fetch then v.queue ++ laneBytes v.curLanes t.rdata else v.queue) ∨
  (u.qAct = .emptied ∧ EntryEnds v t ∧ u.queue = [])

theorem QueueMade.kept {v u : State} {b : BusState} (hq : u.queue = v.queue) (ha : u.qAct = v.qAct)
    (he : ¬EntryEnds v (enter b u)) (hb : b ≠ .t4 ∨ curKind v ≠ some .fetch) : QueueMade v u (enter b u) := by
  refine .inl ⟨ha, he, ?_⟩
  rw [enter_busState, if_neg (fun h => hb.elim (absurd h.1) (absurd h.2)), hq]

theorem Rests.queueMade {v w : State} (h : Rests v w) :
    QueueMade v { w with curOp := none, idleDrive := none } (enter .idle { w with curOp := none, idleDrive := none }) := by
  cases h with
  | entered r he =>
    exact .inr ⟨rfl, ⟨by simp [he], by simp [he]⟩, rfl⟩
  | returned r he =>
    rw [resumeWait_eq]
    exact .inr ⟨rfl, ⟨by simp [he], by simp [he]⟩, rfl⟩
  | resumes rs he =>
    rw [resumeWait_eq]
    exact .kept rfl rfl (not_entryEnds_of_length (by simp)) (.inl (by decide))
  | returns rs he => exact .kept rfl rfl (not_entryEnds_of_length (by simp [he])) (.inl (by decide))
  | nothing | waits | locks | unlocks => exact .kept rfl rfl (not_entryEnds_of_length (by simp)) (.inl (by decide))

theorem Starts.entry_goesOn {v u t : State} {i : Instr} (h : Starts v i u) (ht : t.entrySteps = u.entrySteps) :
    ¬EntryEnds v t := by
  cases h with
  | entry e r it l cs ip fr sp hp he ho => exact fun hends => by simp [EntryEnds, he, ho] at hends
  | rest | restart | ack | word | fetch | access => exact not_entryEnds_of_length (by rw [ht])

theorem Started.queue_kept {v u : State} {i : Instr} (h : Started v i u) : u.queue = v.queue ∧ u.qAct = v.qAct := by
  obtain ⟨_, _, _, _, _, _, _, _, _, _, rfl⟩ := h.taken.eq
  exact ⟨rfl, rfl⟩

/-- How a T-state turns into the next one, and what has been done to the queue before the core acts. -/
theorem Turn.queueMade {s v t : State} (h : Turn s v t) : ∃ b u, b ≠ .inReset ∧ t = enter b u ∧ QueueMade v u t := by
  cases h with
  | t1 => exact ⟨_, _, by decide, rfl, .kept (by simp) (by simp) (not_entryEnds_of_length (by simp)) (.inl (by decide))⟩
  | fin i k hb hc hk hka =>
    refine ⟨_, _, by decide, rfl, .inl ⟨by simp, not_entryEnds_of_length (by simp), ?_⟩⟩
    have hcur : curKind v = some k := by simp [curKind, hc, hk]
    cases k <;> simp [hcur, finishOf, finishFetch]
  | ack1 i hb hc hk =>
    exact ⟨_, _, by decide, rfl, .kept rfl rfl (not_entryEnds_of_length (by simp)) (.inr (by simp [curKind, hc, hk]))⟩
  | ack2 i hb hc hk =>
    refine ⟨_, _, by decide, rfl, .kept rfl rfl (not_entryEnds_of_length ?_) (.inr (by simp [curKind, hc, hk]))⟩
    rw [enter_entrySteps]
    exact takeInterrupt_entrySteps_length _ { v with ackType := lowIn v, ackPhase := .none }
  | give hb hp u ho =>
    refine ⟨_, _, by decide, rfl, ?_⟩
    rcases handOver_cases ho with ⟨-, -, rfl⟩ | ⟨-, -, -, rfl⟩ | ⟨-, -, -, -, rfl⟩ <;>
      exact .kept rfl rfl (not_entryEnds_of_length (by simp)) (.inl (by decide))
  | rest hb hp ho u hn hr =>
    obtain ⟨-, w, hw, rfl⟩ := nextOp_rests hn
    exact ⟨_, _, by decide, rfl, hw.queueMade⟩
  | start i u k hb hp ho hn hs =>
    obtain ⟨hq, ha⟩ := hs.queue_kept
    exact ⟨_, _, by decide, rfl, .kept hq ha ((nextOp_starts hn).entry_goesOn (by simp)) (.inl (by decide))⟩
  | startAck i u hb hp ho hn hs =>
    obtain ⟨hq, ha⟩ := hs.queue_kept
    exact ⟨_, _, by decide, rfl, .kept hq ha ((nextOp_starts hn).entry_goesOn (by simp)) (.inl (by decide))⟩
  | startIdle i u x hb hp ho hn hs =>
    obtain ⟨hq, ha⟩ := hs.queue_kept
    exact ⟨_, _, by decide, rfl, .kept hq ha ((nextOp_starts hn).entry_goesOn (by simp)) (.inl (by decide))⟩
  | startLane i u l hb hp ho hn hs =>
    obtain ⟨hq, ha⟩ := hs.queue_kept
    exact ⟨_, _, by decide, rfl, .kept hq ha ((nextOp_starts hn).entry_goesOn (by simp)) (.inl (by decide))⟩
  | t2 | wait | release | hold | ackGo | ackGap =>
    exact ⟨_, _, by decide, rfl, .kept rfl rfl (not_entryEnds_of_length (by simp)) (.inl (by decide))⟩

/-- The coming T-state has the frame that the outside gives for it. -/
theorem step_now {s t : State} (hi : Inv s) (h : step s = .next t) : t.now = nextFrame s := by
  by_cases ht : t.busState = .inReset
  · obtain ⟨-, rfl⟩ := step_reset hi h ht
    rw [enter_now, outsideDone_eq]
    rfl
  · by_cases hs : s.busState = .inReset
    · obtain ⟨-, rfl⟩ := step_leave h ht hs
      rw [enter_now]
      rfl
    · obtain ⟨b, u, -, rfl, hf⟩ := (step_out hi h ht hs).2.2.entered (by simp) (by simp)
      rw [enter_now, hf]

theorem step_queueMade {s t : State} (hi : Inv s) (h : step s = .next t) (ht : t.busState ≠ .inReset) :
    ∃ b u, b ≠ .inReset ∧ t = enter b u ∧ nextFrame u = nextFrame s ∧ QueueMade s u t := by
  have hnow := step_now hi h
  by_cases hs : s.busState = .inReset
  · obtain ⟨-, rfl⟩ := step_leave h ht hs
    exact ⟨_, _, by decide, rfl, rfl, .kept rfl rfl (not_entryEnds_of_length (by simp)) (.inl (by decide))⟩
  · obtain ⟨b, u, hb, rfl, hq⟩ := (step_out hi h ht hs).2.2.queueMade
    refine ⟨b, u, hb, rfl, by rw [← hnow, enter_now], ?_⟩
    simpa only [QueueMade, entryEnds_looked (looked s), poll_sampleTest_qAct, poll_sampleTest_queue, curKind_poll_sampleTest,
      poll_sampleTest_curLanes] using hq

/-- What the core's action makes of a queue. -/
theorem useQueue_spec (a : QAct) (u : State) :
    (a = .noop → (useQueue a u).queue = u.queue ∧ (useQueue a u).qAct = .noop ∧ (useQueue a u).qOut = none) ∧
    (a = .emptied → (useQueue a u).queue = [] ∧ (useQueue a u).qAct = .emptied ∧ (useQueue a u).qOut = none) ∧
    (a = .first ∨ a = .next →
      (∀ b r, u.queue = b :: r → (useQueue a u).queue = r ∧ (useQueue a u).qAct = a ∧ (useQueue a u).qOut = some b) ∧
      (u.queue = [] → (useQueue a u).queue = [] ∧ (useQueue a u).qAct = .noop ∧ (useQueue a u).qOut = none)) := by
  cases a with
  | noop | emptied => simp [useQueue]
  | first | next => cases hq : u.queue <;> simp [useQueue, hq]

/-- From an empty queue no byte comes. -/
theorem useQueue_empty (a : QAct) {u : State} (hq : u.queue = []) : (useQueue a u).queue = [] ∧ (useQueue a u).qOut = none ∧
    (useQueue a u).qAct = if a = .emptied then .emptied else .noop := by
  cases a <;> simp [useQueue, hq]

/-- Where the last step of an entry or return is next on a free bus it is done. -/
theorem step_entryEnds {s t : State} (h : step s = .next t) (hf : BusFree s)
    (he : s.entrySteps.head? = some .entered ∨ s.entrySteps.head? = some .returned) : EntryEnds s t := by
  refine ⟨he, ?_⟩
  cases hs : s.entrySteps with
  | nil => simp [hs] at he
  | cons e r =>
    rw [step_atEntry hf hs] at h
    rw [hs, List.head?_cons, Option.some.injEq, Option.some.injEq] at he
    rcases he with rfl | rfl
    · obtain rfl := Host.Outcome.next.inj h
      simp
    · rw [planEntry, planIdle, resumeWait_eq] at h
      obtain rfl := Host.Outcome.next.inj h
      simp

/-- Settles O36: the action of the clock before is shown, and the core acts on the queue that the 8086 has made. -/
theorem queueStatus : Obligations.QueueStatus := by
  intro s t hi h ht
  obtain ⟨b, u, hb, htu, hf, hmade⟩ := step_queueMade hi h ht
  have hqs : ∀ m, maxOf t.pins = some m → m.qs = qsCode t.params.qsEnc u.qAct := by
    intro m hm
    obtain ⟨-, rfl⟩ := step_maxOf hi h hm
    rw [maxPins, htu, enter_qsShown u hb]
  obtain ⟨hqueue, hqAct, hqOut⟩ := enter_useQueue u hb
  rw [hf, ← htu] at hqueue hqAct hqOut
  refine ⟨fun hne => ?_, fun he => ?_, fun hfree he => step_entryEnds h hfree he⟩
  · obtain ⟨ha, -, hq⟩ := hmade.resolve_right fun h => hne h.2.1
    refine ⟨by rwa [ha] at hqs, fun q hq' => ?_⟩
    rw [hqueue, hqAct, hqOut, hq'.trans hq.symm]
    exact useQueue_spec _ u
  · obtain ⟨ha, -, hq⟩ := hmade.resolve_left fun h => h.2.1 he
    rw [hqueue, hqAct, hqOut]
    obtain ⟨h₁, h₂, h₃⟩ := useQueue_empty (nextFrame s).qAct hq
    exact ⟨by rwa [ha] at hqs, h₁, h₂, h₃⟩

/-! ## The status code -/

/-- From T4 or Idle an operation enters T1 exactly where its cycle opens, and T1 is that of the operation. -/
theorem opensCycle_iff {i : Instr} {u t : State} (hb : u.busState = .idle ∨ u.busState = .t4) (he : exec i u = .next t) :
    (opensCycle i u = true ↔ t.busState = .t1) ∧ (t.busState = .t1 → t.curOp = some i) := by
  obtain ⟨-, ⟨k, hk, hka, hr⟩ | ⟨hk, hr⟩ | ⟨hk, ⟨x, hr⟩ | ⟨l, hr⟩⟩⟩ := exec_next he
  · have hopen : opensCycle i u = !selectsNoLane i := by
      unfold opensCycle
      rw [hk]
      cases k with
      | ack => exact absurd rfl hka
      | memRead | fetch | memWrite | ioRead | ioWrite | halt => rfl
    rcases runCycle_next hr with ⟨-, hl, rfl⟩ | ⟨hb', -⟩ | ⟨hb', -⟩ | ⟨hb', -⟩ | ⟨hb', -⟩ | ⟨hb', -⟩ | ⟨hb', -⟩
    · rw [transfers_iff hka] at hl
      simpa [hopen, selectsNoLane, hk, imp_iff_not_or] using hl
    all_goals rcases hb with hb | hb <;> simp [hb] at hb'
  · rcases runAck_next hr with ⟨-, hcase⟩ | ⟨hb', -⟩ | ⟨hb', -⟩ | ⟨hb', -⟩ | ⟨hb', -⟩ | ⟨hb', -⟩ | ⟨hb', -⟩
    · rcases hcase with ⟨hp, hg, rfl⟩ | ⟨g, hp, hg, rfl⟩ | ⟨hp, rfl⟩ | ⟨n, hp, rfl⟩ | ⟨hp | hp, rfl⟩ <;>
        simp [opensCycle, *]
    all_goals rcases hb with hb | hb <;> simp [hb] at hb'
  · rcases runIdle_next hr with ⟨-, rfl⟩ | ⟨hb', -⟩ | ⟨hb', -⟩
    · simp [opensCycle, hk]
    all_goals rcases hb with hb | hb <;> simp [hb] at hb'
  · obtain ⟨-, ⟨hb', -⟩ | ⟨-, rfl⟩ | ⟨hb', -⟩ | ⟨hb', -⟩⟩ := runLane_next hr
    · rcases hb with hb | hb <;> simp [hb] at hb'
    · simp [opensCycle, hk]
    all_goals rcases hb with hb | hb <;> simp [hb] at hb'

/-- The operation whose T1 a T4 or Idle state announces is the one whose T1 comes, if no RESET does. -/
theorem step_upcoming {s t : State} (hi : Inv s) (h : step s = .next t) (hb : s.busState = .t4 ∨ s.busState = .idle)
    (ht : t.busState ≠ .inReset) :
    (t.busState = .t1 → upcoming s = t.curOp) ∧ (t.busState ≠ .t1 → upcoming s = none) := by
  have hact : s.busState ≠ .inReset := by rcases hb with hb | hb <;> simp [hb]
  have hr := (step_out hi h ht hact).1
  have hnow : planNow s = planActive (poll (sampleTest s)) := if_neg hact
  have hvb : (poll (sampleTest s)).busState = .idle ∨ (poll (sampleTest s)).busState = .t4 := by simpa using hb.symm
  obtain ⟨-, -, ⟨hr', -⟩ | ⟨-, hs, -⟩ | ⟨-, -, ⟨b, u, hp, rfl⟩ | ⟨i, u, hp, he⟩⟩⟩ := step_next h
  · simp [hr] at hr'
  · exact absurd hs hact
  · have hu : upcoming s = none := by
      unfold upcoming
      rw [hnow, hp]
      rcases hb with hb | hb <;> rw [hb]
    have hne : b ≠ .t1 := by
      rcases planActive_go hp with ⟨-, -, rfl, -⟩ | ⟨-, -, rfl, -⟩ | ⟨-, -, rfl, -⟩ | ⟨-, -, -, hre⟩
      · decide
      · decide
      · decide
      · rw [hre.idle]
        decide
    exact ⟨fun h => absurd h hne, fun _ => hu⟩
  · have hub : u.busState = .idle ∨ u.busState = .t4 := by
      rcases planActive_run (by simpa using hact) hi.polled.pending hp with ⟨hc, -⟩ | ⟨-, -, -, rfl⟩ | ⟨-, -, -, hst⟩
      · rcases hvb with hvb | hvb <;> simp [hvb, inCycle] at hc
      · exact hvb
      · obtain ⟨_, _, _, _, _, _, _, _, _, _, rfl⟩ := hst.taken.eq
        exact hvb
    have hu : upcoming s = if opensCycle i u then some i else none := by
      unfold upcoming
      rw [hnow, hp]
      rcases hb with hb | hb <;> rw [hb]
    obtain ⟨hiff, hcur⟩ := opensCycle_iff hub he
    rw [hu]
    exact ⟨fun h => by rw [if_pos (hiff.2 h), hcur h], fun h => if_neg (fun ho => h (hiff.1 ho))⟩

/-- Settles O35: inside a cycle the code is its own, and a T4 or Idle state shows the code of what it announces. -/
theorem statusCodeShown : Obligations.StatusCode := by
  refine ⟨fun s t m k hi h hm hk => ?_, fun r s t m hr h₁ hm h₂ hb ht => ?_⟩
  · obtain ⟨-, rfl⟩ := step_maxOf hi h hm
    refine ⟨fun hb => ?_, fun hb => ?_⟩ <;> rcases hb with hb | hb <;> simp [maxPins, statusCode, hb, hk]
  · obtain ⟨-, rfl⟩ := step_maxOf hr h₁ hm
    obtain ⟨hu₁, hu₂⟩ := step_upcoming (stepKeepsInvariant r s hr h₁) h₂ hb ht
    refine ⟨fun k ht1 hk => ?_, fun ht1 => ?_⟩
    · have hnext : (upcoming s).bind kindOf = some k := by rw [hu₁ ht1]; exact hk
      rcases hb with hb | hb <;> simp [maxPins, statusCode, hb, hnext]
    · rcases hb with hb | hb <;> simp [maxPins, statusCode, hb, hu₂ ht1]

/-! ## The 8288 -/

/-- In a table of eight different codes each code names its own cycle. -/
theorem kindOfCode_codeOf {e : SEnc} (h : e.codes.Nodup) (k : Kind) : kindOfCode e (codeOf e k) = some k := by
  have hr : e.codes.reverse.Nodup := List.nodup_reverse.2 h
  simp only [SEnc.codes, List.reverse_cons, List.reverse_nil, List.nil_append, List.cons_append, List.nodup_cons,
    List.mem_cons, List.not_mem_nil, or_false, not_or] at h hr
  cases k <;> simp [kindOfCode, codeOf, h, hr]

/-- The minimum-mode outputs, if those are what the pins show, are made from the T-state. -/
theorem minOf_pinsOf {fresh : Bool} {s : State} {m : MinPins} (h : minOf (pinsOf fresh s) = some m) :
    m = minPins s (Config.freeWord s.draws) := by
  cases hmode : s.mode with
  | min => simpa [minOf, pinsOf, hmode] using h.symm
  | max => simp [minOf, pinsOf, hmode] at h

/-- The levels that the 8288 gives for a code of the table are those of a minimum-mode 8086 in that T-state of the cycle. -/
theorem ctl8288_levels {e : SEnc} {k : Kind} {s : State} {i : Instr} (w : BitVec 64) (he : e.codes.Nodup)
    (hc : s.curOp = some i) (hk : kindOf i = some k) (hb : inCycle s.busState = true ∨ s.busState = .t4) :
    (∀ v, (ctl8288 e (codeOf e k) s.busState).mio = some v → mioPin s w = some v) ∧
    (k.transfers = true → s.busState ≠ .t4 → (ctl8288 e (codeOf e k) s.busState).mio.isSome = true) ∧
    (∀ v, (ctl8288 e (codeOf e k) s.busState).dtr = some v → dtrPin s w = some v) ∧
    (k.transfers = true → (ctl8288 e (codeOf e k) s.busState).dtr.isSome = true) := by
  have hidle : s.busState ≠ .idle := by
    rintro h
    simp [h, inCycle] at hb
  have hmem : k ≠ .ack → k ≠ .halt → k.transfers = true := by cases k <;> simp [Kind.transfers, Kind.reads, Kind.writes]
  simp only [ctl8288, kindOfCode_codeOf he, hidle, or_false, if_false]
  rw [dtrPin_inCycle w hb hc]
  refine ⟨?_, fun ht h4 => ?_, ?_, fun ht => ?_⟩
  · by_cases h4 : s.busState = .t4
    · simp [h4]
    · rw [mioPin_inCycle w (hb.resolve_right h4) hc]
      cases k <;> simp [mioOf_transfer hk, h4, Kind.transfers, Kind.reads, Kind.writes]
  · cases k <;> simp_all [Kind.transfers, Kind.reads, Kind.writes]
  · cases k <;> simp [dtrOf_transfer hk, Kind.transfers, Kind.reads, Kind.writes]
  · cases k <;> simp_all [Kind.transfers, Kind.reads, Kind.writes]

/-- Settles O37: both make each signal from the kind of the cycle and the T-state. -/
theorem busControllerAgrees : Obligations.BusControllerAgrees := by
  refine ⟨fun e k s i m he hc hk hidle hhold hreset hm => ?_, fun e c s m hb hm => ?_⟩
  · have hb : inCycle s.busState = true ∨ s.busState = .t4 := by
      cases hs : s.busState <;> simp_all [inCycle]
    have hown : ownsBus s.busState = true := by simp [ownsBus, hhold, hreset]
    have hcur : curKind s = some k := by simp [curKind, hc, hk]
    obtain rfl := minOf_pinsOf hm
    obtain ⟨h₁, h₂, h₃, h₄⟩ := ctl8288_levels (Config.freeWord s.draws) he hc hk hb
    refine ⟨h₁, h₂, h₃, h₄, ?_⟩
    simp [ctl8288, kindOfCode_codeOf he, minPins, pinsOf, rdPin, lowActive_of_ownsBus hown, hcur]
  · obtain rfl := minOf_pinsOf hm
    simp only [ctl8288]
    cases kindOfCode e c <;> simp [minPins, pinsOf, rdPin, hb, lowActive, strobeState]

end Sys2Proof.Machine


/-! Several T-states in a row: the bus cycle with its wait states (spec/40_address_data_bus.md R120, spec/43_common_control.md
R204), the interrupt-acknowledge sequence (spec/60_exceptions.md R219 to R222) and the width of RESET
(spec/70_reset_and_hazards.md R251). -/

namespace Sys2Proof.Machine

/-! ## Steps in a row -/

theorem runSteps_step {s t : State} (h : step s = .next t) (n : Nat) : runSteps (n + 1) s = runSteps n t := by
  simp [runSteps, h]

theorem runSteps_add {m : Nat} {s w : State} (h : runSteps m s = .next w) (n : Nat) :
    runSteps (m + n) s = runSteps n w := by
  induction m generalizing s with
  | zero =>
    obtain rfl := Host.Outcome.next.inj h
    rw [Nat.zero_add]
  | succ m ih =>
    rw [Nat.succ_add]
    cases hs : step s with
    | next t =>
      rw [runSteps_step hs] at h ⊢
      exact ih h
    | fault f => simp [runSteps, hs] at h
    | refused r => simp [runSteps, hs] at h

/-- One more step. -/
theorem runSteps_succ {m : Nat} {s w t : State} (h : runSteps m s = .next w) (ht : step w = .next t) :
    runSteps (m + 1) s = .next t := by
  rw [runSteps_add h, runSteps_step ht, runSteps]

/-- The frames from this T-state on. -/
def framesOf (s : State) : List Frame := s.now :: s.inputs

theorem nextFrame_of_framesOf {s : State} {f : Frame} (h : (framesOf s)[1]? = some f) : nextFrame s = f := by
  unfold nextFrame
  cases hs : s.inputs with
  | nil => simp [framesOf, hs] at h
  | cons g r => simpa [framesOf, hs] using h

theorem now_of_framesOf {s : State} {f : Frame} (h : (framesOf s)[0]? = some f) : s.now = f := by
  simpa [framesOf] using h

/-- A T-state takes its frame, if there is one left. -/
theorem framesOf_enter {b : BusState} {s u : State} {f : Frame} (hf : (framesOf s)[1]? = some f)
    (hi : u.inputs = s.inputs) (hn : u.now = s.now) : framesOf (enter b u) = (framesOf s).drop 1 := by
  unfold framesOf at *
  rw [enter_now, enter_inputs, nextFrame, hi, hn]
  cases hs : s.inputs with
  | nil => simp [hs] at hf
  | cons g r => rfl

/-- Nothing cuts in where the strap is right, no RESET comes and nobody else drives the bus. -/
theorem Inv.undisturbed {s : State} (hi : Inv s) (hm : s.now.mnmx = s.mode.strap) (hr : (nextFrame s).reset = false)
    (hb : s.busState ≠ .inReset) (hz : hazard s = none) : Undisturbed s :=
  ⟨hm, hr, hb, by simp [violation, hz, hi.legal]⟩

theorem hazard_quiet {s : State} (hlo : s.now.devLo = none) (hhi : s.now.devHi = none) (hx : s.now.ext = []) :
    hazard s = none := by
  simp [hazard, hlo, hhi, hx]

theorem Inv.undisturbed_quiet {s : State} (hi : Inv s) (hq : QuietFrame s.mode s.now) (hr : (nextFrame s).reset = false)
    (hb : s.busState ≠ .inReset) : Undisturbed s :=
  hi.undisturbed hq.strap hr hb (hazard_quiet hq.noLo hq.noHi hq.noExt)

/-! ## The T-states of a cycle, as equations -/

section
variable {s : State} (hi : Inv s) (hu : Undisturbed s)
include hi hu

theorem step_t1_eq (hb : s.busState = .t1) : step s = .next (enter .t2 (latchAddress (poll (sampleTest s)))) := by
  have hcyc : inCycle s.busState = true := by simp [hb, inCycle]
  obtain ⟨i, k, hc, hk⟩ := hi.cycle_op hcyc
  rw [step_inCycle hu hcyc hc]
  exact exec_t1 hk (by simpa using hi.wired i hc) (by simpa using hc) (by simpa using hb)
    (by simpa using hi.laned k hcyc (by simp [curKind, hc, hk]))

theorem step_t2_eq (hb : s.busState = .t2) : step s = .next (enter .t3 (poll (sampleTest s))) := by
  have hcyc : inCycle s.busState = true := by simp [hb, inCycle]
  obtain ⟨i, k, hc, hk⟩ := hi.cycle_op hcyc
  rw [step_inCycle hu hcyc hc]
  exact exec_t2 hk (by simpa using hi.wired i hc) (by simpa using hc) (by simpa using hb)

theorem step_wait_eq (hb : s.busState = .t3 ∨ s.busState = .tw) (hr : s.now.ready = false) :
    step s = .next (enter .tw (poll (sampleTest s))) := by
  have hcyc : inCycle s.busState = true := by rcases hb with hb | hb <;> simp [hb, inCycle]
  obtain ⟨i, k, hc, hk⟩ := hi.cycle_op hcyc
  rw [step_inCycle hu hcyc hc]
  exact exec_wait hk (by simpa using hi.wired i hc) (by simpa using hc) (by simpa using hb) (by simpa using hr)

theorem step_end_eq {k : Kind} (hk : curKind s = some k) (hka : k ≠ .ack) (hb : s.busState = .t3 ∨ s.busState = .tw)
    (hr : s.now.ready = true) : step s = .next (enter .t4 (finishOf k (poll (sampleTest s)))) := by
  have hcyc : inCycle s.busState = true := by rcases hb with hb | hb <;> simp [hb, inCycle]
  obtain ⟨i, hc, hki⟩ := Option.bind_eq_some_iff.1 hk
  rw [step_inCycle hu hcyc hc]
  exact exec_end hki hka (by simpa using hi.wired i hc) (by simpa using hc) (by simpa using hb) (by simpa using hr)

theorem step_ackEnd_eq (hk : curKind s = some .ack) (hb : s.busState = .t3 ∨ s.busState = .tw) (hr : s.now.ready = true) :
    step s = finishAck (poll (sampleTest s)) := by
  have hcyc : inCycle s.busState = true := by rcases hb with hb | hb <;> simp [hb, inCycle]
  obtain ⟨i, hc, hki⟩ := Option.bind_eq_some_iff.1 hk
  rw [step_inCycle hu hcyc hc]
  exact exec_ackEnd hki (by simpa using hi.wired i hc) (by simpa using hc) (by simpa using hb) (by simpa using hr)

end

/-! ## Wait states -/

theorem QuietFrame.held {m : Mode} {f : Frame} (h : QuietFrame m f) : QuietFrame m (Frame.held f) :=
  ⟨h.strap, h.noReset, rfl, rfl, rfl⟩

/-- One wait state, with frames in which nobody cuts in. -/
theorem step_waits {s : State} (hi : Inv s) (hb : s.busState = .t3 ∨ s.busState = .tw) (hq : QuietFrame s.mode s.now)
    (hr : s.now.ready = false) (hn : (nextFrame s).reset = false) :
    ∃ t, step s = .next t ∧ Inv t ∧ t.busState = .tw ∧ t.curOp = s.curOp ∧ t.mem = s.mem ∧ t.mode = s.mode ∧
      t.now = nextFrame s ∧ t.inputs = s.inputs.tail := by
  have hu := hi.undisturbed_quiet hq hn (by rcases hb with hb | hb <;> simp [hb])
  have h := step_wait_eq hi hu hb hr
  exact ⟨_, h, stepKeepsInvariant _ _ hi h, by simp, by simp, by simp, by simp, by simp, by simp⟩

/-- Settles O8: by induction on the number of wait states; the frame that holds when none is left is as quiet as the last. -/
theorem waitsWhileNotReady : Obligations.WaitsWhileNotReady := by
  intro n
  induction n with
  | zero =>
    intro s hi hb hf
    obtain ⟨hq, hr⟩ := hf s.now (by simp)
    have hn : (nextFrame s).reset = false := by
      unfold nextFrame
      cases hs : s.inputs with
      | nil => exact hq.noReset
      | cons f r => exact (hf f (by simp [hs])).1.noReset
    obtain ⟨t, h, -, ht, hc, hm, -⟩ := step_waits hi hb hq hr hn
    exact ⟨t, by simp [runSteps, h], ht, hc, hm⟩
  | succ n ih =>
    intro s hi hb hf
    obtain ⟨hq, hr⟩ := hf s.now (by simp)
    have hn : QuietFrame s.mode (nextFrame s) ∧ (nextFrame s).ready = false := by
      unfold nextFrame
      cases hs : s.inputs with
      | nil => exact ⟨hq.held, hr⟩
      | cons f r => exact hf f (by simp [hs])
    obtain ⟨t, h, hit, ht, hc, hm, hmode, hnow, hin⟩ := step_waits hi hb hq hr hn.1.noReset
    obtain ⟨w, hw, hwb, hwc, hwm⟩ := ih t hit (.inr ht) (by
      rw [hmode, hnow, hin]
      intro f hf'
      rcases List.mem_cons.1 hf' with rfl | hf'
      · exact hn
      · exact hf f (List.mem_cons_of_mem _ (List.mem_of_mem_tail hf')))
    exact ⟨w, by rw [runSteps_step h, hw], hwb, hwc.trans hc, hwm.trans hm⟩

/-- `n` wait states follow T3 or TW while READY is low. -/
theorem waits {n : Nat} {s : State} (hi : Inv s) (hb : s.busState = .t3 ∨ s.busState = .tw)
    (hf : ∀ j < n, ∃ f, (framesOf s)[j]? = some f ∧ QuietFrame s.mode f ∧ f.ready = false)
    (hlast : ∃ f, (framesOf s)[n]? = some f ∧ f.reset = false) :
    ∃ w, runSteps n s = .next w ∧ Inv w ∧ (w.busState = .t3 ∨ w.busState = .tw) ∧ w.curOp = s.curOp ∧ w.mem = s.mem ∧
      w.mode = s.mode ∧ framesOf w = (framesOf s).drop n := by
  induction n with
  | zero => exact ⟨s, rfl, hi, hb, rfl, rfl, rfl, rfl⟩
  | succ n ih =>
    obtain ⟨f, hfn, hq, hr⟩ := hf n (Nat.lt_succ_self n)
    obtain ⟨g, hg, hg'⟩ := hlast
    obtain ⟨w, hw, hiw, hbw, hcw, hmw, hmode, hfw⟩ :=
      ih (fun j hj => hf j (Nat.lt_succ_of_lt hj)) ⟨f, hfn, hq.noReset⟩
    have hnow : w.now = f := now_of_framesOf (by rw [hfw]; simpa using hfn)
    have hnext : (framesOf w)[1]? = some g := by rw [hfw]; simpa using hg
    have hfr : nextFrame w = g := nextFrame_of_framesOf hnext
    obtain ⟨t, ht, hit, hbt, hct, hmt, hmodet, hnowt, hint⟩ :=
      step_waits hiw hbw (by rw [hnow, hmode]; exact hq) (by rw [hnow, hr]) (by rw [hfr, hg'])
    refine ⟨t, runSteps_succ hw ht, hit, .inr hbt, hct.trans hcw, hmt.trans hmw, hmodet.trans hmode, ?_⟩
    rw [← List.drop_drop, ← hfw]
    unfold framesOf at hnext ⊢
    rw [hnowt, hint, nextFrame]
    cases hs : w.inputs with
    | nil => simp [hs] at hnext
    | cons x r => rfl

/-! ## The whole cycle -/

/-- T1 and T2 pass. -/
theorem address_passes {s : State} {f g : Frame} (hi : Inv s) (hb : s.busState = .t1)
    (hq : QuietFrame s.mode s.now) (hf : (framesOf s)[1]? = some f) (hg : (framesOf s)[2]? = some g)
    (hqf : QuietFrame s.mode f) (hqg : g.reset = false) :
    ∃ u w, step s = .next u ∧ step u = .next w ∧ inCycle u.busState = true ∧ u.curOp = s.curOp ∧ Inv w ∧ w.busState = .t3 ∧
      w.curOp = s.curOp ∧ w.mem = s.mem ∧ w.mode = s.mode ∧ framesOf w = (framesOf s).drop 2 := by
  have h₁ := step_t1_eq hi (hi.undisturbed_quiet hq (by rw [nextFrame_of_framesOf hf, hqf.noReset]) (by simp [hb])) hb
  have hfu : framesOf (enter .t2 (latchAddress (poll (sampleTest s)))) = (framesOf s).drop 1 :=
    framesOf_enter hf (by simp) (by simp)
  have hiu := stepKeepsInvariant _ _ hi h₁
  generalize hu : enter .t2 (latchAddress (poll (sampleTest s))) = u at h₁ hfu hiu
  have hub : u.busState = .t2 := by simp [← hu]
  have hum : u.mode = s.mode := by simp [← hu]
  have hnow : u.now = f := now_of_framesOf (by rw [hfu]; simpa using hf)
  have hnext : (framesOf u)[1]? = some g := by rw [hfu]; simpa using hg
  have h₂ := step_t2_eq hiu (hiu.undisturbed_quiet (by rw [hnow, hum]; exact hqf)
    (by rw [nextFrame_of_framesOf hnext, hqg]) (by simp [hub])) hub
  refine ⟨u, _, h₁, h₂, by simp [hub, inCycle], by simp [← hu], stepKeepsInvariant _ _ hiu h₂, by simp, by simp [← hu],
    by simp [← hu], by simp [← hu], ?_⟩
  rw [framesOf_enter hnext (by simp) (by simp), hfu, List.drop_drop]

/-- Only a memory write changes memory where its cycle ends. -/
theorem finishOf_mem {k : Kind} (h : k ≠ .memWrite) (s : State) : (finishOf k s).mem = s.mem := by
  cases k with
  | memWrite => exact absurd rfl h
  | memRead | fetch | ioRead | ioWrite | ack | halt => rfl

/-- What a cycle has done at its end: the memory's bytes are read, and a memory write has stored its own. -/
theorem finishOf_memory {i : Instr} {k : Kind} {w : State} (hi : Inv w) (hb : w.busState = .t3 ∨ w.busState = .tw)
    (hc : w.curOp = some i) (hk : kindOf i = some k) (hlo : w.now.devLo = none) (hhi : w.now.devHi = none) :
    (k.readsMemory = true → hasLow (lanesOfInstr i) = true →
      (finishOf k w).rdata.lo = readMem w (lowAddr (addrOf i))) ∧
    (k.readsMemory = true → hasHigh (lanesOfInstr i) = true →
      (finishOf k w).rdata.hi = readMem w (highAddr (addrOf i))) ∧
    ∀ a : Addr, readMem (finishOf k w) a =
      if k = .memWrite ∧ hasLow (lanesOfInstr i) = true ∧ a = lowAddr (addrOf i) then (wdataOf i).lo
      else if k = .memWrite ∧ hasHigh (lanesOfInstr i) = true ∧ a = highAddr (addrOf i) then (wdataOf i).hi
      else readMem w a := by
  have hl := hi.loaded i hc (.inl (by rcases hb with hb | hb <;> simp [hb, inCycle]))
  have hcur : curKind w = some k := by simp [curKind, hc, hk]
  have hread : k.readsMemory = true → (finishOf k w).rdata = busIn w := by
    cases k with
    | memRead | fetch => exact fun _ => rfl
    | memWrite | ioRead | ioWrite | ack | halt => nofun
  refine ⟨fun hm hlow => ?_, fun hm hhigh => ?_, fun a => ?_⟩
  · rw [← hl.lanes] at hlow
    rw [hread hm, busIn_lo, lowIn_memory hcur hm hlow, hlo, hl.addr, Option.getD_none]
  · rw [← hl.lanes] at hhigh
    rw [hread hm, busIn_hi, highIn_memory hcur hm hhigh, hhi, hl.addr, Option.getD_none]
  · by_cases hw : k = .memWrite
    · subst hw
      have hlow := hl.low
      have hhigh := hl.high
      rw [hl.lanes] at hlow hhigh
      have hstore : ∀ c : Addr, readMem (finishOf .memWrite w) c =
          Memory.read (storeLanes w.mem (addrOf i) (lanesOfInstr i) w.curWdata) c.toNat := by
        intro c
        rw [← hl.addr, ← hl.lanes]
        rfl
      rw [hstore]
      simp only [true_and]
      split
      · rename_i h
        rw [h.2, storeLanes_low hi.memory _ _ h.1, hlow h.1]
      · rename_i h₁
        split
        · rename_i h
          rw [h.2, storeLanes_high hi.memory _ _ h.1, hhigh h.1]
        · rename_i h₂
          exact storeLanes_other hi.memory _ _ _ (fun h e => h₁ ⟨h, e⟩) (fun h e => h₂ ⟨h, e⟩)
    · simp only [hw, false_and, if_false]
      rw [readMem, finishOf_mem hw, readMem]

/-- Settles O7: T1 and T2 pass, `n` wait states follow T3, and READY ends the cycle. -/
theorem cycleRuns : Obligations.CycleRuns := by
  intro n s i k hi hq hb hc hk hka hin hlow hhigh
  have hframe : ∀ j < n + 3, ∃ f, (framesOf s)[j + 1]? = some f ∧ QuietFrame s.mode f := fun j hj => by
    simpa [framesOf] using hin j hj
  obtain ⟨f, hf, hqf⟩ := hframe 0 (by omega)
  obtain ⟨g, hg, hqg⟩ := hframe 1 (by omega)
  obtain ⟨u, w, h₁, h₂, hub, huc, hiw, hwb, hwc, hwm, hmode, hfw⟩ := address_passes hi hb hq hf hg hqf hqg.noReset
  have hshift : ∀ j, (framesOf w)[j]? = (framesOf s)[j + 1 + 1]? := fun j => by
    rw [hfw, List.getElem?_drop, show 2 + j = j + 1 + 1 by omega]
  have hw2 : runSteps 2 s = .next w := by rw [runSteps_step h₁, runSteps_step h₂, runSteps]
  have hwaits : ∀ m ≤ n, ∃ x, runSteps (m + 2) s = .next x ∧ Inv x ∧ (x.busState = .t3 ∨ x.busState = .tw) ∧
      x.curOp = some i ∧ x.mem = s.mem ∧ x.mode = s.mode ∧ framesOf x = (framesOf s).drop (m + 2) := by
    intro m hm
    obtain ⟨x, hx, hix, hbx, hcx, hmx, hmodex, hfx⟩ := waits (n := m) hiw (.inl hwb)
      (fun j hj => by
        obtain ⟨f, hf, hqf⟩ := hframe (j + 1) (by omega)
        rw [hshift, hmode]
        exact ⟨f, hf, hqf, hlow j (by omega) f (by simpa [framesOf] using hf)⟩)
      (by
        obtain ⟨f, hf, hqf⟩ := hframe (m + 1) (by omega)
        rw [hshift]
        exact ⟨f, hf, hqf.noReset⟩)
    refine ⟨x, by rw [Nat.add_comm, runSteps_add hw2, hx], hix, hbx, hcx.trans (hwc.trans hc), hmx.trans hwm,
      hmodex.trans hmode, ?_⟩
    rw [hfx, hfw, List.drop_drop, Nat.add_comm]
  refine ⟨fun m hm => ?_, ?_⟩
  · match m with
    | 0 => exact ⟨s, rfl, by simp [hb, inCycle], hc⟩
    | 1 => exact ⟨u, by rw [runSteps_step h₁, runSteps], hub, huc.trans hc⟩
    | m + 2 =>
      obtain ⟨x, hx, -, hbx, hcx, -⟩ := hwaits m (by omega)
      exact ⟨x, hx, by rcases hbx with hbx | hbx <;> simp [hbx, inCycle], hcx⟩
  · obtain ⟨x, hx, hix, hbx, hcx, hmx, hmodex, hfx⟩ := hwaits n (Nat.le_refl n)
    obtain ⟨f, hf, hqf⟩ := hframe (n + 1) (by omega)
    obtain ⟨g, hg, hqg⟩ := hframe (n + 2) (by omega)
    have hnow : x.now = f := now_of_framesOf (by rw [hfx]; simpa using hf)
    have hnext : (framesOf x)[1]? = some g := by rw [hfx]; simpa using hg
    have hready : x.now.ready = true := by rw [hnow]; exact hhigh f (by simpa [framesOf] using hf)
    have hcur : curKind x = some k := by simp [curKind, hcx, hk]
    have hqx : QuietFrame x.mode x.now := by rw [hnow, hmodex]; exact hqf
    have hend := step_end_eq hix (hix.undisturbed_quiet hqx
      (by rw [nextFrame_of_framesOf hnext, hqg.noReset]) (by rcases hbx with h | h <;> simp [h])) hcur hka hbx hready
    obtain ⟨hlo, hhi, hmem⟩ := finishOf_memory (i := i) (k := k) hix.polled (by simpa using hbx) (by simpa using hcx) hk
      (by simpa using hqx.noLo) (by simpa using hqx.noHi)
    have hsame : ∀ a, readMem x a = readMem s a := fun a => by rw [readMem, hmx, readMem]
    simp only [readMem_poll_sampleTest, hsame] at hlo hhi hmem
    exact ⟨_, runSteps_succ hx hend, by simp, by simpa using hcx, fun h₁ h₂ => by simpa using hlo h₁ h₂,
      fun h₁ h₂ => by simpa using hhi h₁ h₂, fun a => by rw [readMem_enter]; exact hmem a⟩

end Sys2Proof.Machine


/-! READY is looked at in T3 and TW only (spec/43_common_control.md R204): the rules of every other T-state go the same way at
either level, and the level itself is gone with the next frame. -/

namespace Sys2Proof.Machine

/-- A state with another level of READY. -/
def State.withReady (r : Bool) (s : State) : State := { s with now := { s.now with ready := r } }

/-- A plan whose state has another level of READY. -/
def Plan.withReady (r : Bool) : Plan → Plan
  | .refuse q => .refuse q
  | .stop f => .stop f
  | .go b t => .go b (t.withReady r)
  | .run i t => .run i (t.withReady r)

/-! ## What comes next does not look at READY -/

section
variable (r : Bool)

theorem planItems_withReady (l : List Item) (s : State) : planItems l (s.withReady r) = (planItems l s).withReady r := by
  cases l <;> rfl

theorem planFetch_withReady (i : Instr) (t s : State) :
    planFetch i (t.withReady r) (s.withReady r) = (planFetch i t s).withReady r := by
  unfold planFetch
  rw [show hasRoom (s.withReady r) i = hasRoom s i from rfl]
  split <;> rfl

theorem resumeWait_withReady (s : State) : resumeWait (s.withReady r) = (resumeWait s).withReady r := by
  unfold resumeWait
  rw [show (s.withReady r).waitStack = s.waitStack from rfl]
  split <;> rfl

theorem planEntry_withReady (e : EntryStep) (s : State) : planEntry e (s.withReady r) = (planEntry e s).withReady r := by
  cases e with
  | pushFr => exact planItems_withReady r _ { s with sp := s.sp - 2 }
  | pushCs => exact planItems_withReady r _ { s with fr := clearIfTf s.fr, sp := s.sp - 2 }
  | pushIp => exact planItems_withReady r _ { s with sp := s.sp - 2 }
  | readIp t => exact planItems_withReady r _ s
  | readCs t => exact planItems_withReady r _ { s with ip := s.result.wordOr s.ip }
  | entered => rfl
  | popIp => exact planItems_withReady r _ { s with sp := s.sp + 2 }
  | popCs => exact planItems_withReady r _ { s with ip := s.result.wordOr s.ip, sp := s.sp + 2 }
  | popFr => exact planItems_withReady r _ { s with cs := s.result.wordOr s.cs, sp := s.sp + 2 }
  | returned =>
    exact congrArg planIdle (resumeWait_withReady r { s with fr := s.result.wordOr s.fr, queue := [], qAct := .emptied })

theorem planReq_withReady (q : Req) (t s : State) :
    planReq q (t.withReady r) (s.withReady r) = (planReq q t s).withReady r := by
  cases q with
  | word f w =>
    simp only [planReq]
    split
    · rfl
    · exact planFetch_withReady r _ t s
  | memRead a w g => exact planItems_withReady r _ t
  | memWrite a w g v => exact planItems_withReady r _ t
  | ioRead q w => exact planItems_withReady r _ t
  | ioWrite q w v => exact planItems_withReady r _ t
  | fetch a => exact planFetch_withReady r _ t s
  | iret =>
    simp only [planReq]
    rw [show (s.withReady r).params = s.params from rfl]
    split
    · exact congrArg planIdle (resumeWait_withReady r t)
    · rfl
  | testWait | lock | unlock => rfl

theorem nextOp_withReady (s : State) : nextOp (s.withReady r) = (nextOp s).withReady r := by
  unfold nextOp
  rw [show (s.withReady r).pendingOps = s.pendingOps from rfl,
    show ((s.withReady r).restart && !headIsIdle (s.withReady r)) = (s.restart && !headIsIdle s) from rfl,
    show (s.withReady r).ackPending = s.ackPending from rfl, show (s.withReady r).entrySteps = s.entrySteps from rfl,
    show (s.withReady r).testWait = s.testWait from rfl, show (s.withReady r).program = s.program from rfl]
  split
  · exact planItems_withReady r _ s
  split
  · exact planFetch_withReady r _ { s with restart := false } s
  split
  · rfl
  split
  · rename_i e l _
    exact planEntry_withReady r e { s with entrySteps := l }
  split
  · rfl
  split
  · rfl
  · rename_i q l _
    exact planReq_withReady r q { s with program := l } s

theorem handOver_withReady (s : State) : handOver (s.withReady r) = (handOver s).map (State.withReady r) := by
  unfold handOver
  rw [show (s.withReady r).mode = s.mode from rfl, show (s.withReady r).now.hold = s.now.hold from rfl,
    show (s.withReady r).lockActive = s.lockActive from rfl, show (s.withReady r).rqPending0 = s.rqPending0 from rfl,
    show (s.withReady r).rqPending1 = s.rqPending1 from rfl]
  split
  · split <;> rfl
  split
  · rfl
  split
  · rfl
  split <;> rfl

theorem planBoundary_withReady (s : State) : planBoundary (s.withReady r) = (planBoundary s).withReady r := by
  unfold planBoundary
  rw [show (s.withReady r).ackPhase = s.ackPhase from rfl, show (s.withReady r).curOp = s.curOp from rfl,
    handOver_withReady, nextOp_withReady]
  split
  · rfl
  · rfl
  · rfl
  · rfl
  · cases handOver s <;> rfl

theorem planActive_withReady (s : State) : planActive (s.withReady r) = (planActive s).withReady r := by
  unfold planActive
  rw [show (s.withReady r).busState = s.busState from rfl, show released (s.withReady r) = released s from rfl,
    planBoundary_withReady, show (s.withReady r).curOp = s.curOp from rfl]
  split
  · split <;> rfl
  · rfl
  · rfl
  · split <;> rfl

theorem poll_withReady (s : State) : poll (s.withReady r) = (poll s).withReady r := by
  unfold poll
  rw [show canServe (s.withReady r) = canServe s from rfl, show (s.withReady r).nmiPending = s.nmiPending from rfl,
    show ((s.withReady r).now.intr && ifOf (s.withReady r).fr) = (s.now.intr && ifOf s.fr) from rfl]
  split
  · split
    · rfl
    · split <;> rfl
  · rfl

theorem sampleTest_withReady (s : State) : sampleTest (s.withReady r) = (sampleTest s).withReady r := by
  rw [sampleTest_eq, sampleTest_eq]
  rfl

theorem planNow_withReady (s : State) : planNow (s.withReady r) = (planNow s).withReady r := by
  unfold planNow planRestart
  rw [show (s.withReady r).busState = s.busState from rfl, show (s.withReady r).resetClks = s.resetClks from rfl,
    sampleTest_withReady, poll_withReady, planActive_withReady]
  split
  · split <;> rfl
  · rfl

theorem latchAddress_withReady (s : State) : latchAddress (s.withReady r) = (latchAddress s).withReady r := by
  unfold latchAddress
  rw [show (s.withReady r).pins = s.pins from rfl]
  split <;> rfl

theorem outsideDone_withReady (s : State) : outsideDone (s.withReady r) = (outsideDone s).withReady r := by
  unfold outsideDone
  rw [show (s.withReady r).busState = s.busState from rfl, latchAddress_withReady]
  split <;> rfl

theorem nextFrame_withReady {s : State} (h : s.inputs ≠ []) : nextFrame (s.withReady r) = nextFrame s := by
  unfold nextFrame
  rw [show (s.withReady r).inputs = s.inputs from rfl]
  cases hs : s.inputs with
  | nil => exact absurd hs h
  | cons f l => rfl

theorem planStep_withReady {s : State} (h : s.inputs ≠ []) : planStep (s.withReady r) = (planStep s).withReady r := by
  unfold planStep
  rw [show (s.withReady r).now.mnmx = s.now.mnmx from rfl, show (s.withReady r).mode = s.mode from rfl,
    show violation (s.withReady r) = violation s from rfl, nextFrame_withReady r h, outsideDone_withReady, planNow_withReady]
  split
  · rfl
  split
  · rfl
  split <;> rfl

/-! ## The T-state that comes does not keep READY -/

theorem enter_withReady (b : BusState) {s : State} (h : s.inputs ≠ []) : enter b (s.withReady r) = enter b s := by
  have hs : settle b (s.withReady r) = settle b s := by
    unfold settle absorb
    rw [nextFrame_withReady r h]
    split <;> rfl
  unfold enter
  rw [hs]
  rfl

theorem runCycle_withReady {i : Instr} {transfer : Bool} {finish : State → State} {s : State} (h : s.inputs ≠ [])
    (h3 : s.busState ≠ .t3) (hw : s.busState ≠ .tw) :
    runCycle i transfer finish (s.withReady r) = runCycle i transfer finish s := by
  have hl : enter .t1 (loadOp i (s.withReady r)) = enter .t1 (loadOp i s) := enter_withReady r .t1 (s := loadOp i s) h
  have ha : enter .t2 (latchAddress (s.withReady r)) = enter .t2 (latchAddress s) := by
    rw [latchAddress_withReady, enter_withReady]
    simpa using h
  have hd : ∀ t, during i (s.withReady r) t = during i s t := fun t => rfl
  unfold runCycle
  rw [show (s.withReady r).busState = s.busState from rfl, show (s.withReady r).curLanes = s.curLanes from rfl, hl, ha]
  simp only [hd, enter_withReady r _ h]
  cases hb : s.busState with
  | t3 => exact absurd hb h3
  | tw => exact absurd hb hw
  | t1 | t2 | t4 | idle | holdAck | inReset => rfl

theorem runAck_withReady {i : Instr} {s : State} (h : s.inputs ≠ []) (h3 : s.busState ≠ .t3) (hw : s.busState ≠ .tw) :
    runAck i (s.withReady r) = runAck i s := by
  have hl (p : AckPhase) :
      enter .t1 { loadOp i (s.withReady r) with ackPhase := p } = enter .t1 { loadOp i s with ackPhase := p } :=
    enter_withReady r .t1 (s := { loadOp i s with ackPhase := p }) h
  have hg (p : AckPhase) : enter .idle { s.withReady r with ackPhase := p, idleDrive := none } =
      enter .idle { s with ackPhase := p, idleDrive := none } :=
    enter_withReady r .idle (s := { s with ackPhase := p, idleDrive := none }) h
  have ha : enter .t2 (latchAddress (s.withReady r)) = enter .t2 (latchAddress s) := by
    rw [latchAddress_withReady, enter_withReady]
    simpa using h
  have hd : ∀ t, during i (s.withReady r) t = during i s t := fun t => rfl
  unfold runAck
  simp only [hl, hg, ha, hd, enter_withReady r _ h]
  rw [show (s.withReady r).busState = s.busState from rfl, show (s.withReady r).ackPhase = s.ackPhase from rfl,
    show (s.withReady r).params = s.params from rfl]
  cases hb : s.busState with
  | t3 => exact absurd hb h3
  | tw => exact absurd hb hw
  | t1 | t2 | t4 | idle | holdAck | inReset => rfl

theorem runIdle_withReady {x : Option (BitVec 2)} {s : State} (h : s.inputs ≠ []) :
    runIdle x (s.withReady r) = runIdle x s := by
  have he : enter .idle { s.withReady r with curOp := none, idleDrive := x } =
      enter .idle { s with curOp := none, idleDrive := x } :=
    enter_withReady r .idle (s := { s with curOp := none, idleDrive := x }) h
  unfold runIdle
  simp only [he, enter_withReady r _ h]
  rfl

theorem runLane_withReady {l : Lanes} {s : State} (h : s.inputs ≠ []) (h1 : s.busState ≠ .t1) :
    runLane l (s.withReady r) = runLane l s := by
  have he : enter .idle { s.withReady r with curOp := none, idleDrive := none, curLanes := l } =
      enter .idle { s with curOp := none, idleDrive := none, curLanes := l } :=
    enter_withReady r .idle (s := { s with curOp := none, idleDrive := none, curLanes := l }) h
  unfold runLane
  simp only [he, enter_withReady r _ h]
  rw [show (s.withReady r).busState = s.busState from rfl]
  cases hb : s.busState with
  | t1 => exact absurd hb h1
  | t2 | t3 | tw | t4 | idle | holdAck | inReset => rfl

/-- Outside T3 and TW no operation looks at READY; a lane pattern in T1 would keep it, which is no cycle's operation. -/
theorem exec_withReady {i : Instr} {s : State} (h : s.inputs ≠ []) (h3 : s.busState ≠ .t3) (hw : s.busState ≠ .tw)
    (h1 : s.busState = .t1 → (kindOf i).isSome = true) : exec i (s.withReady r) = exec i s := by
  have hlane : kindOf i = none → s.busState ≠ .t1 := fun hk hb => by simpa [hk] using h1 hb
  have hmax (o : Host.Outcome State Fault Refusal) : inMaxMode (s.withReady r) o = inMaxMode s o := rfl
  cases i with
  | memr a b u => cases u <;> exact runCycle_withReady r h h3 hw
  | memw | ior | iow => exact runCycle_withReady r h h3 hw
  | inta => exact runAck_withReady r h h3 hw
  | idle => exact runIdle_withReady r h
  | sInta => exact (hmax _).trans (congrArg _ (runAck_withReady r h h3 hw))
  | sIor | sIow | sHalt | sFetch | sMemr | sMemw => exact (hmax _).trans (congrArg _ (runCycle_withReady r h h3 hw))
  | sPassive => exact (hmax _).trans (congrArg _ (runIdle_withReady r h))
  | laneBoth => exact runLane_withReady r (l := .both) h (hlane rfl)
  | laneHigh => exact runLane_withReady r (l := .high) h (hlane rfl)
  | laneLow => exact runLane_withReady r (l := .low) h (hlane rfl)
  | laneNone => exact runLane_withReady r (l := .none) h (hlane rfl)

end

theorem planActive_go_inputs {s u : State} {b : BusState} (h : planActive s = .go b u) : u.inputs = s.inputs := by
  rcases planActive_go h with ⟨-, -, -, rfl⟩ | ⟨-, -, -, rfl⟩ | ⟨-, -, -, ho⟩ | ⟨-, -, -, hre⟩
  · rfl
  · rfl
  · rcases handOver_cases ho with ⟨-, -, rfl⟩ | ⟨-, -, -, rfl⟩ | ⟨-, -, -, -, rfl⟩ <;> rfl
  · exact (congrArg State.inputs hre.rested).trans rfl

/-- What a plan that runs an operation leaves of the T-state. -/
theorem planActive_run_kept {s u : State} {i : Instr} (hb : s.busState ≠ .inReset) (hn : NoFetch s.pendingOps)
    (h : planActive s = .run i u) : u.inputs = s.inputs ∧ u.busState = s.busState ∧
      (inCycle s.busState = true → s.curOp = some i) := by
  rcases planActive_run hb hn h with ⟨-, hc, rfl⟩ | ⟨hbs, -, hc, rfl⟩ | ⟨hbs, -, -, hst⟩
  · exact ⟨rfl, rfl, fun _ => hc⟩
  · exact ⟨rfl, rfl, fun _ => hc⟩
  · refine ⟨(congrArg State.inputs hst.taken).trans rfl, (congrArg State.busState hst.taken).trans rfl, fun hcyc => ?_⟩
    simp [boundary_not_inCycle hbs] at hcyc

/-- Settles O9: the plan carries the level along, and what it comes to takes the next frame. -/
theorem readyElsewhereIgnored : Obligations.ReadyElsewhereIgnored := by
  intro s r hi h3 hw hin
  change step (s.withReady r) = step s
  unfold step
  rw [planStep_withReady r hin]
  unfold planStep
  split
  · rfl
  split
  · rfl
  split
  · have hreset : (resetInternal (outsideDone s)).inputs ≠ [] := by
      rw [outsideDone_eq]
      exact hin
    exact congrArg Host.Outcome.next (enter_withReady r .inReset hreset)
  unfold planNow
  split
  · unfold planRestart
    split
    · rfl
    · exact congrArg Host.Outcome.next (enter_withReady r .idle hin)
  rename_i hact
  cases hp : planActive (poll (sampleTest s)) with
  | refuse q => rfl
  | stop f => rfl
  | go b u =>
    have hu := planActive_go_inputs hp
    exact congrArg Host.Outcome.next (enter_withReady r b (by rw [hu]; simpa using hin))
  | run i u =>
    obtain ⟨hu, hb, hc⟩ := planActive_run_kept (by simpa using hact) hi.polled.pending hp
    simp only [poll_sampleTest_inputs, poll_sampleTest_busState, poll_sampleTest_curOp] at hu hb hc
    refine exec_withReady r (by rwa [hu]) (by rwa [hb]) (by rwa [hb]) fun h1 => ?_
    have hcyc : inCycle s.busState = true := by simp [← hb, h1, inCycle]
    simpa [curKind, hc hcyc] using hi.cycle hcyc

end Sys2Proof.Machine


/-! The interrupt-acknowledge sequence as a whole (spec/60_exceptions.md R219 to R222), T-state by T-state, and the width of
RESET (spec/70_reset_and_hazards.md R251). -/

namespace Sys2Proof.Machine

/-! ## The acknowledge sequence -/

/-- The T-state and the phase that follow in an acknowledge sequence without wait states, with `g` Idle states between. -/
def nextAck (g : Nat) : BusState × AckPhase → BusState × AckPhase
  | (.t1, p) => (.t2, p)
  | (.t2, p) => (.t3, p)
  | (.t3, .first) => (.t4, .first)
  | (.t4, .first) =>
    match g with
    | 0 => (.t1, .second)
    | n + 1 => (.idle, .gap n)
  | (.idle, .gap 0) => (.t1, .second)
  | (.idle, .gap (n + 1)) => (.idle, .gap n)
  | _ => (.t4, .none)

/-- The T-state and the phase `n` T-states after the T1 of the first cycle. -/
def ackStateAt (g n : Nat) : BusState × AckPhase :=
  if n = 0 then (.t1, .first) else if n = 1 then (.t2, .first) else if n = 2 then (.t3, .first)
  else if n = 3 then (.t4, .first) else if n < g + 4 then (.idle, .gap (g + 3 - n))
  else if n = g + 4 then (.t1, .second) else if n = g + 5 then (.t2, .second)
  else if n = g + 6 then (.t3, .second) else (.t4, .none)

theorem ackStateAt_succ {g n : Nat} (hn : n < g + 7) : ackStateAt g (n + 1) = nextAck g (ackStateAt g n) := by
  unfold ackStateAt
  match n with
  | 0 | 1 | 2 => rfl
  | 3 => cases g <;> simp [nextAck]
  | n + 4 =>
    by_cases h : n < g
    · obtain ⟨m, rfl⟩ := Nat.exists_eq_add_of_lt h
      cases m with
      | zero => simp [nextAck]
      | succ m =>
        simp [nextAck, show n + (m + 1) + 1 + 3 - (n + 4) = m + 1 by omega, show n + (m + 1) + 1 + 3 - (n + 4 + 1) = m by omega,
          show n < n + (m + 1) + 1 by omega]
    · obtain rfl | rfl | rfl : n = g ∨ n = g + 1 ∨ n = g + 2 := by omega
      all_goals simp [nextAck]

/-- The T-states in which the sequence has INTA# low. -/
theorem strobeState_ackStateAt (g n : Nat) :
    strobeState (ackStateAt g n).1 = true ↔ n = 1 ∨ n = 2 ∨ n = g + 5 ∨ n = g + 6 := by
  unfold ackStateAt
  split_ifs <;> simp only [strobeState, true_iff, false_iff, Bool.false_eq_true] <;> omega

theorem ackStateAt_owns (g n : Nat) :
    ownsBus (ackStateAt g n).1 = true ∧ (ackStateAt g n).1 ≠ .inReset ∧ (ackStateAt g n).1 ≠ .tw := by
  unfold ackStateAt
  split_ifs <;> simp [ownsBus]

theorem planBoundary_ack {s : State} {i : Instr} (hp : s.ackPhase = .first ∨ ∃ n, s.ackPhase = .gap n)
    (hc : s.curOp = some i) : planBoundary s = .run i s := by
  unfold planBoundary
  rcases hp with hp | ⟨n, hp⟩ <;> rw [hp, hc]

/-- At a boundary inside the sequence the step is one T-state of the acknowledge operation. -/
theorem step_ackBoundary {s : State} {i : Instr} (hu : Undisturbed s) (hb : s.busState = .idle ∨ s.busState = .t4)
    (hp : s.ackPhase = .first ∨ ∃ n, s.ackPhase = .gap n) (hc : s.curOp = some i) :
    step s = exec i (poll (sampleTest s)) := by
  rw [step_undisturbed hu, planActive_boundary (by simpa using hb), planBoundary_ack (by simpa using hp) (by simpa using hc)]
  rfl

/-- What a T-state of the sequence turns into: the T-state `b`, entered from `u`. -/
structure AckStep (s : State) (b : BusState) (u : State) : Prop where
  inputs : u.inputs = s.inputs
  now : u.now = s.now
  mode : u.mode = s.mode
  params : u.params = s.params
  curOp : u.curOp = s.curOp
  next : (b, u.ackPhase) = nextAck s.params.ackGap (s.busState, s.ackPhase)
  type : s.busState = .t3 → s.ackPhase = .second → u.ackType = lowIn s ∧ u.raised.getLast? = some (lowIn s)

/-- One T-state of the sequence with READY high. -/
theorem ack_step {s : State} (hi : Inv s) (hu : Undisturbed s) (hk : curKind s = some .ack) (hp : s.ackPhase ≠ .none)
    (htw : s.busState ≠ .tw) (hr : s.busState = .t3 → s.now.ready = true) :
    ∃ b u, step s = .next (enter b u) ∧ AckStep s b u := by
  obtain ⟨i, hc, hki⟩ := Option.bind_eq_some_iff.1 hk
  have hm : i.format = .maxs → (poll (sampleTest s)).mode = .max := by simpa using hi.wired i hc
  have hcv : (poll (sampleTest s)).curOp = some i := by simpa using hc
  have hphase := hi.phase
  cases hb : s.busState with
  | t1 => exact ⟨_, _, step_t1_eq hi hu hb, by simp, by simp, by simp, by simp, by simp, by simp [hb, nextAck], by simp [hb]⟩
  | t2 => exact ⟨_, _, step_t2_eq hi hu hb, by simp, by simp, by simp, by simp, by simp, by simp [hb, nextAck], by simp [hb]⟩
  | t3 =>
    have hend := step_ackEnd_eq hi hu hk (.inl hb) (hr hb)
    rcases hi.acked (by simp [hb, inCycle]) hk with hp | hp
    · exact ⟨_, _, hend.trans (finishAck_first (by simpa using hp)), by simp, by simp, by simp, by simp, by simp,
        by simp [hb, hp, nextAck], by simp [hp]⟩
    · exact ⟨_, _, hend.trans (finishAck_second (by simpa using hp)), by simp, by simp, by simp, by simp, by simp,
        by simp [hb, hp, nextAck], by simp [takeInterrupt]⟩
  | t4 =>
    have hfirst : s.ackPhase = .first := by cases hp' : s.ackPhase <;> simp_all [phaseFits, inCycle]
    have hstep := step_ackBoundary hu (.inr hb) (.inl hfirst) hc
    cases hg : s.params.ackGap with
    | zero =>
      exact ⟨_, _, hstep.trans (exec_ackSecond hki hm (by simp [hb]) (by simp [hfirst, hg])), by simp, by simp, by simp,
        by simp, by simp [hc], by simp [hb, hfirst, hg, nextAck], by simp [hb]⟩
    | succ n =>
      exact ⟨_, _, hstep.trans (exec_ackGap hki hm (by simp [hb]) (g := n) (by simp [hfirst, hg])), by simp, by simp, by simp,
        by simp, by simp, by simp [hb, hfirst, hg, nextAck], by simp [hb]⟩
  | idle =>
    obtain ⟨n, hgap⟩ : ∃ n, s.ackPhase = .gap n := by cases hp' : s.ackPhase <;> simp_all [phaseFits, inCycle]
    have hstep := step_ackBoundary hu (.inl hb) (.inr ⟨n, hgap⟩) hc
    cases n with
    | zero =>
      exact ⟨_, _, hstep.trans (exec_ackSecond hki hm (by simp [hb]) (by simp [hgap])), by simp, by simp, by simp,
        by simp, by simp [hc], by simp [hb, hgap, nextAck], by simp [hb]⟩
    | succ n =>
      exact ⟨_, _, hstep.trans (exec_ackGap hki hm (by simp [hb]) (g := n) (by simp [hgap])), by simp, by simp, by simp,
        by simp, by simp, by simp [hb, hgap, nextAck], by simp [hb]⟩
  | tw => exact absurd hb htw
  | holdAck | inReset => cases hp' : s.ackPhase <;> simp_all [phaseFits, inCycle]

/-- What the outside gives in the `n`-th T-state of the sequence: READY, and the type on AD7..AD0 in the last T3 only. -/
structure AckFrame (m : Mode) (g : Nat) (v : Byte) (n : Nat) (f : Frame) : Prop where
  strap : f.mnmx = m.strap
  noReset : f.reset = false
  ready : 0 < n → f.ready = true
  noHi : f.devHi = none
  noExt : f.ext = []
  lo : f.devLo = if n = g + 6 then some v else none

/-- The sequence has come from `s` to its `n`-th T-state. -/
structure AckAt (s : State) (g n : Nat) (u : State) : Prop where
  inv : Inv u
  mode : u.mode = s.mode
  gap : u.params.ackGap = g
  kind : curKind u = some .ack
  frames : framesOf u = (framesOf s).drop n
  state : (u.busState, u.ackPhase) = ackStateAt g n

theorem ackStateAt_none {g n : Nat} (hn : n < g + 7) : (ackStateAt g n).2 ≠ .none := by
  unfold ackStateAt
  split_ifs <;> simp
  omega

theorem ackStateAt_t3 {g n : Nat} (h : (ackStateAt g n).1 = .t3) : 0 < n := by
  rcases Nat.eq_zero_or_pos n with rfl | h'
  · cases h
  · exact h'

/-- The sequence goes on by one T-state; its last one hands over the type. -/
theorem AckAt.step {s u : State} {g n : Nat} {v : Byte} (h : AckAt s g n u) (hn : n < g + 7)
    (hf : ∀ j < g + 8, ∃ f, (framesOf s)[j]? = some f ∧ AckFrame s.mode g v j f) :
    ∃ t, step u = .next t ∧ AckAt s g (n + 1) t ∧ (n = g + 6 → t.ackType = v ∧ t.raised.getLast? = some v) := by
  obtain ⟨f, hfn, hf₁⟩ := hf n (by omega)
  obtain ⟨f', hfn', hf₂⟩ := hf (n + 1) (by omega)
  have hstate : u.busState = (ackStateAt g n).1 := congrArg Prod.fst h.state
  have hphase : u.ackPhase = (ackStateAt g n).2 := congrArg Prod.snd h.state
  have hnow : u.now = f := now_of_framesOf (by rw [h.frames]; simpa using hfn)
  have hnext : (framesOf u)[1]? = some f' := by rw [h.frames]; simpa using hfn'
  obtain ⟨-, hactive, htw⟩ := ackStateAt_owns g n
  have hlast : n = g + 6 → u.busState = .t3 ∧ u.ackPhase = .second := by
    rintro rfl
    rw [hstate, hphase]
    simp [ackStateAt]
  have hz : hazard u = none := by
    by_cases hl : n = g + 6
    · obtain ⟨hb, hp⟩ := hlast hl
      simp [hazard, hnow, hf₁.noHi, hf₁.noExt, mayDrive, hb, h.kind, hp]
    · exact hazard_quiet (by rw [hnow, hf₁.lo, if_neg hl]) (by rw [hnow, hf₁.noHi]) (by rw [hnow, hf₁.noExt])
  have hu := h.inv.undisturbed (by rw [hnow, h.mode, hf₁.strap]) (by rw [nextFrame_of_framesOf hnext, hf₂.noReset])
    (by rw [hstate]; exact hactive) hz
  obtain ⟨b, w, hw, hs⟩ := ack_step h.inv hu h.kind (by rw [hphase]; exact ackStateAt_none hn) (by rw [hstate]; exact htw)
    fun hb => by rw [hnow]; exact hf₁.ready (ackStateAt_t3 (hstate ▸ hb))
  refine ⟨_, hw, ⟨stepKeepsInvariant _ _ h.inv hw, by simp [hs.mode, h.mode], by simp [hs.params, h.gap], ?_, ?_, ?_⟩,
    fun hl => ?_⟩
  · simpa [curKind, hs.curOp] using h.kind
  · rw [framesOf_enter hnext hs.inputs hs.now, h.frames, List.drop_drop]
  · rw [enter_busState, enter_ackPhase, hs.next, h.gap, h.state, ackStateAt_succ hn]
  · obtain ⟨hb, hp⟩ := hlast hl
    have hlo : lowIn u = v := lowIn_device (by rw [hnow, hf₁.lo, if_pos hl])
    rw [enter_ackType, enter_raised, ← hlo]
    exact hs.type hb hp

/-- Settles O46: by induction the sequence is in its `n`-th T-state after `n` steps, and INTA# is made from the T-state. -/
theorem acknowledgeSequence : Obligations.AcknowledgeSequence := by
  intro g s v hi hq hb hk hp hg hin
  have hf : ∀ j < g + 8, ∃ f, (framesOf s)[j]? = some f ∧ AckFrame s.mode g v j f := by
    intro j hj
    cases j with
    | zero => exact ⟨s.now, rfl, hq.strap, hq.noReset, nofun, hq.noHi, hq.noExt, by simp [hq.noLo]⟩
    | succ j =>
      obtain ⟨f, hfj, h₁, h₂, h₃, h₄, h₅, h₆⟩ := hin j (by omega)
      exact ⟨f, hfj, h₁, h₂, fun _ => h₃, h₄, h₅, by simp [h₆]⟩
  have hrun : ∀ n ≤ g + 7, ∃ u, runSteps n s = .next u ∧ AckAt s g n u := by
    intro n
    induction n with
    | zero => exact fun _ => ⟨s, rfl, hi, rfl, hg, hk, rfl, by rw [hb, hp]; rfl⟩
    | succ n ih =>
      intro hn
      obtain ⟨u, hu, hat⟩ := ih (by omega)
      obtain ⟨t, ht, hat', -⟩ := hat.step (by omega) hf
      exact ⟨t, runSteps_succ hu ht, hat'⟩
  refine ⟨?_, fun n hn => ?_⟩
  · obtain ⟨u, hu, hat⟩ := hrun (g + 6) (by omega)
    obtain ⟨t, ht, hat', hlast⟩ := hat.step (by omega) hf
    obtain ⟨htype, hraised⟩ := hlast rfl
    have hstate : (t.busState, t.ackPhase) = (.t4, .none) := by
      rw [hat'.state]
      simp [ackStateAt]
    exact ⟨t, runSteps_succ hu ht, congrArg Prod.fst hstate, congrArg Prod.snd hstate, htype, hraised⟩
  · obtain ⟨u, hu, hat⟩ := hrun n (by omega)
    obtain ⟨t, ht, hat', -⟩ := hat.step hn hf
    refine ⟨t, runSteps_succ hu ht, fun m hm => ?_⟩
    have hstate : t.busState = (ackStateAt g (n + 1)).1 := congrArg Prod.fst hat'.state
    obtain ⟨r, hr, hiff⟩ := (acknowledgeStrobe u t m hat.inv ht hm).1 (by rw [hstate]; exact (ackStateAt_owns g (n + 1)).1)
    rw [hr, Option.some.injEq, hiff, ← strobeState_iff, hstate, strobeState_ackStateAt]
    simp only [hat'.kind, and_true]
    omega

end Sys2Proof.Machine


/-! RESET: what it makes of the state (spec/10_state.md R60, spec/70_reset_and_hazards.md R250), how long it must last (R251),
the fetch that follows it (R252), and what no step changes (spec/10_state.md R21). -/

namespace Sys2Proof.Machine

/-! ## The width of RESET -/

/-- Where the outside breaks no obligation RESET comes, whatever the T-state. -/
theorem step_intoReset {s : State} (hm : s.now.mnmx = s.mode.strap) (hv : violation s = none)
    (hr : (nextFrame s).reset = true) : step s = .next (enter .inReset (resetInternal (outsideDone s))) := by
  simp [step, planStep, hm, hv, hr, runPlan]

/-- RESET has been high for `j` T-states since `s`. -/
structure ResetFor (s : State) (j : Nat) (u : State) : Prop where
  inv : Inv u
  busState : u.busState = .inReset
  clks : u.resetClks = min 4 j
  mode : u.mode = s.mode
  frames : framesOf u = (framesOf s).drop j

theorem ResetFor.step {s u : State} {j : Nat} (h : Inv u) (hb : u.resetClks = min 4 j) (hm : u.mode = s.mode)
    (hf : framesOf u = (framesOf s).drop j) (hstrap : u.now.mnmx = u.mode.strap) (hz : hazard u = none)
    (hr : ∃ f, (framesOf s)[j + 1]? = some f ∧ f.reset = true) : ∃ t, step u = .next t ∧ ResetFor s (j + 1) t := by
  obtain ⟨f, hfj, hreset⟩ := hr
  have hnext : (framesOf u)[1]? = some f := by rw [hf]; simpa using hfj
  have hstep := step_intoReset hstrap (by simp [violation, hz, h.legal])
    (by rw [nextFrame_of_framesOf hnext, hreset])
  refine ⟨_, hstep, stepKeepsInvariant _ _ h hstep, rfl, ?_, ?_, ?_⟩
  · rw [enter_resetClks, outsideDone_eq]
    simp only [resetInternal, hb, Config.resetMinClks]
    omega
  · rw [enter_mode, outsideDone_eq]
    exact hm
  · rw [framesOf_enter hnext (by rw [outsideDone_eq]; rfl) (by rw [outsideDone_eq]; rfl), hf, List.drop_drop]

/-- Settles O50: the clocks of RESET are counted up to 4, and the count is looked at when it falls. -/
theorem resetWidth : Obligations.ResetWidth := by
  intro n s hi hb hm hz hn hin hlow hsome
  have hframe : ∀ j < n, ∃ f, (framesOf s)[j + 1]? = some f ∧ f.mnmx = s.mode.strap ∧ f.reset = true ∧ f.devLo = none ∧
      f.devHi = none ∧ f.ext = [] := fun j hj => by simpa [framesOf] using hin j hj
  have hrun : ∀ j < n, ∃ u, runSteps (j + 1) s = .next u ∧ ResetFor s (j + 1) u := by
    intro j
    induction j with
    | zero =>
      intro hj
      obtain ⟨f, hf, -, hreset, -⟩ := hframe 0 hj
      obtain ⟨t, ht, hat⟩ := ResetFor.step (s := s) (j := 0) hi (hi.clocks hb) rfl rfl hm hz ⟨f, hf, hreset⟩
      exact ⟨t, by simp [runSteps, ht], hat⟩
    | succ j ih =>
      intro hj
      obtain ⟨u, hu, hat⟩ := ih (by omega)
      obtain ⟨f, hf, hstrap, -, hlo, hhi, hext⟩ := hframe j (by omega)
      obtain ⟨g, hg, -, hreset, -⟩ := hframe (j + 1) hj
      have hnow : u.now = f := now_of_framesOf (by rw [hat.frames]; simpa using hf)
      obtain ⟨t, ht, hat'⟩ := ResetFor.step (s := s) hat.inv hat.clks hat.mode hat.frames (by rw [hnow, hat.mode, hstrap])
        (hazard_quiet (by rw [hnow, hlo]) (by rw [hnow, hhi]) (by rw [hnow, hext])) ⟨g, hg, hreset⟩
      exact ⟨t, runSteps_succ hu ht, hat'⟩
  obtain ⟨u, hu, hat⟩ := hrun (n - 1) (by omega)
  obtain ⟨f, hf, hstrap, -, hlo, hhi, hext⟩ := hframe (n - 1) (by omega)
  obtain ⟨g, hg⟩ := Option.isSome_iff_exists.1 hsome
  have hn1 : n - 1 + 1 = n := by omega
  rw [hn1] at hu hf hat
  have hnow : u.now = f := now_of_framesOf (by rw [hat.frames]; simpa using hf)
  have hnext : (framesOf u)[1]? = some g := by rw [hat.frames]; simpa [framesOf] using hg
  have hstep : step u = runPlan (planRestart u) := by
    have hv : violation u = none := by
      simp [violation, hazard_quiet (by rw [hnow, hlo]) (by rw [hnow, hhi]) (by rw [hnow, hext]), hat.inv.legal]
    simp [step, planStep, hnow, hat.mode, hstrap, hv, nextFrame_of_framesOf hnext, hlow g hg, planNow, hat.busState]
  refine ⟨fun h4 => ?_, fun h4 =>
    ⟨enter .idle { u with resetClks := 0, restart := true }, runSteps_succ hu (hstep.trans ?_), by simp, by simp⟩⟩
  · rw [runSteps_add hu]
    simp [runSteps, hstep, planRestart, hat.clks, Config.resetMinClks, h4, runPlan]
  · simp [planRestart, hat.clks, Config.resetMinClks, runPlan, Nat.not_lt.2 h4]

/-! ## What RESET makes of the state -/

@[simp] theorem outsideDone_mode (s : State) : (outsideDone s).mode = s.mode := by rw [outsideDone_eq]

@[simp] theorem outsideDone_params (s : State) : (outsideDone s).params = s.params := by rw [outsideDone_eq]

@[simp] theorem outsideDone_busState (s : State) : (outsideDone s).busState = s.busState := by rw [outsideDone_eq]

@[simp] theorem outsideDone_curOp (s : State) : (outsideDone s).curOp = s.curOp := by rw [outsideDone_eq]

@[simp] theorem outsideDone_curAddr (s : State) : (outsideDone s).curAddr = s.curAddr := by rw [outsideDone_eq]

@[simp] theorem outsideDone_curLanes (s : State) : (outsideDone s).curLanes = s.curLanes := by rw [outsideDone_eq]

@[simp] theorem curKind_outsideDone (s : State) : curKind (outsideDone s) = curKind s := by simp [curKind]

/-- Settles O49: the T-state of RESET is entered from `resetInternal`. -/
theorem resetState : Obligations.ResetState := by
  intro s hm hv hr
  refine ⟨_, step_intoReset hm hv hr, ?_⟩
  rw [outsideDone_eq]
  repeat refine ⟨rfl, ?_⟩
  intro a hwf hcut hext
  rw [readMem_enter, ← outsideDone_eq]
  have hmem : (resetInternal (outsideDone s)).mem = (outsideDone s).mem := by
    simp only [resetInternal, cutWrite, outsideDone_busState, curKind_outsideDone]
    exact if_neg (by simpa using hcut)
  rw [readMem, hmem, outsideDone_mem, readMem]
  split
  · exact extMemory_other hwf fun d v hd => hext ⟨‹_›, d, v, hd⟩
  · rfl

/-- Settles O53: the values of the state are those of its definition. -/
theorem resetValues : Obligations.ResetValues := by
  unfold Obligations.ResetValues
  decide

theorem Started.fixed {v u : State} {i : Instr} (h : Started v i u) : u.mode = v.mode ∧ u.params = v.params :=
  ⟨(congrArg State.mode h.taken).trans rfl, (congrArg State.params h.taken).trans rfl⟩

theorem Resting.fixed {v u : State} {b : BusState} (h : Resting v b u) : u.mode = v.mode ∧ u.params = v.params :=
  ⟨(congrArg State.mode h.rested).trans rfl, (congrArg State.params h.rested).trans rfl⟩

theorem handOver_fixed {v u : State} (h : handOver v = some u) : u.mode = v.mode ∧ u.params = v.params := by
  rcases handOver_cases h with ⟨-, -, rfl⟩ | ⟨-, -, -, rfl⟩ | ⟨-, -, -, -, rfl⟩ <;> exact ⟨rfl, rfl⟩

theorem Turn.fixed {s v t : State} (h : Turn s v t) : t.mode = v.mode ∧ t.params = v.params := by
  cases h with
  | give hb hp u ho => simpa using handOver_fixed ho
  | rest hb hp ho u hn hr => simpa using hr.fixed
  | start i u k hb hp ho hn hs => simpa using hs.fixed
  | startAck i u hb hp ho hn hs => simpa using hs.fixed
  | startIdle i u x hb hp ho hn hs => simpa using hs.fixed
  | startLane i u l hb hp ho hn hs => simpa using hs.fixed
  | _ => simp

/-- Settles O52: the strap is looked at first, and no update of the state names the mode or the parameters. -/
theorem modeIsFixed : Obligations.ModeIsFixed := by
  refine ⟨fun s hm => by simp [step, planStep, hm, runPlan], fun s t hi h => ?_⟩
  by_cases ht : t.busState = .inReset
  · obtain ⟨-, rfl⟩ := step_reset hi h ht
    simp [resetInternal]
  by_cases hs : s.busState = .inReset
  · obtain ⟨-, rfl⟩ := step_leave h ht hs
    simp
  · simpa using (step_out hi h ht hs).2.2.fixed

/-! ## Fetches -/

/-- The lanes of a fetch. -/
theorem fetchOp_lanes (m : Mode) (f : FetchLanes) (a : Addr) : lanesOfInstr (fetchOp m f a) =
    if a.getLsbD 0 then .high else if fetchWidth f a = .word then .both else .low := by
  unfold fetchOp
  cases hw : fetchWidth f a <;> cases ha : a.getLsbD 0 <;> cases m <;> simp only [lanesOfInstr, ha] <;> rfl

theorem hasRoom_fetch {s : State} {i : Instr} (hk : kindOf i = some .fetch) :
    hasRoom s i = decide (s.queue.length + laneCount (lanesOfInstr i) ≤ s.params.queueDepth) := by
  simp [hasRoom, hk]

/-- A fetch that a free bus takes opens its T1. -/
theorem runPlan_planFetch {m : Mode} {f : FetchLanes} {a : Addr} {r s : State} (hm : r.mode = m)
    (hb : r.busState = .idle ∨ r.busState = .t4) (hroom : hasRoom s (fetchOp m f a) = true) :
    runPlan (planFetch (fetchOp m f a) r s) = .next (enter .t1 (loadOp (fetchOp m f a) { r with curPart := .whole })) := by
  unfold planFetch
  rw [if_pos hroom]
  exact exec_open (kindOf_fetchOp m f a) nofun (fun h => hm.trans (fetchOp_wired m f a h)) (fun _ => fetchOp_laned m f a) hb

/-- While the restart fetch is owed no cycle begins but the restart fetch. -/
theorem Turn.restart {s t : State} (h : Turn s (poll (sampleTest s)) t) (hi : Inv s) (hr : s.restart = true)
    (hb : inCycle t.busState = true) : t.busState = .t1 ∧ curKind t = some .fetch ∧ t.curAddr = 0xFFFF0#20 := by
  obtain ⟨hcyc, h4, hp, hph, ha, he⟩ := hi.first hr
  have hbusy : ∀ b, s.busState = b → inCycle b = false := fun b e => e ▸ hcyc
  have hn := nextOp_restart (s := poll (sampleTest s)) (by simpa using hr) (by simpa using hp)
    ((poll_sampleTest_owed hr).1.trans ha) ((poll_sampleTest_owed hr).2.trans he)
  have hrun : ∀ {i u k}, nextOp (poll (sampleTest s)) = .run i u → kindOf i = some k →
      i = fetchOp s.mode s.params.fetchLanes Config.resetStart := by
    intro i u k hnext hk
    rw [hnext] at hn
    rcases hn with hn | hn | ⟨j, r, hkj, hn⟩
    · cases hn
    · simpa using (Plan.run.inj hn).1
    · rw [← (Plan.run.inj hn).1, hk] at hkj
      cases hkj
  cases h with
  | t1 i k hs => cases hbusy _ hs
  | t2 i k hs => cases hbusy _ hs
  | wait i k hs => rcases hs with hs | hs <;> cases hbusy _ hs
  | start i u k hs hps ho hnext hst hk =>
    obtain rfl := hrun hnext hk
    exact ⟨rfl, by rw [curKind_enter, curKind_loadOp, kindOf_fetchOp], by
      rw [enter_curAddr, loadOp_curAddr, (fetchOp_operands _ _ _).1]
      rfl⟩
  | startAck i u hs hps ho hnext hst hk =>
    obtain rfl := hrun hnext hk
    rw [kindOf_fetchOp] at hk
    cases hk
  | ackGo i hs hps => simp [hph] at hps
  | fin | ack1 | ack2 | release | hold | give | rest | ackGap | startIdle | startLane => cases hb

/-- Settles O51: the restart fetch comes before all else, and a fetch opens with the lanes of `fetchOp`. -/
theorem restartFetch : Obligations.RestartFetch := by
  refine ⟨fun s hi hu hb hr ho hh hq hd => ?_, fun s t hi h hr hb => ?_, fun s a rest l hat hp hl => ⟨fun hroom => ?_, fun hfull => ?_⟩⟩
  · obtain ⟨-, -, hpend, hph, -, -⟩ := hi.first hr
    have hov : handOver (poll (sampleTest s)) = none := by simpa [ho] using (handOver_polled (polled_poll s)).symm
    have hhv : headIsIdle (poll (sampleTest s)) = false := by simpa [headIsIdle] using hh
    have hlanes := fetchOp_lanes s.mode s.params.fetchLanes Config.resetStart
    have hroom : hasRoom (poll (sampleTest s)) (fetchOp s.mode s.params.fetchLanes Config.resetStart) = true := by
      rw [hasRoom_fetch (kindOf_fetchOp _ _ _), decide_eq_true_eq]
      have := laneCount_le (lanesOfInstr (fetchOp s.mode s.params.fetchLanes Config.resetStart))
      simp [hq]
      omega
    have hstep : step s = .next (enter .t1 (loadOp (fetchOp s.mode s.params.fetchLanes Config.resetStart)
        { poll (sampleTest s) with restart := false, curPart := .whole })) := by
      rw [step_boundary hu (.inl hb) hph, hov]
      simp only [nextOp, poll_sampleTest_pendingOps, hpend, poll_sampleTest_restart, hr, hhv, Bool.not_false, Bool.and_self,
        if_true, poll_sampleTest_mode, poll_sampleTest_params]
      exact runPlan_planFetch (by simp) (by simp [hb]) hroom
    obtain ⟨had, ha, -, hbhe⟩ := addressPhase s _ (fetchOp s.mode s.params.fetchLanes Config.resetStart) .fetch hi hstep rfl
      (by simp) (kindOf_fetchOp _ _ _) rfl
    obtain ⟨haddr, hseg⟩ := fetchOp_operands s.mode s.params.fetchLanes Config.resetStart
    rw [haddr] at had ha
    refine ⟨_, hstep, rfl, by rw [curKind_enter, curKind_loadOp, kindOf_fetchOp], (enter_curAddr _ _).trans haddr, had, ha,
      by simp [hseg], by simp, fun hw => ?_⟩
    have hboth : lanesOfInstr (fetchOp s.mode s.params.fetchLanes Config.resetStart) = .both := by
      rw [hlanes, if_neg (by decide)]
      exact if_pos hw
    rw [hboth] at hbhe
    exact ⟨by simp [hboth], hbhe⟩
  · obtain ⟨hs, hturn⟩ := step_busy hi h (by rintro h; simp [h, inCycle] at hb) (by rintro h; simp [h, inCycle] at hb)
    exact hturn.restart hi hr hb
  · have hlanes : lanesOfInstr (fetchOp s.mode s.params.fetchLanes a) = l := (fetchOp_lanes _ _ _).trans hl.symm
    have hstep : step s = .next (enter .t1 (loadOp (fetchOp s.mode s.params.fetchLanes a)
        { s with program := rest, endPending := false, curPart := .whole })) := by
      rw [step_atRequest hat hp]
      exact runPlan_planFetch rfl hat.free.boundary
        (by rw [hasRoom_fetch (kindOf_fetchOp _ _ _), hlanes]; exact decide_eq_true hroom)
    obtain ⟨haddr, hseg⟩ := fetchOp_operands s.mode s.params.fetchLanes a
    exact ⟨_, hstep, rfl, by rw [curKind_enter, curKind_loadOp, kindOf_fetchOp], by simp [haddr], by simp [hlanes],
      by simp [hseg], enter_program _ (by decide)⟩
  · have hlanes : lanesOfInstr (fetchOp s.mode s.params.fetchLanes a) = l := (fetchOp_lanes _ _ _).trans hl.symm
    have hno : hasRoom { s with endPending := false } (fetchOp s.mode s.params.fetchLanes a) = false := by
      rw [hasRoom_fetch (kindOf_fetchOp _ _ _), hlanes]
      exact decide_eq_false (Nat.not_le.2 hfull)
    refine ⟨enter .idle { s with endPending := false, curOp := none, idleDrive := none }, ?_, rfl, enter_program _ (by decide)⟩
    rw [step_atRequest hat hp]
    simp only [planReq, planFetch, hno, Bool.false_eq_true, if_false]
    rfl

end Sys2Proof.Machine


/-! The core's requests (spec/30_encoding.md R111): the operation of a word (R113), and the bus operations of the access
primitives (spec/20_memory.md R78 to R83). -/

namespace Sys2Proof.Machine

/-! ## The bus operations of an access primitive -/

/-- An access of width `w` with the data `v` is `it`, then `l`: one cycle, or the two byte cycles of an odd word, the second
one at `next`. -/
structure AccessItems (m : Mode) (items : List Item) (k : Kind) (a next : Addr) (odd : Bool) (w : Width) (g : SegUse)
    (v : Word) (it : Item) (l : List Item) : Prop where
  items : items = it :: l
  kind : kindOf it.instr = some k
  wired : it.instr.format = .maxs → m = .max
  addr : addrOf it.instr = a
  seg : segOf it.instr = g
  lanes : lanesOfInstr it.instr = if odd then .high else if w = .word then .both else .low
  low : k.writes = true → odd = false → (wdataOf it.instr).lo = v.lo
  high : k.writes = true → odd = true → (wdataOf it.instr).hi = v.lo
  both : k.writes = true → lanesOfInstr it.instr = .both → (wdataOf it.instr).hi = v.hi
  one : odd = false ∨ w = .byte → l = [] ∧ it.part = .whole
  two : odd = true → w = .word → ∃ j p, l = [⟨j, p⟩] ∧ kindOf j = some k ∧ addrOf j = next ∧ lanesOfInstr j = .low ∧
    segOf j = g ∧ (k.writes = true → (wdataOf j).lo = v.hi) ∧ (k.reads = true → it.part = .lowByte ∧ p = .highByte)

theorem twice_lo (b : Byte) : (twice b).lo = b := Word.lo_ofBytes b b

theorem twice_hi (b : Byte) : (twice b).hi = b := Word.hi_ofBytes b b

/-- The operations of an access of width `w` at `a`, by the operation `op` of one cycle and the parts of a split read. -/
def splitItems {n : Nat} (op : BitVec (n + 1) → Bool → Word → Instr) (low high : Part) (a : BitVec (n + 1)) (w : Width)
    (v : Word) : List Item :=
  if w = .byte then [⟨op a (!a.getLsbD 0) (twice v.lo), .whole⟩]
  else if a.getLsbD 0 then [⟨op a false (twice v.lo), low⟩, ⟨op (a + 1) true (twice v.hi), high⟩]
  else [⟨op a false v, .whole⟩]

/-- `op` is the operation of one cycle of kind `k`. -/
structure AccessOp {n : Nat} (m : Mode) (k : Kind) (g : SegUse) (place : BitVec (n + 1) → Addr)
    (op : BitVec (n + 1) → Bool → Word → Instr) : Prop where
  kind : ∀ a b v, kindOf (op a b v) = some k
  wired : ∀ a b v, (op a b v).format = .maxs → m = .max
  addr : ∀ a b v, addrOf (op a b v) = place a
  lanes : ∀ a b v, lanesOfInstr (op a b v) = lanesOf b (a.getLsbD 0)
  seg : ∀ a b v, segOf (op a b v) = g
  data : k.writes = true → ∀ a b v, wdataOf (op a b v) = v

theorem splitItems_access {n : Nat} {m : Mode} {k : Kind} {g : SegUse} {place : BitVec (n + 1) → Addr}
    {op : BitVec (n + 1) → Bool → Word → Instr} (h : AccessOp m k g place op) {low high : Part}
    (hr : k.reads = true → low = .lowByte ∧ high = .highByte) (a : BitVec (n + 1)) (w : Width) (v : Word) :
    ∃ it l, AccessItems m (splitItems op low high a w v) k (place a) (place (a + 1)) (a.getLsbD 0) w g v it l := by
  have hkind := h.kind
  have hwired := h.wired
  have haddr := h.addr
  have hseg := h.seg
  cases w with
  | byte =>
    refine ⟨⟨op a (!a.getLsbD 0) (twice v.lo), .whole⟩, [], by simp [splitItems], hkind _ _ _, hwired _ _ _, haddr _ _ _,
      hseg _ _ _, ?_, fun hw _ => ?_, fun hw _ => ?_, fun _ hl => ?_, fun _ => ⟨rfl, rfl⟩, nofun⟩
    · rw [h.lanes]
      cases a.getLsbD 0 <;> rfl
    · rw [h.data hw, twice_lo]
    · rw [h.data hw, twice_hi]
    · rw [h.lanes] at hl
      cases ho : a.getLsbD 0 <;> rw [ho] at hl <;> cases hl
  | word =>
    cases ho : a.getLsbD 0 with
    | false =>
      refine ⟨⟨op a false v, .whole⟩, [], by simp only [splitItems, ho]; rfl, hkind _ _ _, hwired _ _ _, haddr _ _ _,
        hseg _ _ _, ?_, fun hw _ => ?_, nofun, fun hw _ => ?_, fun _ => ⟨rfl, rfl⟩, nofun⟩
      · rw [h.lanes, ho]
        rfl
      · rw [h.data hw]
      · rw [h.data hw]
    | true =>
      refine ⟨⟨op a false (twice v.lo), low⟩, [⟨op (a + 1) true (twice v.hi), high⟩], by simp only [splitItems, ho]; rfl,
        hkind _ _ _, hwired _ _ _, haddr _ _ _, hseg _ _ _, ?_, nofun, fun hw _ => ?_, fun _ hl => ?_, nofun,
        fun _ _ => ⟨_, _, rfl, hkind _ _ _, haddr _ _ _, ?_, hseg _ _ _, fun hw => ?_, hr⟩⟩
      · rw [h.lanes, ho]
        rfl
      · rw [h.data hw, twice_hi]
      · rw [h.lanes, ho] at hl
        cases hl
      · rw [h.lanes, succ_odd a ho]
        rfl
      · rw [h.data hw, twice_lo]

theorem memReadItems_access (m : Mode) (a : Addr) (w : Width) (g : Seg) (v : Word) :
    ∃ it l, AccessItems m (memReadItems m a w g) .memRead a (a + 1) (a.getLsbD 0) w (.reg g) v it l := by
  have hop : AccessOp m .memRead (.reg g) id (fun a b _ => memReadOp m a b g) :=
    ⟨fun _ _ _ => kindOf_memReadOp _ _ _ _, fun _ _ _ => memReadOp_wired _ _ _ _, fun _ _ _ => (memReadOp_operands _ _ _ _).1,
      fun _ _ _ => (memReadOp_operands _ _ _ _).2.1, fun _ _ _ => (memReadOp_operands _ _ _ _).2.2, nofun⟩
  have hitems : memReadItems m a w g = splitItems (fun a b _ => memReadOp m a b g) .lowByte .highByte a w v := by
    unfold memReadItems splitItems
    cases w <;> cases a.getLsbD 0 <;> rfl
  rw [hitems]
  exact splitItems_access hop (fun _ => ⟨rfl, rfl⟩) a w v

theorem memWriteItems_access (m : Mode) (a : Addr) (w : Width) (g : Seg) (v : Word) :
    ∃ it l, AccessItems m (memWriteItems m a w g v) .memWrite a (a + 1) (a.getLsbD 0) w (.reg g) v it l := by
  have hop : AccessOp m .memWrite (.reg g) id (fun a b v => memWriteOp m a b g v) :=
    ⟨fun _ _ _ => kindOf_memWriteOp _ _ _ _ _, fun _ _ _ => memWriteOp_wired _ _ _ _ _,
      fun _ _ _ => (memWriteOp_operands _ _ _ _ _).1, fun _ _ _ => (memWriteOp_operands _ _ _ _ _).2.1,
      fun _ _ _ => (memWriteOp_operands _ _ _ _ _).2.2.1, fun _ _ _ _ => (memWriteOp_operands _ _ _ _ _).2.2.2⟩
  have hitems : memWriteItems m a w g v = splitItems (fun a b v => memWriteOp m a b g v) .whole .whole a w v := by
    unfold memWriteItems splitItems
    cases w <;> cases a.getLsbD 0 <;> rfl
  rw [hitems]
  exact splitItems_access hop nofun a w v

theorem ioReadItems_access (m : Mode) (p : Port) (w : Width) (v : Word) :
    ∃ it l, AccessItems m (ioReadItems m p w) .ioRead (portAddr p) (portAddr (p + 1)) (p.getLsbD 0) w .none v it l := by
  have hop : AccessOp m .ioRead .none portAddr (fun p b _ => ioReadOp m p b) :=
    ⟨fun _ _ _ => kindOf_ioReadOp _ _ _, fun _ _ _ => ioReadOp_wired _ _ _, fun _ _ _ => (ioReadOp_operands _ _ _).1,
      fun _ _ _ => (ioReadOp_operands _ _ _).2.1, fun _ _ _ => (ioReadOp_operands _ _ _).2.2, nofun⟩
  have hitems : ioReadItems m p w = splitItems (fun p b _ => ioReadOp m p b) .lowByte .highByte p w v := by
    unfold ioReadItems splitItems
    cases w <;> cases p.getLsbD 0 <;> rfl
  rw [hitems]
  exact splitItems_access hop (fun _ => ⟨rfl, rfl⟩) p w v

theorem ioWriteItems_access (m : Mode) (p : Port) (w : Width) (v : Word) :
    ∃ it l, AccessItems m (ioWriteItems m p w v) .ioWrite (portAddr p) (portAddr (p + 1)) (p.getLsbD 0) w .none v it l := by
  have hop : AccessOp m .ioWrite .none portAddr (fun p b v => ioWriteOp m p b v) :=
    ⟨fun _ _ _ => kindOf_ioWriteOp _ _ _ _, fun _ _ _ => ioWriteOp_wired _ _ _ _, fun _ _ _ => (ioWriteOp_operands _ _ _ _).1,
      fun _ _ _ => (ioWriteOp_operands _ _ _ _).2.1, fun _ _ _ => (ioWriteOp_operands _ _ _ _).2.2.1,
      fun _ _ _ _ => (ioWriteOp_operands _ _ _ _).2.2.2⟩
  have hitems : ioWriteItems m p w v = splitItems (fun p b v => ioWriteOp m p b v) .whole .whole p w v := by
    unfold ioWriteItems splitItems
    cases w <;> cases p.getLsbD 0 <;> rfl
  rw [hitems]
  exact splitItems_access hop nofun p w v

/-! ## The core's request opens its first cycle -/

/-- An access selects a lane, so that its first cycle opens. -/
theorem AccessItems.laned {m : Mode} {items : List Item} {k : Kind} {a next : Addr} {odd : Bool} {w : Width} {g : SegUse}
    {v : Word} {it : Item} {l : List Item} (h : AccessItems m items k a next odd w g v it l) :
    lanesOfInstr it.instr ≠ .none := by
  rw [h.lanes]
  cases odd <;> cases w <;> decide

/-- The T1 of the first cycle of an access that the core asks for. -/
theorem step_access {s : State} {q : Req} {rest : List Req} {items : List Item} {k : Kind} {a next : Addr} {odd : Bool}
    {w : Width} {g : SegUse} {v : Word} {it : Item} {l : List Item} (hat : AtRequest s) (hp : s.program = q :: rest)
    (hq : ∀ r u : State, u.mode = s.mode → planReq q r u = planItems items r) (h : AccessItems s.mode items k a next odd w g v it l)
    (hka : k ≠ .ack) :
    ∃ t, step s = .next t ∧ t.busState = .t1 ∧ curKind t = some k ∧ t.curAddr = a ∧ t.curSeg = some g ∧
      t.program = rest ++ (nextFrame s).requests ∧
      t.curLanes = (if odd then .high else if w = .word then .both else .low) ∧
      (k.writes = true → hasLow t.curLanes = true → t.curWdata.lo = v.lo) ∧
      (k.writes = true → odd = true → t.curWdata.hi = v.lo) ∧
      (k.writes = true → t.curLanes = .both → t.curWdata.hi = v.hi) ∧
      (odd = false ∨ w = .byte → t.pendingOps = [] ∧ t.curPart = .whole) ∧
      (odd = true → w = .word → ∃ j p, t.pendingOps = [⟨j, p⟩] ∧ kindOf j = some k ∧ addrOf j = next ∧
        lanesOfInstr j = .low ∧ segOf j = g ∧ (k.writes = true → (wdataOf j).lo = v.hi) ∧
        (k.reads = true → t.curPart = .lowByte ∧ p = .highByte)) := by
  have hstep : step s = .next (enter .t1 (loadOp it.instr
      { s with program := rest, endPending := false, curPart := it.part, pendingOps := l })) := by
    rw [step_atRequest hat hp, hq { s with program := rest, endPending := false } { s with endPending := false } rfl]
    exact run_planItems h.items h.kind hka h.wired (fun _ => h.laned) hat.free.boundary
  refine ⟨_, hstep, rfl, by simp [h.kind], by simp [h.addr], by simp [h.seg], enter_program _ (by decide), by simp [h.lanes],
    fun hw hl => ?_, fun hw ho => ?_, fun hw hb => ?_, by simpa using h.one, by simpa using h.two⟩
  · rw [enter_curLanes, loadOp_curLanes] at hl
    have ho : odd = false := by
      rw [h.lanes] at hl
      cases odd
      · rfl
      · cases hl
    rw [enter_curWdata, loadOp_curWdata, onLanes_low _ _ _ hl, h.low hw ho]
  · have hl : hasHigh (lanesOfInstr it.instr) = true := by
      rw [h.lanes, ho]
      rfl
    rw [enter_curWdata, loadOp_curWdata, onLanes_high _ _ _ hl, h.high hw ho]
  · rw [enter_curLanes, loadOp_curLanes] at hb
    rw [enter_curWdata, loadOp_curWdata, onLanes_high _ _ _ (by rw [hb]; rfl), h.both hw hb]

/-- The second cycle of a split access opens on the free bus. -/
theorem step_rest {s : State} {it : Item} {r : List Item} {k : Kind} (hu : Undisturbed s)
    (hb : s.busState = .idle ∨ s.busState = .t4) (hp : s.ackPhase = .none) (ho : handOver s = none)
    (hq : s.pendingOps = it :: r) (hk : kindOf it.instr = some k) (hka : k ≠ .ack)
    (hm : it.instr.format = .maxs → s.mode = .max) (hl : k.transfers = true → lanesOfInstr it.instr ≠ .none) :
    step s = .next (enter .t1 (loadOp it.instr { poll (sampleTest s) with curPart := it.part, pendingOps := r })) := by
  have hov : handOver (poll (sampleTest s)) = none := by simpa [ho] using (handOver_polled (polled_poll s)).symm
  rw [step_boundary hu hb hp, hov]
  simp only [nextOp, poll_sampleTest_pendingOps, hq]
  exact run_planItems rfl hk hka (by simpa using hm) hl (by simpa using hb)

/-- Settles O54: the operations of the primitive are those of `splitItems`, and what is left of them comes first. -/
theorem memoryAccessSplits : Obligations.MemoryAccessSplits := by
  refine ⟨fun s q rest a g v k w hat hp hq => ?_, fun s it r k hu hb hp ho hq hk hka hm hl => ?_⟩
  · rcases hq with ⟨rfl, rfl⟩ | ⟨rfl, rfl⟩
    · obtain ⟨it, l, h⟩ := memReadItems_access s.mode a w g v
      simpa [Kind.writes, Kind.reads] using step_access hat hp (fun _ _ hm => by rw [planReq, hm]) h nofun
    · obtain ⟨it, l, h⟩ := memWriteItems_access s.mode a w g v
      simpa [Kind.writes, Kind.reads] using step_access hat hp (fun _ _ hm => by rw [planReq, hm]) h nofun
  · exact ⟨_, step_rest hu hb hp ho hq hk hka hm hl, rfl, by simp, (loadOp_loaded _ _).enter _, by simp, by simp, by
      rw [enter_program _ (by decide)]
      simp [nextFrame]⟩

/-- Settles O55: the same with ports. -/
theorem portAccessSplits : Obligations.PortAccessSplits := by
  intro s q rest a v k w hat hp hq
  rcases hq with ⟨rfl, rfl⟩ | ⟨rfl, rfl⟩
  · obtain ⟨it, l, h⟩ := ioReadItems_access s.mode a w v
    simpa [Kind.writes, Kind.reads, portAddr] using step_access hat hp (fun _ _ hm => by rw [planReq, hm]) h nofun
  · obtain ⟨it, l, h⟩ := ioWriteItems_access s.mode a w v
    simpa [Kind.writes, Kind.reads, portAddr] using step_access hat hp (fun _ _ hm => by rw [planReq, hm]) h nofun

/-! ## The operation of a word -/

/-- Where the core's next request is a word with room for what it fetches, the step runs its operation. -/
theorem step_word {s : State} {f : Format} {w : BitVec 64} {i : Instr} {rest : List Req} (hat : AtRequest s)
    (hp : s.program = .word f w :: rest) (hd : decode f w = .ok i) (hroom : hasRoom s i = true) :
    step s = exec i { s with program := rest, curPart := .whole, endPending := false } := by
  have hroom' : hasRoom { s with endPending := false } i = true := hroom
  rw [step_atRequest hat hp]
  simp only [planReq, hd, planFetch, hroom', if_true, runPlan]

/-- The placed word is the core's next request on a free bus. -/
theorem placeWord_atRequest (f : Format) (w : BitVec 64) (s : State) : AtRequest (placeWord f w s) := by
  have hpins : (placeWord f w s).pins = pinsOf false (placeWord f w s) :=
    (pinsOf_withPins false (freeBus f w s) _).symm
  have hreset : (nextFrame (placeWord f w s)).reset = false := by
    unfold nextFrame
    cases hs : s.inputs <;> simp [placeWord, freeBus, hs, calmHead, Frame.held, Frame.calm]
  have hserve : canServe (placeWord f w s) = false := by
    simp [canServe, placeWord, freeBus, Frame.calm]
  have hover : handOver (placeWord f w s) = none := by
    unfold handOver
    cases hm : (placeWord f w s).mode <;> simp [placeWord, freeBus, Frame.calm]
  exact ⟨⟨⟨rfl, hreset, nofun, by
    rw [violation, hazard_quiet rfl rfl rfl]
    exact observed_pinsOf false hpins fun i k hb => nomatch hb⟩, .inl rfl, rfl, hover, rfl, rfl, rfl, .inl hserve, rfl⟩, rfl⟩

/-- A word of the opcode table is read in its table's format. -/
theorem decode_of_tableWord {nbits w : Nat} {i : Instr} (h : decodeTableWord nbits w = some i) :
    decode (tableFormat nbits w) (BitVec.ofNat 64 w) = .ok i := by
  unfold decodeTableWord at h
  split at h
  · cases hd : decode (tableFormat nbits w) (BitVec.ofNat 64 w) with
    | error e => simp [hd, Except.toOption] at h
    | ok j => simpa [hd, Except.toOption] using h
  · cases h

/-- Settles O5: the plan of a free bus, of a cycle, and of a placed word. -/
theorem stepRunsDecoded : Obligations.StepRunsDecoded := by
  refine ⟨fun s f w i rest hat hp hd hroom => step_word hat hp hd hroom, fun s i hu hb hc => step_inCycle hu hb hc,
    fun s nbits w i hd hq => ?_⟩
  have hroom : hasRoom (s.withFetchWord nbits w) i = true := by
    unfold hasRoom
    split
    · rw [decide_eq_true_eq]
      have := laneCount_le (lanesOfInstr i)
      simp only [State.withFetchWord, placeWord, freeBus, List.length_nil]
      omega
    · rfl
  exact ⟨_, step_word (placeWord_atRequest _ _ s) rfl (decode_of_tableWord hd) hroom, rfl, rfl, rfl⟩

end Sys2Proof.Machine


/-! What a step leaves as it was, and what stops it: memory (spec/20_memory.md R81, R91), the registers (spec/10_state.md
section 3) and contention (spec/70_reset_and_hazards.md R260). -/

namespace Sys2Proof.Machine

/-! ## Memory -/

theorem Started.mem {v u : State} {i : Instr} (h : Started v i u) : u.mem = v.mem :=
  (congrArg State.mem h.taken).trans rfl

theorem handOver_mem {v u : State} (h : handOver v = some u) : u.mem = v.mem := by
  rcases handOver_cases h with ⟨-, -, rfl⟩ | ⟨-, -, -, rfl⟩ | ⟨-, -, -, -, rfl⟩ <;> rfl

/-- What may have become of memory where the T-state `s` ends: nothing, what a write cycle stores, or what another master
writes. -/
def MemoryMade (s t : State) : Prop :=
  (s.busState ≠ .holdAck ∧ t.mem = s.mem) ∨
  (curKind s = some .memWrite ∧ inCycle s.busState = true ∧ (t.busState = .t4 ∨ t.busState = .inReset) ∧
    ∃ d, t.mem = storeLanes s.mem s.curAddr s.curLanes d) ∨
  (s.busState = .holdAck ∧ t.mem = extMemory s.mem s.now.ext)

theorem Turn.memoryMade {s v t : State} (h : Turn s v t) (hvk : curKind v = curKind s) (hvn : v.now = s.now)
    (hvm : v.mem = s.mem) (hva : v.curAddr = s.curAddr) (hvl : v.curLanes = s.curLanes) : MemoryMade s t := by
  have free : atBoundary s.busState = true → s.busState ≠ .holdAck := fun hb h => by simp [h, atBoundary] at hb
  have busy : s.busState = .t3 ∨ s.busState = .tw → s.busState ≠ .holdAck := by rintro (h | h) <;> simp [h]
  cases h with
  | t1 i k hb => exact .inl ⟨by simp [hb], by simpa using hvm⟩
  | t2 i k hb => exact .inl ⟨by simp [hb], by simpa using hvm⟩
  | wait i k hb => exact .inl ⟨busy hb, by simpa using hvm⟩
  | ack1 i hb => exact .inl ⟨busy hb, by simpa using hvm⟩
  | ack2 i hb => exact .inl ⟨busy hb, by simpa using hvm⟩
  | fin i k hb hc hk =>
    have hcur : curKind s = some k := by rw [← hvk, curKind, hc, Option.bind_some, hk]
    by_cases hw : k = .memWrite
    · subst hw
      refine .inr (.inl ⟨hcur, by rcases hb with hb | hb <;> simp [hb, inCycle], .inl rfl, v.curWdata, ?_⟩)
      rw [enter_mem, ← hvm, ← hva, ← hvl]
      rfl
    · refine .inl ⟨busy hb, ?_⟩
      rw [enter_mem, ← hvm, finishOf_mem hw]
  | release hb =>
    refine .inr (.inr ⟨hb, ?_⟩)
    rw [enter_mem, ← hvm, ← hvn]
    rfl
  | hold hb =>
    refine .inr (.inr ⟨hb, ?_⟩)
    rw [enter_mem, ← hvm, ← hvn]
    rfl
  | give hb hp u ho => exact .inl ⟨free hb, by simpa using (handOver_mem ho).trans hvm⟩
  | rest hb hp ho u hn hr => exact .inl ⟨free hb, by simpa using hr.mem.trans hvm⟩
  | ackGo i hb => exact .inl ⟨free hb, by simpa using hvm⟩
  | ackGap i n hb => exact .inl ⟨free hb, by simpa using hvm⟩
  | start i u k hb hp ho hn hs => exact .inl ⟨free hb, by simpa using hs.mem.trans hvm⟩
  | startAck i u hb hp ho hn hs => exact .inl ⟨free hb, by simpa using hs.mem.trans hvm⟩
  | startIdle i u x hb hp ho hn hs => exact .inl ⟨free hb, by simpa using hs.mem.trans hvm⟩
  | startLane i u l hb hp ho hn hs => exact .inl ⟨free hb, by simpa using hs.mem.trans hvm⟩

theorem step_memoryMade {s t : State} (hi : Inv s) (h : step s = .next t) : MemoryMade s t := by
  by_cases ht : t.busState = .inReset
  · obtain ⟨-, rfl⟩ := step_reset hi h ht
    have hmem : (enter .inReset (resetInternal (outsideDone s))).mem = cutWrite (outsideDone s) := by
      rw [enter_mem]
      rfl
    unfold MemoryMade
    rw [hmem, cutWrite, outsideDone_busState, curKind_outsideDone, outsideDone_mem, outsideDone_curAddr, outsideDone_curLanes]
    by_cases hh : s.busState = .holdAck
    · exact .inr (.inr ⟨hh, by simp [hh, inCycle]⟩)
    · by_cases hw : inCycle s.busState = true ∧ curKind s = some .memWrite
      · exact .inr (.inl ⟨hw.2, hw.1, .inr rfl, _, by rw [if_pos (by simpa using hw), if_neg hh]⟩)
      · exact .inl ⟨hh, by rw [if_neg (by simpa using hw), if_neg hh]⟩
  by_cases hs : s.busState = .inReset
  · obtain ⟨-, rfl⟩ := step_leave h ht hs
    exact .inl ⟨by simp [hs], by simp⟩
  · exact (step_out hi h ht hs).2.2.memoryMade (by simp) (by simp) (by simp) (by simp) (by simp)

/-- Settles O56: by what may have become of memory. -/
theorem memoryChangesOnlyByWrites : Obligations.MemoryChangesOnlyByWrites := by
  intro s t a hi h
  rcases step_memoryMade hi h with ⟨hb, hm⟩ | ⟨hk, hb, ht, d, hm⟩ | ⟨hb, hm⟩
  · exact ⟨fun hne => absurd (by rw [readMem, hm, readMem]) hne, fun _ _ _ _ hb' => absurd hb' hb⟩
  · refine ⟨fun hne => .inl ⟨hk, hb, ?_, ht⟩, fun _ _ _ _ hb' => by simp [hb', inCycle] at hb⟩
    by_contra hout
    rw [not_or, not_and, not_and] at hout
    refine hne ?_
    rw [readMem, hm, readMem]
    exact storeLanes_other hi.memory _ _ _ hout.1 hout.2
  · refine ⟨fun hne => .inr ⟨hb, ?_⟩, fun m v l₁ l₂ _ hext hlast => ?_⟩
    · by_contra hout
      refine hne ?_
      rw [readMem, hm, readMem]
      exact extMemory_other hi.memory fun d v hd => hout ⟨d, v, hd⟩
    · rw [readMem, hm, hext]
      exact extMemory_split hi.memory _ _ _ _ _ hlast

/-! ## Registers -/

/-- What has become of the registers before the core writes them: nothing, or what a step of InterruptEntry or of the return
does on a free bus. -/
def RegsMade (v u : State) (b : BusState) : Prop :=
  (∀ r, readReg u r = readReg v r) ∨
  (atBoundary v.busState = true ∧ b ≠ .holdAck ∧ v.pendingOps = [] ∧ u.raised = v.raised ∧
    ∃ e, v.entrySteps.head? = some e ∧ ∀ r, r ∉ e.writes → readReg u r = readReg v r)

theorem Starts.regsMade {v u : State} {i : Instr} (h : Starts v i u) (hb : atBoundary v.busState = true) (b : BusState)
    (hne : b ≠ .holdAck) : RegsMade v u b := by
  cases h with
  | entry e r it l cs ip fr sp hp he ho hk hx =>
    refine .inr ⟨hb, hne, hp, rfl, e, by simp [he], fun x hw => Eq.trans ?_ (hx x hw)⟩
    cases x <;> rfl
  | rest | restart | ack | word | fetch | access => exact .inl fun r => by cases r <;> rfl

theorem Rests.regsMade {v w : State} (h : Rests v w) (hp : v.pendingOps = []) (hb : atBoundary v.busState = true) :
    RegsMade v { w with curOp := none, idleDrive := none } .idle := by
  cases h with
  | entered r he =>
    refine .inr ⟨hb, by decide, hp, rfl, _, by rw [he]; rfl, fun x hx => ?_⟩
    cases x with
    | cs => exact absurd (by decide) hx
    | ds | ss | es | ip | fr | sp => rfl
  | returned r he =>
    rw [resumeWait_eq]
    refine .inr ⟨hb, by decide, hp, rfl, _, by rw [he]; rfl, fun x hx => ?_⟩
    cases x with
    | fr => exact absurd (by decide) hx
    | cs | ds | ss | es | ip | sp => rfl
  | resumes =>
    rw [resumeWait_eq]
    exact .inl fun r => by cases r <;> rfl
  | nothing | waits | returns | locks | unlocks => exact .inl fun r => by cases r <;> rfl

theorem RegsMade.of_eq {v u w : State} {b : BusState} (h : RegsMade v u b) (hr : ∀ r, readReg w r = readReg u r)
    (hx : w.raised = u.raised) : RegsMade v w b := by
  rcases h with h | ⟨hb, hne, hp, hra, e, he, h⟩
  · exact .inl fun r => (hr r).trans (h r)
  · exact .inr ⟨hb, hne, hp, hx.trans hra, e, he, fun r hw => (hr r).trans (h r hw)⟩

theorem Turn.regsMade {s v t : State} (h : Turn s v t) (hvb : v.busState = s.busState) :
    ∃ b u, b ≠ .inReset ∧ t = enter b u ∧ RegsMade v u b := by
  cases h with
  | t1 => exact ⟨_, _, by decide, rfl, .inl fun r => by cases r <;> simp [readReg]⟩
  | fin i k => exact ⟨_, _, by decide, rfl, .inl fun r => by cases r <;> simp [readReg]⟩
  | give hb hp u ho =>
    refine ⟨_, _, by decide, rfl, .inl fun r => ?_⟩
    rcases handOver_cases ho with ⟨-, -, rfl⟩ | ⟨-, -, -, rfl⟩ | ⟨-, -, -, -, rfl⟩ <;> cases r <;> rfl
  | rest hb hp ho u hn =>
    obtain ⟨hpe, w, hw, rfl⟩ := nextOp_rests hn
    exact ⟨_, _, by decide, rfl, hw.regsMade hpe (hvb ▸ hb)⟩
  | start i u k hb hp ho hn =>
    exact ⟨_, _, by decide, rfl, ((nextOp_starts hn).regsMade (hvb ▸ hb) _ (by decide)).of_eq (fun r => by cases r <;> rfl) rfl⟩
  | startAck i u hb hp ho hn =>
    exact ⟨_, _, by decide, rfl, ((nextOp_starts hn).regsMade (hvb ▸ hb) _ (by decide)).of_eq (fun r => by cases r <;> rfl) rfl⟩
  | startIdle i u x hb hp ho hn =>
    exact ⟨_, _, by decide, rfl, ((nextOp_starts hn).regsMade (hvb ▸ hb) _ (by decide)).of_eq (fun r => by cases r <;> rfl) rfl⟩
  | startLane i u l hb hp ho hn =>
    exact ⟨_, _, by decide, rfl, ((nextOp_starts hn).regsMade (hvb ▸ hb) _ (by decide)).of_eq (fun r => by cases r <;> rfl) rfl⟩
  | t2 | wait | ack1 | ack2 | release | hold | ackGo | ackGap =>
    exact ⟨_, _, by decide, rfl, .inl fun r => by cases r <;> rfl⟩

/-- What a step does to a register that the core does not write, in terms of what was owed in `s`. -/
theorem RegsMade.kept {s v u : State} {b : BusState} {r : Reg} (h : RegsMade v u b) (hl : Looked s v) :
    ((∀ e, s.entrySteps.head? = some e → r ∉ e.writes) → (s.entrySteps = [] → u.raised = s.raised ∨ r ≠ .sp) →
      readReg u r = readReg s r) ∧
    (inCycle s.busState = true ∨ s.busState = .holdAck ∨ b = .holdAck ∨ s.pendingOps ≠ [] → readReg u r = readReg s r) := by
  have hv : readReg v r = readReg s r := by cases hl <;> cases r <;> rfl
  have hvb : v.busState = s.busState := by cases hl <;> rfl
  have hvp : v.pendingOps = s.pendingOps := by cases hl <;> rfl
  rw [← hv]
  rcases h with h | ⟨hb, hne, hp, hraised, e, he, h⟩
  · exact ⟨fun _ _ => h r, fun _ => h r⟩
  refine ⟨fun hw hr => h r ?_, fun hout => ?_⟩
  · cases hl with
    | none => exact hw e he
    | intr => exact hw e he
    | nmi hs hn =>
      obtain rfl : e = .pushFr := by
        have he' : (entryOwed s Config.nmiType).head? = some e := he
        unfold entryOwed at he'
        split at he'
        · exact (Option.some.inj he').symm
        · cases he'
      have hsp : r ≠ .sp := (hr hs.noEntry).resolve_left fun heq => by simp [hraised] at heq
      simpa [EntryStep.writes] using hsp
  · rw [hvb] at hb
    rcases hout with hc | hh | hh | hq
    · simp [boundary_not_inCycle hb] at hc
    · simp [hh, atBoundary] at hb
    · exact absurd hh hne
    · exact absurd (hvp ▸ hp) hq

theorem step_regsMade {s t : State} (hi : Inv s) (h : step s = .next t) (ht : t.busState ≠ .inReset) :
    ∃ b u, b ≠ .inReset ∧ t = enter b u ∧ nextFrame u = nextFrame s ∧ ∃ v, Looked s v ∧ RegsMade v u b := by
  have hnow := step_now hi h
  by_cases hs : s.busState = .inReset
  · obtain ⟨-, rfl⟩ := step_leave h ht hs
    exact ⟨_, _, by decide, rfl, rfl, _, looked s, .inl fun r => by rw [readReg_poll_sampleTest]; cases r <;> rfl⟩
  · obtain ⟨b, u, hb, rfl, hr⟩ := (step_out hi h ht hs).2.2.regsMade (by simp)
    exact ⟨b, u, hb, rfl, by rw [← hnow, enter_now], _, looked s, hr⟩

/-- Settles O57: what the 8086 does to the registers is known, and the core's writes come after it. -/
theorem registersKept : Obligations.RegistersKept := by
  intro s t r hi h ht
  obtain ⟨b, u, hb, rfl, hf, v, hl, hr⟩ := step_regsMade hi h ht
  have hread := enter_readReg u hb r
  rw [hf] at hread
  obtain ⟨h₁, h₂⟩ := hr.kept (r := r) hl
  refine ⟨fun hno => ?_, fun w l₁ l₂ hws hlast => ?_⟩
  · rw [hread, readReg_writeRegs_other _ hno, enter_raised, enter_busState]
    exact ⟨h₁, h₂⟩
  · rw [hread, hws, readReg_writeRegs_last _ _ _ _ hlast]

end Sys2Proof.Machine


/-! Bus contention (spec/70_reset_and_hazards.md R260 HZ3, HZ7, HZ8): which drivers stop the step, and that nothing else does. -/

namespace Sys2Proof.Machine

/-! ## What stops a step for contention -/

/-- A broken obligation of the outside stops the step, whatever comes next. -/
theorem step_hazard {s : State} {f : Fault} (hm : s.now.mnmx = s.mode.strap) (hz : hazard s = some f) :
    step s = .fault f := by
  simp [step, planStep, violation, hm, hz, runPlan]

/-- The two faults of contention. -/
def Fault.isContention : Fault → Bool
  | .busContention => true
  | .masterContention => true
  | _ => false

theorem runCycle_fault {i : Instr} {transfer : Bool} {finish : State → State} {s : State} {f : Fault}
    (h : runCycle i transfer finish s = .fault f) : f.isContention = false := by
  unfold runCycle during at h
  grind [Fault.isContention]

theorem runAck_fault {i : Instr} {s : State} {f : Fault} (h : runAck i s = .fault f) : f.isContention = false := by
  unfold runAck during finishAck at h
  grind [Fault.isContention]

theorem runIdle_fault {x : Option (BitVec 2)} {s : State} {f : Fault} (h : runIdle x s = .fault f) :
    f.isContention = false := by
  unfold runIdle at h
  split at h <;> cases h
  rfl

theorem runLane_fault {l : Lanes} {s : State} {f : Fault} (h : runLane l s = .fault f) : f.isContention = false := by
  unfold runLane at h
  split at h
  · cases h
    rfl
  · split at h <;> cases h
    rfl

theorem inMaxMode_fault {s : State} {o : Host.Outcome State Fault Refusal} {f : Fault} (h : inMaxMode s o = .fault f) :
    o = .fault f := by
  unfold inMaxMode at h
  split at h
  · exact h
  · cases h

/-- No operation faults for contention. -/
theorem exec_fault {i : Instr} {s : State} {f : Fault} (h : exec i s = .fault f) : f.isContention = false := by
  cases i with
  | memr a b u => cases u <;> exact runCycle_fault h
  | memw | ior | iow => exact runCycle_fault h
  | inta => exact runAck_fault h
  | idle => exact runIdle_fault h
  | sInta => exact runAck_fault (inMaxMode_fault h)
  | sPassive => exact runIdle_fault (inMaxMode_fault h)
  | sIor | sIow | sHalt | sFetch | sMemr | sMemw => exact runCycle_fault (inMaxMode_fault h)
  | laneBoth => exact runLane_fault (l := .both) h
  | laneHigh => exact runLane_fault (l := .high) h
  | laneLow => exact runLane_fault (l := .low) h
  | laneNone => exact runLane_fault (l := .none) (s := s) h

theorem planFetch_ne_stop {i : Instr} {r s : State} {f : Fault} : planFetch i r s ≠ .stop f := by
  unfold planFetch
  split <;> nofun

theorem planItems_ne_stop {l : List Item} {s : State} {f : Fault} : planItems l s ≠ .stop f := by
  cases l <;> nofun

theorem planEntry_ne_stop {e : EntryStep} {s : State} {f : Fault} : planEntry e s ≠ .stop f := by
  cases e with
  | entered | returned => nofun
  | pushFr | pushCs | pushIp | readIp | readCs | popIp | popCs | popFr => exact planItems_ne_stop

theorem planReq_stop {q : Req} {r s : State} {f : Fault} (h : planReq q r s = .stop f) : f.isContention = false := by
  cases q with
  | word g w =>
    simp only [planReq] at h
    split at h
    · rename_i e _
      cases h
      cases e <;> rfl
    · exact absurd h planFetch_ne_stop
  | memRead | memWrite | ioRead | ioWrite => exact absurd h planItems_ne_stop
  | fetch => exact absurd h planFetch_ne_stop
  | iret =>
    simp only [planReq] at h
    split at h <;> cases h
  | testWait | lock | unlock => cases h

theorem nextOp_stop {s : State} {f : Fault} (h : nextOp s = .stop f) : f.isContention = false := by
  unfold nextOp at h
  split at h
  · cases h
  split at h
  · exact absurd h planFetch_ne_stop
  split at h
  · cases h
  split at h
  · exact absurd h planEntry_ne_stop
  split at h
  · cases h
  split at h
  · cases h
  · exact planReq_stop h

/-- The rules of the bus state stop no step for contention. -/
theorem planNow_stop {s : State} {f : Fault} (h : planNow s = .stop f) : f.isContention = false := by
  unfold planNow planRestart planActive planBoundary at h
  have := @nextOp_stop (poll (sampleTest s)) f
  grind [Fault.isContention, planIdle]

theorem observed_not_contention {s : State} {f : Fault} (h : observed s = some f) : f.isContention = false := by
  unfold observed at h
  grind [Fault.isContention]

/-- Where no driver is in the way the step does not stop for contention. -/
theorem step_no_contention {s : State} {f : Fault} (hz : hazard s = none) (h : step s = .fault f) :
    f.isContention = false := by
  unfold step planStep violation at h
  rw [hz] at h
  split at h
  · cases h
  split at h
  · rename_i ho
    cases h
    exact observed_not_contention ho
  split at h
  · cases h
  cases hp : planNow s with
  | refuse r => simp [hp, runPlan] at h
  | stop g =>
    rw [hp] at h
    cases h
    exact planNow_stop hp
  | go b u => simp [hp, runPlan] at h
  | run i u =>
    rw [hp] at h
    exact exec_fault h

theorem step_ne_contention {s : State} (hz : hazard s = none) :
    step s ≠ .fault .busContention ∧ step s ≠ .fault .masterContention :=
  ⟨fun h => Bool.noConfusion (step_no_contention hz h), fun h => Bool.noConfusion (step_no_contention hz h)⟩

/-! ## Where a driver may drive -/

theorem hazard_device {s : State} (h : (s.now.devLo.isSome = true ∧ mayDrive s true = false) ∨
    (s.now.devHi.isSome = true ∧ mayDrive s false = false)) : hazard s = some .busContention := by
  unfold hazard
  rw [if_pos]
  rcases h with ⟨h, hm⟩ | ⟨h, hm⟩ <;> simp [h, hm]

theorem hazard_master {s : State} {e : Ext} (hlo : s.now.devLo = none) (hhi : s.now.devHi = none) (he : e ∈ s.now.ext)
    (hm : masterMayDrive s e.master = false) : hazard s = some .masterContention := by
  unfold hazard
  rw [if_neg (by simp [hlo, hhi]), if_pos]
  exact List.any_eq_true.2 ⟨e, he, by simp [hm]⟩

theorem hazard_none {s : State} (hlo : s.now.devLo.isSome = true → mayDrive s true = true)
    (hhi : s.now.devHi.isSome = true → mayDrive s false = true)
    (hm : ∀ e ∈ s.now.ext, masterMayDrive s e.master = true) : hazard s = none := by
  unfold hazard
  rw [if_neg, if_neg]
  · simpa [List.any_eq_true] using hm
  · cases hl : s.now.devLo.isSome <;> cases hh : s.now.devHi.isSome <;> simp_all

/-- In T2 to T4 a device may drive where the cycle's kind lets it. -/
theorem mayDrive_dataPhase {s : State} (hb : dataPhase s.busState = true) (low : Bool) : mayDrive s low =
    match curKind s with
    | some .ack => decide (s.ackPhase = .second) || (decide (s.busState = .t4) && decide (s.ackPhase = .none))
    | some k => k.reads && (if low then hasLow s.curLanes else hasHigh s.curLanes)
    | none => false := by
  unfold mayDrive
  cases hs : s.busState with
  | t2 | t3 | tw | t4 => rfl
  | t1 | idle | holdAck | inReset => simp [hs, dataPhase, strobeState] at hb

theorem mayDrive_read {s : State} {k : Kind} (hb : dataPhase s.busState = true) (hk : curKind s = some k)
    (hr : k.reads = true) (low : Bool) : mayDrive s low = if low then hasLow s.curLanes else hasHigh s.curLanes := by
  rw [mayDrive_dataPhase hb, hk]
  cases k <;> simp [Kind.reads] at hr ⊢

theorem mayDrive_ack {s : State} (hb : dataPhase s.busState = true) (hk : curKind s = some .ack) (low : Bool) :
    mayDrive s low = true ↔ s.ackPhase = .second ∨ (s.busState = .t4 ∧ s.ackPhase = .none) := by
  rw [mayDrive_dataPhase hb, hk]
  simp

theorem mayDrive_notRead {s : State} (hb : dataPhase s.busState = true)
    (hk : ∀ k, curKind s = some k → k.reads = false ∧
      (k = .ack → ¬(s.ackPhase = .second ∨ (s.busState = .t4 ∧ s.ackPhase = .none)))) (low : Bool) :
    mayDrive s low = false := by
  cases hc : curKind s with
  | none => rw [mayDrive_dataPhase hb, hc]
  | some k =>
    obtain ⟨hr, ha⟩ := hk k hc
    by_cases hka : k = .ack
    · subst hka
      rw [← Bool.not_eq_true, mayDrive_ack hb hc]
      exact ha rfl
    · rw [mayDrive_dataPhase hb, hc]
      cases k <;> simp_all

theorem mayDrive_holdAck {s : State} (hb : s.busState = .holdAck) (low : Bool) : mayDrive s low = masterMayRead s := by
  simp [mayDrive, hb]

theorem masterMayRead_iff (s : State) : masterMayRead s = true ↔
    released s = false ∧ s.now.ext ≠ [] ∧ ∀ e ∈ s.now.ext, ∃ m, e = .drives m := by
  unfold masterMayRead
  simp only [Bool.and_eq_true, Bool.not_eq_true', List.isEmpty_eq_false_iff, List.all_eq_true, and_assoc]
  refine and_congr_right fun _ => and_congr_right fun _ => forall₂_congr fun e _ => ?_
  cases e <;> simp

theorem masterMayDrive_iff (s : State) (m : Master) : masterMayDrive s m = true ↔
    s.busState = .holdAck ∧ busMaster s = some m ∧ released s = false := by
  simp [masterMayDrive, and_assoc]

/-- In minimum mode only the master on HOLD has the bus, in maximum mode only one that was granted it. -/
theorem busMaster_ne {s : State} {m : Master} (h : (s.mode = .min ∧ m ≠ .hold) ∨
    (s.mode = .max ∧ ∀ l, m = .line l → s.granted ≠ some l)) : busMaster s ≠ some m := by
  unfold busMaster
  rcases h with ⟨hm, h⟩ | ⟨hm, h⟩
  · simp only [hm]
    split <;> grind
  · simp only [hm, ne_eq, Option.map_eq_some_iff, not_exists, not_and]
    exact fun l hl hm => h l hm.symm hl

/-- A device that drives where it may not. -/
theorem device_in_the_way {s : State} (hm : s.now.mnmx = s.mode.strap)
    (hd : s.now.devLo.isSome = true ∨ s.now.devHi.isSome = true) (h : ∀ low, mayDrive s low = false) :
    step s = .fault .busContention :=
  step_hazard hm (hazard_device (hd.imp (⟨·, h _⟩) (⟨·, h _⟩)))

/-- What a device drives in the last T3 or TW is what is read. -/
theorem reads_device {s t : State} (hi : Inv s) (hu : Undisturbed s) (hb : s.busState = .t3 ∨ s.busState = .tw)
    (hr : s.now.ready = true) (h : step s = .next t) :
    (∀ k, curKind s = some k → k.reads = true →
      (∀ v, s.now.devLo = some v → t.rdata.lo = v) ∧ (∀ v, s.now.devHi = some v → t.rdata.hi = v)) ∧
    (s.ackPhase = .second → ∀ v, s.now.devLo = some v → t.ackType = v) := by
  refine ⟨fun k hk hrd => ?_, fun hp v hv => ?_⟩
  · rw [step_end_eq hi hu hk (by rintro rfl; cases hrd) hb hr] at h
    cases h
    have hdata : (finishOf k (poll (sampleTest s))).rdata = busIn s := by
      cases k <;> simp_all [finishOf, Kind.reads, finishRead, finishFetch]
    rw [enter_rdata, hdata, busIn_lo, busIn_hi]
    exact ⟨fun v => lowIn_device, fun v => highIn_device⟩
  · rw [step_ackEnd_eq hi hu (hi.ack (by simp [hp])) hb hr, finishAck_second (by simpa using hp)] at h
    cases h
    simp [lowIn_device hv]

/-- Settles O58: where a driver is in the way the step reports it first, and nothing else that stops a step is contention. -/
theorem contentionFaults : Obligations.ContentionFaults := by
  refine ⟨fun s hm => ⟨fun hd hb => device_in_the_way hm hd fun low => ?_, fun k hb hk hr hl => ?_,
    fun hb hd hx => device_in_the_way hm hd fun low => ?_, fun e he hlo hhi hb => ?_⟩, fun s hx hd => ?_, fun s hb hr hx hd => ?_⟩
  · rcases hb with hb | hb | hb | ⟨hb, hk⟩
    · simp [mayDrive, hb]
    · simp [mayDrive, hb]
    · simp [mayDrive, hb]
    · exact mayDrive_notRead hb hk low
  · exact step_hazard hm (hazard_device (by simpa [mayDrive_read hb hk hr] using hl))
  · rw [mayDrive_holdAck hb, ← Bool.not_eq_true, masterMayRead_iff]
    rintro ⟨hr, hne, hall⟩
    rcases hx with hx | hx | ⟨m, a, v, hx⟩
    · exact hne hx
    · simp [hx] at hr
    · obtain ⟨m', hm'⟩ := hall _ hx
      cases hm'
  · refine step_hazard hm (hazard_master hlo hhi he ?_)
    rw [← Bool.not_eq_true, masterMayDrive_iff]
    rintro ⟨hh, hbm, hr⟩
    rcases hb with hb | hb | hb
    · exact hb hh
    · simp [hb] at hr
    · exact busMaster_ne hb hbm
  · have hz : hazard s = none := by
      refine hazard_none (fun h => ?_) (fun h => ?_) (by simp [hx])
      · obtain ⟨hb, ⟨k, hk, hr, hl, -⟩ | ⟨hk, hp⟩⟩ := hd (.inl h)
        · rw [mayDrive_read hb hk hr]
          exact hl h
        · exact (mayDrive_ack hb hk _).2 hp
      · obtain ⟨hb, ⟨k, hk, hr, -, hl⟩ | ⟨hk, hp⟩⟩ := hd (.inr h)
        · rw [mayDrive_read hb hk hr]
          exact hl h
        · exact (mayDrive_ack hb hk _).2 hp
    obtain ⟨h1, h2⟩ := step_ne_contention hz
    refine ⟨h1, h2, fun hi hm hr hb => ?_⟩
    have hu := hi.undisturbed hm hr (by rintro h; simp [h, inCycle] at hb) hz
    obtain ⟨t, ht, hc, -, -, h3, hw⟩ := nextState.1 s hi hu hb
    refine ⟨t, ht, hc, fun hb hr => ⟨?_, reads_device hi hu hb hr ht⟩⟩
    rcases hb with hb | hb
    · simp [h3 hb, hr]
    · simp [hw hb, hr]
  · have hread : s.now.devLo.isSome = true ∨ s.now.devHi.isSome = true → ∀ low, mayDrive s low = true := fun h low => by
      rw [mayDrive_holdAck hb, masterMayRead_iff]
      exact ⟨hr, hd h⟩
    have hz : hazard s = none := hazard_none (fun h => hread (.inl h) _) (fun h => hread (.inr h) _)
      fun e he => (masterMayDrive_iff _ _).2 ⟨hb, hx e he, hr⟩
    obtain ⟨h1, h2⟩ := step_ne_contention hz
    refine ⟨h1, h2, fun hi hm hr' => ?_⟩
    have hstep := step_holdAck (hi.undisturbed hm hr' (by simp [hb]) hz) hb
    rw [hr, if_neg (by simp)] at hstep
    exact ⟨_, hstep, rfl⟩

end Sys2Proof.Machine


/-! Hand-over of the bus: HOLD (spec/41_min_mode_control.md R170 to R172), request and grant (spec/42_max_mode_control.md R188 to
R190), LOCK# (R193), and none of them inside an acknowledge sequence (spec/60_exceptions.md R220). -/

namespace Sys2Proof.Machine

/-! ## Giving the bus away -/

theorem step_give {s u : State} (hu : Undisturbed s) (hb : s.busState = .t4 ∨ s.busState = .idle) (hp : s.ackPhase = .none)
    (ho : handOver (poll (sampleTest s)) = some u) : step s = .next (enter .holdAck u) := by
  rw [step_boundary hu hb.symm hp, ho]

theorem Turn.given {s v t : State} (h : Turn s v t) (hb : t.busState = .holdAck) (hs : s.busState ≠ .holdAck) :
    atBoundary s.busState = true ∧ s.ackPhase = .none ∧ ∃ u, handOver v = some u ∧ t = enter .holdAck u := by
  cases h with
  | give hbs hp u ho => exact ⟨hbs, hp, u, ho, rfl⟩
  | hold hh => exact absurd hh hs
  | _ => simp at hb

/-- The bus is given away by a hand-over at the end of T4 or Idle, and in no other way. -/
theorem step_given {s t : State} (hi : Inv s) (h : step s = .next t) (hb : t.busState = .holdAck)
    (hs : s.busState ≠ .holdAck) : (s.busState = .t4 ∨ s.busState = .idle) ∧ s.ackPhase = .none ∧
      ∃ u, handOver (poll (sampleTest s)) = some u ∧ t = enter .holdAck u := by
  have hr : s.busState ≠ .inReset := by
    intro hr
    obtain ⟨-, rfl⟩ := step_leave h (by simp [hb]) hr
    simp at hb
  obtain ⟨hbs, hp, hu⟩ := (step_out hi h (by simp [hb]) hr).2.2.given hb hs
  exact ⟨(boundary_cases hbs).symm, hp, hu⟩

/-! ## HOLD -/

/-- Settles O38: a hand-over in minimum mode is HOLD's, and in HoldAck the level of HOLD decides. -/
theorem holdIsServed : Obligations.HoldIsServed := by
  refine ⟨fun s hi hu hm hb hp hh => ?_, fun s t hi hm h hb hs => ?_, fun s hi hu hm hb => ?_⟩
  · have ho : handOver (poll (sampleTest s)) = some { poll (sampleTest s) with holdGranted := true, curOp := none } := by
      simp [handOver, hm, hh]
    exact ⟨_, step_give hu hb hp ho, rfl, by simp, by simp⟩
  · obtain ⟨hbs, -, u, ho, -⟩ := step_given hi h hb hs
    refine ⟨hbs, ?_⟩
    rcases handOver_cases ho with ⟨-, hh, -⟩ | ⟨hm', -⟩ | ⟨hm', -⟩
    · simpa using hh
    · simp [hm] at hm'
    · simp [hm] at hm'
  · have hrel : released s = !s.now.hold := by simp [released, hm]
    have hstep := step_holdAck hu hb
    rw [hrel] at hstep
    cases hh : s.now.hold with
    | false =>
      rw [hh, if_pos (by simp)] at hstep
      refine ⟨_, hstep, fun _ => ⟨rfl, by simp, fun m hm => ?_⟩, nofun⟩
      have := ((holdAckFloats s _ hi hstep).2 m hm).1
      simpa using this
    | true =>
      rw [hh, if_neg (by simp)] at hstep
      have hg : s.holdGranted = true := by
        rcases (hi.given hb).2 with h | h
        · exact h
        · exact absurd (hi.minOnly hm).2.2.2 h
      exact ⟨_, hstep, nofun, fun _ => ⟨rfl, by simpa [applyExt] using hg⟩⟩

/-! ## Request and grant -/

/-- A request of line 0 is granted where the 8086 can grant. -/
theorem step_grant0 {s : State} (hu : Undisturbed s) (hm : s.mode = .max) (hb : s.busState = .t4 ∨ s.busState = .idle)
    (hp : s.ackPhase = .none) (hl : s.lockActive = false) (h0 : s.rqPending0 = true) :
    step s = .next (enter .holdAck
      { poll (sampleTest s) with granted := some .line0, rqPending0 := false, curOp := none }) :=
  step_give hu hb hp (by simp [handOver, hm, hl, h0])

/-- A request of line 1 is granted where the 8086 can grant and line 0 asks for nothing. -/
theorem step_grant1 {s : State} (hu : Undisturbed s) (hm : s.mode = .max) (hb : s.busState = .t4 ∨ s.busState = .idle)
    (hp : s.ackPhase = .none) (hl : s.lockActive = false) (h0 : s.rqPending0 = false) (h1 : s.rqPending1 = true) :
    step s = .next (enter .holdAck
      { poll (sampleTest s) with granted := some .line1, rqPending1 := false, curOp := none }) :=
  step_give hu hb hp (by simp [handOver, hm, hl, h0, h1])

/-- In HoldAck the bus stays away until its master releases it. -/
theorem step_stay {s : State} (hu : Undisturbed s) (hb : s.busState = .holdAck) (hr : released s = false) :
    step s = .next (enter .holdAck (applyExt (poll (sampleTest s)))) := by
  rw [step_holdAck hu hb, hr, if_neg (by simp)]

theorem step_takeBack {s : State} (hu : Undisturbed s) (hb : s.busState = .holdAck) (hr : released s = true) :
    step s =
      .next (enter .idle { takeBack (applyExt (poll (sampleTest s))) with curOp := none, idleDrive := none }) := by
  rw [step_holdAck hu hb, hr, if_pos rfl]

theorem released_line0 {s : State} (hm : s.mode = .max) (hg : s.granted = some .line0) : released s = s.now.rel0 := by
  simp [released, hm, hg]

theorem released_line1 {s : State} (hm : s.mode = .max) (hg : s.granted = some .line1) : released s = s.now.rel1 := by
  simp [released, hm, hg]

/-- Settles O39: line 0 is looked at first, and HoldAck leaves the request of line 1 as it is. -/
theorem line0BeforeLine1 : Obligations.Line0BeforeLine1 := by
  refine ⟨fun s hi hu hm hb hp hl h0 h1 => ⟨_, step_grant0 hu hm hb hp hl h0, rfl, by simp, ?_⟩,
    fun s hi hu hm hb hg h1 hr => ⟨_, step_stay hu hb ((released_line0 hm hg).trans hr), rfl, ?_, ?_⟩⟩
  · simp [enter_rqPending1, h1]
  · simpa [applyExt] using hg
  · simp [enter_rqPending1, applyExt, h1]

/-- What becomes of the requests of the two lines where the T-state `s` ends: they stay, or one is granted and taken off. -/
def RequestsMade (s v u : State) : Prop :=
  (u.rqPending0 = v.rqPending0 ∧ u.rqPending1 = v.rqPending1 ∧ (s.busState = .holdAck ∨ u.granted = v.granted)) ∨
  (s.busState ≠ .holdAck ∧ u.granted = some .line0 ∧ u.rqPending0 = false ∧ u.rqPending1 = v.rqPending1) ∨
  (s.busState ≠ .holdAck ∧ u.granted = some .line1 ∧ u.rqPending0 = v.rqPending0 ∧ u.rqPending1 = false)

theorem Started.requests {v u : State} {i : Instr} (h : Started v i u) :
    u.rqPending0 = v.rqPending0 ∧ u.rqPending1 = v.rqPending1 ∧ u.granted = v.granted ∧ u.lockHeld = v.lockHeld := by
  have := h.taken
  unfold Taken at this
  rw [this]
  exact ⟨rfl, rfl, rfl, rfl⟩

theorem Resting.requests {v u : State} {b : BusState} (h : Resting v b u) :
    u.rqPending0 = v.rqPending0 ∧ u.rqPending1 = v.rqPending1 ∧ u.granted = v.granted := by
  have := h.rested
  unfold Rested at this
  rw [this]
  exact ⟨rfl, rfl, rfl⟩

theorem Turn.requests {s v t : State} (h : Turn s v t) :
    ∃ b u, b ≠ .inReset ∧ t = enter b u ∧ RequestsMade s v u := by
  cases h with
  | t1 => exact ⟨_, _, by decide, rfl, .inl (by simp)⟩
  | fin i k => exact ⟨_, _, by decide, rfl, .inl (by cases k <;> simp [finishOf])⟩
  | t2 | wait | ack1 | ack2 | ackGo | ackGap => exact ⟨_, _, by decide, rfl, .inl (by simp)⟩
  | release hb | hold hb => exact ⟨_, _, by decide, rfl, .inl ⟨rfl, rfl, .inl hb⟩⟩
  | give hb hp u ho =>
    have hne : s.busState ≠ .holdAck := fun h => by simp [h, atBoundary] at hb
    refine ⟨_, _, by decide, rfl, ?_⟩
    rcases handOver_cases ho with ⟨-, -, rfl⟩ | ⟨-, -, -, rfl⟩ | ⟨-, -, -, -, rfl⟩
    · exact .inl ⟨rfl, rfl, .inr rfl⟩
    · exact .inr (.inl ⟨hne, rfl, rfl, rfl⟩)
    · exact .inr (.inr ⟨hne, rfl, rfl, rfl⟩)
  | rest hb hp ho u hn hr =>
    obtain ⟨h0, h1, hg⟩ := hr.requests
    exact ⟨_, _, by decide, rfl, .inl ⟨h0, h1, .inr hg⟩⟩
  | start i u k hb hp ho hn hs | startAck i u hb hp ho hn hs | startIdle i u x hb hp ho hn hs
  | startLane i u l hb hp ho hn hs =>
    obtain ⟨h0, h1, hg, -⟩ := hs.requests
    exact ⟨_, _, by decide, rfl, .inl ⟨h0, h1, .inr hg⟩⟩

/-- A step outside RESET enters its T-state from a state of the same mode, and its frame is the next one. -/
theorem step_requests {s t : State} (hi : Inv s) (h : step s = .next t) (ht : t.busState ≠ .inReset) :
    ∃ b u, b ≠ .inReset ∧ t = enter b u ∧ nextFrame u = t.now ∧ u.mode = s.mode ∧ RequestsMade s s u := by
  have hmode := (modeIsFixed.2 s t hi h).1
  by_cases hs : s.busState = .inReset
  · obtain ⟨-, rfl⟩ := step_leave h ht hs
    exact ⟨_, _, by decide, rfl, by simp, rfl, .inl ⟨rfl, rfl, .inr rfl⟩⟩
  · obtain ⟨b, u, hb, rfl, hr⟩ := (step_out hi h ht hs).2.2.requests
    exact ⟨b, u, hb, rfl, by simp, by simpa using hmode, by simpa [RequestsMade] using hr⟩

/-- Settles O40: a hand-over in maximum mode grants the line that asked, and a request is taken off by its own grant only. -/
theorem requestIsGranted : Obligations.RequestIsGranted := by
  refine ⟨fun s l hi hu hm hb hp hl h0 h1 => ?_, fun s t hi hm h hb hs => ?_,
    fun s hi hu hm hb => ⟨fun hg hr => ?_, fun hg hr => ?_, fun hg hr => ?_, fun hg hr => ?_⟩, fun s t hi hm h ht => ?_⟩
  · have hne : s.busState ≠ .holdAck := by rcases hb with hb | hb <;> simp [hb]
    cases l with
    | line0 =>
      have hstep := step_grant0 hu hm hb hp hl (by simpa using h0)
      refine ⟨_, hstep, rfl, by simp, fun m hmax => ?_⟩
      rw [(step_maxOf hi hstep hmax).2]
      simp [maxPins, hne]
    | line1 =>
      have hstep := step_grant1 hu hm hb hp hl (by simpa using h0) (by simpa using h1)
      refine ⟨_, hstep, rfl, by simp, fun m hmax => ?_⟩
      rw [(step_maxOf hi hstep hmax).2]
      simp [maxPins, hne]
  · obtain ⟨hbs, hp, u, ho, rfl⟩ := step_given hi h hb hs
    rcases handOver_cases ho with ⟨hm', -⟩ | ⟨-, hl, h0, rfl⟩ | ⟨-, hl, h0, h1, rfl⟩
    · simp [hm] at hm'
    · exact ⟨hbs, by simpa using hl, hp, .inl ⟨by simp, by simpa using h0⟩⟩
    · exact ⟨hbs, by simpa using hl, hp, .inr ⟨by simp, by simpa using h1, by simpa using h0⟩⟩
  · exact ⟨_, step_takeBack hu hb ((released_line0 hm hg).trans hr), rfl, by simp⟩
  · exact ⟨_, step_takeBack hu hb ((released_line1 hm hg).trans hr), rfl, by simp⟩
  · exact ⟨_, step_stay hu hb ((released_line0 hm hg).trans hr), rfl, by simpa [applyExt] using hg⟩
  · exact ⟨_, step_stay hu hb ((released_line1 hm hg).trans hr), rfl, by simpa [applyExt] using hg⟩
  · obtain ⟨b, u, hb, rfl, hf, hum, hr⟩ := step_requests hi h ht
    rw [enter_rqPending0 u hb, enter_rqPending1 u hb, hf, hum, hm, enter_granted]
    have howned := hi.owned
    rcases hr with ⟨h0, h1, hg⟩ | ⟨hs, hg, h0, h1⟩ | ⟨hs, hg, h0, h1⟩
    · by_cases hs : s.busState = .holdAck
      · simp [h0, h1, hs, or_comm]
      · have hg' := (hg.resolve_left hs).trans (howned hs).2
        simp [h0, h1, hg', or_comm]
    · simp [h0, h1, hg, hs, or_comm]
    · simp [h0, h1, hg, hs, or_comm]

/-! ## LOCK# -/

theorem Turn.of_tw {s v t : State} (h : Turn s v t) (hb : t.busState = .tw) : t = enter .tw v := by
  cases h with
  | wait => rfl
  | _ => simp at hb

/-- Only the request `unlock` ends a locked sequence. -/
theorem Rests.lockHeld {v w : State} (h : Rests v w) (hq : v.program.head? ≠ some .unlock) (hl : v.lockHeld = true) :
    w.lockHeld = true := by
  cases h with
  | unlocks rs he hw hp => simp [hp] at hq
  | locks => rfl
  | returned | resumes =>
    rw [resumeWait_eq]
    exact hl
  | nothing | entered | waits | returns => exact hl

theorem Turn.lockHeld {s v t : State} (h : Turn s v t) (hq : v.program.head? ≠ some .unlock) (hl : v.lockHeld = true) :
    t.lockHeld = true := by
  cases h with
  | fin i k => cases k <;> simpa [finishOf] using hl
  | give hb hp u ho =>
    rcases handOver_cases ho with ⟨-, -, rfl⟩ | ⟨-, -, -, rfl⟩ | ⟨-, -, -, -, rfl⟩ <;> simpa using hl
  | rest hb hp ho u hn hr =>
    obtain ⟨-, w, hw, rfl⟩ := nextOp_rests hn
    simpa using hw.lockHeld hq hl
  | start i u k hb hp ho hn hs | startAck i u hb hp ho hn hs | startIdle i u x hb hp ho hn hs
  | startLane i u l hb hp ho hn hs => simpa [hs.requests.2.2.2] using hl
  | _ => simpa [applyExt] using hl

/-- Settles O41: LOCK# shows the lock, which each T-state but TW takes anew, and under which no line is granted. -/
theorem lockHoldsOffGrants : Obligations.LockHoldsOffGrants := by
  refine ⟨fun s t m hi h hmax => ?_, fun s t hi hm hl h => ?_, fun s t hi hm h ho => ?_, fun s rest hat hm => ⟨fun hp => ?_, fun hp => ?_⟩⟩
  · have hlock : m.lockN = lowActive t.busState ((Config.freeWord t.draws).getLsbD 34) t.lockActive :=
      congrArg MaxPins.lockN (step_maxOf hi h hmax).2
    exact ⟨fun hb => hlock.trans (lowActive_of_ownsBus hb _ _), fun hb => by simp [hlock, hb]⟩
  · have hne : t.busState ≠ .holdAck := fun hb => by
      by_cases hs : s.busState = .holdAck
      · simp [(hi.given hs).1] at hl
      · simp [(requestIsGranted.2.1 s t hi hm h hb hs).2.1] at hl
    refine ⟨hne, fun ht => ?_⟩
    obtain ⟨h0, h1⟩ := requestIsGranted.2.2.2 s t hi hm h ht
    have hg := ((stepKeepsInvariant s t hi h).owned hne).2
    exact ⟨fun hr => h0.2 (.inr ⟨hr, by simp [hg]⟩), fun hr => h1.2 (.inr ⟨hr, by simp [hg]⟩)⟩
  · have ht : t.busState ≠ .inReset := by rintro hb; simp [hb, ownsBus] at ho
    have hh : t.busState ≠ .holdAck := by rintro hb; simp [hb, ownsBus] at ho
    have hnow := step_now hi h
    have hout : t.busState ≠ .tw → t.lockActive = ((nextFrame s).lock || t.lockHeld) := fun hw => by
      obtain ⟨b, u, hb, rfl, hf, hum, -⟩ := step_requests hi h ht
      rw [enter_busState] at hw hh
      rw [enter_lockActive u hb, if_neg hw, hf, hnow, hum, hm]
      simp [hh]
    have hin : t.busState = .tw → t.lockActive = s.lockActive := fun hw => by
      have hs : s.busState ≠ .inReset := fun hs => by
        obtain ⟨-, rfl⟩ := step_leave h ht hs
        simp at hw
      rw [(step_out hi h ht hs).2.2.of_tw hw]
      simp [enter_lockActive]
    refine ⟨hout, hin, fun hl hq => ?_⟩
    have hheld : t.lockHeld = true := by
      by_cases hs : s.busState = .inReset
      · obtain ⟨-, rfl⟩ := step_leave h ht hs
        simpa using hl
      · exact (step_out hi h ht hs).2.2.lockHeld (by simpa using hq) (by simpa using hl)
    refine ⟨hheld, ?_⟩
    by_cases hw : t.busState = .tw
    · rw [hin hw, hi.locked hm hl]
    · rw [hout hw, hheld, Bool.or_true]
  · exact ⟨_, step_atRequest hat hp, rfl, by simp, by simp [enter_lockActive, hm], by simp [enter_program, nextFrame]⟩
  · refine ⟨_, step_atRequest hat hp, rfl, by simp, ?_, by simp [enter_program, nextFrame]⟩
    simp [enter_lockActive, hm, nextFrame]

/-! ## Inside an acknowledge sequence -/

/-- Settles O42: a hand-over or another operation needs a T4 or Idle state outside the sequence. -/
theorem noGrantInsideAcknowledge : Obligations.NoGrantInsideAcknowledge := by
  intro s t hi hp h ht
  have hph := hi.phase
  have hfit : s.busState ≠ .inReset ∧ s.busState ≠ .holdAck := by
    constructor <;> intro hs <;> cases ha : s.ackPhase <;> simp_all [phaseFits, inCycle]
  cases (step_out hi h ht hfit.1).2.2 with
  | release hb | hold hb => exact absurd hb hfit.2
  | give hb hp' | rest hb hp' | start i u k hb hp' | startAck i u hb hp' | startIdle i u x hb hp'
  | startLane i u l hb hp' => exact absurd hp' hp
  | ackGo i hb hp' hc => exact ⟨by simp, by simpa using hc.symm⟩
  | fin i k => exact ⟨by simp, by simp⟩
  | t1 | t2 | wait | ack1 | ack2 | ackGap => exact ⟨by simp, by simp⟩

end Sys2Proof.Machine


/-! The interrupts (spec/60_exceptions.md sections 1 to 4): the non-maskable request (R224, R225) and INTR (R217, R218). -/

namespace Sys2Proof.Machine

/-! ## The look at the requests, when it is known what it finds -/

/-- A pending non-maskable request is taken where an interrupt can be served. -/
theorem looked_nmi {s : State} (h : Served s) (hn : s.nmiPending = true) : poll (sampleTest s) = { s with
    nmiPending := false, endPending := false, raised := s.raised ++ [Config.nmiType], testWait := false
    waitStack := (s.testWait && s.now.testN) :: s.waitStack, entrySteps := entryOwed s Config.nmiType } := by
  generalize hv : poll (sampleTest s) = v
  have hl := hv ▸ looked s
  cases hl with
  | none hno => rcases hno with hno | ⟨hno, -⟩ <;> simp_all
  | nmi => rfl
  | intr hs hno => simp [hn] at hno

/-- INTR is accepted where an interrupt can be served, IF = 1 and no non-maskable request is pending. -/
theorem looked_intr {s : State} (h : Served s) (hn : s.nmiPending = false) (hi : s.now.intr = true) (hf : ifOf s.fr = true) :
    (poll (sampleTest s)).ackPending = true := by
  generalize hv : poll (sampleTest s) = v
  have hl := hv ▸ looked s
  cases hl with
  | none hno => simp_all
  | nmi hs hno => simp [hn] at hno
  | intr => rfl

theorem Looked.not_served {s v : State} (h : Looked s v) (hs : ¬Served s) : v = { s with
    testWait := s.testWait && s.now.testN
    endPending := decide (s.busState = .holdAck) && (s.endPending || s.now.instrEnd) } := by
  cases h with
  | none => rfl
  | nmi h | intr h => exact absurd h hs

/-- A type is raised by the look only where the non-maskable request is taken. -/
theorem Looked.raised {s v : State} (h : Looked s v) :
    (v.raised = s.raised ∧ v.nmiPending = s.nmiPending) ∨
    (Served s ∧ s.nmiPending = true ∧ v.raised = s.raised ++ [Config.nmiType]) := by
  cases h with
  | none | intr => exact .inl ⟨rfl, rfl⟩
  | nmi h hn => exact .inr ⟨h, hn, rfl⟩

/-- An acknowledge is asked for by the look only where INTR is accepted. -/
theorem Looked.ackPending {s v : State} (h : Looked s v) : v.ackPending = s.ackPending ∨
    (Served s ∧ s.nmiPending = false ∧ s.now.intr = true ∧ ifOf s.fr = true) := by
  cases h with
  | none | nmi => exact .inl rfl
  | intr h hn hi hf => exact .inr ⟨h, hn, hi, hf⟩

theorem Served.endsWeak {s : State} (h : Served s) : s.now.instrEnd = true ∨ s.endPending = true ∨
    (s.testWait = true ∧ s.params.waitInterruptible = true) := by
  rcases h.ends with h | h | ⟨hw, hp, -⟩
  · exact .inl h
  · exact .inr (.inl h)
  · exact .inr (.inr ⟨hw, hp⟩)

/-! ## What the turn of a T-state does to the interrupt state -/

/-- What has become of the interrupt state before the T-state is entered: a type is raised by the end of the second acknowledge
cycle only, and the look alone takes a non-maskable request or an end of an instruction that was kept. -/
def RaisedMade (s v u : State) : Prop :=
  u.nmiPending = v.nmiPending ∧ u.now = v.now ∧ u.endPending = v.endPending ∧
    (u.raised = v.raised ∨ (s.ackPhase = .second ∧ u.ackPhase = .none ∧ u.raised = v.raised ++ [u.ackType]))

theorem Started.raisedMade {s v u : State} {i : Instr} (h : Started v i u) : RaisedMade s v u := by
  have := h.taken
  unfold Taken at this
  rw [this]
  exact ⟨rfl, rfl, rfl, .inl rfl⟩

theorem Resting.raisedMade {s v u : State} {b : BusState} (h : Resting v b u) : RaisedMade s v u := by
  have := h.rested
  unfold Rested at this
  rw [this]
  exact ⟨rfl, rfl, rfl, .inl rfl⟩

theorem Turn.raisedMade {s v t : State} (h : Turn s v t) :
    ∃ b u, b ≠ .inReset ∧ t = enter b u ∧ RaisedMade s v u := by
  cases h with
  | t1 => exact ⟨_, _, by decide, rfl, by rw [latchAddress_eq]; exact ⟨rfl, rfl, rfl, .inl rfl⟩⟩
  | fin i k => exact ⟨_, _, by decide, rfl, by cases k <;> exact ⟨rfl, rfl, rfl, .inl rfl⟩⟩
  | ack2 i hb hc hk hr hp => exact ⟨_, _, by decide, rfl, rfl, rfl, rfl, .inr ⟨hp, rfl, rfl⟩⟩
  | give hb hp u ho =>
    refine ⟨_, _, by decide, rfl, ?_⟩
    rcases handOver_cases ho with ⟨-, -, rfl⟩ | ⟨-, -, -, rfl⟩ | ⟨-, -, -, -, rfl⟩ <;> exact ⟨rfl, rfl, rfl, .inl rfl⟩
  | rest hb hp ho u hn hr => exact ⟨_, _, by decide, rfl, hr.raisedMade⟩
  | start i u k hb hp ho hn hs => exact ⟨_, _, by decide, rfl, hs.raisedMade⟩
  | startAck i u hb hp ho hn hs =>
    obtain ⟨h₁, h₂, h₃, h₄⟩ := hs.raisedMade (s := s)
    exact ⟨_, _, by decide, rfl, h₁, h₂, h₃, .inl (h₄.resolve_right (by simp [hp]))⟩
  | startIdle i u x hb hp ho hn hs => exact ⟨_, _, by decide, rfl, hs.raisedMade⟩
  | startLane i u l hb hp ho hn hs => exact ⟨_, _, by decide, rfl, hs.raisedMade⟩
  | t2 | wait | ack1 | release | hold | ackGo | ackGap => exact ⟨_, _, by decide, rfl, rfl, rfl, rfl, .inl rfl⟩

/-- A step outside RESET, seen at the interrupt state. -/
theorem step_raised {s t : State} (hi : Inv s) (h : step s = .next t) (ht : t.busState ≠ .inReset)
    (hs : s.busState ≠ .inReset) :
    t.nmiPending = ((poll (sampleTest s)).nmiPending || (t.now.nmi && !s.now.nmi)) ∧
    t.endPending = (poll (sampleTest s)).endPending ∧
    (t.raised = (poll (sampleTest s)).raised ∨
      (s.ackPhase = .second ∧ t.ackPhase = .none ∧ t.raised = (poll (sampleTest s)).raised ++ [t.ackType])) := by
  obtain ⟨b, u, hb, rfl, hn, hnow, he, hr⟩ := (step_out hi h ht hs).2.2.raisedMade
  refine ⟨?_, by simpa using he, by simpa using hr⟩
  rw [enter_nmiPending u hb, hn, hnow, enter_now, poll_sampleTest_now]

/-- Outside the second acknowledge cycle only the look raises a type. -/
theorem step_raised_noAck {s t : State} (hi : Inv s) (h : step s = .next t) (ht : t.busState ≠ .inReset)
    (hs : s.busState ≠ .inReset) (hp : s.ackPhase = .none) : t.raised = (poll (sampleTest s)).raised :=
  (step_raised hi h ht hs).2.2.resolve_right (by simp [hp])

/-- Settles O43: an edge is latched as the T-state begins, and only the look takes a request, which it raises. -/
theorem nmiIsRemembered : Obligations.NmiIsRemembered := by
  intro s t hi h ht hs
  obtain ⟨hn, -, -⟩ := step_raised hi h ht hs
  refine ⟨fun h0 h1 => by simp [hn, h0, h1], fun h1 h0 => ?_⟩
  rcases (looked s).raised with ⟨-, hk⟩ | ⟨hsv, -, hr⟩
  · simp [hn, hk, h1] at h0
  · rw [step_raised_noAck hi h ht hs hsv.noAck, hr]

/-! ## Which acknowledges are asked for -/

theorem Starts.ackPending {v u : State} {i : Instr} (h : Starts v i u) : u.ackPending = v.ackPending ∨
    (v.pendingOps = [] ∧ v.ackPending = true ∧ kindOf i = some .ack ∧ u.ackPending = false) := by
  cases h with
  | ack hp ha => exact .inr ⟨hp, ha, (ackOp_ack v).1, rfl⟩
  | rest | restart | entry | word | fetch | access => exact .inl rfl

theorem Rests.ackPending {v w : State} (h : Rests v w) : w.ackPending = v.ackPending := by
  cases h with
  | returned | resumes => rw [resumeWait_eq]
  | nothing | entered | waits | returns | locks | unlocks => rfl

/-- An acknowledge that is asked for stays so until the T1 of its first cycle, on a free bus. -/
theorem Turn.ackPending {s v t : State} (h : Turn s v t) : t.ackPending = v.ackPending ∨
    (atBoundary s.busState = true ∧ handOver v = none ∧ v.pendingOps = [] ∧ v.ackPending = true ∧
      t.busState = .t1 ∧ t.ackPhase = .first ∧ curKind t = some .ack) := by
  cases h with
  | fin i k => exact .inl (by cases k <;> simp [finishOf])
  | give hb hp u ho =>
    rcases handOver_cases ho with ⟨-, -, rfl⟩ | ⟨-, -, -, rfl⟩ | ⟨-, -, -, -, rfl⟩ <;> exact .inl (by simp)
  | rest hb hp ho u hn =>
    obtain ⟨-, w, hw, rfl⟩ := nextOp_rests hn
    exact .inl (by simpa using hw.ackPending)
  | start i u k hb hp ho hn hs hk hka =>
    have ha := (nextOp_starts hn).ackPending.resolve_right fun ⟨_, _, hk', _⟩ => hka (Option.some.inj (hk.symm.trans hk'))
    exact .inl (by simpa using ha)
  | startAck i u hb hp ho hn hs hk =>
    rcases (nextOp_starts hn).ackPending with ha | ⟨hq, ha, -, -⟩
    · exact .inl (by simpa using ha)
    · exact .inr ⟨hb, ho, hq, ha, rfl, by simp, by simpa [curKind] using hk⟩
  | startIdle i u x hb hp ho hn hs hk | startLane i u l hb hp ho hn hs hk =>
    have ha := (nextOp_starts hn).ackPending.resolve_right fun ⟨_, _, hk', _⟩ => by simp [hk] at hk'
    exact .inl (by simpa using ha)
  | t1 | t2 | wait | ack1 | ack2 | release | hold | ackGo | ackGap => exact .inl (by simp [applyExt])

/-! ## The non-maskable request is taken -/

/-- The end of a T-state inside a cycle leaves what is owed and the TEST# wait as the look has made them, unless it ends the second
acknowledge cycle. -/
theorem Turn.owed_inCycle {s v t : State} (h : Turn s v t) (hb : inCycle s.busState = true) (hp : s.ackPhase ≠ .second) :
    t.entrySteps = v.entrySteps ∧ t.testWait = v.testWait ∧ t.waitStack = v.waitStack := by
  have hout : atBoundary s.busState = true → False := fun h => by simp [boundary_not_inCycle h] at hb
  cases h with
  | fin i k => cases k <;> simp [finishOf]
  | t1 | t2 | wait | ack1 => simp
  | ack2 i hb' hc hk hr hp' => exact absurd hp' hp
  | release hb' | hold hb' => simp [hb', inCycle] at hb
  | give hb' | rest hb' | ackGo i hb' | ackGap i n hb' | start i u k hb' | startAck i u hb' | startIdle i u x hb'
  | startLane i u l hb' => exact (hout hb').elim

theorem Started.wait {v u : State} {i : Instr} (h : Started v i u) :
    u.testWait = v.testWait ∧ u.waitStack = v.waitStack := by
  have := h.taken
  unfold Taken at this
  rw [this]
  exact ⟨rfl, rfl⟩

/-- A free bus with steps of InterruptEntry to do leaves the TEST# wait as it is, but for the last step of the return. -/
theorem Rests.wait {v w : State} (h : Rests v w) {e : EntryStep} {r : List EntryStep} (he : v.entrySteps = e :: r)
    (hne : e ≠ .returned) : w.testWait = v.testWait ∧ w.waitStack = v.waitStack := by
  cases h with
  | nothing | entered => exact ⟨rfl, rfl⟩
  | returned r' he' =>
    rw [he] at he'
    exact absurd (List.cons.inj he').1 hne
  | waits rs he' | resumes rs he' | returns rs he' | locks rs he' | unlocks rs he' => simp [he] at he'

/-- Where the first push of InterruptEntry is owed, the TEST# wait stays as it is. -/
theorem Turn.wait_entry {s v t : State} (h : Turn s v t) (hp : s.ackPhase ≠ .second) {e : EntryStep} {r : List EntryStep}
    (he : v.entrySteps = e :: r) (hne : e ≠ .returned) : t.testWait = v.testWait ∧ t.waitStack = v.waitStack := by
  cases h with
  | fin i k => cases k <;> simp [finishOf]
  | ack2 i hb' hc hk hr hp' => exact absurd hp' hp
  | give hb hp u ho =>
    rcases handOver_cases ho with ⟨-, -, rfl⟩ | ⟨-, -, -, rfl⟩ | ⟨-, -, -, -, rfl⟩ <;> simp
  | rest hb hp ho u hn =>
    obtain ⟨-, w, hw, rfl⟩ := nextOp_rests hn
    simpa using hw.wait he hne
  | start i u k hb hp ho hn hs | startAck i u hb hp ho hn hs | startIdle i u x hb hp ho hn hs
  | startLane i u l hb hp ho hn hs => simpa using hs.wait
  | t1 | t2 | wait | ack1 | release | hold | ackGo | ackGap => simp [applyExt]

theorem entryOwed_sequence {s : State} (h : s.params.entry = .sequence) (type : Byte) :
    entryOwed s type = entrySequence type := by
  rw [entryOwed, if_pos h]

theorem entryOwed_core {s : State} (h : s.params.entry = .core) (type : Byte) : entryOwed s type = [] := by
  rw [entryOwed, if_neg (by simp [h])]

/-- A T-state of HoldAck leaves what is owed, and keeps an end of an instruction. -/
theorem step_holdAck_owed {s t : State} (hi : Inv s) (h : step s = .next t) (ht : t.busState ≠ .inReset)
    (hb : s.busState = .holdAck) : (s.nmiPending = true → t.nmiPending = true) ∧ t.raised = s.raised ∧
      t.ackPending = s.ackPending ∧ t.entrySteps = s.entrySteps ∧
      (t.endPending = true ↔ s.now.instrEnd = true ∨ s.endPending = true) := by
  have hs : s.busState ≠ .inReset := by simp [hb]
  have hv := (looked s).not_served fun h => h.owned hb
  obtain ⟨hn, he, hr⟩ := step_raised hi h ht hs
  have hph : s.ackPhase ≠ .second := fun hp => by simpa [phaseFits, hp, hb, inCycle] using hi.phase
  rw [hv] at hn he hr
  refine ⟨fun h1 => by simp [hn, h1], hr.resolve_right fun hp => hph hp.1, ?_, ?_, by simp [he, hb, or_comm]⟩
  · have hstep := (step_out hi h ht hs).2.2
    rw [hv] at hstep
    exact hstep.ackPending.resolve_right fun hb' => by simp [hb, atBoundary] at hb'
  · have hstep := (step_out hi h ht hs).2.2
    rw [hv] at hstep
    cases hstep with
    | release | hold => simp [applyExt]
    | t1 i k hb' | t2 i k hb' | wait i k hb' | fin i k hb' | ack1 i hb' | ack2 i hb' => simp [hb] at hb'
    | give hb' | rest hb' | ackGo i hb' | ackGap i n hb' | start i u k hb' | startAck i u hb' | startIdle i u x hb'
    | startLane i u l hb' => simp [hb, atBoundary] at hb'

/-- Settles O44: the look takes the request where an interrupt can be served, and nothing else raises a type but the end of the
second acknowledge cycle. -/
theorem nmiIsTaken : Obligations.NmiIsTaken := by
  refine ⟨fun s t hi h ht hs hn hend hb hp ha he hr => ?_, fun s t hi h ht hb => step_holdAck_owed hi h ht hb,
    fun s t hi h ht hs hch => ?_⟩
  · have hserved : Served s := ⟨hend, hb, hp, ha, he, hr⟩
    have hv := looked_nmi hserved hn
    have hturn := (step_out hi h ht hs).2.2
    obtain ⟨hnmi, -, -⟩ := step_raised hi h ht hs
    have hraised := step_raised_noAck hi h ht hs hp
    rw [hv] at hturn hnmi hraised
    have hsec : s.ackPhase ≠ .second := by simp [hp]
    refine ⟨hraised, ?_, fun hc hq => ?_, fun hc hq => ?_, fun hor => ?_, by simp [hnmi, and_comm]⟩
    · exact (hturn.ackPending.resolve_right fun hx => by simp [ha] at hx).trans ha
    · exact (hturn.owed_inCycle hc hsec).1.trans (entryOwed_sequence hq _)
    · exact (hturn.owed_inCycle hc hsec).1.trans (entryOwed_core hq _)
    · rcases hor with hc | hq
      · exact (hturn.owed_inCycle hc hsec).2
      · exact hturn.wait_entry hsec (entryOwed_sequence hq Config.nmiType) (by decide)
  · obtain ⟨hnmi, -, hraised⟩ := step_raised hi h ht hs
    rcases (looked s).raised with ⟨hr, hn⟩ | ⟨hsv, hn, hr⟩
    · rw [hr] at hraised
      refine .inl (hraised.resolve_left fun heq => ?_)
      rcases hch with ⟨h1, h0⟩ | hne
      · simp [hnmi, hn, h1] at h0
      · exact hne heq
    · exact .inr ⟨hn, (step_raised_noAck hi h ht hs hsv.noAck).trans hr, hsv.endsWeak, hsv.owned, hsv.noAck, hsv.noAckPending,
        hsv.noEntry, hsv.noRestart⟩

/-! ## INTR is accepted, and acknowledged -/

/-- Of the operations that the core has not asked for itself only the acknowledge that is asked for is one. -/
theorem Starts.ack_asked {v u : State} {i : Instr} (h : Starts v i u) (hk : kindOf i = some .ack) (hno : NoAckAsked v) :
    v.ackPending = true := by
  cases h with
  | rest it l hp => exact absurd hk (hno.rest it l hp)
  | restart => simp [kindOf_fetchOp] at hk
  | ack hp ha => exact ha
  | entry e r it l cs ip fr sp hp he ho hk' => rcases hk' with hk' | hk' <;> simp [hk'] at hk
  | word f w i rs hp he hw hq hd => exact absurd hk (hno.head f w rs i hq hd)
  | fetch => simp [kindOf_fetchOp] at hk
  | access q rs it l k hp he hw hq hk' ht =>
    rw [hk'] at hk
    cases hk
    simp [Kind.transfers, Kind.reads, Kind.writes] at ht

/-- An acknowledge sequence begins where one is asked for, by the look or by the core. -/
theorem Turn.ackPhase {s v t : State} (h : Turn s v t) (hv : v.ackPhase = s.ackPhase) (hp : s.ackPhase = .none)
    (ht : t.ackPhase ≠ .none) (hno : NoAckAsked v) : v.ackPending = true := by
  have hvp := hv.trans hp
  cases h with
  | startAck i u hb hp' ho hn hs hk => exact (nextOp_starts hn).ack_asked hk hno
  | fin i k => cases k <;> simp [finishOf, hvp] at ht
  | ack2 | ack1 => simp_all
  | ackGo i hb hp' | ackGap i n hb hp' => simp [hp] at hp'
  | give hb hp' u ho =>
    rcases handOver_cases ho with ⟨-, -, rfl⟩ | ⟨-, -, -, rfl⟩ | ⟨-, -, -, -, rfl⟩ <;> simp [hvp] at ht
  | rest hb hp' ho u hn hr =>
    have := hr.rested
    unfold Rested at this
    rw [this] at ht
    simp [hvp] at ht
  | start i u k hb hp' ho hn hs | startIdle i u x hb hp' ho hn hs | startLane i u l hb hp' ho hn hs =>
    have := hs.taken
    unfold Taken at this
    rw [this] at ht
    simp [hvp] at ht
  | t1 | t2 | wait | release | hold => simp [applyExt, hvp] at ht

/-- On a free bus an acknowledge that is asked for opens its first cycle. -/
theorem step_startAck {s : State} (hu : Undisturbed s) (hb : s.busState = .t4 ∨ s.busState = .idle) (ho : handOver s = none)
    (hp : s.ackPhase = .none) (hq : s.pendingOps = []) (hr : s.restart = false)
    (ha : (poll (sampleTest s)).ackPending = true) :
    ∃ t, step s = .next t ∧ t.busState = .t1 ∧ t.ackPhase = .first ∧ curKind t = some .ack ∧ t.ackPending = false ∧
      t.program = s.program ++ (nextFrame s).requests := by
  have hov : handOver (poll (sampleTest s)) = none := by
    have := handOver_polled (polled_poll s)
    rw [ho] at this
    simpa using this.symm
  have hnext : nextOp (poll (sampleTest s)) =
      .run (ackOp (poll (sampleTest s))) { poll (sampleTest s) with ackPending := false } := by
    simp [nextOp, hq, hr, ha]
  obtain ⟨hk, hm⟩ := ackOp_ack (poll (sampleTest s))
  have hstep : step s = .next (enter .t1 { loadOp (ackOp (poll (sampleTest s)))
      { poll (sampleTest s) with ackPending := false } with ackPhase := .first }) := by
    rw [step_boundary hu hb.symm hp, hov, hnext]
    exact exec_ackFirst hk hm (by simpa using hb.symm) (by simpa using hp)
  refine ⟨_, hstep, rfl, by simp, by simpa [curKind] using hk, by simp, ?_⟩
  rw [enter_program _ (by decide)]
  exact congrArg₂ _ (by simp) (congrArg Frame.requests (nextFrame_poll_sampleTest s))

theorem NoAckAsked.polled {s : State} (h : NoAckAsked s) : NoAckAsked (poll (sampleTest s)) :=
  ⟨by simpa using h.rest, by simpa using h.head⟩

/-- Settles O45: only the look asks for an acknowledge, and the free bus, or nothing, takes that off. -/
theorem intrIsServed : Obligations.IntrIsServed := by
  refine ⟨fun s t hi h ht hs ha hch => ?_, fun s hi hu hb ho hp ha he hr hq hn hend hin hif => ?_,
    fun s t hi h ht hs hb hp ha he hr hn hend hin hif hwait => ?_, fun s t hi h ht hs ha => ?_,
    fun s hi hu hb ho hp ha hq hr => ?_⟩
  · have hturn := (step_out hi h ht hs).2.2
    have hv : (poll (sampleTest s)).ackPending = true := by
      rcases hch with ht' | ⟨ht', hp, hno⟩
      · rcases hturn.ackPending with heq | ⟨-, -, -, hv, -⟩
        · exact heq.symm.trans ht'
        · exact hv
      · exact hturn.ackPhase (by simp) hp ht' hno.polled
    rcases (looked s).ackPending with heq | ⟨hsv, hn, hin, hif⟩
    · simp [heq, ha] at hv
    · exact ⟨hin, hif, hn, hsv.owned, hsv.endsWeak, hsv.noAck, hsv.noEntry, hsv.noRestart⟩
  · have hserved : Served s := ⟨hend, by rcases hb with hb | hb <;> simp [hb], hp, ha, he, hr⟩
    obtain ⟨t, h, hb', hp', hk, -, hprog⟩ := step_startAck hu hb ho hp hq hr (looked_intr hserved hn hin hif)
    exact ⟨t, h, hb', hp', hk, hprog⟩
  · have hv := looked_intr ⟨hend, hb, hp, ha, he, hr⟩ hn hin hif
    refine ((step_out hi h ht hs).2.2.ackPending.resolve_right ?_).trans hv
    rintro ⟨hbs, hov, hq, -⟩
    rcases hwait with hc | ho | hq'
    · simp [boundary_not_inCycle hbs] at hc
    · have := handOver_polled (polled_poll s)
      rw [hov] at this
      exact ho (by simpa using this)
    · exact hq' (by simpa using hq)
  · have hv : (poll (sampleTest s)).ackPending = true := by
      rw [(looked s).not_served fun h => by simp [h.noAckPending] at ha]
      exact ha
    rcases (step_out hi h ht hs).2.2.ackPending with heq | ⟨-, -, -, -, hb, hp, hk⟩
    · exact .inl (heq.trans hv)
    · exact .inr ⟨hb, hp, hk⟩
  · refine step_startAck hu hb ho hp hq hr ?_
    rw [(looked s).not_served fun h => by simp [h.noAckPending] at ha]
    exact ha

end Sys2Proof.Machine


/-! The default InterruptEntry and the return (spec/60_exceptions.md R228, R229; log 14), one step at a time. -/

namespace Sys2Proof.Machine

/-! ## IF and TF -/

theorem ifOf_clearIfTf (v : Word) : ifOf (clearIfTf v) = false := by
  simp [ifOf, clearIfTf]

theorem clearIfTf_tf (v : Word) : (clearIfTf v).getLsbD 8 = false := by
  simp [clearIfTf]

/-- No other bit of FR is cleared. -/
theorem clearIfTf_other (v : Word) {j : Nat} (h8 : j ≠ 8) (h9 : j ≠ 9) : (clearIfTf v).getLsbD j = v.getLsbD j := by
  by_cases hj : j < 16
  · rw [clearIfTf, BitVec.getLsbD_and]
    interval_cases j <;> simp at h8 h9 ⊢
  · rw [BitVec.getLsbD_of_ge _ _ (by omega), BitVec.getLsbD_of_ge _ _ (by omega)]

/-! ## A step that moves a word -/

theorem enter_plain_readReg {b : BusState} {s : State} (hf : plainFrame (nextFrame s) = true) (x : Reg) :
    readReg (enter b s) x = readReg s x := by
  cases x with
  | cs => exact enter_plain_cs hf
  | ds => exact enter_plain_ds hf
  | ss => exact enter_plain_ss hf
  | es => exact enter_plain_es hf
  | ip => exact enter_plain_ip hf
  | fr => exact enter_plain_fr hf
  | sp => exact enter_plain_sp hf

/-- From `q` the cycle of the first of `items` has opened; what is owed and the registers are those of `q`. -/
structure Opened (items : List Item) (q t : State) : Prop where
  opens : Opens items t
  owed : t.entrySteps = q.entrySteps
  regs : ∀ x, readReg t x = readReg q x

theorem opened_access {q : State} {items : List Item} {k : Kind} {a next : Addr} {odd : Bool} {w : Width} {g : SegUse} {v : Word}
    (h : ∃ it l, AccessItems q.mode items k a next odd w g v it l) (hka : k ≠ .ack)
    (hb : q.busState = .idle ∨ q.busState = .t4) (hf : plainFrame (nextFrame q) = true) :
    ∃ t, runPlan (planItems items q) = .next t ∧ Opened items q t := by
  obtain ⟨it, l, h⟩ := h
  refine ⟨_, run_planItems h.items h.kind hka h.wired (fun _ => h.laned) hb, ⟨it, l, h.items, rfl, ?_, ?_, ?_⟩, ?_, fun x => ?_⟩
  · simp
  · simp
  · simp
  · simp
  · refine (enter_plain_readReg ?_ x).trans ?_
    · exact hf
    · cases x <;> rfl

theorem opened_memRead {q : State} (a : Addr) (g : Seg) (hb : q.busState = .idle ∨ q.busState = .t4)
    (hf : plainFrame (nextFrame q) = true) : ∃ t, runPlan (planItems (memReadItems q.mode a .word g) q) = .next t ∧
      Opened (memReadItems q.mode a .word g) q t :=
  opened_access (memReadItems_access q.mode a .word g 0) (by decide) hb hf

theorem opened_memWrite {q : State} (a : Addr) (g : Seg) (v : Word) (hb : q.busState = .idle ∨ q.busState = .t4)
    (hf : plainFrame (nextFrame q) = true) : ∃ t, runPlan (planItems (memWriteItems q.mode a .word g v) q) = .next t ∧
      Opened (memWriteItems q.mode a .word g v) q t :=
  opened_access (memWriteItems_access q.mode a .word g v) (by decide) hb hf

section
variable {s : State} (hb : s.busState = .idle ∨ s.busState = .t4) (hf : plainFrame (nextFrame s) = true)
include hb hf

theorem runPlan_planPush (v : Word) : ∃ t, runPlan (planPush v s) = .next t ∧
    Opened (memWriteItems s.mode (physAddr s.ss (s.sp - 2)) .word .ss v) { s with sp := s.sp - 2 } t :=
  opened_memWrite (q := { s with sp := s.sp - 2 }) _ _ _ hb hf

theorem runPlan_planPop : ∃ t, runPlan (planPop s) = .next t ∧
    Opened (memReadItems s.mode (physAddr s.ss s.sp) .word .ss) { s with sp := s.sp + 2 } t :=
  opened_memRead (q := { s with sp := s.sp + 2 }) _ _ hb hf

theorem runPlan_planVector (type : Byte) (upper : Bool) : ∃ t, runPlan (planVector type upper s) = .next t ∧
    Opened (memReadItems s.mode (type.setWidth 20 * 4 + (if upper then 2 else 0)) .word .cs) s t :=
  opened_memRead _ _ hb hf

end

/-! ## A step that ends in an Idle state -/

/-- From `q` an Idle state has come; what is owed, the registers, the queue and the TEST# wait are those of `q`. -/
structure Idled (q t : State) : Prop where
  idle : t.busState = .idle
  owed : t.entrySteps = q.entrySteps
  queue : t.queue = q.queue
  testWait : t.testWait = q.testWait
  waitStack : t.waitStack = q.waitStack
  regs : ∀ x, readReg t x = readReg q x

theorem runPlan_planIdle {q : State} (hf : plainFrame (nextFrame q) = true) :
    ∃ t, runPlan (planIdle q) = .next t ∧ Idled q t := by
  refine ⟨_, rfl, rfl, by simp, enter_plain_queue hf, by simp, by simp, fun x => ?_⟩
  refine (enter_plain_readReg ?_ x).trans ?_
  · exact hf
  · cases x <;> rfl

theorem resumeWait_readReg (s : State) (x : Reg) : readReg (resumeWait s) x = readReg s x := by
  rw [resumeWait_eq]
  cases x <;> rfl

/-- The wait that the interrupt had left goes on. -/
theorem resumeWait_cons {s : State} {b : Bool} {l : List Bool} (h : s.waitStack = b :: l) :
    resumeWait s = { s with testWait := b, waitStack := l } := by
  simp [resumeWait, h]

/-! ## The steps -/

/-- The state with the registers written that a step of InterruptEntry or of the return writes. -/
def EntryStep.written (e : EntryStep) (s : State) : State :=
  match e with
  | .pushFr => { s with sp := s.sp - 2 }
  | .pushCs => { s with sp := s.sp - 2, fr := clearIfTf s.fr }
  | .pushIp => { s with sp := s.sp - 2 }
  | .readIp _ => s
  | .readCs _ => { s with ip := s.result.wordOr s.ip }
  | .entered => { s with cs := s.result.wordOr s.cs }
  | .popIp => { s with sp := s.sp + 2 }
  | .popCs => { s with sp := s.sp + 2, ip := s.result.wordOr s.ip }
  | .popFr => { s with sp := s.sp + 2, cs := s.result.wordOr s.cs }
  | .returned => { s with fr := s.result.wordOr s.fr }

/-- The bus operations of a step; the last step of InterruptEntry and that of the return have none. -/
def EntryStep.items (e : EntryStep) (s : State) : List Item :=
  match e with
  | .pushFr => memWriteItems s.mode (physAddr s.ss (s.sp - 2)) .word .ss s.fr
  | .pushCs => memWriteItems s.mode (physAddr s.ss (s.sp - 2)) .word .ss s.cs
  | .pushIp => memWriteItems s.mode (physAddr s.ss (s.sp - 2)) .word .ss s.ip
  | .readIp n => memReadItems s.mode (n.setWidth 20 * 4 + 0) .word .cs
  | .readCs n => memReadItems s.mode (n.setWidth 20 * 4 + 2) .word .cs
  | .popIp => memReadItems s.mode (physAddr s.ss s.sp) .word .ss
  | .popCs => memReadItems s.mode (physAddr s.ss s.sp) .word .ss
  | .popFr => memReadItems s.mode (physAddr s.ss s.sp) .word .ss
  | .entered => []
  | .returned => []

/-- A step writes no other register than its own. -/
theorem EntryStep.written_keeps {e : EntryStep} {x : Reg} (h : x ∉ e.writes) (s : State) :
    readReg (e.written s) x = readReg s x := by
  cases e <;> cases x <;> simp_all [EntryStep.writes, EntryStep.written, readReg]

/-- What the step `e` has made of `s`, with the steps `r` after it. -/
structure EntryMade (s : State) (e : EntryStep) (r : List EntryStep) (t : State) : Prop where
  owed : t.entrySteps = r
  regs : ∀ x, readReg t x = readReg (e.written s) x
  opens : e ≠ .entered → e ≠ .returned → Opens (e.items s) t
  ends : e = .entered ∨ e = .returned → t.queue = [] ∧ t.busState = .idle
  resumes : ∀ b l, e = .returned → s.waitStack = b :: l → t.testWait = b ∧ t.waitStack = l

theorem Opened.entryMade {s q t : State} {e : EntryStep} (h : Opened (e.items s) q t) (hne : e ≠ .entered ∧ e ≠ .returned)
    (hr : ∀ x, readReg q x = readReg (e.written s) x) : EntryMade s e q.entrySteps t :=
  ⟨h.owed, fun x => (h.regs x).trans (hr x), fun _ _ => h.opens, fun h => (h.elim hne.1 hne.2).elim,
    fun _ _ h => (hne.2 h).elim⟩

/-- One step of InterruptEntry or of the return on a free bus. -/
theorem step_entryMade {s : State} {e : EntryStep} {r : List EntryStep} (hfree : BusFree s) (he : s.entrySteps = e :: r)
    (hf : plainFrame (nextFrame s) = true) : ∃ t, step s = .next t ∧ EntryMade s e r t := by
  rw [step_atEntry hfree he]
  have hb := hfree.boundary
  let p : State := { s with entrySteps := r, endPending := false }
  cases e with
  | pushFr =>
    obtain ⟨t, ht, ho⟩ := runPlan_planPush (s := p) hb hf s.fr
    exact ⟨t, ht, ho.entryMade (s := s) (e := .pushFr) (by simp) fun x => by cases x <;> rfl⟩
  | pushCs =>
    obtain ⟨t, ht, ho⟩ := runPlan_planPush (s := { p with fr := clearIfTf s.fr }) hb hf s.cs
    exact ⟨t, ht, ho.entryMade (s := s) (e := .pushCs) (by simp) fun x => by cases x <;> rfl⟩
  | pushIp =>
    obtain ⟨t, ht, ho⟩ := runPlan_planPush (s := p) hb hf s.ip
    exact ⟨t, ht, ho.entryMade (s := s) (e := .pushIp) (by simp) fun x => by cases x <;> rfl⟩
  | readIp n =>
    obtain ⟨t, ht, ho⟩ := runPlan_planVector (s := p) hb hf n false
    exact ⟨t, ht, ho.entryMade (s := s) (e := .readIp n) (by simp) fun x => by cases x <;> rfl⟩
  | readCs n =>
    obtain ⟨t, ht, ho⟩ := runPlan_planVector (s := { p with ip := s.result.wordOr s.ip }) hb hf n true
    exact ⟨t, ht, ho.entryMade (s := s) (e := .readCs n) (by simp) fun x => by cases x <;> rfl⟩
  | popIp =>
    obtain ⟨t, ht, ho⟩ := runPlan_planPop (s := p) hb hf
    exact ⟨t, ht, ho.entryMade (s := s) (e := .popIp) (by simp) fun x => by cases x <;> rfl⟩
  | popCs =>
    obtain ⟨t, ht, ho⟩ := runPlan_planPop (s := { p with ip := s.result.wordOr s.ip }) hb hf
    exact ⟨t, ht, ho.entryMade (s := s) (e := .popCs) (by simp) fun x => by cases x <;> rfl⟩
  | popFr =>
    obtain ⟨t, ht, ho⟩ := runPlan_planPop (s := { p with cs := s.result.wordOr s.cs }) hb hf
    exact ⟨t, ht, ho.entryMade (s := s) (e := .popFr) (by simp) fun x => by cases x <;> rfl⟩
  | entered =>
    obtain ⟨t, ht, hid⟩ := runPlan_planIdle (q := { p with cs := s.result.wordOr s.cs, queue := [], qAct := .emptied }) hf
    exact ⟨t, ht, hid.owed, fun x => (hid.regs x).trans (by cases x <;> rfl), by simp, fun _ => ⟨hid.queue, hid.idle⟩, nofun⟩
  | returned =>
    let q : State := { p with fr := s.result.wordOr s.fr, queue := [], qAct := .emptied }
    have hq := resumeWait_eq q
    obtain ⟨t, ht, hid⟩ := runPlan_planIdle (q := resumeWait q) (by rw [hq]; exact hf)
    refine ⟨t, ht, hid.owed.trans (by rw [hq]), fun x => (hid.regs x).trans ((resumeWait_readReg q x).trans ?_), by simp,
      fun _ => ⟨hid.queue.trans (by rw [hq]), hid.idle⟩, fun b l _ hw => ?_⟩
    · cases x <;> rfl
    · rw [hid.testWait, hid.waitStack, resumeWait_cons (s := q) hw]
      exact ⟨rfl, rfl⟩

/-- Settles O47: each step is a push, a pop, a read of the vector or an Idle state, with its registers written before it. -/
theorem interruptEntry : Obligations.InterruptEntry := by
  refine ⟨fun s e r hfree he hf => ?_, fun s rest hat hp => ?_⟩
  · obtain ⟨t, ht, howed, hregs, hopens, hends, hresumes⟩ := step_entryMade hfree he hf
    refine ⟨t, ht, howed, ?_, ?_, ?_, ?_, ?_, fun v hv => ⟨?_, ?_, ?_⟩,
      fun x hx => (hregs x).trans (EntryStep.written_keeps hx s), hends, hresumes⟩
    · rintro v (⟨rfl, rfl⟩ | ⟨rfl, rfl⟩ | ⟨rfl, rfl⟩) <;> exact ⟨hregs .sp, hopens (by simp) (by simp)⟩
    · rintro rfl
      have hfr : t.fr = clearIfTf s.fr := hregs .fr
      rw [hfr]
      exact ⟨ifOf_clearIfTf _, clearIfTf_tf _, fun j => clearIfTf_other _⟩
    · rintro n rfl
      simpa [EntryStep.items] using hopens (by simp) (by simp)
    · rintro n rfl
      exact hopens (by simp) (by simp)
    · rintro (rfl | rfl | rfl) <;> exact ⟨hregs .sp, hopens (by simp) (by simp)⟩
    · have hw : s.result.wordOr s.ip = v := by rw [hv]; rfl
      rintro (⟨n, rfl⟩ | rfl) <;> exact (hregs .ip).trans hw
    · have hw : s.result.wordOr s.cs = v := by rw [hv]; rfl
      rintro (rfl | rfl) <;> exact (hregs .cs).trans hw
    · rintro rfl
      have hw : s.result.wordOr s.fr = v := by rw [hv]; rfl
      exact (hregs .fr).trans hw
  · rw [step_atRequest hat hp]
    let q : State := { s with program := rest, endPending := false }
    cases hc : s.params.entry with
    | core =>
      have hplan : planReq .iret q { s with endPending := false } = planIdle (resumeWait q) := by
        simp [planReq, hc]
      rw [hplan]
      have hq := resumeWait_eq q
      refine ⟨_, rfl, rfl, ?_, nofun, fun _ => ⟨?_, fun b l hw => ?_⟩⟩
      · rw [hq, enter_program _ (by decide)]
        rfl
      · rw [hq]
        simpa using hat.noEntry
      · rw [resumeWait_cons (s := q) hw]
        simp
    | sequence =>
      have hplan : planReq .iret q { s with endPending := false } = planIdle { q with entrySteps := returnSequence } := by
        simp [planReq, hc]
      rw [hplan]
      refine ⟨_, rfl, rfl, ?_, fun _ => ?_, nofun⟩
      · rw [enter_program _ (by decide)]
        rfl
      · simp [returnSequence, q]

end Sys2Proof.Machine


/-! The wait that TEST# ends (spec/43_common_control.md R207; spec/92_eei_decisions.md D35; log 16). -/

namespace Sys2Proof.Machine

/-! ## TEST# = 0 -/

theorem outsideDone_testWait (s : State) (b : Bool) :
    outsideDone { s with testWait := b } = { outsideDone s with testWait := b } := by
  unfold outsideDone latchAddress applyExt
  dsimp only
  split
  · split <;> rfl
  · rfl
  · rfl

/-- Where TEST# = 0 is sampled the step is as it would be without a wait. -/
theorem step_noWait {s : State} (hb : s.busState ≠ .inReset) (ht : s.now.testN = false) :
    step s = step { s with testWait := false } := by
  have hsample : sampleTest { s with testWait := false } = sampleTest s := by
    simp [sampleTest_eq, ht]
  have hreset : resetInternal (outsideDone { s with testWait := false }) = resetInternal (outsideDone s) := by
    rw [outsideDone_testWait]
    rfl
  have hnow : planNow { s with testWait := false } = planNow s := by
    rw [planNow, planNow, hsample]
    simp [hb]
  unfold step planStep
  rw [hreset, hnow]
  rfl

/-! ## What ends a wait, and what starts one -/

/-- The look ends a wait where TEST# = 0 or an interrupt is taken. -/
theorem Looked.testWait {s v : State} (h : Looked s v) :
    (v.testWait = (s.testWait && s.now.testN) ∧ v.raised = s.raised ∧ v.entrySteps = s.entrySteps) ∨
    (v.testWait = false ∧ v.raised ≠ s.raised ∧ v.entrySteps = entryOwed s Config.nmiType) := by
  cases h with
  | none | intr => exact .inl ⟨rfl, rfl, rfl⟩
  | nmi => exact .inr ⟨rfl, by simp, rfl⟩

theorem entryOwed_head (s : State) (type : Byte) : (entryOwed s type).head? ≠ some .returned := by
  unfold entryOwed
  split <;> simp [entrySequence]

/-- A free bus starts or resumes a wait at the core's request only, or at the end of the return. -/
theorem Rests.noWait {v w : State} (h : Rests v w) (hr : v.entrySteps.head? ≠ some .returned)
    (hq : v.program.head? ≠ some .testWait) (hi : v.program.head? ≠ some .iret) : w.testWait = v.testWait := by
  cases h with
  | returned r he => simp [he] at hr
  | waits rs he hw hp => simp [hp] at hq
  | resumes rs he hw hp => simp [hp] at hi
  | nothing | entered | returns | locks | unlocks => rfl

/-- In a wait a free bus with no step of InterruptEntry or of the return to do does nothing. -/
theorem Rests.inWait {v w : State} (h : Rests v w) (he : v.entrySteps = []) (hw : v.testWait = true) : w = v := by
  cases h with
  | nothing => rfl
  | entered r he' | returned r he' => simp [he] at he'
  | waits rs he hw' | resumes rs he hw' | returns rs he hw' | locks rs he hw' | unlocks rs he hw' => simp [hw] at hw'

/-- A wait that is on stays on where nothing is raised, and one that is off stays off, but for what a free bus does that starts no
operation. -/
theorem Turn.testWait {s v t : State} (h : Turn s v t) :
    t.testWait = v.testWait ∨ (t.testWait = false ∧ s.ackPhase = .second ∧ t.raised = v.raised ++ [t.ackType]) ∨
    (v.pendingOps = [] ∧ ∃ w, Rests v w ∧ t.testWait = w.testWait) := by
  cases h with
  | fin i k => cases k <;> exact .inl (by simp [finishOf])
  | ack2 i hb hc hk hr hp => exact .inr (.inl ⟨by simp, hp, by simp⟩)
  | give hb hp u ho =>
    rcases handOver_cases ho with ⟨-, -, rfl⟩ | ⟨-, -, -, rfl⟩ | ⟨-, -, -, -, rfl⟩ <;> exact .inl (by simp)
  | rest hb hp ho u hn =>
    obtain ⟨hpe, w, hw, rfl⟩ := nextOp_rests hn
    exact .inr (.inr ⟨hpe, w, hw, by simp⟩)
  | start i u k hb hp ho hn hs | startAck i u hb hp ho hn hs | startIdle i u x hb hp ho hn hs
  | startLane i u l hb hp ho hn hs => exact .inl (by simpa using hs.wait.1)
  | t1 | t2 | wait | ack1 | release | hold | ackGo | ackGap => exact .inl (by simp [applyExt])

/-- In a wait only a step that is owed or an acknowledge that is asked for starts an operation. -/
theorem Starts.inWait {v u : State} {i : Instr} (h : Starts v i u) (hp : v.pendingOps = []) (hr : v.restart = false)
    (he : v.entrySteps = []) (hw : v.testWait = true) : kindOf i = some .ack := by
  cases h with
  | rest it l hp' => simp [hp] at hp'
  | restart hp hr' => simp [hr] at hr'
  | ack => exact (ackOp_ack v).1
  | entry e r it l cs ip fr sp hp he' => simp [he] at he'
  | word f w i rs hp he hw' | fetch a rs hp he hw' | access q rs it l k hp he hw' => simp [hw] at hw'

/-- In a wait no cycle begins but an acknowledge. -/
theorem Turn.inWait {s v t : State} (h : Turn s v t) (hc : inCycle s.busState = false) (hp : s.ackPhase = .none)
    (hpe : v.pendingOps = []) (hr : v.restart = false) (he : v.entrySteps = []) (hw : v.testWait = true)
    (ht : t.ackPhase = .none) : inCycle t.busState = false := by
  cases h with
  | t1 i k hb | t2 i k hb => simp [hb, inCycle] at hc
  | wait i k hb | fin i k hb | ack1 i hb | ack2 i hb => rcases hb with hb | hb <;> simp [hb, inCycle] at hc
  | ackGo i hb hp' | ackGap i n hb hp' => simp [hp] at hp'
  | startAck => simp at ht
  | start i u k hb hp' ho hn hs hk hka =>
    have := (nextOp_starts hn).inWait hpe hr he hw
    exact absurd (Option.some.inj (hk.symm.trans this)) hka
  | release | hold | give | rest | startIdle | startLane => rfl

/-- Settles O48: TEST# is looked at first; then only an interrupt ends a wait, and only the core's request starts one. -/
theorem testWait : Obligations.TestWait := by
  refine ⟨fun s rest hat hp => ?_, fun s hb ht => step_noWait hb ht, fun s t hi h ht hs hw he => ?_⟩
  · exact ⟨_, step_atRequest hat hp, rfl, by simp, by rw [enter_program _ (by decide)]; rfl⟩
  have hturn := (step_out hi h ht hs).2.2
  have hlook := (looked s).testWait
  have hgoes : s.now.testN = true → t.raised = s.raised → (poll (sampleTest s)).testWait = true ∧
      (poll (sampleTest s)).entrySteps = [] ∧ (poll (sampleTest s)).raised = s.raised := fun hn heq => by
    rcases (looked s).raised with ⟨hr, -⟩ | ⟨hsv, -, hr⟩
    · obtain ⟨hl, -, hle⟩ := hlook.resolve_right fun h => h.2.1 hr
      exact ⟨by simp [hl, hw, hn], hle.trans he, hr⟩
    · simp [step_raised_noAck hi h ht hs hsv.noAck, hr] at heq
  refine ⟨fun hn hq hq' => ?_, fun hn heq => ?_, fun hn heq hp ha htp hpe hr hc => ?_⟩
  · have hoff : (poll (sampleTest s)).testWait = false ∧ (poll (sampleTest s)).entrySteps.head? ≠ some .returned := by
      rcases hlook with ⟨hl, -, hle⟩ | ⟨hl, -, hle⟩
      · exact ⟨by simp [hl, hn], by simp [hle, he]⟩
      · exact ⟨hl, hle ▸ entryOwed_head s _⟩
    rcases hturn.testWait with heq | ⟨heq, -⟩ | ⟨-, w, hrest, heq⟩
    · exact heq.trans hoff.1
    · exact heq
    · exact (heq.trans (hrest.noWait hoff.2 (by simpa using hq) (by simpa using hq'))).trans hoff.1
  · obtain ⟨hon, hent, hvr⟩ := hgoes hn heq
    rcases hturn.testWait with heq' | ⟨-, -, hr⟩ | ⟨-, w, hrest, heq'⟩
    · exact heq'.trans hon
    · simp [heq, hvr] at hr
    · rw [heq', hrest.inWait hent hon, hon]
  · obtain ⟨hon, hent, -⟩ := hgoes hn heq
    exact hturn.inWait hc hp (by simpa using hpe) (by simpa using hr) hent hon htp

end Sys2Proof.Machine
